-- ==== Sys2Proof/Word.lean ====
section
/-!
DEFINITION. The words of the block: the 64-bit datum that crosses the command port and fills one memory cell
(30_encoding.md R80, 20_memory.md R61), and the same 64 bits read as binary64 (00_scope.md R15).
-/

namespace Sys2Proof

/-- One 64-bit datum: `WDATA`, `RDATA`, an argument register, one memory cell. -/
abbrev Word := BitVec 64

/-- The 64 bits of an IEEE 754 binary64 value (`bits(v)` of R14); `fromBits` is the identity on them. -/
abbrev F64 := BitVec 64

end Sys2Proof
end

