-- ==== Sys2Proof/Syntax.lean ====
section
/-!
DEFINITION. The commands of the block (30_encoding.md R85), one constructor per row of spec/opcode_table.json, and
the closed sets of names the rules use: units, filter kinds, timing registers, fault codes.
A constructor holds the field its format leaves free (`U`, four bits, or `IMM`, sixteen bits: R82) and, where the
command reads it, the data word `WDATA` (R83).
-/

namespace Sys2Proof

/-- The four resonator and envelope pairs in index order 0..3 (00_scope.md R4). -/
inductive ToneUnit where
  | leader | sync | mark | space
deriving DecidableEq, Repr

/-- The filter kinds of `FIR.DESIGN`, in the order of their numbers 0..3 (30_encoding.md R88). -/
inductive FilterKind where
  | lowPass | highPass | bandPass | bandStop
deriving DecidableEq, Repr

/-- The registers `SYNC.TIMING` selects, in the order of their numbers 0..3 (30_encoding.md R88). -/
inductive TimingReg where
  | lMin | lValid | start | bit
deriving DecidableEq, Repr

/-- The ten faults of 60_exceptions.md R265. A fault is an answer of the block, not a stop of the machine. -/
inductive FaultCode where
  | illegalCommand
  | badUnit
  | badIndex
  | obOverflow
  | notConfigured
  | badLength
  | nonFinite
  | invalidSpec
  | invalidOrder
  | badConfig
deriving DecidableEq, Repr

/-- What the host sends for one command (30_encoding.md R80). -/
structure Transaction where
  cw    : BitVec 32
  wdata : Word
deriving DecidableEq, Repr

/-- The 24 commands (30_encoding.md R85). -/
inductive Instr where
  | argSet (imm : BitVec 16) (v : Word)
  | obClear
  | obPush (v : Word)
  | obRead (imm : BitVec 16)
  | regRead (imm : BitVec 16)
  | firDesign (imm : BitVec 16) (tapCount : Word)
  | iirDesign (imm : BitVec 16)
  | firCreate
  | firProc (x : F64)
  | resSetfreq (u : BitVec 4)
  | resProc (u : BitVec 4) (x : F64)
  | bqLoad (u : BitVec 4)
  | bqProc (u : BitVec 4) (x : F64)
  | agcConfig (window : Word)
  | agcTrack (x : F64)
  | agcUpdate
  | agcApply (x : F64)
  | syncPreset (imm : BitVec 16)
  | syncTiming (imm : BitVec 16) (ticks : Word)
  | syncStep
  | syncReset
  | pipeSampleI16 (imm : BitVec 16)
  | pipeSampleF64 (x : F64)
  | pipeReset
deriving DecidableEq, Repr

end Sys2Proof
end

