-- ==== Sys2Proof/Decode.lean ====
section
/-!
DEFINITION. The decoder, total on any transaction, steps (1) to (3) of 30_encoding.md R91, and after it the encoder,
written from the same table (R85) and formats (R81, R82). Steps (4) and (5), the unit and the immediate, are the first
checks of each meaning (Sys2Proof/Machine/Operands.lean).
-/

namespace Sys2Proof

/-- `OP = CW[7:0]` (R81). -/
def fieldOp (cw : BitVec 32) : BitVec 8 := cw.extractLsb' 0 8
/-- `U = CW[11:8]` (R81). -/
def fieldU (cw : BitVec 32) : BitVec 4 := cw.extractLsb' 8 4
/-- `RSV = CW[15:12]` (R81). -/
def fieldRsv (cw : BitVec 32) : BitVec 4 := cw.extractLsb' 12 4
/-- `IMM = CW[31:16]` (R81). -/
def fieldImm (cw : BitVec 32) : BitVec 16 := cw.extractLsb' 16 16

/-- Format N (R82): `U` and `IMM` must be zero. -/
def formatN (u : BitVec 4) (imm : BitVec 16) (i : Instr) : Except FaultCode Instr :=
  if u = 0#4 ∧ imm = 0#16 then .ok i else .error .illegalCommand

/-- Format U (R82): `IMM` must be zero. -/
def formatU (imm : BitVec 16) (i : Instr) : Except FaultCode Instr :=
  if imm = 0#16 then .ok i else .error .illegalCommand

/-- Format I (R82): `U` must be zero. -/
def formatI (u : BitVec 4) (i : Instr) : Except FaultCode Instr :=
  if u = 0#4 then .ok i else .error .illegalCommand

/-- R91 (2) and (3): the opcode map of R85 with each row's must-be-zero fields; every other opcode is reserved (R86). -/
def decodeFields (op : BitVec 8) (u : BitVec 4) (imm : BitVec 16) (wdata : Word) : Except FaultCode Instr :=
  match op with
  | 0x01#8 => formatI u (.argSet imm wdata)
  | 0x02#8 => formatN u imm .obClear
  | 0x03#8 => formatN u imm (.obPush wdata)
  | 0x04#8 => formatI u (.obRead imm)
  | 0x05#8 => formatI u (.regRead imm)
  | 0x10#8 => formatI u (.firDesign imm wdata)
  | 0x11#8 => formatI u (.iirDesign imm)
  | 0x20#8 => formatN u imm .firCreate
  | 0x21#8 => formatN u imm (.firProc wdata)
  | 0x30#8 => formatU imm (.resSetfreq u)
  | 0x31#8 => formatU imm (.resProc u wdata)
  | 0x40#8 => formatU imm (.bqLoad u)
  | 0x41#8 => formatU imm (.bqProc u wdata)
  | 0x50#8 => formatN u imm (.agcConfig wdata)
  | 0x51#8 => formatN u imm (.agcTrack wdata)
  | 0x52#8 => formatN u imm .agcUpdate
  | 0x53#8 => formatN u imm (.agcApply wdata)
  | 0x60#8 => formatI u (.syncPreset imm)
  | 0x61#8 => formatI u (.syncTiming imm wdata)
  | 0x62#8 => formatN u imm .syncStep
  | 0x63#8 => formatN u imm .syncReset
  | 0x70#8 => formatI u (.pipeSampleI16 imm)
  | 0x71#8 => formatN u imm (.pipeSampleF64 wdata)
  | 0x7F#8 => formatN u imm .pipeReset
  | _ => .error .illegalCommand

/-- The decoder (R91): a non-zero `RSV` is `IllegalCommand` before anything else is looked at. -/
def decode (t : Transaction) : Except FaultCode Instr :=
  if fieldRsv t.cw = 0#4 then decodeFields (fieldOp t.cw) (fieldU t.cw) (fieldImm t.cw) t.wdata
  else .error .illegalCommand

/-- A command word from its fields, `CW = OP | U << 8 | RSV << 12 | IMM << 16` (R81). -/
def packCw (op : BitVec 8) (u : BitVec 4) (imm : BitVec 16) : BitVec 32 :=
  imm ++ (0#4 ++ (u ++ op))

/-- The words of a command (R81 to R85); `WDATA` is 0 where the command ignores it (R83). -/
def encode : Instr → Transaction
  | .argSet imm v => ⟨packCw 0x01#8 0 imm, v⟩
  | .obClear => ⟨packCw 0x02#8 0 0, 0⟩
  | .obPush v => ⟨packCw 0x03#8 0 0, v⟩
  | .obRead imm => ⟨packCw 0x04#8 0 imm, 0⟩
  | .regRead imm => ⟨packCw 0x05#8 0 imm, 0⟩
  | .firDesign imm tapCount => ⟨packCw 0x10#8 0 imm, tapCount⟩
  | .iirDesign imm => ⟨packCw 0x11#8 0 imm, 0⟩
  | .firCreate => ⟨packCw 0x20#8 0 0, 0⟩
  | .firProc x => ⟨packCw 0x21#8 0 0, x⟩
  | .resSetfreq u => ⟨packCw 0x30#8 u 0, 0⟩
  | .resProc u x => ⟨packCw 0x31#8 u 0, x⟩
  | .bqLoad u => ⟨packCw 0x40#8 u 0, 0⟩
  | .bqProc u x => ⟨packCw 0x41#8 u 0, x⟩
  | .agcConfig window => ⟨packCw 0x50#8 0 0, window⟩
  | .agcTrack x => ⟨packCw 0x51#8 0 0, x⟩
  | .agcUpdate => ⟨packCw 0x52#8 0 0, 0⟩
  | .agcApply x => ⟨packCw 0x53#8 0 0, x⟩
  | .syncPreset imm => ⟨packCw 0x60#8 0 imm, 0⟩
  | .syncTiming imm ticks => ⟨packCw 0x61#8 0 imm, ticks⟩
  | .syncStep => ⟨packCw 0x62#8 0 0, 0⟩
  | .syncReset => ⟨packCw 0x63#8 0 0, 0⟩
  | .pipeSampleI16 imm => ⟨packCw 0x70#8 0 imm, 0⟩
  | .pipeSampleF64 x => ⟨packCw 0x71#8 0 0, x⟩
  | .pipeReset => ⟨packCw 0x7F#8 0 0, 0⟩

/-- The transaction whose bits are the low `nbits` bits of `w`, numbered as spec/opcode_table.json numbers them: `CW`
is bits 31..0 and `WDATA` bits 95..32 (R87); every bit from `nbits` up is 0. -/
def transactionOfBits (nbits w : Nat) : Transaction :=
  ⟨BitVec.ofNat 32 (w % 2 ^ nbits), BitVec.ofNat 64 (w % 2 ^ nbits / 2 ^ 32)⟩

/-- What the decoder reads from the instruction whose bits are `w`. -/
def decodeTableWord (nbits w : Nat) : Option Instr :=
  (decode (transactionOfBits nbits w)).toOption

end Sys2Proof
end

