-- ==== Sys2Proof/Config.lean ====
section
/-!
DEFINITION. What an implementation fixes: the parameters of 00_scope.md R11 that a block may choose (`Params`, the
model's argument, and their defaults), the numeric literals of the rules, and the OPEN parameters as constants without a
body (`Numerics`, `PRESET`, the value of a Bessel series that never meets its stopping test).
-/

namespace Sys2Proof.Config

/-- The parameters of R11 whose value the rule leaves to the block, under the rule's names: `L_MAX`, `ORDER_MAX`,
`OB_MAX`, `FULL_SCALE`, `AGC_GAIN_INIT`. `NSEC_MAX` and `CLIP_LEVEL` are computed from them; `NUM_RES`, `FLUSH_EPS` and
`I0_EPS` have one legal value; `PRESET` and `Numerics` are open (below). The constraints are `Safety.ParamsOk` (log 9). -/
structure Params where
  lMax        : Nat
  orderMax    : Nat
  obMax       : Nat
  fullScale   : F64
  agcGainInit : F64
deriving DecidableEq, Repr

/-- The defaults of R11: 1024, 16, 1024, 32768.0, 1.0. -/
def defaults : Params := ⟨1024, 16, 1024, 0x40E0000000000000#64, 0x3FF0000000000000#64⟩

/-- `FLUSH_EPS`, the binary64 nearest 1e-37 (R11, 92_eei_decisions.md D13). -/
def flushEps : F64 := 0x3841039D428A8B8F#64
/-- `I0_EPS`, the binary64 nearest 1e-8 (R11). -/
def i0Eps : F64 := 0x3E45798EE2308C3A#64
/-- `PI`, the binary64 nearest pi (R16 c). -/
def pi : F64 := 0x400921FB54442D18#64
/-- 0.75, the part of `FULL_SCALE` that `CLIP_LEVEL` is (R11). -/
def threeQuarters : F64 := 0x3FE8000000000000#64

/-- The literals of the rules, each the binary64 nearest the decimal the rule writes. -/
def one : F64 := 0x3FF0000000000000#64
/-- 2.0 -/
def two : F64 := 0x4000000000000000#64
/-- 6.0 (41_tone_resonator.md R141) -/
def six : F64 := 0x4018000000000000#64
/-- 10.0 (40_filter_designer.md R130) -/
def ten : F64 := 0x4024000000000000#64
/-- 21.0 (40_filter_designer.md R114) -/
def kaiser21 : F64 := 0x4035000000000000#64
/-- 50.0 (40_filter_designer.md R114) -/
def kaiser50 : F64 := 0x4049000000000000#64
/-- 0.5842 (40_filter_designer.md R114) -/
def kaiserPowScale : F64 := 0x3FE2B1C432CA57A8#64
/-- 0.4 (40_filter_designer.md R114) -/
def kaiserPowExp : F64 := 0x3FD999999999999A#64
/-- 0.07886 (40_filter_designer.md R114) -/
def kaiserMidScale : F64 := 0x3FB4302B40F66A55#64
/-- 0.1102 (40_filter_designer.md R114) -/
def kaiserHighScale : F64 := 0x3FBC36113404EA4B#64
/-- 8.7 (40_filter_designer.md R114) -/
def kaiserHighOffset : F64 := 0x4021666666666666#64

/-- The elementary functions of R16: each depends on its operands alone (R16 a). -/
structure Numerics where
  sin   : F64 → F64
  cos   : F64 → F64
  tan   : F64 → F64
  exp   : F64 → F64
  sqrt  : F64 → F64
  pow   : F64 → F64 → F64
  sinh  : F64 → F64
  cosh  : F64 → F64
  asinh : F64 → F64
deriving Inhabited

/-- `Numerics` is OPEN (92_eei_decisions.md D11): the functions of one implementation, before the properties R16 lets
a model assume are imposed (Sys2Proof/Machine/Numerics.lean). A free value: no body. -/
opaque numericsRaw : Numerics

/-- `PRESET` is OPEN (92_eei_decisions.md D39): preset p, threshold c, before the order of R201 is imposed
(Sys2Proof/Machine/Numerics.lean). A free value: no body. -/
opaque presetRaw : Nat → Nat → F64

/-- What the Bessel series of 40_filter_designer.md R115 gives for an operand on which its loop never stops on the
machine: R115 states no value there. A free value: no body. -/
opaque besselOpen : F64 → F64

end Sys2Proof.Config
end

