-- ==== Sys2Proof/Machine/Float.lean ====
section
/-!
DEFINITION. IEEE 754 binary64 arithmetic, round to nearest, ties to even, every operation rounded on its own
(00_scope.md R15; PRESUMED as the spec's own K1, log 12). A finite value is a whole number of units of 2^-1074, so an
operation is the exact rational result in units, rounded once.
-/

namespace Sys2Proof.Machine

/-- The 63 magnitude bits of infinity; a magnitude below it is finite, one above it is a NaN. -/
def infMag : Nat := 0x7FF0000000000000

/-- The units of 2^-1074 in 1.0. -/
def unitsPerOne : Nat := 2 ^ 1074

/-- The sign bit. -/
def fSign (x : F64) : Bool := decide (2 ^ 63 ≤ x.toNat)

/-- The 63 bits below the sign; they order the magnitudes. -/
def fMag (x : F64) : Nat := x.toNat % 2 ^ 63

def fIsFinite (x : F64) : Bool := decide (fMag x < infMag)
def fIsNaN (x : F64) : Bool := decide (infMag < fMag x)
def fIsInf (x : F64) : Bool := decide (fMag x = infMag)

/-- The value, in units of 2^-1074, of a finite magnitude: exponent field 0 counts units, exponent field e > 0 counts
2^(e-1) units with the implicit leading bit. -/
def magUnits (m : Nat) : Nat :=
  if m < 2 ^ 52 then m else (2 ^ 52 + m % 2 ^ 52) * 2 ^ (m / 2 ^ 52 - 1)

/-- The magnitude of a finite value in units of 2^-1074. -/
def fUnits (x : F64) : Nat := magUnits (fMag x)

/-- A finite value, exactly, in units of 2^-1074. -/
def fInt (x : F64) : Int := if fSign x then -(fUnits x : Int) else (fUnits x : Int)

/-- The exponent a magnitude of `q` whole units rounds at: the binary place of its last significand bit. -/
def roundShift (q : Nat) : Nat := Nat.log2 q - 52

/-- `num / den` to the nearest whole number, ties to even. -/
def divNearest (num den : Nat) : Nat :=
  num / den + (if den < 2 * (num % den) ∨ (2 * (num % den) = den ∧ num / den % 2 = 1) then 1 else 0)

/-- The magnitude bits of `num / den` units rounded to 53 significant bits, nearest even, exponents unbounded above. A
carry out of the significand moves into the exponent field by itself. -/
def roundMag (num den : Nat) : Nat :=
  roundShift (num / den) * 2 ^ 52 + divNearest num (den * 2 ^ roundShift (num / den))

/-- A value from its sign and its rounded magnitude; a magnitude past the largest finite one is infinity. -/
def fPack (neg : Bool) (m : Nat) : F64 :=
  BitVec.ofNat 64 ((if neg then 2 ^ 63 else 0) + min m infMag)

/-- The NaN an invalid operation gives (PRESUMED, never observable: log 13). -/
def fNaN : F64 := 0x7FF8000000000000#64

/-- Negation flips the sign bit. -/
def fNeg (x : F64) : F64 := BitVec.ofNat 64 ((if fSign x then 0 else 2 ^ 63) + fMag x)

/-- R15: `|v|` clears the sign bit. -/
def fAbs (x : F64) : F64 := BitVec.ofNat 64 (fMag x)

def fAdd (x y : F64) : F64 :=
  if fIsNaN x ∨ fIsNaN y then fNaN
  else if fIsInf x then (if fIsInf y ∧ fSign x ≠ fSign y then fNaN else x)
  else if fIsInf y then y
  else if fInt x + fInt y = 0 then fPack (fSign x && fSign y) 0
  else fPack (decide (fInt x + fInt y < 0)) (roundMag (fInt x + fInt y).natAbs 1)

def fSub (x y : F64) : F64 := fAdd x (fNeg y)

def fMul (x y : F64) : F64 :=
  if fIsNaN x ∨ fIsNaN y then fNaN
  else if fIsInf x ∨ fIsInf y then
    (if fMag x = 0 ∨ fMag y = 0 then fNaN else fPack (fSign x != fSign y) infMag)
  else fPack (fSign x != fSign y) (roundMag (fUnits x * fUnits y) unitsPerOne)

def fDiv (x y : F64) : F64 :=
  if fIsNaN x ∨ fIsNaN y then fNaN
  else if fIsInf x then (if fIsInf y then fNaN else fPack (fSign x != fSign y) infMag)
  else if fIsInf y then fPack (fSign x != fSign y) 0
  else if fMag y = 0 then (if fMag x = 0 then fNaN else fPack (fSign x != fSign y) infMag)
  else fPack (fSign x != fSign y) (roundMag (fUnits x * unitsPerOne) (fUnits y))

/-- The order of the values that are not NaN; both zeros are 0. -/
def fKey (x : F64) : Int := if fSign x then -(fMag x : Int) else (fMag x : Int)

/-- IEEE `<`; false where an operand is NaN. -/
def fLt (x y : F64) : Bool := !fIsNaN x && !fIsNaN y && decide (fKey x < fKey y)

/-- IEEE `<=`. -/
def fLe (x y : F64) : Bool := !fIsNaN x && !fIsNaN y && decide (fKey x ≤ fKey y)

/-- IEEE `==`; `-0.0 == 0.0` holds (R15). -/
def fEq (x y : F64) : Bool := !fIsNaN x && !fIsNaN y && decide (fKey x = fKey y)

/-- R15: `max(a, b)` on finite values returns the larger. -/
def fMax (x y : F64) : F64 := if fLt x y then y else x

/-- R15, R147: `flush(v)` is `+0.0` when `|v| < FLUSH_EPS` and `v` otherwise. -/
def fFlush (v : F64) : F64 := if fLt (fAbs v) Config.flushEps then 0#64 else v

/-- R14: `f64(i)` of a natural number. -/
def fOfNat (n : Nat) : F64 := fPack false (roundMag (n * unitsPerOne) 1)

/-- R14: `f64(i)` of an integer. -/
def fOfInt (i : Int) : F64 := fPack (decide (i < 0)) (roundMag (i.natAbs * unitsPerOne) 1)

end Sys2Proof.Machine
end

