-- ==== Sys2Proof/Machine/Numerics.lean ====
section
/-!
DEFINITION. The elementary functions and the presets the machine uses: the OPEN constants of Sys2Proof/Config.lean with
the properties 00_scope.md R16 and 45_sync_decoder.md R201 give them imposed. Every function record and every preset
table that has the properties is an instance; nothing else is known of them.
-/

namespace Sys2Proof.Machine

/-- A value with a property, or the given value that has it. -/
def withProperty (p : F64 → Bool) (d v : F64) : F64 := if p v then v else d

/-! ## Reference values of sine, cosine and exponential

Their power series in fixed point, so that the accuracy of 41_tone_resonator.md R145 can be asked of a record (log 7). -/

/-- 1 in the fixed point of the references, whose unit is 2^-128. -/
def refOne : Int := 2 ^ 128

/-- The units of 2^-1074 in one unit of the references. -/
def refUnit : Nat := 2 ^ 946

/-- `n` terms of a power series from term `k` on: `t` is `x^k/k!`, `c k` the coefficient of that term. -/
def powerSeries (c : Nat → Int) (x : Int) : Nat → Nat → Int → Int
  | 0, _, _ => 0
  | n + 1, k, t => c k * t + powerSeries c x n (k + 1) (t * x / (refOne * (k + 1)))

/-- The first 128 terms at a finite value, kept within -1 and 1. -/
def reference (c : Nat → Int) (x : F64) : Int :=
  max (-refOne) (min refOne (powerSeries c (fInt x / refUnit) 128 0 refOne))

/-- The coefficients of the sine series: 0, 1, 0, -1, and again. -/
def sineCoefficient (k : Nat) : Int := if k % 4 = 1 then 1 else if k % 4 = 3 then -1 else 0

/-- The coefficients of the cosine series: 1, 0, -1, 0, and again. -/
def cosineCoefficient (k : Nat) : Int := if k % 4 = 0 then 1 else if k % 4 = 2 then -1 else 0

def sineRef (x : F64) : Int := reference sineCoefficient x
def cosineRef (x : F64) : Int := reference cosineCoefficient x
def expRef (x : F64) : Int := reference (fun _ => 1) x

/-- The binary64 value nearest to a reference value. -/
def ofReference (r : Int) : F64 := fPack (decide (r < 0)) (roundMag (r.natAbs * refUnit) 1)

/-- Within the accuracy of R145, 1e-9 relative, of a value in units of 2^-1074. -/
def isNear (v : F64) (r : Int) : Bool := decide ((fInt v - r).natAbs * 10 ^ 9 ≤ r.natAbs)

/-- Magnitude at least 2^-10: there the rounding of the operand moves the value by less than 1e-11 of it (log 7). -/
def isSteady (r : Int) : Bool := decide (refOne ≤ r * 2 ^ 10 ∨ r * 2 ^ 10 ≤ -refOne)

/-- Magnitude between two values. -/
def isMagBetween (a b x : F64) : Bool := decide (fMag a ≤ fMag x ∧ fMag x ≤ fMag b)

/-- 1 + 2^-20: no sine, cosine or decaying exponential that meets R145 is larger (DEDUCED, log 7). -/
def unitBound : F64 := 0x3FF0000100000000#64

/-- Magnitude at most `unitBound`, hence finite. -/
def isUnitBounded (v : F64) : Bool := decide (fMag v ≤ fMag unitBound)

/-! ## What is known of each function (00_scope.md R16; logs 6 and 7) -/

/-- Of the sine of a finite operand: bounded; a zero at a zero; near its reference where the operand is at least 2^-60 and
at most 6.25 and the sine is steady there. -/
def isSineOf (x v : F64) : Bool :=
  isUnitBounded v && (decide (fMag x ≠ 0) || decide (fMag v = 0)) &&
    (!(isMagBetween 0x3C30000000000000#64 Config.one x ||
        (isMagBetween Config.one 0x4019000000000000#64 x && isSteady (sineRef x))) ||
      isNear v (sineRef x * refUnit))

/-- Of the cosine of a finite operand: bounded; near its reference up to 6.25 where the cosine is steady. -/
def isCosineOf (x v : F64) : Bool :=
  isUnitBounded v &&
    (!(isMagBetween 0#64 0x4019000000000000#64 x && isSteady (cosineRef x)) || isNear v (cosineRef x * refUnit))

/-- Of the exponential of a finite operand not above 0: bounded; 1 at a zero (R141: `b2 = -1` for a zero bandwidth); near
its reference down to -16. -/
def isExpOf (x v : F64) : Bool :=
  isUnitBounded v && (decide (fMag x ≠ 0) || decide (v = Config.one)) &&
    (!isMagBetween 0#64 0x4030000000000000#64 x || isNear v (expRef x * refUnit))

/-- Of the square root of a finite operand not below 0: finite; a zero at a zero, 1 at 1 (40_filter_designer.md R116). -/
def isRootOf (x v : F64) : Bool :=
  fIsFinite v && (decide (fMag x ≠ 0) || decide (fMag v = 0)) && (decide (x ≠ Config.one) || decide (v = Config.one))

/-- The powers the rules ask for: `(A - 21)^0.4` of 40_filter_designer.md R114 and `10^(r/10)` of R130. -/
def isRulePower (x y : F64) : Bool :=
  fIsFinite x && fIsFinite y && fLe 0#64 x && fLe 0#64 y &&
    (decide (y = Config.kaiserPowExp) || decide (x = Config.ten))

/-- Of such a power: finite; a zero of a zero base (R114: the value at `A = 21` is 0). -/
def isPowerOf (x v : F64) : Bool := fIsFinite v && (decide (fMag x ≠ 0) || decide (fMag v = 0))

/-- R16 (b) and (d) imposed on the finite operands the rules feed each function, and the values the rules state; elsewhere
the function is unconstrained (logs 6 and 7). -/
def constrainNumerics (nm : Config.Numerics) : Config.Numerics where
  sin x := if fIsFinite x then withProperty (isSineOf x) (ofReference (sineRef x)) (nm.sin x) else nm.sin x
  cos x := if fIsFinite x then withProperty (isCosineOf x) (ofReference (cosineRef x)) (nm.cos x) else nm.cos x
  tan x := if fIsFinite x then withProperty fIsFinite 0#64 (nm.tan x) else nm.tan x
  exp x := if fIsFinite x && fLe x 0#64 then withProperty (isExpOf x) (ofReference (expRef x)) (nm.exp x) else nm.exp x
  sqrt x := if fIsFinite x && fLe 0#64 x then withProperty (isRootOf x) x (nm.sqrt x) else nm.sqrt x
  pow x y := if isRulePower x y then withProperty (isPowerOf x) 0#64 (nm.pow x y) else nm.pow x y
  sinh x := if fIsFinite x then withProperty fIsFinite 0#64 (nm.sinh x) else nm.sinh x
  cosh x := if fIsFinite x then withProperty fIsFinite 0#64 (nm.cosh x) else nm.cosh x
  asinh x := if fIsFinite x then withProperty fIsFinite 0#64 (nm.asinh x) else nm.asinh x

/-- The elementary functions of this block (R16). -/
def numerics : Config.Numerics := constrainNumerics Config.numericsRaw

/-! ## The presets -/

/-- Finite and `>= 0`. -/
def isFiniteNonneg (v : F64) : Bool := fIsFinite v && fLe 0#64 v

/-- Component c of `PRESET[p]` from a raw table: finite, `>= 0`, non-decreasing in p (R201). -/
def presetComponent (raw : Nat → Nat → F64) : Nat → Nat → F64
  | 0, c => withProperty isFiniteNonneg 0#64 (raw 0 c)
  | p + 1, c =>
    withProperty (fun v => isFiniteNonneg v && fLe (presetComponent raw p c) v) (presetComponent raw p c)
      (raw (p + 1) c)

/-- `PRESET[p]` of this block, component 0 `s_lvl`, 1 `s_lvl2`, 2 `s_lvl3` (R201). -/
def preset (p c : Nat) : F64 := presetComponent Config.presetRaw p c

end Sys2Proof.Machine
end

