-- ==== Sys2Proof/Machine/State.lean ====
section
/-!
DEFINITION. The state of the machine as plain data (10_state.md R20 to R38), the command port beside it
(30_encoding.md R80), the reasons a step can stop, and the machine right after reset (10_state.md R49).
-/

namespace Sys2Proof.Machine

/-- Why the machine stops. NO constructor: nothing stops this machine. Every command on every state has an answer
(70_reset_and_hazards.md R304), and a fault of the hardware is an answer, a next state (60_exceptions.md R270). Safe. -/
inductive Fault where
deriving DecidableEq, Repr

/-- Why the model has no meaning for a command. -/
inductive Refusal where
  /-- Raised by an arm of `exec` whose command has no meaning yet; no arm does so now. Safe: a run stops there. -/
  | notModelled (mnemonic : String)
deriving DecidableEq, Repr

/-- One address space (20_memory.md R60): its cells by index, 64 bits each (R61), in one canonical form (indices
strictly rising, no cell equal to what an unlisted one reads as). -/
abbrev Memory := List (Nat × Word)

/-- One value for each of the four units (00_scope.md R4). -/
structure Quad (α : Type) where
  leader : α
  sync   : α
  mark   : α
  space  : α
deriving DecidableEq, Repr

/-- CircularFIRState (10_state.md R25, R26). `l = 0` means no TapSet is bound. -/
structure Fir where
  tap  : Memory
  l    : Nat
  ring : Memory
  w    : Nat
deriving DecidableEq, Repr

/-- ResonatorState and its flag `res_tuned` (10_state.md R27). -/
structure Resonator where
  centerFreq : F64
  bandwidth  : F64
  a0 : F64
  b1 : F64
  b2 : F64
  z1 : F64
  z2 : F64
  tuned : Bool
deriving DecidableEq, Repr

/-- One biquad cascade: order, coefficients, section state (10_state.md R28). `order = 0` means not loaded. -/
structure Biquad where
  order : Nat
  coef  : Memory
  z     : Memory
deriving DecidableEq, Repr

/-- AGCState and its flag `agc_cfg` (10_state.md R29). -/
structure Agc where
  targetLevel   : F64
  windowSamples : BitVec 32
  threshold     : F64
  sampleCounter : BitVec 32
  currentPeak   : F64
  peakHistory   : F64
  gain          : F64
  cfg           : Bool
deriving DecidableEq, Repr

/-- The state tag (10_state.md R33). -/
inductive SyncTag where
  | idle | leaderDetect | startBitValidate | visDecoding | dataWait
deriving DecidableEq, Repr

/-- VisAccumulator (10_state.md R35). -/
structure VisAcc where
  bitsReceived : BitVec 4
  dataByte     : BitVec 8
  leaderEnergy : F64
  markEnergy   : F64
  spaceEnergy  : F64
  syncEnergy   : F64
deriving DecidableEq, Repr

/-- SyncDecoder: sensitivity (10_state.md R31), timing (R32), tag (R33), counters (R34), accumulator (R35), outputs (R36). -/
structure Sync where
  sense    : BitVec 2
  senseSet : Bool
  sLvl     : F64
  sLvl2    : F64
  sLvl3    : F64
  tLMin    : BitVec 32
  tLValid  : BitVec 32
  tStart   : BitVec 32
  tBit     : BitVec 32
  tag      : SyncTag
  leadCnt  : BitVec 32
  timer    : BitVec 32
  acc      : VisAcc
  visByte  : BitVec 8
  visValid : Bool
deriving DecidableEq, Repr

/-- The diagnostic registers `TAP0..TAP2` and `ENV[0..3]` (10_state.md R38). -/
structure Diag where
  tap0 : F64
  tap1 : F64
  tap2 : F64
  env  : Quad F64
deriving DecidableEq, Repr

/-- The whole state of one block (10_state.md R20), and beside it `params`, the parameters of 00_scope.md R11 this block
was built with: no state (10_state.md R21) but the argument R11 gives the model, carried here so that every command
reads it; no command changes it (log 9). -/
structure Block where
  params : Config.Params
  arg    : Vector Word 8
  ob     : Memory
  obLen  : Nat
  fir    : Fir
  res    : Quad Resonator
  bq     : Quad Biquad
  agc    : Agc
  sync   : Sync
  ovf    : Bool
  diag   : Diag
deriving DecidableEq, Repr

/-- The machine: the block and its command port. `pending` is the model's own field: the commands the host has still
to issue, the first one next (46_pipeline_and_host.md R251; DESIGN CHOICE, log 1). `status` and `rdata` are the last
answer (30_encoding.md R80). -/
structure State where
  block   : Block
  pending : List Transaction
  status  : BitVec 8
  rdata   : Word
deriving DecidableEq, Repr

/-- A cleared accumulator (10_state.md R35). -/
def VisAcc.cleared : VisAcc := ⟨0#4, 0#8, 0#64, 0#64, 0#64, 0#64⟩

/-- A resonator after reset (10_state.md R27, R49). -/
def Resonator.reset : Resonator := ⟨0#64, 0#64, 0#64, 0#64, 0#64, 0#64, 0#64, false⟩

/-- A cascade after reset (10_state.md R28, R49). -/
def Biquad.reset : Biquad := ⟨0, [], []⟩

/-- The AGC after reset; its gain is `AGC_GAIN_INIT` (10_state.md R29, R49). -/
def Agc.reset (gain : F64) : Agc := ⟨0#64, 0#32, 0#64, 0#32, 0#64, 0#64, gain, false⟩

/-- The SyncDecoder after reset (10_state.md R31 to R36, R49). -/
def Sync.reset : Sync :=
  ⟨0#2, false, 0#64, 0#64, 0#64, 0#32, 0#32, 0#32, 0#32, .idle, 0#32, 0#32, VisAcc.cleared, 0#8, false⟩

/-- A block with the given parameters after power-on and after `PIPE.RESET` (10_state.md R49; 70_reset_and_hazards.md
R290). -/
def Block.resetWith (p : Config.Params) : Block where
  params := p
  arg    := Vector.replicate 8 0#64
  ob     := []
  obLen  := 0
  fir    := ⟨[], 0, [], 0⟩
  res    := ⟨Resonator.reset, Resonator.reset, Resonator.reset, Resonator.reset⟩
  bq     := ⟨Biquad.reset, Biquad.reset, Biquad.reset, Biquad.reset⟩
  agc    := Agc.reset p.agcGainInit
  sync   := Sync.reset
  ovf    := false
  diag   := ⟨0#64, 0#64, 0#64, ⟨0#64, 0#64, 0#64, 0#64⟩⟩

/-- The block with the default parameters after reset. -/
def Block.reset : Block := Block.resetWith Config.defaults

/-- The machine with given parameters right after reset: the block of R49, no command issued, none answered (DESIGN CHOICE,
logs 1 and 2). -/
def State.resetWith (p : Config.Params) : State := ⟨Block.resetWith p, [], 0#8, 0#64⟩

/-- The machine right after reset, with the default parameters of 00_scope.md R11 (log 9). -/
def State.reset : State := State.resetWith Config.defaults

end Sys2Proof.Machine
end

