-- ==== Sys2Proof/Machine/Ops.lean ====
section
/-!
DEFINITION. The named operations: cells of an address space, the four units, the parts of the block, counters, and
the two ends of a command, the answer and the fault.
-/

namespace Sys2Proof.Machine

/-! ## Cells (20_memory.md R60, R61) -/

/-- What a cell that is not listed reads as. R49 gives the cells no value at reset and no command can read a cell
nothing has written (V14 of 93_implementation_defined.md): DESIGN CHOICE 0, log 4. -/
def Memory.unlisted : Word := 0#64

/-- The cell at an index. -/
def Memory.read : Memory → Nat → Word
  | [], _ => Memory.unlisted
  | (k, v) :: rest, i => if k = i then v else Memory.read rest i

/-- Puts a cell at its place in the rising order. -/
def Memory.place : Memory → Nat → Word → Memory
  | [], i, v => [(i, v)]
  | (k, w) :: rest, i, v => if i < k then (i, v) :: (k, w) :: rest else (k, w) :: Memory.place rest i v

/-- The memory without the cell at an index. -/
def Memory.erase (m : Memory) (i : Nat) : Memory := m.filter (fun c => decide (c.1 ≠ i))

/-- Writes a cell; writing what an unlisted cell reads as removes the entry. -/
def Memory.write (m : Memory) (i : Nat) (v : Word) : Memory :=
  if v = Memory.unlisted then m.erase i else (m.erase i).place i v

/-- Writes the words of a list from an index up. -/
def Memory.writeFrom (m : Memory) (i : Nat) : List Word → Memory
  | [] => m
  | v :: vs => (m.write i v).writeFrom (i + 1) vs

/-- The first `n` cells. -/
def Memory.cells (m : Memory) (n : Nat) : List Word := (List.range n).map m.read

/-- The canonical form: indices strictly rising, no entry equal to what an unlisted cell reads as. -/
def Memory.wf (m : Memory) : Bool :=
  decide (m.Pairwise (fun a b => a.1 < b.1)) && m.all (fun c => decide (c.2 ≠ Memory.unlisted))

/-! ## The four units (00_scope.md R4) -/

def Quad.get {α : Type} (q : Quad α) : ToneUnit → α
  | .leader => q.leader
  | .sync => q.sync
  | .mark => q.mark
  | .space => q.space

def Quad.set {α : Type} (q : Quad α) (u : ToneUnit) (v : α) : Quad α :=
  match u with
  | .leader => { q with leader := v }
  | .sync => { q with sync := v }
  | .mark => { q with mark := v }
  | .space => { q with space := v }

/-! ## The parts of the block -/

/-- `CLIP_LEVEL` = 0.75 * `FULL_SCALE` (00_scope.md R11; 46_pipeline_and_host.md R244). -/
def Block.clipLevel (b : Block) : F64 := fMul Config.threeQuarters b.params.fullScale

def Block.withArg (b : Block) (i : Fin 8) (v : Word) : Block := { b with arg := b.arg.set i v }
def Block.withOb (b : Block) (m : Memory) (n : Nat) : Block := { b with ob := m, obLen := n }
def Block.withFir (b : Block) (f : Fir) : Block := { b with fir := f }
def Block.withRes (b : Block) (u : ToneUnit) (r : Resonator) : Block := { b with res := b.res.set u r }
def Block.withBq (b : Block) (u : ToneUnit) (q : Biquad) : Block := { b with bq := b.bq.set u q }
def Block.withAgc (b : Block) (a : Agc) : Block := { b with agc := a }
def Block.withSync (b : Block) (y : Sync) : Block := { b with sync := y }
def Block.withOvf (b : Block) (o : Bool) : Block := { b with ovf := o }
def Block.withDiag (b : Block) (d : Diag) : Block := { b with diag := d }

/-! ## Counters (00_scope.md R13, 60_exceptions.md R285) -/

/-- `sat32(c + 1)`: a 32-bit counter saturates at 2^32 - 1. -/
def sat32Inc (c : BitVec 32) : BitVec 32 := if c = BitVec.allOnes 32 then c else c + 1#32

/-- A countdown never goes below zero (R285; 10_state.md R34). -/
def countdown (t : BitVec 32) : BitVec 32 := if t = 0#32 then t else t - 1#32

/-! ## The end of a command -/

/-- What a command does: a fault, or the block after it and its `RDATA`. -/
abbrev Result := Except FaultCode (Block × Word)

/-- The codes of 60_exceptions.md R265. -/
def statusCode : FaultCode → BitVec 8
  | .illegalCommand => 1
  | .badUnit => 2
  | .badIndex => 3
  | .obOverflow => 4
  | .notConfigured => 5
  | .badLength => 6
  | .nonFinite => 7
  | .invalidSpec => 8
  | .invalidOrder => 9
  | .badConfig => 10

/-- A command that was executed: the block it leaves, `STATUS = 0`, its `RDATA` (30_encoding.md R80); the transaction
is over, and the host's next command is the next one pending. -/
def State.answer (s : State) (b : Block) (r : Word) : State :=
  { block := b, pending := s.pending.tail, status := 0#8, rdata := r }

/-- TAKING A FAULT (60_exceptions.md R266, R270): `STATUS` is the code, `RDATA` is 0, the block keeps all its state, no
cause, address or mode is saved and nothing is redirected; the host's next command follows. There is no return from a
fault (R271): a fault saves nothing, so nothing is restored. -/
def State.takeFault (s : State) (f : FaultCode) : State :=
  { block := s.block, pending := s.pending.tail, status := statusCode f, rdata := 0#64 }

/-- Every command ends in one of the two (70_reset_and_hazards.md R304). -/
def State.complete (s : State) : Result → Host.Outcome State Fault Refusal
  | .ok (b, r) => .next (s.answer b r)
  | .error f => .next (s.takeFault f)

end Sys2Proof.Machine
end

