-- ==== Sys2Proof/Machine/Operands.lean ====
section
/-!
DEFINITION. Every operand form: the unit and the immediates with the checks of 30_encoding.md R88 and R91, the
argument registers, the operand buffer as binary64 values, the unsigned data word.
-/

namespace Sys2Proof.Machine

/-- R91 (4): the unit a `U` field names; 4..15 exist in no block (R86). -/
def unitOf (u : BitVec 4) : Option ToneUnit :=
  match u.toNat with
  | 0 => some .leader
  | 1 => some .sync
  | 2 => some .mark
  | 3 => some .space
  | _ => none

/-- R88, `ARG.SET`: `i = IMM[2:0]`, and `IMM[15:3]` must be 0. -/
def argIndexOf (imm : BitVec 16) : Option (Fin 8) :=
  if h : imm.toNat < 8 then some ⟨imm.toNat, h⟩ else none

/-- R88, `FIR.DESIGN`: `kind = IMM[1:0]`, and `IMM[15:2]` must be 0. -/
def filterKindOf (imm : BitVec 16) : Option FilterKind :=
  match imm.toNat with
  | 0 => some .lowPass
  | 1 => some .highPass
  | 2 => some .bandPass
  | 3 => some .bandStop
  | _ => none

/-- R88, `IIR.DESIGN`: `order = IMM[7:0]`, `cheb = IMM[8]`, and `IMM[15:9]` must be 0. -/
def iirFieldsOf (imm : BitVec 16) : Option (Nat × Bool) :=
  if imm.toNat < 512 then some (imm.toNat % 256, decide (256 ≤ imm.toNat)) else none

/-- R88, `SYNC.PRESET`: `p = IMM[1:0]`, and `IMM[15:2]` must be 0. -/
def presetIndexOf (imm : BitVec 16) : Option (BitVec 2) :=
  if imm.toNat < 4 then some (BitVec.ofNat 2 imm.toNat) else none

/-- R88, `SYNC.TIMING`: `sel = IMM[1:0]`, and `IMM[15:2]` must be 0. -/
def timingRegOf (imm : BitVec 16) : Option TimingReg :=
  match imm.toNat with
  | 0 => some .lMin
  | 1 => some .lValid
  | 2 => some .start
  | 3 => some .bit
  | _ => none

/-- R88, `PIPE.SAMPLE_I16`: `toInt16(IMM)` as binary64, exact. -/
def sampleOf (imm : BitVec 16) : F64 := fOfInt imm.toInt

/-- R23: argument register `i` (read as bits; `fromBits` is the identity). -/
def Block.argReg (b : Block) (i : Fin 8) : Word := b.arg[i]

/-- R24: the valid cells of the operand buffer, in index order. -/
def Block.obCells (b : Block) : List Word := b.ob.cells b.obLen

/-- R83: an unsigned data word that must be at least 1 and below 2^32. -/
def countOf (w : Word) : Option (BitVec 32) :=
  if 1 ≤ w.toNat ∧ w.toNat < 2 ^ 32 then some (BitVec.ofNat 32 w.toNat) else none

/-- R91 (4): the unit check of a format U command. -/
def withUnit (u : BitVec 4) (k : ToneUnit → Result) : Result :=
  match unitOf u with
  | some t => k t
  | none => .error .badUnit

/-- R91 (5): an immediate check. -/
def withImm {α : Type} (o : Option α) (k : α → Result) : Result :=
  match o with
  | some a => k a
  | none => .error .badIndex

/-- The finiteness check of an operand or a result (60_exceptions.md R279). -/
def requireFinite (xs : List F64) (k : Result) : Result :=
  if xs.all fIsFinite then k else .error .nonFinite

end Sys2Proof.Machine
end

