-- ==== Sys2Proof/Machine/Designer.lean ====
section
/-!
DEFINITION. FilterDesigner: `FIR.DESIGN` and `IIR.DESIGN` (40_filter_designer.md R110 to R135). The algorithms take
the `Numerics` record as an argument; the commands use the machine's.
-/

namespace Sys2Proof.Machine

open Config (Numerics Params)

/-! ## FIR.DESIGN -/

/-- R112: the operand checks, in the rule's order. -/
def firSpecCheck (p : Params) (kind : FilterKind) (n : Nat) (fs fLow fHigh a g : F64) : Option FaultCode :=
  let band : Bool := decide (kind = .bandPass ∨ kind = .bandStop)
  if ¬ (fIsFinite fs ∧ fIsFinite fLow ∧ fIsFinite a ∧ fIsFinite g ∧ (band = true → fIsFinite fHigh)) then
    some .nonFinite
  else if ¬ (n < 2 ^ 32 ∧ 1 ≤ n) then some .invalidSpec
  else if ¬ (n % 2 = 0 ∧ n + 1 ≤ p.lMax ∧ n + 1 ≤ p.obMax) then some .invalidSpec
  else if ¬ (fLt 0#64 fLow ∧ fLt fLow (fDiv fs Config.two)) then some .invalidSpec
  else if band = true ∧ ¬ (fLt 0#64 fHigh ∧ fLt fHigh (fDiv fs Config.two) ∧ fLt fLow fHigh) then
    some .invalidSpec
  else if ¬ fLe 0#64 a then some .invalidSpec
  else none

/-- R113: the cutoff of the low-pass prototype. -/
def prototypeCutoff (kind : FilterKind) (fs fLow fHigh : F64) : F64 :=
  match kind with
  | .lowPass => fLow
  | .highPass => fSub (fDiv fs Config.two) fLow
  | .bandPass => fDiv (fSub fHigh fLow) Config.two
  | .bandStop => fDiv (fSub fHigh fLow) Config.two

/-- R114: the Kaiser shape parameter. -/
def kaiserAlpha (nm : Numerics) (a : F64) : F64 :=
  if fLt a Config.kaiser21 then 0#64
  else if fLt a Config.kaiser50 then
    fAdd (fMul Config.kaiserPowScale (nm.pow (fSub a Config.kaiser21) Config.kaiserPowExp))
      (fMul Config.kaiserMidScale (fSub a Config.kaiser21))
  else fMul Config.kaiserHighScale (fSub a Config.kaiserHighOffset)

/-- R115: the loop from pass `k` on, `half = x/2.0`, `t` and `sum` as the rule names them; `none` where `fuel` passes do
not meet the stopping test. -/
def besselLoop (half : F64) : Nat → Nat → F64 → F64 → Option F64
  | 0, _, _, _ => none
  | fuel + 1, k, t, sum =>
    let t := fDiv (fMul t half) (fOfNat k)
    let q := fMul t t
    let sum := fAdd sum q
    if fLt q (fMul Config.i0Eps sum) then some sum else besselLoop half fuel (k + 1) t sum

/-- The passes after which a loop that stops at all has stopped (DEDUCED, log 10). -/
def besselPasses : Nat := 4096

/-- R115: `I0(x)`; a free value where the loop does not stop (log 10). -/
def besselI0 (x : F64) : F64 :=
  (besselLoop (fDiv x Config.two) besselPasses 1 Config.one Config.one).getD (Config.besselOpen x)

/-- R116: the Kaiser window at distance `j` from the centre tap, `n` the order. -/
def kaiserWindow (nm : Numerics) (alpha : F64) (n j : Nat) : F64 :=
  let r := fDiv (fOfNat (2 * j)) (fOfNat n)
  fDiv (besselI0 (fMul alpha (nm.sqrt (fSub Config.one (fMul r r))))) (besselI0 alpha)

/-- R117: the windowed ideal response at distance `j`. -/
def idealTap (nm : Numerics) (fs fc alpha : F64) (n j : Nat) : F64 :=
  if j = 0 then fDiv (fMul Config.two fc) fs
  else
    fMul
      (fDiv (nm.sin (fDiv (fMul (fMul (fMul Config.two Config.pi) fc) (fOfNat j)) fs))
        (fMul Config.pi (fOfNat j)))
      (kaiserWindow nm alpha n j)

/-- R118: the sum of the mirrored array, `h[0]` first, then `2.0*h[n]` in rising order. -/
def mirroredSum : List F64 → F64
  | [] => 0#64
  | h0 :: rest => rest.foldl (fun s h => fAdd s (fMul Config.two h)) h0

/-- R120: the band transformation of `h[j]`, `w0` the modulation frequency; `BandPass` makes the centre `2.0*h[0]`. -/
def bandTap (nm : Numerics) (kind : FilterKind) (w0 : F64) (j : Nat) (h : F64) : F64 :=
  match kind with
  | .lowPass => h
  | .highPass => if j % 2 = 0 then h else fNeg h
  | .bandPass =>
    if j = 0 then fMul Config.two h else fMul h (fMul Config.two (nm.cos (fMul (fOfNat j) w0)))
  | .bandStop =>
    if j = 0 then fSub Config.one (fMul Config.two h)
    else fNeg (fMul h (fMul Config.two (nm.cos (fMul (fOfNat j) w0))))

/-- R120: the band transformation of the half array. -/
def bandTransform (nm : Numerics) (kind : FilterKind) (fs fLow fHigh : F64) (h : List F64) : List F64 :=
  h.mapIdx (bandTap nm kind (fDiv (fMul Config.pi (fAdd fLow fHigh)) fs))

/-- R121: the half array mirrored about `h[0]`. -/
def mirror (h : List F64) : List F64 := h.tail.reverse ++ h

/-- R111: the taps, or the fault. -/
def firTaps (nm : Numerics) (p : Params) (kind : FilterKind) (n : Nat) (fs fLow fHigh a g : F64) :
    Except FaultCode (List F64) :=
  match firSpecCheck p kind n fs fLow fHigh a g with
  | some f => .error f
  | none =>
    let fc := prototypeCutoff kind fs fLow fHigh
    let alpha := kaiserAlpha nm a
    let h := (List.range (n / 2 + 1)).map (idealTap nm fs fc alpha n)
    let sum := mirroredSum h
    if fLt 0#64 sum then
      .ok (mirror (bandTransform nm kind fs fLow fHigh ((h.map (fDiv · sum)).map (fMul · g))))
    else .error .invalidSpec

/-- R122 (and the last lines of R126): a design's cells go to `OB[0..]` in index order, `OBLEN` and `RDATA` are their
number. A cell that would not be finite faults `NonFinite` (60_exceptions.md R265, R279; log 11). -/
def storeDesign (cells : List F64) (b : Block) : Result :=
  requireFinite cells (.ok (b.withOb (b.ob.writeFrom 0 cells) cells.length, BitVec.ofNat 64 cells.length))

/-- R111. -/
def firDesign (nm : Numerics) (imm : BitVec 16) (tapCount : Word) (b : Block) : Result :=
  withImm (filterKindOf imm) fun kind =>
    match firTaps nm b.params kind tapCount.toNat (b.argReg 0) (b.argReg 1) (b.argReg 2) (b.argReg 3) (b.argReg 4) with
    | .error f => .error f
    | .ok taps => storeDesign taps b

/-! ## IIR.DESIGN -/

/-- R127: the operand checks, in the rule's order. -/
def iirSpecCheck (p : Params) (n : Nat) (cheb : Bool) (fc fs r : F64) : Option FaultCode :=
  if n < 1 then some .invalidOrder
  else if p.orderMax < n then some .invalidOrder
  else if ¬ (fIsFinite fc ∧ fIsFinite fs ∧ (cheb = true → fIsFinite r)) then some .nonFinite
  else if ¬ (fLt 0#64 fs ∧ fLt 0#64 fc ∧ fLt fc (fDiv fs Config.two)) then some .invalidSpec
  else if cheb = true ∧ ¬ fLt 0#64 r then some .invalidSpec
  else none

/-- R129: the pole angle of pair `k`. -/
def poleAngle (n k : Nat) : F64 := fDiv (fMul Config.pi (fOfNat (2 * k + 1))) (fOfNat (2 * n))

/-- R130: the hyperbolic parameter of a Chebyshev design. -/
def chebyshevV (nm : Numerics) (n : Nat) (r : F64) : F64 :=
  let eps := nm.sqrt (fSub (nm.pow Config.ten (fDiv r Config.ten)) Config.one)
  fDiv (nm.asinh (fDiv Config.one eps)) (fOfNat n)

/-- R129, R130: `sg[k]`, the damping of pole pair `k`. -/
def poleSg (nm : Numerics) (n : Nat) (cheb : Bool) (r : F64) (k : Nat) : F64 :=
  if cheb then fMul (nm.sinh (chebyshevV nm n r)) (nm.sin (poleAngle n k)) else nm.sin (poleAngle n k)

/-- R129, R130: `om[k]`, the frequency of pole pair `k`. -/
def poleOm (nm : Numerics) (n : Nat) (cheb : Bool) (r : F64) (k : Nat) : F64 :=
  if cheb then fMul (nm.cosh (chebyshevV nm n r)) (nm.cos (poleAngle n k)) else nm.cos (poleAngle n k)

/-- R129, R130: `c`, the real pole of an odd order. -/
def realPole (nm : Numerics) (n : Nat) (cheb : Bool) (r : F64) : F64 :=
  if cheb then nm.sinh (chebyshevV nm n r) else Config.one

/-- R126, R131: one second-order section, the cells `a1, a2, b0, b1`. -/
def section2Cells (kk sg om : F64) : List F64 :=
  let w := fAdd (fMul sg sg) (fMul om om)
  let wkk := fMul (fMul w kk) kk
  let sgk := fMul (fMul Config.two sg) kk
  let d := fAdd (fAdd Config.one sgk) wkk
  let b0 := fDiv wkk d
  let b1 := fMul Config.two b0
  let a1 := fDiv (fMul Config.two (fSub wkk Config.one)) d
  let a2 := fDiv (fAdd (fSub Config.one sgk) wkk) d
  [a1, a2, b0, b1]

/-- R126, R132: the first-order section of an odd order, the cells `a1, b0`. -/
def section1Cells (kk c : F64) : List F64 :=
  let ck := fMul c kk
  let b0 := fDiv ck (fAdd Config.one ck)
  let a1 := fDiv (fSub ck Config.one) (fAdd ck Config.one)
  [a1, b0]

/-- R126: the coefficient cells of a legal specification; `K = tan(PI*fc/fs)` (R128). -/
def iirCells (nm : Numerics) (n : Nat) (cheb : Bool) (fc fs r : F64) : List F64 :=
  let kk := nm.tan (fDiv (fMul Config.pi fc) fs)
  ((List.range (n / 2)).map fun k => section2Cells kk (poleSg nm n cheb r k) (poleOm nm n cheb r k)).flatten ++
    (if n % 2 = 1 then section1Cells kk (realPole nm n cheb r) else [])

/-- R126. -/
def iirDesign (nm : Numerics) (imm : BitVec 16) (b : Block) : Result :=
  withImm (iirFieldsOf imm) fun (n, cheb) =>
    match iirSpecCheck b.params n cheb (b.argReg 0) (b.argReg 1) (b.argReg 2) with
    | some f => .error f
    | none => storeDesign (iirCells nm n cheb (b.argReg 0) (b.argReg 1) (b.argReg 2)) b

/-- `FIR.DESIGN kind, tap_count` (R111). -/
def execFirDesign (imm : BitVec 16) (tapCount : Word) (s : State) : Host.Outcome State Fault Refusal :=
  s.complete (firDesign numerics imm tapCount s.block)

/-- `IIR.DESIGN order [CHEB]` (R126). -/
def execIirDesign (imm : BitVec 16) (s : State) : Host.Outcome State Fault Refusal :=
  s.complete (iirDesign numerics imm s.block)

end Sys2Proof.Machine
end

