-- ==== Sys2Proof/Machine/BiquadCascade.lean ====
section
/-!
DEFINITION. CascadedBiquadFilter: `BQ.LOAD` and `BQ.PROC` (42_biquad_cascade.md R155 to R162).
-/

namespace Sys2Proof.Machine

/-- The second-order sections of a cascade, `m = floor(order/2)` (10_state.md R28). -/
def Biquad.sections (q : Biquad) : Nat := q.order / 2

/-- The state cells of a cascade, `2m + odd` (20_memory.md R60). -/
def Biquad.stateCells (q : Biquad) : Nat := 2 * (q.order / 2) + q.order % 2

/-- R156 for one unit; the order is `2m + odd`. -/
def bqBind (u : ToneUnit) (b : Block) : Result :=
  if b.obLen < 2 ∨ b.obLen % 4 = 1 ∨ b.obLen % 4 = 3 then .error .badLength
  else if b.params.orderMax < 2 * (b.obLen / 4) + b.obLen % 4 / 2 then .error .badLength
  else
    requireFinite b.obCells <|
      let q := b.bq.get u
      let n := 2 * (b.obLen / 4) + b.obLen % 4 / 2
      .ok (b.withBq u
        { order := n, coef := q.coef.writeFrom 0 b.obCells, z := q.z.writeFrom 0 (List.replicate n 0#64) }, 0#64)

/-- R156. -/
def bqLoad (u : BitVec 4) (b : Block) : Result := withUnit u fun t => bqBind t b

/-- R157: one second-order section, cells `a1, a2, b0, b1` of section `j`; the new state and the output. -/
def section2 (coef z : Memory) (j : Nat) (d : F64) : Memory × F64 :=
  let a1 := coef.read (4 * j)
  let a2 := coef.read (4 * j + 1)
  let b0 := coef.read (4 * j + 2)
  let b1 := coef.read (4 * j + 3)
  let z1 := z.read (2 * j)
  let z2 := z.read (2 * j + 1)
  let wv := fSub (fSub d (fMul a1 z1)) (fMul a2 z2)
  let y := fAdd (fAdd (fMul b0 wv) (fMul b1 z1)) (fMul b0 z2)
  ((z.write (2 * j + 1) z1).write (2 * j) (fFlush wv), y)

/-- R158: the trailing first-order section after `m` second-order ones. -/
def section1 (coef z : Memory) (m : Nat) (d : F64) : Memory × F64 :=
  let a1 := coef.read (4 * m)
  let b0 := coef.read (4 * m + 1)
  let zz := z.read (2 * m)
  let wv := fSub d (fMul a1 zz)
  let y := fAdd (fMul b0 wv) (fMul b0 zz)
  (z.write (2 * m) (fFlush wv), y)

/-- R159: the second-order sections in rising order, from section `j` on, `n` of them. -/
def sectionsFrom (coef : Memory) : Nat → Nat → Memory × F64 → Memory × F64
  | 0, _, zd => zd
  | n + 1, j, zd => sectionsFrom coef n (j + 1) (section2 coef zd.1 j zd.2)

/-- R159: the whole cascade on an input. -/
def Biquad.run (q : Biquad) (x : F64) : Memory × F64 :=
  let zd := sectionsFrom q.coef q.sections 0 (q.z, x)
  if q.order % 2 = 1 then section1 q.coef zd.1 q.sections zd.2 else zd

/-- R159 for one unit. -/
def bqStep (u : ToneUnit) (x : F64) (b : Block) : Result :=
  let q := b.bq.get u
  if q.order = 0 then .error .notConfigured
  else
    requireFinite [x] <|
      requireFinite ((q.run x).2 :: (q.run x).1.cells q.stateCells) <|
        .ok (b.withBq u { q with z := (q.run x).1 }, (q.run x).2)

/-- R159. -/
def bqProc (u : BitVec 4) (x : F64) (b : Block) : Result := withUnit u fun t => bqStep t x b

/-- `BQ.LOAD u` (R156). -/
def execBqLoad (u : BitVec 4) (s : State) : Host.Outcome State Fault Refusal :=
  s.complete (bqLoad u s.block)

/-- `BQ.PROC u, x` (R159). -/
def execBqProc (u : BitVec 4) (x : F64) (s : State) : Host.Outcome State Fault Refusal :=
  s.complete (bqProc u x s.block)

end Sys2Proof.Machine
end

