-- ==== Sys2Proof/Machine/FirFilter.lean ====
section
/-!
DEFINITION. CircularFIRFilter: `FIR.CREATE` and `FIR.PROC` (43_circular_fir.md R170 to R178).
-/

namespace Sys2Proof.Machine

/-- R171: the TapSet is copied from the operand buffer, the ring of 2L cells is zeroed, `w` is 0. -/
def firCreate (b : Block) : Result :=
  if b.obLen < 1 ∨ b.params.lMax < b.obLen then .error .badLength
  else
    requireFinite b.obCells <|
      .ok (b.withFir
        { tap := b.fir.tap.writeFrom 0 b.obCells, l := b.obLen,
          ring := b.fir.ring.writeFrom 0 (List.replicate (2 * b.obLen) 0#64), w := 0 }, 0#64)

/-- R172: the new sample goes to both halves of the ring. -/
def Fir.record (f : Fir) (x : F64) : Memory := (f.ring.write f.w x).write (f.w + f.l) x

/-- R172: the sum over `k = 0..L-1` in rising order from `+0.0`, backward from ring cell `w + L`. -/
def convolve (tap ring : Memory) (l w : Nat) : F64 :=
  (List.range l).foldl (fun acc k => fAdd acc (fMul (tap.read k) (ring.read (w + l - k)))) 0#64

/-- R172: the output for a sample. -/
def Fir.output (f : Fir) (x : F64) : F64 := convolve f.tap (f.record x) f.l f.w

/-- R172; a fault leaves the ring as it was. -/
def firProc (x : F64) (b : Block) : Result :=
  if b.fir.l = 0 then .error .notConfigured
  else
    requireFinite [x] <|
      requireFinite [b.fir.output x] <|
        .ok (b.withFir { b.fir with ring := b.fir.record x, w := (b.fir.w + 1) % b.fir.l }, b.fir.output x)

/-- `FIR.CREATE` (R171). -/
def execFirCreate (s : State) : Host.Outcome State Fault Refusal := s.complete (firCreate s.block)

/-- `FIR.PROC x` (R172). -/
def execFirProc (x : F64) (s : State) : Host.Outcome State Fault Refusal := s.complete (firProc x s.block)

end Sys2Proof.Machine
end

