-- ==== Sys2Proof/Machine/LevelAgc.lean ====
section
/-!
DEFINITION. LevelAGC: `AGC.CONFIG`, `AGC.TRACK`, `AGC.UPDATE`, `AGC.APPLY` (44_level_agc.md R185 to R193).
-/

namespace Sys2Proof.Machine

/-- R186: the checks and the write set, for operands already read. -/
def agcSetup (target thr : F64) (window : Word) (b : Block) : Result :=
  requireFinite [target, thr] <|
    match countOf window with
    | none => .error .badConfig
    | some win =>
      if ¬ (fLe 0#64 target ∧ fLt 0#64 thr) then .error .badConfig
      else if ¬ fIsFinite (fDiv target thr) then .error .badConfig
      else
        .ok (b.withAgc
          { targetLevel := target, windowSamples := win, threshold := thr, sampleCounter := 0#32,
            currentPeak := 0#64, peakHistory := 0#64, gain := b.params.agcGainInit, cfg := true }, 0#64)

/-- R186. -/
def agcConfig (window : Word) (b : Block) : Result := agcSetup (b.argReg 0) (b.argReg 1) window b

/-- R187. -/
def agcTrack (x : F64) (b : Block) : Result :=
  if b.agc.cfg = false then .error .notConfigured
  else
    requireFinite [x] <|
      .ok (b.withAgc { b.agc with
        currentPeak := fMax b.agc.currentPeak (fAbs x), sampleCounter := sat32Inc b.agc.sampleCounter }, 0#64)

/-- R188: the gain of the next window. -/
def Agc.nextGain (a : Agc) : F64 :=
  if fLt a.threshold a.currentPeak then fDiv a.targetLevel a.currentPeak else fDiv a.targetLevel a.threshold

/-- R188. The rule has no finiteness check: its R191 shows that the gain is finite (log 14). -/
def agcUpdate (b : Block) : Result :=
  if b.agc.cfg = false then .error .notConfigured
  else
    .ok (b.withAgc { b.agc with
      gain := b.agc.nextGain, peakHistory := b.agc.currentPeak, currentPeak := 0#64, sampleCounter := 0#32 }, 0#64)

/-- R189: no state is written. -/
def agcApply (x : F64) (b : Block) : Result :=
  if b.agc.cfg = false then .error .notConfigured
  else requireFinite [x] <| requireFinite [fMul x b.agc.gain] <| .ok (b, fMul x b.agc.gain)

/-- `AGC.CONFIG window` (R186). -/
def execAgcConfig (window : Word) (s : State) : Host.Outcome State Fault Refusal :=
  s.complete (agcConfig window s.block)

/-- `AGC.TRACK x` (R187). -/
def execAgcTrack (x : F64) (s : State) : Host.Outcome State Fault Refusal := s.complete (agcTrack x s.block)

/-- `AGC.UPDATE` (R188). -/
def execAgcUpdate (s : State) : Host.Outcome State Fault Refusal := s.complete (agcUpdate s.block)

/-- `AGC.APPLY x` (R189). -/
def execAgcApply (x : F64) (s : State) : Host.Outcome State Fault Refusal := s.complete (agcApply x s.block)

end Sys2Proof.Machine
end

