-- ==== Sys2Proof/Machine/Resonator.lean ====
section
/-!
DEFINITION. ToneResonator: `RES.SETFREQ` and `RES.PROC` (41_tone_resonator.md R140 to R149).
-/

namespace Sys2Proof.Machine

/-- R141: `a0`. -/
def resA0 (nm : Config.Numerics) (f fs bw : F64) : F64 :=
  let s := nm.sin (fDiv (fMul (fMul Config.two Config.pi) f) fs)
  if fEq bw 0#64 then s else fDiv s (fDiv (fDiv fs Config.six) bw)

/-- R141: `b1`. -/
def resB1 (nm : Config.Numerics) (f fs bw : F64) : F64 :=
  fMul (fMul Config.two (nm.exp (fNeg (fDiv (fMul Config.pi bw) fs))))
    (nm.cos (fDiv (fMul (fMul Config.two Config.pi) f) fs))

/-- R141: `b2`. -/
def resB2 (nm : Config.Numerics) (fs bw : F64) : F64 :=
  fNeg (nm.exp (fNeg (fDiv (fMul (fMul Config.two Config.pi) bw) fs)))

/-- R141, R142, R146 for one unit; coefficients that would not be finite fault `NonFinite` (60_exceptions.md R279, R265;
log 11). -/
def resTune (nm : Config.Numerics) (u : ToneUnit) (f fs bw : F64) (b : Block) : Result :=
  requireFinite [f, fs, bw] <|
    if ¬ (fLt 0#64 fs ∧ fLe 0#64 bw ∧ fLe 0#64 f) then .error .badConfig
    else
      requireFinite [resA0 nm f fs bw, resB1 nm f fs bw, resB2 nm fs bw] <|
        .ok (b.withRes u
          { centerFreq := f, bandwidth := bw, a0 := resA0 nm f fs bw, b1 := resB1 nm f fs bw,
            b2 := resB2 nm fs bw, z1 := 0#64, z2 := 0#64, tuned := true }, 0#64)

/-- R141. -/
def resSetfreq (nm : Config.Numerics) (u : BitVec 4) (b : Block) : Result :=
  withUnit u fun t => resTune nm t (b.argReg 0) (b.argReg 1) (b.argReg 2) b

/-- R143: the output before the flush. -/
def Resonator.raw (r : Resonator) (x : F64) : F64 :=
  fAdd (fAdd (fMul r.a0 x) (fMul r.b1 r.z1)) (fMul r.b2 r.z2)

/-- R143 for one unit. -/
def resStep (u : ToneUnit) (x : F64) (b : Block) : Result :=
  let r := b.res.get u
  if r.tuned = false then .error .notConfigured
  else
    requireFinite [x] <|
      let y := fFlush (r.raw x)
      requireFinite [y] <| .ok (b.withRes u { r with z1 := y, z2 := r.z1 }, y)

/-- R143. -/
def resProc (u : BitVec 4) (x : F64) (b : Block) : Result := withUnit u fun t => resStep t x b

/-- `RES.SETFREQ u` (R141). -/
def execResSetfreq (u : BitVec 4) (s : State) : Host.Outcome State Fault Refusal :=
  s.complete (resSetfreq numerics u s.block)

/-- `RES.PROC u, x` (R143). -/
def execResProc (u : BitVec 4) (x : F64) (s : State) : Host.Outcome State Fault Refusal :=
  s.complete (resProc u x s.block)

end Sys2Proof.Machine
end

