-- ==== Sys2Proof/Machine/Flags.lean ====
section
/-!
DEFINITION. The configured flags (10_state.md R48), the `FLAGS` register (R41), the step status word
(30_encoding.md R92) and the register map of `REG.READ` (10_state.md R40).
-/

namespace Sys2Proof.Machine

/-- `fir_bound` (10_state.md R25). -/
def Fir.bound (f : Fir) : Bool := decide (0 < f.l)

/-- `bq_loaded` (10_state.md R28). -/
def Biquad.loaded (q : Biquad) : Bool := decide (0 < q.order)

/-- `timing_ok`: all four timing registers are at least 1 (10_state.md R32). -/
def Sync.timingOk (y : Sync) : Bool :=
  decide (1 ≤ y.tLMin.toNat) && decide (1 ≤ y.tLValid.toNat) && decide (1 ≤ y.tStart.toNat) &&
    decide (1 ≤ y.tBit.toNat)

/-- Every unit is configured (10_state.md R48), the precondition of the sample step (46_pipeline_and_host.md R245). -/
def Block.configured (b : Block) : Bool :=
  b.fir.bound && b.agc.cfg &&
    (b.res.leader.tuned && b.res.sync.tuned && b.res.mark.tuned && b.res.space.tuned) &&
    (b.bq.leader.loaded && b.bq.sync.loaded && b.bq.mark.loaded && b.bq.space.loaded) &&
    b.sync.senseSet && b.sync.timingOk

/-- A flag at a bit place of a 64-bit register. -/
def flagAt (place : Nat) (f : Bool) : Word := BitVec.ofNat 64 (if f then 2 ^ place else 0)

/-- The `FLAGS` register (10_state.md R41); bits 13 to 63 are zero. -/
def Block.flags (b : Block) : Word :=
  flagAt 0 b.ovf ||| flagAt 1 b.fir.bound ||| flagAt 2 b.agc.cfg ||| flagAt 3 b.sync.senseSet |||
    flagAt 4 b.res.leader.tuned ||| flagAt 5 b.res.sync.tuned ||| flagAt 6 b.res.mark.tuned |||
    flagAt 7 b.res.space.tuned ||| flagAt 8 b.bq.leader.loaded ||| flagAt 9 b.bq.sync.loaded |||
    flagAt 10 b.bq.mark.loaded ||| flagAt 11 b.bq.space.loaded ||| flagAt 12 b.sync.timingOk

/-- The numeric encoding of the state tag (10_state.md R33). -/
def tagCode : SyncTag → Nat
  | .idle => 0
  | .leaderDetect => 1
  | .startBitValidate => 2
  | .visDecoding => 3
  | .dataWait => 4

/-- The `VIS` register (10_state.md R40): `vis_byte` in bits 7..0, `vis_valid` in bit 8. -/
def Sync.visWord (y : Sync) : Word := y.visByte.setWidth 64 ||| flagAt 8 y.visValid

/-- The step status word (30_encoding.md R92), built from the state after the step; `before` is the tag before it:
`ev_decoded` says that this step moved VisDecoding to DataWait, `ev_reject` that it moved VisDecoding to Idle. -/
def statusWord (before : SyncTag) (b : Block) : Word :=
  b.sync.visWord ||| BitVec.ofNat 64 (tagCode b.sync.tag * 2 ^ 9) |||
    flagAt 12 (decide (before = .visDecoding ∧ b.sync.tag = .dataWait)) |||
    flagAt 13 (decide (before = .visDecoding ∧ b.sync.tag = .idle)) ||| flagAt 14 b.ovf

/-- Registers 256 + 16u + k, k = 0..7, of one unit (10_state.md R40). -/
def unitRegister (r : Resonator) (q : Biquad) (k : Nat) : Option Word :=
  match k with
  | 0 => some r.centerFreq
  | 1 => some r.bandwidth
  | 2 => some r.a0
  | 3 => some r.b1
  | 4 => some r.b2
  | 5 => some r.z1
  | 6 => some r.z2
  | 7 => some (BitVec.ofNat 64 q.order)
  | _ => none

/-- Registers 0 to 34 (10_state.md R40). Integer registers are zero-extended. -/
def globalRegister (b : Block) (n : Nat) : Option Word :=
  match n with
  | 0 => some (BitVec.ofNat 64 (tagCode b.sync.tag))
  | 1 => some b.sync.visWord
  | 2 => some b.flags
  | 3 => some b.agc.gain
  | 4 => some b.diag.env.leader
  | 5 => some b.diag.env.sync
  | 6 => some b.diag.env.mark
  | 7 => some b.diag.env.space
  | 8 => some b.diag.tap0
  | 9 => some b.diag.tap1
  | 10 => some b.diag.tap2
  | 11 => some b.agc.currentPeak
  | 12 => some b.agc.peakHistory
  | 13 => some (b.agc.sampleCounter.setWidth 64)
  | 14 => some (b.sync.leadCnt.setWidth 64)
  | 15 => some (b.sync.timer.setWidth 64)
  | 16 => some (b.sync.acc.dataByte.setWidth 64 ||| (b.sync.acc.bitsReceived.setWidth 64 <<< 8))
  | 17 => some b.sync.acc.leaderEnergy
  | 18 => some b.sync.acc.markEnergy
  | 19 => some b.sync.acc.spaceEnergy
  | 20 => some b.sync.acc.syncEnergy
  | 21 => some (BitVec.ofNat 64 b.fir.w)
  | 22 => some (BitVec.ofNat 64 b.fir.l)
  | 23 => some (BitVec.ofNat 64 b.obLen)
  | 24 => some b.sync.sLvl
  | 25 => some b.sync.sLvl2
  | 26 => some b.sync.sLvl3
  | 27 => some (b.sync.sense.setWidth 64 ||| flagAt 2 b.sync.senseSet)
  | 28 => some (b.sync.tLMin.setWidth 64)
  | 29 => some (b.sync.tLValid.setWidth 64)
  | 30 => some (b.sync.tStart.setWidth 64)
  | 31 => some (b.sync.tBit.setWidth 64)
  | 32 => some b.agc.targetLevel
  | 33 => some b.agc.threshold
  | 34 => some (b.agc.windowSamples.setWidth 64)
  | _ => none

/-- The register map (10_state.md R40); every other number is unassigned (20_memory.md R65). -/
def registerValue (b : Block) (n : Nat) : Option Word :=
  if n < 256 then globalRegister b n
  else if n < 272 then unitRegister b.res.leader b.bq.leader (n - 256)
  else if n < 288 then unitRegister b.res.sync b.bq.sync (n - 272)
  else if n < 304 then unitRegister b.res.mark b.bq.mark (n - 288)
  else if n < 320 then unitRegister b.res.space b.bq.space (n - 304)
  else none

end Sys2Proof.Machine
end

