-- ==== Sys2Proof/Machine/SyncDecoder.lean ====
section
/-!
DEFINITION. SyncDecoder: `SYNC.PRESET`, `SYNC.TIMING`, `SYNC.STEP`, `SYNC.RESET` (45_sync_decoder.md R200 to R221).
-/

namespace Sys2Proof.Machine

/-- R201: the three thresholds of a preset are written together. -/
def syncPreset (table : Nat → Nat → F64) (imm : BitVec 16) (b : Block) : Result :=
  withImm (presetIndexOf imm) fun p =>
    .ok (b.withSync { b.sync with
      sLvl := table p.toNat 0, sLvl2 := table p.toNat 1, sLvl3 := table p.toNat 2, sense := p,
      senseSet := true }, 0#64)

/-- R203: one timing register is written; a running countdown is not changed. -/
def Sync.withTiming (y : Sync) (r : TimingReg) (t : BitVec 32) : Sync :=
  match r with
  | .lMin => { y with tLMin := t }
  | .lValid => { y with tLValid := t }
  | .start => { y with tStart := t }
  | .bit => { y with tBit := t }

/-- R203. -/
def syncTiming (imm : BitVec 16) (ticks : Word) (b : Block) : Result :=
  withImm (timingRegOf imm) fun r =>
    match countOf ticks with
    | none => .error .badConfig
    | some t => .ok (b.withSync (b.sync.withTiming r t), 0#64)

/-- R205, R206: the leader count of a tick above the threshold. -/
def Sync.leaderAbove (y : Sync) (le : F64) : Bool := fLt y.sLvl le

/-- R205: Idle. -/
def tickIdle (le : F64) (y : Sync) : Sync :=
  let n := if y.leaderAbove le then sat32Inc y.leadCnt else 0#32
  { y with leadCnt := n, tag := if y.tLMin ≤ n then .leaderDetect else .idle }

/-- R206: LeaderDetect. -/
def tickLeader (le : F64) (y : Sync) : Sync :=
  if y.leaderAbove le then { y with leadCnt := sat32Inc y.leadCnt }
  else if y.tLValid ≤ y.leadCnt then { y with tag := .startBitValidate, timer := y.tStart, leadCnt := 0#32 }
  else { y with leadCnt := 0#32 }

/-- R207: StartBitValidate; the accumulator is fresh on entry to VisDecoding. -/
def tickStart (y : Sync) : Sync :=
  if countdown y.timer = 0#32 then { y with tag := .visDecoding, acc := VisAcc.cleared, timer := y.tBit }
  else { y with timer := countdown y.timer }

/-- R210, R212: back to Idle, the accumulator cleared. -/
def Sync.rejected (y : Sync) : Sync :=
  { y with tag := .idle, timer := 0#32, leadCnt := 0#32, acc := VisAcc.cleared }

/-- R209: the four envelopes of the expiry tick are latched. -/
def VisAcc.latch (a : VisAcc) (le sy ma sp : F64) : VisAcc :=
  { a with leaderEnergy := le, markEnergy := ma, spaceEnergy := sp, syncEnergy := sy }

/-- R210: the tones are not separable. -/
def discriminationFails (a : VisAcc) (threshold : F64) : Bool :=
  (fLt a.markEnergy a.leaderEnergy && fLt a.spaceEnergy a.leaderEnergy) ||
    fLt (fAbs (fSub a.markEnergy a.spaceEnergy)) threshold

/-- R211: the bit goes to the place the count says. -/
def VisAcc.append (a : VisAcc) : VisAcc :=
  { a with
    dataByte := a.dataByte ||| ((if fLt a.spaceEnergy a.markEnergy then 1#8 else 0#8) <<< a.bitsReceived.toNat)
    bitsReceived := a.bitsReceived + 1#4 }

/-- R212: the exclusive-or of the seven data bits. -/
def dataParity (v : BitVec 8) : Bool :=
  v.getLsbD 0 ^^ v.getLsbD 1 ^^ v.getLsbD 2 ^^ v.getLsbD 3 ^^ v.getLsbD 4 ^^ v.getLsbD 5 ^^ v.getLsbD 6

/-- R212: after eight bits. -/
def finishByte (a : VisAcc) (y : Sync) : Sync :=
  if dataParity a.dataByte = a.dataByte.getLsbD 7 then
    { y with visByte := a.dataByte, visValid := true, tag := .dataWait, timer := 0#32, leadCnt := 0#32,
             acc := VisAcc.cleared }
  else y.rejected

/-- R209 to R212: the bit decision of an expiry tick. -/
def decideBit (le sy ma sp : F64) (y : Sync) : Sync :=
  let a := y.acc.latch le sy ma sp
  if discriminationFails a y.sLvl2 then y.rejected
  else if a.append.bitsReceived = 8#4 then finishByte a.append y
  else { y with acc := a.append, timer := y.tBit }

/-- R208: VisDecoding. -/
def tickVis (le sy ma sp : F64) (y : Sync) : Sync :=
  if countdown y.timer = 0#32 then decideBit le sy ma sp y else { y with timer := countdown y.timer }

/-- R204: exactly one state rule runs, chosen by the tag on entry; DataWait changes nothing (R213). -/
def tick (le sy ma sp : F64) (y : Sync) : Sync :=
  match y.tag with
  | .idle => tickIdle le y
  | .leaderDetect => tickLeader le y
  | .startBitValidate => tickStart y
  | .visDecoding => tickVis le sy ma sp y
  | .dataWait => y

/-- R204 on given envelopes, with the step status word of R92. -/
def syncTick (le sy ma sp : F64) (b : Block) : Result :=
  if b.sync.senseSet = false ∨ b.sync.timingOk = false then .error .notConfigured
  else
    requireFinite [le, sy, ma, sp] <|
      .ok (b.withSync (tick le sy ma sp b.sync),
        statusWord b.sync.tag (b.withSync (tick le sy ma sp b.sync)))

/-- R204: the envelopes are argument registers 0 to 3. -/
def syncStep (b : Block) : Result := syncTick (b.argReg 0) (b.argReg 1) (b.argReg 2) (b.argReg 3) b

/-- R214; configuration, filters, AGC and `ovf` are kept (10_state.md R50). -/
def syncReset (b : Block) : Result :=
  .ok (b.withSync { b.sync with
    tag := .idle, leadCnt := 0#32, timer := 0#32, acc := VisAcc.cleared, visByte := 0#8, visValid := false }, 0#64)

/-- `SYNC.PRESET p` (R201). -/
def execSyncPreset (imm : BitVec 16) (s : State) : Host.Outcome State Fault Refusal :=
  s.complete (syncPreset preset imm s.block)

/-- `SYNC.TIMING sel, ticks` (R203). -/
def execSyncTiming (imm : BitVec 16) (ticks : Word) (s : State) : Host.Outcome State Fault Refusal :=
  s.complete (syncTiming imm ticks s.block)

/-- `SYNC.STEP` (R204). -/
def execSyncStep (s : State) : Host.Outcome State Fault Refusal := s.complete (syncStep s.block)

/-- `SYNC.RESET` (R214). -/
def execSyncReset (s : State) : Host.Outcome State Fault Refusal := s.complete (syncReset s.block)

end Sys2Proof.Machine
end

