-- ==== Sys2Proof/Machine/Pipeline.lean ====
section
/-!
DEFINITION. The sample pipeline: `PIPE.SAMPLE_I16`, `PIPE.SAMPLE_F64`, `PIPE.RESET` (46_pipeline_and_host.md R241 to
R249). A stage that faults ends the whole command with its fault, and no state is written (60_exceptions.md R272).
-/

namespace Sys2Proof.Machine

/-- The next stage of a command on the block and the output of the stage before; a fault skips it. -/
def Result.andThen (r : Result) (k : Block → Word → Result) : Result :=
  match r with
  | .ok (b, v) => k b v
  | .error f => .error f

/-- R244: the defensive clip at a level. -/
def clip (level x : F64) : F64 :=
  if fLt level x then level
  else if fLt x (fNeg level) then fNeg level
  else x

/-- R244: the comparisons that set `ovf`. -/
def clips (level x : F64) : Bool := fLt level x || fLt x (fNeg level)

/-- R246, first lines: the clip, the sticky `ovf`, `TAP0`. -/
def stageClip (x : F64) (b : Block) : Block :=
  (b.withOvf (b.ovf || clips b.clipLevel x)).withDiag { b.diag with tap0 := clip b.clipLevel x }

/-- R246: the FIR filter, then `TAP1`. -/
def stageFir (x : F64) (b : Block) : Result :=
  (firProc x b).andThen fun b y => .ok (b.withDiag { b.diag with tap1 := y }, y)

/-- R246, R193: track, close the window when it is due, apply, then `TAP2`. -/
def stageAgc (x : F64) (b : Block) : Result :=
  (agcTrack x b).andThen fun b _ =>
    (if b.agc.windowSamples ≤ b.agc.sampleCounter then agcUpdate b else .ok (b, 0#64)).andThen fun b _ =>
      (agcApply x b).andThen fun b y => .ok (b.withDiag { b.diag with tap2 := y }, y)

/-- R246, R161: one resonator and envelope pair, its output rectified between the two; the result goes to `ENV[u]`. -/
def stageTone (u : ToneUnit) (x : F64) (b : Block) : Result :=
  (resStep u x b).andThen fun b r =>
    (bqStep u (fAbs r) b).andThen fun b e => .ok (b.withDiag { b.diag with env := b.diag.env.set u e }, e)

/-- R246: the four pairs, then one tick of the decoder on the four envelopes. -/
def stageTones (x : F64) (b : Block) : Result :=
  (stageTone .leader x b).andThen fun b le =>
    (stageTone .sync x b).andThen fun b sy =>
      (stageTone .mark x b).andThen fun b ma =>
        (stageTone .space x b).andThen fun b sp => syncTick le sy ma sp b

/-- R246: the sample step. -/
def sampleStep (x0 : F64) (b : Block) : Result :=
  (stageFir (clip b.clipLevel x0) (stageClip x0 b)).andThen fun b x2 =>
    (stageAgc x2 b).andThen fun b x3 => stageTones x3 b

/-- R242, R243, R245: the precondition comes before any look at the sample. -/
def pipeSample (x0 : F64) (b : Block) : Result :=
  if b.configured = false then .error .notConfigured else requireFinite [x0] (sampleStep x0 b)

/-- `PIPE.SAMPLE_I16 s` (R242). -/
def execPipeSampleI16 (imm : BitVec 16) (s : State) : Host.Outcome State Fault Refusal :=
  s.complete (pipeSample (sampleOf imm) s.block)

/-- `PIPE.SAMPLE_F64 x` (R243). -/
def execPipeSampleF64 (x : F64) (s : State) : Host.Outcome State Fault Refusal :=
  s.complete (pipeSample x s.block)

/-- `PIPE.RESET` (R249): every piece of state to its reset value (10_state.md R49). -/
def execPipeReset (s : State) : Host.Outcome State Fault Refusal :=
  s.complete (.ok (Block.resetWith s.block.params, 0#64))

end Sys2Proof.Machine
end

