-- ==== Sys2Proof/Machine/Transport.lean ====
section
/-!
DEFINITION. Operand and result transport: `ARG.SET`, `OB.CLEAR`, `OB.PUSH`, `OB.READ`, `REG.READ`
(46_pipeline_and_host.md R235 to R240).
-/

namespace Sys2Proof.Machine

/-- R236: any bit pattern is accepted. -/
def argSet (imm : BitVec 16) (v : Word) (b : Block) : Result :=
  withImm (argIndexOf imm) fun i => .ok (b.withArg i v, 0#64)

/-- R237: the cells keep their bits, none is valid any more. -/
def obClear (b : Block) : Result := .ok (b.withOb b.ob 0, 0#64)

/-- R238. -/
def obPush (v : Word) (b : Block) : Result :=
  if b.obLen = b.params.obMax then .error .obOverflow
  else .ok (b.withOb (b.ob.write b.obLen v) (b.obLen + 1), 0#64)

/-- R239: no state is written. -/
def obRead (imm : BitVec 16) (b : Block) : Result :=
  if b.obLen ≤ imm.toNat then .error .badIndex else .ok (b, b.ob.read imm.toNat)

/-- R240: no state is written. -/
def regRead (imm : BitVec 16) (b : Block) : Result :=
  withImm (registerValue b imm.toNat) fun v => .ok (b, v)

/-- `ARG.SET i, v` (R236). -/
def execArgSet (imm : BitVec 16) (v : Word) (s : State) : Host.Outcome State Fault Refusal :=
  s.complete (argSet imm v s.block)

/-- `OB.CLEAR` (R237). -/
def execObClear (s : State) : Host.Outcome State Fault Refusal := s.complete (obClear s.block)

/-- `OB.PUSH v` (R238). -/
def execObPush (v : Word) (s : State) : Host.Outcome State Fault Refusal := s.complete (obPush v s.block)

/-- `OB.READ i` (R239). -/
def execObRead (imm : BitVec 16) (s : State) : Host.Outcome State Fault Refusal :=
  s.complete (obRead imm s.block)

/-- `REG.READ n` (R240). -/
def execRegRead (imm : BitVec 16) (s : State) : Host.Outcome State Fault Refusal :=
  s.complete (regRead imm s.block)

end Sys2Proof.Machine
end

