-- ==== Sys2Proof/Machine/Dispatch.lean ====
section
/-!
DEFINITION. The dispatch: one arm per command (30_encoding.md R85), each one direct call of its meaning.
-/

namespace Sys2Proof.Machine

-- Every command has its meaning; no arm is rejected by name.
def exec (i : Instr) (s : State) : Host.Outcome State Fault Refusal :=
  match i with
  | .argSet imm v => Sys2Proof.Machine.execArgSet imm v s
  | .obClear => Sys2Proof.Machine.execObClear s
  | .obPush v => Sys2Proof.Machine.execObPush v s
  | .obRead imm => Sys2Proof.Machine.execObRead imm s
  | .regRead imm => Sys2Proof.Machine.execRegRead imm s
  | .firDesign imm tapCount => Sys2Proof.Machine.execFirDesign imm tapCount s
  | .iirDesign imm => Sys2Proof.Machine.execIirDesign imm s
  | .firCreate => Sys2Proof.Machine.execFirCreate s
  | .firProc x => Sys2Proof.Machine.execFirProc x s
  | .resSetfreq u => Sys2Proof.Machine.execResSetfreq u s
  | .resProc u x => Sys2Proof.Machine.execResProc u x s
  | .bqLoad u => Sys2Proof.Machine.execBqLoad u s
  | .bqProc u x => Sys2Proof.Machine.execBqProc u x s
  | .agcConfig window => Sys2Proof.Machine.execAgcConfig window s
  | .agcTrack x => Sys2Proof.Machine.execAgcTrack x s
  | .agcUpdate => Sys2Proof.Machine.execAgcUpdate s
  | .agcApply x => Sys2Proof.Machine.execAgcApply x s
  | .syncPreset imm => Sys2Proof.Machine.execSyncPreset imm s
  | .syncTiming imm ticks => Sys2Proof.Machine.execSyncTiming imm ticks s
  | .syncStep => Sys2Proof.Machine.execSyncStep s
  | .syncReset => Sys2Proof.Machine.execSyncReset s
  | .pipeSampleI16 imm => Sys2Proof.Machine.execPipeSampleI16 imm s
  | .pipeSampleF64 x => Sys2Proof.Machine.execPipeSampleF64 x s
  | .pipeReset => Sys2Proof.Machine.execPipeReset s

end Sys2Proof.Machine
end

