-- ==== Sys2Proof/Machine/Step.lean ====
section
/-!
DEFINITION. One step: the command the host has on the port is decoded and executed whole (30_encoding.md R80); with no
command on the port the block does nothing (92_eei_decisions.md D1; log 3).
-/

namespace Sys2Proof.Machine

/-- One step. A word that decodes to no command is answered with the decoder's fault (30_encoding.md R86, R91). -/
def step (s : State) : Host.Outcome State Fault Refusal :=
  match s.pending with
  | [] => .next s
  | t :: _ =>
    match decode t with
    | .ok i => exec i s
    | .error f => .next (s.takeFault f)

/-- `s` with one more transaction in front of the host's pending ones, so that the next step runs it. -/
def State.withFetchWord (s : State) (nbits w : Nat) : State :=
  { s with pending := transactionOfBits nbits w :: s.pending }

end Sys2Proof.Machine
end

