-- ==== Sys2Proof/Safety.lean ====
section
/-!
DEFINITION. What the claims speak of: the legal parameters (00_scope.md R11) and the accuracy a `Numerics` record owes
(R16 d), the properties the spec says every state of the block has, what each command may write (10_state.md R42) and
read (20_memory.md R60), the register map as a table (10_state.md R40), and the runs of commands that the properties of
41_tone_resonator.md R149, 43_circular_fir.md R174 and 45_sync_decoder.md R220 speak of.
-/

namespace Sys2Proof.Safety

open Sys2Proof.Machine

/-! ## Parameters and accuracy -/

/-- A finite value that is not below zero. -/
def FiniteNonneg (v : F64) : Prop := fIsFinite v = true ∧ fLe 0#64 v = true

/-- The constraints of 00_scope.md R11 on the parameters a block may choose. -/
structure ParamsOk (p : Config.Params) : Prop where
  lMax : 1 ≤ p.lMax
  orderMax : 1 ≤ p.orderMax ∧ p.orderMax ≤ 255
  obMax : p.lMax ≤ p.obMax ∧ 4 * (p.orderMax / 2) + 2 ≤ p.obMax
  fullScale : fIsFinite p.fullScale = true ∧ fLt 0#64 p.fullScale = true
  agcGainInit : FiniteNonneg p.agcGainInit

/-- The real value of a finite binary64 value. -/
def valueOf (x : F64) : ℚ := fInt x / unitsPerOne

/-- A finite binary64 value within a relative error of 1e-9 of a real one. -/
def RelativelyClose (x : F64) (r : ℝ) : Prop := fIsFinite x = true ∧ |(valueOf x : ℝ) - r| ≤ 1e-9 * |r|

/-- 41_tone_resonator.md R145 for one tuning, the named property R16 (d) and R145 let a model assume: the coefficients of
R141 meet the real values of their three formulas within 1e-9. Stated for one triple of operands, because no record
meets it for all of them at once (log 7). -/
def MeetsR145 (nm : Config.Numerics) (f fs bw : F64) : Prop :=
  RelativelyClose (resA0 nm f fs bw)
      (if valueOf bw = 0 then Real.sin (2 * Real.pi * valueOf f / valueOf fs)
        else Real.sin (2 * Real.pi * valueOf f / valueOf fs) / (valueOf fs / 6 / valueOf bw)) ∧
    RelativelyClose (resB1 nm f fs bw)
      (2 * Real.exp (-Real.pi * valueOf bw / valueOf fs) * Real.cos (2 * Real.pi * valueOf f / valueOf fs)) ∧
    RelativelyClose (resB2 nm fs bw) (-Real.exp (-2 * Real.pi * valueOf bw / valueOf fs))

/-- The binary64 sum of the first `n + 1` cells, in index order (40_filter_designer.md R125). -/
def tapSum (tap : Nat → F64) (n : Nat) : F64 := (List.range n).foldl (fun acc i => fAdd acc (tap (i + 1))) (tap 0)

/-- 40_filter_designer.md R125 for one LowPass specification with gain 1, the named property R16 (d) and R125 let a model
assume: the taps' binary64 sum is finite and differs from 1 by less than 1e-6. -/
def MeetsR125 (nm : Config.Numerics) (p : Config.Params) (n : Nat) (fs fLow fHigh a : F64) : Prop :=
  ∀ taps, firTaps nm p .lowPass n fs fLow fHigh a Config.one = .ok taps →
    fIsFinite (tapSum (fun i => taps.getD i 0#64) n) = true ∧
      |valueOf (tapSum (fun i => taps.getD i 0#64) n) - 1| < 1e-6

/-! ## The Bessel series (40_filter_designer.md R115) -/

/-- `t` after pass `k`. -/
def besselTerm (x : F64) : Nat → F64
  | 0 => Config.one
  | k + 1 => fDiv (fMul (besselTerm x k) (fDiv x Config.two)) (fOfNat (k + 1))

/-- `sum` after pass `k`. -/
def besselSum (x : F64) : Nat → F64
  | 0 => Config.one
  | k + 1 => fAdd (besselSum x k) (fMul (besselTerm x (k + 1)) (besselTerm x (k + 1)))

/-- The stopping test of pass `k`: `q < I0_EPS * sum`. -/
def besselStops (x : F64) (k : Nat) : Prop :=
  fLt (fMul (besselTerm x k) (besselTerm x k)) (fMul Config.i0Eps (besselSum x k)) = true

/-- `I0` is R115's: the sum at the first pass whose test holds, for every operand on which one of the first 4096 does (of
the other operands nothing is said, log 10). -/
def IsBessel (i0 : F64 → F64) : Prop :=
  ∀ (x : F64) (k : Nat), 1 ≤ k → k ≤ 4096 → besselStops x k → (∀ j, 1 ≤ j → j < k → ¬ besselStops x j) →
    i0 x = besselSum x k

/-! ## Properties of a state -/

/-- Every address space is in its one canonical form (the model's own, log 5). -/
def CellsCanonical (b : Block) : Prop :=
  b.ob.wf = true ∧ b.fir.tap.wf = true ∧ b.fir.ring.wf = true ∧
    ∀ u, (b.bq.get u).coef.wf = true ∧ (b.bq.get u).z.wf = true

/-- Every cell a memory lists has an index below a bound. -/
def CellsBelow (m : Memory) (n : Nat) : Prop := ∀ c ∈ m, c.1 < n

/-- Every length is within its capacity (10_state.md R24 to R26, R28) and no memory lists a cell outside its address
space (20_memory.md R60: `OB_MAX`, `L_MAX`, `2*L_MAX`, `4*NSEC_MAX+2` and `2*NSEC_MAX+1` cells, `NSEC_MAX` being
`floor(ORDER_MAX/2)`). A listed cell is one whose content is not what an unlisted one reads as (log 5). -/
def WithinSpaces (b : Block) : Prop :=
  b.obLen ≤ b.params.obMax ∧ b.fir.l ≤ b.params.lMax ∧ (0 < b.fir.l → b.fir.w < b.fir.l) ∧
    (∀ u, (b.bq.get u).order ≤ b.params.orderMax) ∧
    CellsBelow b.ob b.params.obMax ∧ CellsBelow b.fir.tap b.params.lMax ∧
    CellsBelow b.fir.ring (2 * b.params.lMax) ∧
    ∀ u, CellsBelow (b.bq.get u).coef (4 * (b.params.orderMax / 2) + 2) ∧
      CellsBelow (b.bq.get u).z (2 * (b.params.orderMax / 2) + 1)

/-- 43_circular_fir.md R173 (b) and (c): the write index is below `L`, the two halves of the ring agree. -/
def FirOk (f : Fir) : Prop :=
  (0 < f.l → f.w < f.l) ∧ ∀ i < f.l, f.ring.read i = f.ring.read (i + f.l)

/-- 45_sync_decoder.md R215, and of R221 that a decoder without a byte shows the byte 0. -/
structure SyncOk (y : Sync) : Prop where
  leadCnt : y.tag ≠ .idle → y.tag ≠ .leaderDetect → y.leadCnt = 0#32
  timer : 1 ≤ y.timer.toNat ↔ y.tag = .startBitValidate ∨ y.tag = .visDecoding
  acc : y.tag ≠ .visDecoding → y.acc = VisAcc.cleared
  bits : y.tag = .visDecoding →
    y.acc.bitsReceived.toNat ≤ 7 ∧ y.acc.dataByte.toNat < 2 ^ y.acc.bitsReceived.toNat
  valid : y.visValid = true ↔ y.tag = .dataWait
  parity : y.tag = .dataWait →
    (y.visByte.getLsbD 0 ^^ y.visByte.getLsbD 1 ^^ y.visByte.getLsbD 2 ^^ y.visByte.getLsbD 3 ^^
      y.visByte.getLsbD 4 ^^ y.visByte.getLsbD 5 ^^ y.visByte.getLsbD 6 ^^ y.visByte.getLsbD 7) = false
  noByte : y.visValid = false → y.visByte = 0#8

/-- 10_state.md R30, 44_level_agc.md R187 and R191: the gain is finite and not negative, the tracked peak is not
negative, and a configured AGC has a positive threshold that `target_level` can be divided by. -/
structure AgcOk (a : Agc) : Prop where
  gain : FiniteNonneg a.gain
  peak : FiniteNonneg a.currentPeak
  target : FiniteNonneg a.targetLevel
  configured : a.cfg = true → fLt 0#64 a.threshold = true ∧ fIsFinite (fDiv a.targetLevel a.threshold) = true

/-- The seven binary64 fields of one resonator are finite. -/
def ResFinite (r : Resonator) : Prop :=
  fIsFinite r.centerFreq = true ∧ fIsFinite r.bandwidth = true ∧ fIsFinite r.a0 = true ∧ fIsFinite r.b1 = true ∧
    fIsFinite r.b2 = true ∧ fIsFinite r.z1 = true ∧ fIsFinite r.z2 = true

/-- The cells of one cascade that its order makes valid are finite (20_memory.md R60). -/
def BqFinite (q : Biquad) : Prop :=
  (∀ i < 4 * (q.order / 2) + 2 * (q.order % 2), fIsFinite (q.coef.read i) = true) ∧
    ∀ i < 2 * (q.order / 2) + q.order % 2, fIsFinite (q.z.read i) = true

/-- 60_exceptions.md R279: every binary64 value in the state is finite; `ARG` and `OB` hold bits and are exempt. -/
structure AllFinite (b : Block) : Prop where
  tap : ∀ i < b.fir.l, fIsFinite (b.fir.tap.read i) = true
  ring : ∀ i < 2 * b.fir.l, fIsFinite (b.fir.ring.read i) = true
  res : ∀ u, ResFinite (b.res.get u)
  bq : ∀ u, BqFinite (b.bq.get u)
  agc : fIsFinite b.agc.targetLevel = true ∧ fIsFinite b.agc.threshold = true ∧
    fIsFinite b.agc.currentPeak = true ∧ fIsFinite b.agc.peakHistory = true ∧ fIsFinite b.agc.gain = true
  levels : fIsFinite b.sync.sLvl = true ∧ fIsFinite b.sync.sLvl2 = true ∧ fIsFinite b.sync.sLvl3 = true
  acc : fIsFinite b.sync.acc.leaderEnergy = true ∧ fIsFinite b.sync.acc.markEnergy = true ∧
    fIsFinite b.sync.acc.spaceEnergy = true ∧ fIsFinite b.sync.acc.syncEnergy = true
  diag : fIsFinite b.diag.tap0 = true ∧ fIsFinite b.diag.tap1 = true ∧ fIsFinite b.diag.tap2 = true ∧
    ∀ u, fIsFinite (b.diag.env.get u) = true

/-- What the recursive filters may hold (41_tone_resonator.md R143, R147; 42_biquad_cascade.md R157, R158): `+0.0`, or a
magnitude that is not below `FLUSH_EPS`. -/
def Flushed (v : F64) : Prop := v = 0#64 ∨ fLt (fAbs v) Config.flushEps = false

/-- Every delayed value of a resonator and every valid state cell of a cascade is flushed. -/
def DelaysFlushed (b : Block) : Prop :=
  ∀ u, Flushed (b.res.get u).z1 ∧ Flushed (b.res.get u).z2 ∧
    ∀ i < 2 * ((b.bq.get u).order / 2) + (b.bq.get u).order % 2, Flushed ((b.bq.get u).z.read i)

/-- The precondition of a tick (45_sync_decoder.md R204): configured, and the four envelopes in `ARG` finite. -/
def ReadyToTick (s : State) : Prop :=
  s.block.sync.senseSet = true ∧
    (1 ≤ s.block.sync.tLMin.toNat ∧ 1 ≤ s.block.sync.tLValid.toNat ∧ 1 ≤ s.block.sync.tStart.toNat ∧
      1 ≤ s.block.sync.tBit.toNat) ∧
    fIsFinite s.block.arg[0] = true ∧ fIsFinite s.block.arg[1] = true ∧ fIsFinite s.block.arg[2] = true ∧
    fIsFinite s.block.arg[3] = true

/-! ## What a command may write -/

/-- Every cell but the given one reads as before. -/
def SameCellsBut (m m' : Memory) (i : Nat) : Prop := ∀ j, j ≠ i → m'.read j = m.read j

/-- Every cell from an index up reads as before. -/
def SameCellsFrom (m m' : Memory) (i : Nat) : Prop := ∀ j, i ≤ j → m'.read j = m.read j

/-- The block but for `ARG`. -/
def SameButArg (b b' : Block) : Prop := b' = { b with arg := b'.arg }
/-- The block but for `OB` and `OBLEN`. -/
def SameButOb (b b' : Block) : Prop := b' = { b with ob := b'.ob, obLen := b'.obLen }
/-- The block but for the FIR filter. -/
def SameButFir (b b' : Block) : Prop := b' = { b with fir := b'.fir }
/-- The block but for one resonator. -/
def SameButRes (u : ToneUnit) (b b' : Block) : Prop := b' = { b with res := b.res.set u (b'.res.get u) }
/-- The block but for one cascade. -/
def SameButBq (u : ToneUnit) (b b' : Block) : Prop := b' = { b with bq := b.bq.set u (b'.bq.get u) }
/-- The block but for the AGC. -/
def SameButAgc (b b' : Block) : Prop := b' = { b with agc := b'.agc }
/-- The block but for the SyncDecoder. -/
def SameButSync (b b' : Block) : Prop := b' = { b with sync := b'.sync }

/-- The dynamic fields of the decoder, the ones `SYNC.STEP` and `SYNC.RESET` write (R42). -/
def SameButDynamic (y y' : Sync) : Prop :=
  y' = { y with tag := y'.tag, leadCnt := y'.leadCnt, timer := y'.timer, acc := y'.acc, visByte := y'.visByte,
                visValid := y'.visValid }

/-- What `PIPE.SAMPLE_*` may write (R42): `ovf`, the diagnostics, and what the chained commands write. -/
structure SamplePartsOnly (b b' : Block) : Prop where
  params : b'.params = b.params
  arg : b'.arg = b.arg
  ob : b'.ob = b.ob
  obLen : b'.obLen = b.obLen
  fir : b'.fir = { b.fir with ring := b'.fir.ring, w := b'.fir.w }
  res : ∀ u, b'.res.get u = { b.res.get u with z1 := (b'.res.get u).z1, z2 := (b'.res.get u).z2 }
  bq : ∀ u, b'.bq.get u = { b.bq.get u with z := (b'.bq.get u).z }
  agc : b'.agc = { b.agc with
    gain := b'.agc.gain, peakHistory := b'.agc.peakHistory, currentPeak := b'.agc.currentPeak,
    sampleCounter := b'.agc.sampleCounter }
  sync : SameButDynamic b.sync b'.sync

/-- 10_state.md R42, one line per command; `unit` is the unit a `U` field names. -/
def WriteSet (i : Instr) (b b' : Block) : Prop :=
  match i with
  | .argSet imm _ => SameButArg b b' ∧ ∀ k (hk : k < 8), k ≠ imm.toNat → b'.arg[k] = b.arg[k]
  | .obClear => SameButOb b b' ∧ b'.ob = b.ob
  | .obPush _ => SameButOb b b' ∧ SameCellsBut b.ob b'.ob b.obLen
  | .obRead _ => b' = b
  | .regRead _ => b' = b
  | .firDesign _ _ => SameButOb b b' ∧ SameCellsFrom b.ob b'.ob b'.obLen
  | .iirDesign _ => SameButOb b b' ∧ SameCellsFrom b.ob b'.ob b'.obLen
  | .firCreate => SameButFir b b' ∧ SameCellsFrom b.fir.tap b'.fir.tap b'.fir.l ∧
      SameCellsFrom b.fir.ring b'.fir.ring (2 * b'.fir.l)
  | .firProc _ => SameButFir b b' ∧ b'.fir = { b.fir with ring := b'.fir.ring, w := b'.fir.w } ∧
      ∀ j, j ≠ b.fir.w → j ≠ b.fir.w + b.fir.l → b'.fir.ring.read j = b.fir.ring.read j
  | .resSetfreq u => ∃ t, unitOf u = some t ∧ SameButRes t b b'
  | .resProc u _ => ∃ t, unitOf u = some t ∧ SameButRes t b b' ∧
      b'.res.get t = { b.res.get t with z1 := (b'.res.get t).z1, z2 := (b'.res.get t).z2 }
  | .bqLoad u => ∃ t, unitOf u = some t ∧ SameButBq t b b' ∧
      SameCellsFrom (b.bq.get t).coef (b'.bq.get t).coef b.obLen ∧
      SameCellsFrom (b.bq.get t).z (b'.bq.get t).z (b'.bq.get t).order
  | .bqProc u _ => ∃ t, unitOf u = some t ∧ SameButBq t b b' ∧
      b'.bq.get t = { b.bq.get t with z := (b'.bq.get t).z } ∧
      SameCellsFrom (b.bq.get t).z (b'.bq.get t).z (b.bq.get t).order
  | .agcConfig _ => SameButAgc b b'
  | .agcTrack _ => SameButAgc b b' ∧ b'.agc = { b.agc with
      currentPeak := b'.agc.currentPeak, sampleCounter := b'.agc.sampleCounter }
  | .agcUpdate => SameButAgc b b' ∧ b'.agc = { b.agc with
      gain := b'.agc.gain, peakHistory := b'.agc.peakHistory, currentPeak := b'.agc.currentPeak,
      sampleCounter := b'.agc.sampleCounter }
  | .agcApply _ => b' = b
  | .syncPreset _ => SameButSync b b' ∧ b'.sync = { b.sync with
      sense := b'.sync.sense, senseSet := b'.sync.senseSet, sLvl := b'.sync.sLvl, sLvl2 := b'.sync.sLvl2,
      sLvl3 := b'.sync.sLvl3 }
  | .syncTiming imm _ => SameButSync b b' ∧
      ((imm = 0#16 ∧ b'.sync = { b.sync with tLMin := b'.sync.tLMin }) ∨
        (imm = 1#16 ∧ b'.sync = { b.sync with tLValid := b'.sync.tLValid }) ∨
        (imm = 2#16 ∧ b'.sync = { b.sync with tStart := b'.sync.tStart }) ∨
        (imm = 3#16 ∧ b'.sync = { b.sync with tBit := b'.sync.tBit }))
  | .syncStep => SameButSync b b' ∧ SameButDynamic b.sync b'.sync
  | .syncReset => SameButSync b b' ∧ SameButDynamic b.sync b'.sync
  | .pipeSampleI16 _ => SamplePartsOnly b b'
  | .pipeSampleF64 _ => SamplePartsOnly b b'
  | .pipeReset => b' = Block.resetWith b.params

/-! ## What a command may read -/

/-- Two blocks that are the same but for cells outside the valid index ranges of 20_memory.md R60. -/
structure SameValid (b b' : Block) : Prop where
  rest : b' = { b with ob := b'.ob, fir := { b.fir with tap := b'.fir.tap, ring := b'.fir.ring }, bq := b'.bq }
  order : ∀ u, (b'.bq.get u).order = (b.bq.get u).order
  ob : ∀ i < b.obLen, b'.ob.read i = b.ob.read i
  tap : ∀ i < b.fir.l, b'.fir.tap.read i = b.fir.tap.read i
  ring : ∀ i < 2 * b.fir.l, b'.fir.ring.read i = b.fir.ring.read i
  coef : ∀ u, ∀ i < 4 * ((b.bq.get u).order / 2) + 2 * ((b.bq.get u).order % 2),
    (b'.bq.get u).coef.read i = (b.bq.get u).coef.read i
  z : ∀ u, ∀ i < 2 * ((b.bq.get u).order / 2) + (b.bq.get u).order % 2,
    (b'.bq.get u).z.read i = (b.bq.get u).z.read i

/-- The commands that read `WDATA` (30_encoding.md R83, R85); the others ignore it. -/
def readsWdata : Instr → Bool
  | .argSet _ _ => true
  | .obClear => false
  | .obPush _ => true
  | .obRead _ => false
  | .regRead _ => false
  | .firDesign _ _ => true
  | .iirDesign _ => false
  | .firCreate => false
  | .firProc _ => true
  | .resSetfreq _ => false
  | .resProc _ _ => true
  | .bqLoad _ => false
  | .bqProc _ _ => true
  | .agcConfig _ => true
  | .agcTrack _ => true
  | .agcUpdate => false
  | .agcApply _ => true
  | .syncPreset _ => false
  | .syncTiming _ _ => true
  | .syncStep => false
  | .syncReset => false
  | .pipeSampleI16 _ => false
  | .pipeSampleF64 _ => true
  | .pipeReset => false

/-- The number of a unit (00_scope.md R4, 30_encoding.md R81). -/
def unitCode : ToneUnit → BitVec 4
  | .leader => 0#4
  | .sync => 1#4
  | .mark => 2#4
  | .space => 3#4

/-! ## The register map (10_state.md R40) -/

/-- The eight registers of unit `u`, from number `256 + 16u` up. -/
def unitRows (u : Nat) (r : Resonator) (q : Biquad) : List (Nat × Word) :=
  [(256 + 16 * u, r.centerFreq), (256 + 16 * u + 1, r.bandwidth), (256 + 16 * u + 2, r.a0),
    (256 + 16 * u + 3, r.b1), (256 + 16 * u + 4, r.b2), (256 + 16 * u + 5, r.z1), (256 + 16 * u + 6, r.z2),
    (256 + 16 * u + 7, BitVec.ofNat 64 q.order)]

/-- The table of R40 as it stands there: number, content. -/
def registerTable (b : Block) : List (Nat × Word) :=
  [(0, BitVec.ofNat 64 (match b.sync.tag with
      | .idle => 0 | .leaderDetect => 1 | .startBitValidate => 2 | .visDecoding => 3 | .dataWait => 4)),
    (1, 0#55 ++ (BitVec.ofBool b.sync.visValid ++ b.sync.visByte)),
    (2, b.flags), (3, b.agc.gain),
    (4, b.diag.env.leader), (5, b.diag.env.sync), (6, b.diag.env.mark), (7, b.diag.env.space),
    (8, b.diag.tap0), (9, b.diag.tap1), (10, b.diag.tap2),
    (11, b.agc.currentPeak), (12, b.agc.peakHistory), (13, b.agc.sampleCounter.setWidth 64),
    (14, b.sync.leadCnt.setWidth 64), (15, b.sync.timer.setWidth 64)] ++
  [(16, 0#52 ++ (b.sync.acc.bitsReceived ++ b.sync.acc.dataByte)),
    (17, b.sync.acc.leaderEnergy), (18, b.sync.acc.markEnergy), (19, b.sync.acc.spaceEnergy),
    (20, b.sync.acc.syncEnergy), (21, BitVec.ofNat 64 b.fir.w), (22, BitVec.ofNat 64 b.fir.l),
    (23, BitVec.ofNat 64 b.obLen), (24, b.sync.sLvl), (25, b.sync.sLvl2), (26, b.sync.sLvl3),
    (27, 0#61 ++ (BitVec.ofBool b.sync.senseSet ++ b.sync.sense)),
    (28, b.sync.tLMin.setWidth 64), (29, b.sync.tLValid.setWidth 64), (30, b.sync.tStart.setWidth 64),
    (31, b.sync.tBit.setWidth 64), (32, b.agc.targetLevel), (33, b.agc.threshold),
    (34, b.agc.windowSamples.setWidth 64)] ++
  unitRows 0 b.res.leader b.bq.leader ++ unitRows 1 b.res.sync b.bq.sync ++
  unitRows 2 b.res.mark b.bq.mark ++ unitRows 3 b.res.space b.bq.space

/-! ## The cascade as a recursion (42_biquad_cascade.md R157 to R159)

Each section reads and writes state cells of its own, so every value below is taken from the state before the command. -/

/-- `wv` of second-order section `j` on input `d` (R157). -/
def section2Mid (q : Biquad) (j : Nat) (d : F64) : F64 :=
  fSub (fSub d (fMul (q.coef.read (4 * j)) (q.z.read (2 * j))))
    (fMul (q.coef.read (4 * j + 1)) (q.z.read (2 * j + 1)))

/-- `y` of second-order section `j` on input `d` (R157). -/
def section2Out (q : Biquad) (j : Nat) (d : F64) : F64 :=
  fAdd (fAdd (fMul (q.coef.read (4 * j + 2)) (section2Mid q j d)) (fMul (q.coef.read (4 * j + 3)) (q.z.read (2 * j))))
    (fMul (q.coef.read (4 * j + 2)) (q.z.read (2 * j + 1)))

/-- `wv` of the trailing first-order section on input `d` (R158). -/
def section1Mid (q : Biquad) (d : F64) : F64 :=
  fSub d (fMul (q.coef.read (4 * (q.order / 2))) (q.z.read (2 * (q.order / 2))))

/-- `y` of the trailing first-order section on input `d` (R158). -/
def section1Out (q : Biquad) (d : F64) : F64 :=
  fAdd (fMul (q.coef.read (4 * (q.order / 2) + 1)) (section1Mid q d))
    (fMul (q.coef.read (4 * (q.order / 2) + 1)) (q.z.read (2 * (q.order / 2))))

/-- The input of section `j`: the command's own for section 0, the output of the section before for the others. -/
def cascadeInput (q : Biquad) (x : F64) : Nat → F64
  | 0 => x
  | j + 1 => section2Out q j (cascadeInput q x j)

/-- The output of the whole cascade (R159). -/
def cascadeOut (q : Biquad) (x : F64) : F64 :=
  if q.order % 2 = 1 then section1Out q (cascadeInput q x (q.order / 2)) else cascadeInput q x (q.order / 2)

/-- The state cell `i` after the command (R157, R158): the flushed `wv` and the shifted value of each section. -/
def cascadeState (q : Biquad) (x : F64) (i : Nat) : F64 :=
  if i = 2 * (q.order / 2) then fFlush (section1Mid q (cascadeInput q x (q.order / 2)))
  else if i % 2 = 0 then fFlush (section2Mid q (i / 2) (cascadeInput q x (i / 2)))
  else q.z.read (i - 1)

/-! ## Runs -/

/-- The convolution of 43_circular_fir.md R174 in the machine's order of operations: `newestFirst` are the samples since
`FIR.CREATE`, the newest first, and a sample that has not arrived is `+0.0`. -/
def convolution (tap : Nat → F64) (l : Nat) (newestFirst : List F64) : F64 :=
  (List.range l).foldl (fun acc k => fAdd acc (fMul (tap k) (newestFirst.getD k 0#64))) 0#64

/-- The output for sample `t` of a stream that starts after `FIR.CREATE`. -/
def firOutput (tap : Nat → F64) (l : Nat) (xs : List F64) (t : Nat) : F64 :=
  convolution tap l (xs.take (t + 1)).reverse

/-! ## Discrimination (41_tone_resonator.md R149) -/

/-- The transactions of `RES.TUNE u, f, fs, BW` (30_encoding.md R94). -/
def tuneUnit (u : ToneUnit) (f fs bw : F64) : List Transaction :=
  [encode (.argSet 0#16 f), encode (.argSet 1#16 fs), encode (.argSet 2#16 bw), encode (.resSetfreq (unitCode u))]

/-- Each sample given to two units, one after the other. -/
def driveBoth (u v : ToneUnit) (xs : List F64) : List Transaction :=
  xs.flatMap fun x => [encode (.resProc (unitCode u) x), encode (.resProc (unitCode v) x)]

/-- `STATUS` and `RDATA` of each of the next `n` steps. -/
def answers : Nat → State → List (BitVec 8 × Word)
  | 0, _ => []
  | n + 1, s => match step s with
    | .next t => (t.status, t.rdata) :: answers n t
    | _ => []

/-- A single pure tone of frequency `f` at the sample rate `fs`, each sample within 1e-6. -/
def IsTone (xs : List F64) (f fs : F64) : Prop :=
  ∀ n (h : n < xs.length), fIsFinite xs[n] = true ∧
    |(valueOf xs[n] : ℝ) - Real.sin (2 * Real.pi * valueOf f * n / valueOf fs)| ≤ 1e-6

/-- The energy of `count` outputs among the answers, from the answer `first` on, every second one. -/
def outputEnergy (ys : List (BitVec 8 × Word)) (first count : Nat) : ℚ :=
  ∑ n ∈ Finset.range count, valueOf (ys.getD (first + 2 * n) (0#8, 0#64)).2 ^ 2

/-- R149, for one configuration and one state: unit `u` is tuned to `f` and unit `v` to `g`, both are driven with `xs`, and
every command is executed; over the `count` samples after the first `settle` ones the energy of the outputs of `u` is more
than 10 times that of `v`. -/
def Discriminates (s : State) (u v : ToneUnit) (f g fs bw : F64) (xs : List F64) (settle count : Nat) : Prop :=
  let ys := answers (8 + 2 * (settle + count))
    { s with pending := tuneUnit u f fs bw ++ tuneUnit v g fs bw ++ driveBoth u v xs }
  ys.length = 8 + 2 * (settle + count) ∧ (∀ y ∈ ys, y.1 = 0#8) ∧
    10 * outputEnergy ys (8 + 2 * settle + 1) count < outputEnergy ys (8 + 2 * settle) count

/-- The four envelopes of one tick (45_sync_decoder.md R200). -/
structure Envelopes where
  le : F64
  sy : F64
  ma : F64
  sp : F64
deriving DecidableEq, Repr

/-- Every envelope is finite. -/
def Envelopes.finite (e : Envelopes) : Bool :=
  fIsFinite e.le && fIsFinite e.sy && fIsFinite e.ma && fIsFinite e.sp

/-- The transactions of `SYNC.FEED le, sy, ma, sp` (30_encoding.md R94): one tick. -/
def feedTick (e : Envelopes) : List Transaction :=
  [encode (.argSet 0#16 e.le), encode (.argSet 1#16 e.sy), encode (.argSet 2#16 e.ma), encode (.argSet 3#16 e.sp),
    encode .syncStep]

/-- The transactions of `n` ticks; tick `k` of R220, counted from 1, has the envelopes `env k`. -/
def feedTicks (env : Nat → Envelopes) : Nat → List Transaction
  | 0 => []
  | n + 1 => feedTicks env n ++ feedTick (env (n + 1))

/-- 45_sync_decoder.md R210: the tones of a tick are separable. -/
def separable (e : Envelopes) (threshold : F64) : Bool :=
  !(fLt e.ma e.le && fLt e.sp e.le) && !fLt (fAbs (fSub e.ma e.sp)) threshold

/-- 45_sync_decoder.md R211: the bit of a tick. -/
def bitOf (e : Envelopes) : Bool := fLt e.sp e.ma

/-- The sum over k = 1..n of `b[k] * 2^(k-1)` (45_sync_decoder.md R220). -/
def byteOf (bits : Nat → Bool) : Nat → Nat
  | 0 => 0
  | n + 1 => byteOf bits n + (if bits (n + 1) then 2 ^ n else 0)

end Sys2Proof.Safety
end

