-- ==== Sys2Proof/Certificates/Slice0/Obligations.lean ====
section
/-!
DEFINITION. The statements for the provers, in the order of spec/. `s.answer b w` and `s.takeFault f` are the two ends of
a command (Sys2Proof/Machine/Ops.lean); `EveryTransactionIsAnsweredOnce` says what they do to the state. A result is a
whole state, so what it does not name is unchanged.
-/

open Sys2Proof Sys2Proof.Machine Sys2Proof.Safety

/-! ## The port, the decoder, the run -/

/-- A step executes the command the first pending transaction decodes to, and takes that transaction off the list. The
step adds nothing else. (30_encoding.md R80; the list of pending transactions is the model's, log 1.) With no command on
the port nothing happens: THE MODEL'S CHOICE (log 3), the spec has the block start nothing by itself (46_pipeline_and_host.md
R250) and does not speak of a step without a command. -/
def Obligations.StepRunsTheDecodedCommand : Prop :=
  (∀ (s : State) (t : Transaction) (rest : List Transaction) (i : Instr),
    s.pending = t :: rest → decode t = .ok i →
      step s = exec i s ∧ ∃ s', exec i s = .next s' ∧ s'.pending = rest) ∧
  ∀ s : State, s.pending = [] → step s = .next s

/-- 60_exceptions.md R266: a transaction is executed (`STATUS = 0`) or answered with one of the ten codes, `RDATA = 0` and
every piece of the block's state as it was; nothing else records the fault. -/
def Obligations.EveryTransactionIsAnsweredOnce : Prop :=
  (∀ (s : State) (t : Transaction) (rest : List Transaction), s.pending = t :: rest →
    ∃ s', step s = .next s' ∧ s'.pending = rest ∧
      (s'.status = 0#8 ∨
        (1 ≤ s'.status.toNat ∧ s'.status.toNat ≤ 10 ∧ s' = { s with pending := rest, status := s'.status, rdata := 0#64 }))) ∧
  (∀ (s : State) (i : Instr), ∃ s', exec i s = .next s' ∧
      (s'.status = 0#8 ∨
        (1 ≤ s'.status.toNat ∧ s'.status.toNat ≤ 10 ∧
          s' = { s with pending := s.pending.tail, status := s'.status, rdata := 0#64 }))) ∧
  (∀ (s : State) (b : Block) (w : Word), s.answer b w = { block := b, pending := s.pending.tail, status := 0#8, rdata := w }) ∧
  ∀ (s : State) (f : FaultCode), s.takeFault f =
    { s with pending := s.pending.tail, rdata := 0#64, status := match f with
      | .illegalCommand => 1#8 | .badUnit => 2#8 | .badIndex => 3#8 | .obOverflow => 4#8 | .notConfigured => 5#8
      | .badLength => 6#8 | .nonFinite => 7#8 | .invalidSpec => 8#8 | .invalidOrder => 9#8 | .badConfig => 10#8 }

/-- 30_encoding.md R86, on the bits of the command word: the illegal words are answered with `IllegalCommand`, every other
word is a command, and one that names a unit 4..15 is answered with `BadUnit`. -/
def Obligations.IllegalWordsAreRefused : Prop :=
  ∀ (cw : BitVec 32) (wdata : Word) (s : State) (rest : List Transaction), s.pending = ⟨cw, wdata⟩ :: rest →
    let op := cw.extractLsb' 0 8
    let u := cw.extractLsb' 8 4
    let rsv := cw.extractLsb' 12 4
    let imm := cw.extractLsb' 16 16
    let formatN := op ∈ [0x02#8, 0x03#8, 0x20#8, 0x21#8, 0x50#8, 0x51#8, 0x52#8, 0x53#8, 0x62#8, 0x63#8, 0x71#8, 0x7F#8]
    let formatU := op ∈ [0x30#8, 0x31#8, 0x40#8, 0x41#8]
    let formatI := op ∈ [0x01#8, 0x04#8, 0x05#8, 0x10#8, 0x11#8, 0x60#8, 0x61#8, 0x70#8]
    let illegal := rsv ≠ 0#4 ∨ (¬ formatN ∧ ¬ formatU ∧ ¬ formatI) ∨ (formatN ∧ (u ≠ 0#4 ∨ imm ≠ 0#16)) ∨
      (formatU ∧ imm ≠ 0#16) ∨ (formatI ∧ u ≠ 0#4)
    (illegal → step s = .next { s with pending := rest, status := 1#8, rdata := 0#64 }) ∧
      (¬ illegal → ∃ i, decode ⟨cw, wdata⟩ = .ok i) ∧
      (¬ illegal → formatU → 4 ≤ u.toNat → step s = .next { s with pending := rest, status := 2#8, rdata := 0#64 })

/-- 30_encoding.md R95: the worked encodings, word for word. -/
def Obligations.WorkedEncodingsDecode : Prop :=
  decode ⟨0x00010001#32, 0x40C5888000000000#64⟩ = .ok (.argSet 1#16 0x40C5888000000000#64) ∧
  decode ⟨0x00000231#32, 0x3FE0000000000000#64⟩ = .ok (.resProc (unitCode .mark) 0x3FE0000000000000#64) ∧
  decode ⟨0x00020010#32, 0x0000000000000010#64⟩ = .ok (.firDesign 2#16 16#64) ∧
  filterKindOf 2#16 = some .bandPass ∧
  decode ⟨0x00030061#32, 0x000000000000014B#64⟩ = .ok (.syncTiming 3#16 331#64) ∧
  timingRegOf 3#16 = some .bit ∧
  (-1200#16) = 0xFB50#16 ∧
  ∀ w : Word,
    decode ⟨0x00020011#32, w⟩ = .ok (.iirDesign 2#16) ∧ iirFieldsOf 2#16 = some (2, false) ∧
    decode ⟨0x01030011#32, w⟩ = .ok (.iirDesign 0x103#16) ∧ iirFieldsOf 0x103#16 = some (3, true) ∧
    decode ⟨0xFB500070#32, w⟩ = .ok (.pipeSampleI16 (-1200#16)) ∧
    decode ⟨0x00010005#32, w⟩ = .ok (.regRead 1#16) ∧
    decode ⟨0x0000007F#32, w⟩ = .ok .pipeReset ∧
    decode ⟨0x00001021#32, w⟩ = .error .illegalCommand ∧
    decode ⟨0x00000000#32, w⟩ = .error .illegalCommand ∧
    decode ⟨0x00000431#32, w⟩ = .ok (.resProc 4#4 w) ∧
    ∀ s : State, exec (.resProc 4#4 w) s = .next (s.takeFault .badUnit)

/-- Decoding the words of any command gives the command, every field at every value: no bit is dropped. -/
def Obligations.DecodeOfEncode : Prop := ∀ i : Instr, decode (encode i) = .ok i

/-- A transaction that decodes is the encoding of its command, but for a `WDATA` the command ignores (30_encoding.md R82,
R83). -/
def Obligations.EncodeOfDecode : Prop :=
  ∀ (t : Transaction) (i : Instr), decode t = .ok i → encode i = ⟨t.cw, if readsWdata i then t.wdata else 0#64⟩

/-- No run stops: "there is no third, fatal state" (60_exceptions.md R278, 46_pipeline_and_host.md R251). -/
def Obligations.NoRunStops : Prop := ∀ (n : Nat) (s : State), ∃ t, Sys2Proof.core.run n s = .next t

/-! ## Reset -/

/-- 10_state.md R49: the table, after power-on and after `PIPE.RESET`, of a block with any parameters; `gain` is
`AGC_GAIN_INIT`. The cells without a value are the ones no command can read there: every command that reads one faults. The
state the machine starts in has the default parameters of 00_scope.md R11 (log 9). -/
def Obligations.ResetValues : Prop :=
  State.reset = State.resetWith ⟨1024, 16, 1024, 0x40E0000000000000#64, 0x3FF0000000000000#64⟩ ∧
  ∀ p : Config.Params,
  let b := (State.resetWith p).block
  b.params = p ∧
  (∀ i (h : i < 8), b.arg[i] = 0#64) ∧ b.obLen = 0 ∧ b.fir.l = 0 ∧ b.fir.w = 0 ∧
  (∀ u, (b.res.get u) = ⟨0#64, 0#64, 0#64, 0#64, 0#64, 0#64, 0#64, false⟩) ∧ (∀ u, (b.bq.get u).order = 0) ∧
  b.agc = { targetLevel := 0#64, windowSamples := 0#32, threshold := 0#64, sampleCounter := 0#32, currentPeak := 0#64,
            peakHistory := 0#64, gain := p.agcGainInit, cfg := false } ∧
  b.sync = { sense := 0#2, senseSet := false, sLvl := 0#64, sLvl2 := 0#64, sLvl3 := 0#64, tLMin := 0#32, tLValid := 0#32,
             tStart := 0#32, tBit := 0#32, tag := .idle, leadCnt := 0#32, timer := 0#32,
             acc := ⟨0#4, 0#8, 0#64, 0#64, 0#64, 0#64⟩, visByte := 0#8, visValid := false } ∧
  b.ovf = false ∧ b.diag = ⟨0#64, 0#64, 0#64, ⟨0#64, 0#64, 0#64, 0#64⟩⟩ ∧
  (∀ s t : State, s.block.params = p → exec .pipeReset s = .next t → t.block = b) ∧
  ∀ s : State, s.block = b →
    (∀ imm, exec (.obRead imm) s = .next (s.takeFault .badIndex)) ∧
    exec .firCreate s = .next (s.takeFault .badLength) ∧
    (∀ u, exec (.bqLoad (unitCode u)) s = .next (s.takeFault .badLength)) ∧
    (∀ x, exec (.firProc x) s = .next (s.takeFault .notConfigured)) ∧
    (∀ u x, exec (.bqProc (unitCode u) x) s = .next (s.takeFault .notConfigured)) ∧
    (∀ imm, exec (.pipeSampleI16 imm) s = .next (s.takeFault .notConfigured)) ∧
    ∀ x, exec (.pipeSampleF64 x) s = .next (s.takeFault .notConfigured)

/-- 46_pipeline_and_host.md R249: `PIPE.RESET` in every state; no other command clears `ovf`. -/
def Obligations.PipeResetRestoresReset : Prop :=
  (∀ w, decode ⟨0x0000007F#32, w⟩ = .ok .pipeReset) ∧
  ∀ s : State, exec .pipeReset s = .next (s.answer (State.resetWith s.block.params).block 0#64) ∧
    (∀ t, exec .pipeReset s = .next t → exec (.regRead 2#16) t = .next (t.answer t.block 0#64)) ∧
    ∀ i t, exec i s = .next t → s.block.ovf = true → t.block.ovf = false → i = .pipeReset

/-- What holds of every state the block can be in holds right after reset, for a block with any legal parameters. Of the
seven, `CellsCanonical` is the model's own form of a memory (DESIGN CHOICE, log 5), not a rule of the spec; the others are
20_memory.md R60, 43_circular_fir.md R173, 45_sync_decoder.md R215, 44_level_agc.md R191, 60_exceptions.md R279 and
41_tone_resonator.md R147. -/
def Obligations.ResetMeetsTheInvariants : Prop :=
  ParamsOk Config.defaults ∧
  ∀ p : Config.Params, ParamsOk p →
    let b := (State.resetWith p).block
    CellsCanonical b ∧ WithinSpaces b ∧ FirOk b.fir ∧ SyncOk b.sync ∧ AgcOk b.agc ∧ AllFinite b ∧ DelaysFlushed b

/-! ## Transport (46_pipeline_and_host.md R236 to R240) -/

/-- R236: one argument register takes the data word; no pattern is refused. -/
def Obligations.ArgSetWritesOneRegister : Prop :=
  ∀ (imm : BitVec 16) (v : Word) (s : State),
    decode ⟨imm ++ 0x0001#16, v⟩ = .ok (.argSet imm v) ∧
    (∀ h : imm.toNat < 8, exec (.argSet imm v) s =
      .next (s.answer { s.block with arg := s.block.arg.set imm.toNat v } 0#64)) ∧
    (8 ≤ imm.toNat → exec (.argSet imm v) s = .next (s.takeFault .badIndex))

/-- R237: the cells keep their bits, and no command can read one any more. -/
def Obligations.ObClearEmptiesTheBuffer : Prop :=
  (∀ w, decode ⟨0x00000002#32, w⟩ = .ok .obClear) ∧
  ∀ s : State, exec .obClear s = .next (s.answer { s.block with obLen := 0 } 0#64) ∧
    ∀ t imm, exec .obClear s = .next t → exec (.obRead imm) t = .next (t.takeFault .badIndex)

/-- R238: the word goes to cell `OBLEN`, every other cell reads as before; a full buffer is `OBOverflow`. -/
def Obligations.ObPushAppends : Prop :=
  ∀ (v : Word) (s : State),
    decode ⟨0x00000003#32, v⟩ = .ok (.obPush v) ∧
    (s.block.obLen ≠ s.block.params.obMax → ∃ m : Memory,
      exec (.obPush v) s = .next (s.answer { s.block with ob := m, obLen := s.block.obLen + 1 } 0#64) ∧
      m.read s.block.obLen = v ∧ ∀ j, j ≠ s.block.obLen → m.read j = s.block.ob.read j) ∧
    (s.block.obLen = s.block.params.obMax → exec (.obPush v) s = .next (s.takeFault .obOverflow))

/-- R239: the cell, and no state is written. -/
def Obligations.ObReadReturnsTheCell : Prop :=
  ∀ (imm : BitVec 16) (w : Word) (s : State),
    decode ⟨imm ++ 0x0004#16, w⟩ = .ok (.obRead imm) ∧
    (imm.toNat < s.block.obLen → exec (.obRead imm) s = .next (s.answer s.block (s.block.ob.read imm.toNat))) ∧
    (s.block.obLen ≤ imm.toNat → exec (.obRead imm) s = .next (s.takeFault .badIndex))

/-- R240 with the table of 10_state.md R40: the register, no state is written, and a number outside the table faults. -/
def Obligations.RegReadReturnsTheRegister : Prop :=
  ∀ (imm : BitVec 16) (w : Word) (s : State),
    decode ⟨imm ++ 0x0005#16, w⟩ = .ok (.regRead imm) ∧
    (∀ v, (imm.toNat, v) ∈ registerTable s.block → exec (.regRead imm) s = .next (s.answer s.block v)) ∧
    ((∀ v, (imm.toNat, v) ∉ registerTable s.block) → exec (.regRead imm) s = .next (s.takeFault .badIndex))

/-- 10_state.md R41, bit by bit. -/
def Obligations.FlagsRegisterBits : Prop :=
  ∀ b : Block,
    b.flags.getLsbD 0 = b.ovf ∧ b.flags.getLsbD 1 = decide (0 < b.fir.l) ∧ b.flags.getLsbD 2 = b.agc.cfg ∧
    b.flags.getLsbD 3 = b.sync.senseSet ∧
    (∀ u, b.flags.getLsbD (4 + (unitCode u).toNat) = (b.res.get u).tuned) ∧
    (∀ u, b.flags.getLsbD (8 + (unitCode u).toNat) = decide (0 < (b.bq.get u).order)) ∧
    b.flags.getLsbD 12 = decide (1 ≤ b.sync.tLMin.toNat ∧ 1 ≤ b.sync.tLValid.toNat ∧ 1 ≤ b.sync.tStart.toNat ∧
      1 ≤ b.sync.tBit.toNat) ∧
    ∀ i, 13 ≤ i → b.flags.getLsbD i = false

/-- 30_encoding.md R92: the status word of the three stepping commands, from the state after the step. -/
def Obligations.StatusWordLayout : Prop :=
  ∀ (i : Instr) (s t : State),
    (i = .syncStep ∨ (∃ imm, i = .pipeSampleI16 imm) ∨ ∃ x, i = .pipeSampleF64 x) →
    exec i s = .next t → t.status = 0#8 →
      t.rdata.extractLsb' 0 8 = t.block.sync.visByte ∧ t.rdata.getLsbD 8 = t.block.sync.visValid ∧
      t.rdata.extractLsb' 9 3 = (match t.block.sync.tag with
        | .idle => 0#3 | .leaderDetect => 1#3 | .startBitValidate => 2#3 | .visDecoding => 3#3 | .dataWait => 4#3) ∧
      t.rdata.getLsbD 12 = decide (s.block.sync.tag = .visDecoding ∧ t.block.sync.tag = .dataWait) ∧
      t.rdata.getLsbD 13 = decide (s.block.sync.tag = .visDecoding ∧ t.block.sync.tag = .idle) ∧
      t.rdata.getLsbD 14 = t.block.ovf ∧ ∀ j, 15 ≤ j → t.rdata.getLsbD j = false

/-- 10_state.md R42: what each executed command leaves alone. -/
def Obligations.CommandsWriteOnlyTheirWriteSet : Prop :=
  ∀ (i : Instr) (s t : State), exec i s = .next t →
    (t.status = 0#8 → WriteSet i s.block t.block) ∧ (t.status ≠ 0#8 → t.block = s.block)

/-! ## FilterDesigner (40_filter_designer.md) -/

/-- R111 and R113 to R122, written out: the cutoff of the prototype, the three pieces of the Kaiser parameter, the window,
the ideal response, the normalising sum, the gain and the band transformation. Cell `H + j` and cell `H - j` hold the tap of
distance `j`, cells past `OB[N]` are as before. The corners of R114 and R116: the parameter at `A = 21`, the window at
parameter 0 and at its end. `I0` is the loop of R115 wherever that stops within 4096 passes (log 10); `Numerics` is open
(log 6); the literals are the nearest binary64 values (log 16). That a tap that is not finite faults with NonFinite is the
model's reading of R279 (DEDUCED, log 11). -/
def Obligations.FirDesignWritesTheTaps : Prop :=
  ∃ i0 : F64 → F64, IsBessel i0 ∧
  ∀ (kind : FilterKind) (imm : BitVec 16) (tapCount : Word) (s : State),
    (imm, kind) ∈ [(0#16, FilterKind.lowPass), (1#16, .highPass), (2#16, .bandPass), (3#16, .bandStop)] →
    decode ⟨imm ++ 0x0010#16, tapCount⟩ = .ok (.firDesign imm tapCount) ∧
    let n := tapCount.toNat
    let fs := s.block.arg[0]
    let fLow := s.block.arg[1]
    let fHigh := s.block.arg[2]
    let a := s.block.arg[3]
    let g := s.block.arg[4]
    let half := fDiv fs Config.two
    let fc := match kind with
      | .lowPass => fLow
      | .highPass => fSub half fLow
      | .bandPass => fDiv (fSub fHigh fLow) Config.two
      | .bandStop => fDiv (fSub fHigh fLow) Config.two
    let a21 := fSub a 0x4035000000000000#64
    let alpha := if fLt a 0x4035000000000000#64 then 0#64
      else if fLt a 0x4049000000000000#64 then
        fAdd (fMul 0x3FE2B1C432CA57A8#64 (numerics.pow a21 0x3FD999999999999A#64)) (fMul 0x3FB4302B40F66A55#64 a21)
      else fMul 0x3FBC36113404EA4B#64 (fSub a 0x4021666666666666#64)
    let win := fun j =>
      let r := fDiv (fOfNat (2 * j)) (fOfNat n)
      fDiv (i0 (fMul alpha (numerics.sqrt (fSub Config.one (fMul r r))))) (i0 alpha)
    let h := fun j => if j = 0 then fDiv (fMul Config.two fc) fs
      else fMul (fDiv (numerics.sin (fDiv (fMul (fMul (fMul Config.two Config.pi) fc) (fOfNat j)) fs))
        (fMul Config.pi (fOfNat j))) (win j)
    let sum := (List.range (n / 2)).foldl (fun acc j => fAdd acc (fMul Config.two (h (j + 1)))) (h 0)
    let w0 := fDiv (fMul Config.pi (fAdd fLow fHigh)) fs
    let tap := fun j =>
      let v := fMul (fDiv (h j) sum) g
      let m := fMul Config.two (numerics.cos (fMul (fOfNat j) w0))
      match kind with
      | .lowPass => v
      | .highPass => if j % 2 = 0 then v else fNeg v
      | .bandPass => if j = 0 then fMul Config.two v else fMul v m
      | .bandStop => if j = 0 then fSub Config.one (fMul Config.two v) else fNeg (fMul v m)
    (fIsFinite fs = true ∧ fIsFinite fLow = true ∧ fIsFinite a = true ∧ fIsFinite g = true) →
    (n % 2 = 0 ∧ 1 ≤ n ∧ n + 1 ≤ s.block.params.lMax ∧ n + 1 ≤ s.block.params.obMax ∧ n < 2 ^ 32) →
    (fLt 0#64 fLow = true ∧ fLt fLow half = true ∧ fLe 0#64 a = true) →
    (kind = .bandPass ∨ kind = .bandStop →
      fIsFinite fHigh = true ∧ fLt 0#64 fHigh = true ∧ fLt fHigh half = true ∧ fLt fLow fHigh = true) →
    (a = 0x4035000000000000#64 → alpha = 0#64) ∧
    (alpha = 0#64 → ∀ j ≤ n / 2, win j = Config.one) ∧
    win (n / 2) = fDiv Config.one (i0 alpha) ∧
    (fLt 0#64 sum = false → exec (.firDesign imm tapCount) s = .next (s.takeFault .invalidSpec)) ∧
    (fLt 0#64 sum = true → (∃ j ≤ n / 2, fIsFinite (tap j) = false) →
      exec (.firDesign imm tapCount) s = .next (s.takeFault .nonFinite)) ∧
    (fLt 0#64 sum = true → (∀ j ≤ n / 2, fIsFinite (tap j) = true) →
      ∃ m : Memory,
        exec (.firDesign imm tapCount) s =
          .next (s.answer { s.block with ob := m, obLen := n + 1 } (BitVec.ofNat 64 (n + 1))) ∧
        (∀ j ≤ n / 2, m.read (n / 2 + j) = tap j ∧ m.read (n / 2 - j) = tap j) ∧
        ∀ i, n < i → m.read i = s.block.ob.read i)

/-- R112: the operand checks in their order; nothing is clamped (60_exceptions.md R277). -/
def Obligations.FirDesignRefusals : Prop :=
  (∀ (imm : BitVec 16) (tapCount : Word) (s : State), 4 ≤ imm.toNat →
    exec (.firDesign imm tapCount) s = .next (s.takeFault .badIndex)) ∧
  ∀ (kind : FilterKind) (imm : BitVec 16) (tapCount : Word) (s : State), filterKindOf imm = some kind →
    let n := tapCount.toNat
    let fs := s.block.arg[0]
    let fLow := s.block.arg[1]
    let fHigh := s.block.arg[2]
    let a := s.block.arg[3]
    let g := s.block.arg[4]
    let half := fDiv fs Config.two
    let band := kind = .bandPass ∨ kind = .bandStop
    let finite := fIsFinite fs = true ∧ fIsFinite fLow = true ∧ fIsFinite a = true ∧ fIsFinite g = true ∧
      (band → fIsFinite fHigh = true)
    let legal := (n < 2 ^ 32 ∧ 1 ≤ n) ∧ (n % 2 = 0 ∧ n + 1 ≤ s.block.params.lMax ∧ n + 1 ≤ s.block.params.obMax) ∧
      (fLt 0#64 fLow = true ∧ fLt fLow half = true) ∧
      (band → fLt 0#64 fHigh = true ∧ fLt fHigh half = true ∧ fLt fLow fHigh = true) ∧ fLe 0#64 a = true
    (¬ finite → exec (.firDesign imm tapCount) s = .next (s.takeFault .nonFinite)) ∧
      (finite → ¬ legal → exec (.firDesign imm tapCount) s = .next (s.takeFault .invalidSpec))

/-- R123: the taps of every design that is executed are symmetric, bit for bit. -/
def Obligations.FirDesignTapsAreSymmetric : Prop :=
  ∀ (imm : BitVec 16) (tapCount : Word) (s t : State), exec (.firDesign imm tapCount) s = .next t → t.status = 0#8 →
    ∀ i ≤ tapCount.toNat, t.block.ob.read i = t.block.ob.read (tapCount.toNat - i)

/-- R126, R128 to R132: a legal specification. `Numerics` is open (log 6); that a coefficient that is not finite faults with
NonFinite and writes nothing is the model's reading of R279 (DEDUCED, log 11). Of the tangent 00_scope.md R16 gives only
that it is finite, so no one order is sure to have finite coefficients; the last clause says that at every legal cutoff
and rate (with a finite `PI*fc/fs`) the Butterworth design of order 1 or that of order 2 is executed. That clause rests on
the accuracy the model reads from R145 (DEDUCED, log 7): order 2 is finite for the tangent -1 because the sine and the
cosine of its pole angle are within 1e-9 of the real ones. -/
def Obligations.IirDesignWritesTheSections : Prop :=
  (∀ (imm : BitVec 16) (w : Word) (s : State), imm.toNat < 512 →
    decode ⟨imm ++ 0x0011#16, w⟩ = .ok (.iirDesign imm) ∧
    let n := imm.toNat % 256
    let cheb := imm.getLsbD 8
    let fc := s.block.arg[0]
    let fs := s.block.arg[1]
    let r := s.block.arg[2]
    let kk := numerics.tan (fDiv (fMul Config.pi fc) fs)
    let eps := numerics.sqrt (fSub (numerics.pow Config.ten (fDiv r Config.ten)) Config.one)
    let v := fDiv (numerics.asinh (fDiv Config.one eps)) (fOfNat n)
    let theta := fun k => fDiv (fMul Config.pi (fOfNat (2 * k + 1))) (fOfNat (2 * n))
    let sg := fun k => if cheb then fMul (numerics.sinh v) (numerics.sin (theta k)) else numerics.sin (theta k)
    let om := fun k => if cheb then fMul (numerics.cosh v) (numerics.cos (theta k)) else numerics.cos (theta k)
    let c := if cheb then numerics.sinh v else Config.one
    let wkk := fun k => fMul (fMul (fAdd (fMul (sg k) (sg k)) (fMul (om k) (om k))) kk) kk
    let sgk := fun k => fMul (fMul Config.two (sg k)) kk
    let d := fun k => fAdd (fAdd Config.one (sgk k)) (wkk k)
    let a1 := fun k => fDiv (fMul Config.two (fSub (wkk k) Config.one)) (d k)
    let a2 := fun k => fDiv (fAdd (fSub Config.one (sgk k)) (wkk k)) (d k)
    let b0 := fun k => fDiv (wkk k) (d k)
    let b1 := fun k => fMul Config.two (b0 k)
    let a1' := fDiv (fSub (fMul c kk) Config.one) (fAdd (fMul c kk) Config.one)
    let b0' := fDiv (fMul c kk) (fAdd Config.one (fMul c kk))
    let len := 4 * (n / 2) + 2 * (n % 2)
    let finite := (∀ k < n / 2, fIsFinite (a1 k) = true ∧ fIsFinite (a2 k) = true ∧ fIsFinite (b0 k) = true ∧
      fIsFinite (b1 k) = true) ∧ (n % 2 = 1 → fIsFinite a1' = true ∧ fIsFinite b0' = true)
    (1 ≤ n ∧ n ≤ s.block.params.orderMax) →
    (fIsFinite fc = true ∧ fIsFinite fs = true ∧ (cheb = true → fIsFinite r = true)) →
    (fLt 0#64 fs = true ∧ fLt 0#64 fc = true ∧ fLt fc (fDiv fs Config.two) = true ∧ (cheb = true → fLt 0#64 r = true)) →
    (finite → ∃ m : Memory,
      exec (.iirDesign imm) s = .next (s.answer { s.block with ob := m, obLen := len } (BitVec.ofNat 64 len)) ∧
      (∀ k < n / 2, m.read (4 * k) = a1 k ∧ m.read (4 * k + 1) = a2 k ∧ m.read (4 * k + 2) = b0 k ∧
        m.read (4 * k + 3) = b1 k) ∧
      (n % 2 = 1 → m.read (4 * (n / 2)) = a1' ∧ m.read (4 * (n / 2) + 1) = b0') ∧
      ∀ i, len ≤ i → m.read i = s.block.ob.read i) ∧
    (¬ finite → exec (.iirDesign imm) s = .next (s.takeFault .nonFinite))) ∧
  ∀ s : State, 2 ≤ s.block.params.orderMax →
    (fIsFinite s.block.arg[0] = true ∧ fIsFinite s.block.arg[1] = true ∧ fLt 0#64 s.block.arg[1] = true ∧
      fLt 0#64 s.block.arg[0] = true ∧ fLt s.block.arg[0] (fDiv s.block.arg[1] Config.two) = true) →
    fIsFinite (fDiv (fMul Config.pi s.block.arg[0]) s.block.arg[1]) = true →
      ∃ imm ∈ [1#16, 2#16], ∃ t, exec (.iirDesign imm) s = .next t ∧ t.status = 0#8

/-- R127: the operand checks in their order. -/
def Obligations.IirDesignRefusals : Prop :=
  (∀ (imm : BitVec 16) (s : State), 512 ≤ imm.toNat → exec (.iirDesign imm) s = .next (s.takeFault .badIndex)) ∧
  ∀ (imm : BitVec 16) (s : State), imm.toNat < 512 →
    let n := imm.toNat % 256
    let cheb := imm.getLsbD 8
    let fc := s.block.arg[0]
    let fs := s.block.arg[1]
    let r := s.block.arg[2]
    let order := 1 ≤ n ∧ n ≤ s.block.params.orderMax
    let finite := fIsFinite fc = true ∧ fIsFinite fs = true ∧ (cheb = true → fIsFinite r = true)
    let legal := fLt 0#64 fs = true ∧ (fLt 0#64 fc = true ∧ fLt fc (fDiv fs Config.two) = true) ∧
      (cheb = true → fLt 0#64 r = true)
    (¬ order → exec (.iirDesign imm) s = .next (s.takeFault .invalidOrder)) ∧
      (order → ¬ finite → exec (.iirDesign imm) s = .next (s.takeFault .nonFinite)) ∧
      (order → finite → ¬ legal → exec (.iirDesign imm) s = .next (s.takeFault .invalidSpec))

/-! ## CircularFIRFilter (43_circular_fir.md) -/

/-- R171: a TapSet of a legal length and of finite taps is bound, the ring of `2L` cells is zero, `w` is 0. -/
def Obligations.FirCreateBindsTheTaps : Prop :=
  (∀ w, decode ⟨0x00000020#32, w⟩ = .ok .firCreate) ∧
  ∀ s : State,
    let len := s.block.obLen
    let legal := 1 ≤ len ∧ len ≤ s.block.params.lMax
    let finite := ∀ i < len, fIsFinite (s.block.ob.read i) = true
    (legal → finite → ∃ tap ring : Memory,
      exec .firCreate s = .next (s.answer { s.block with fir := ⟨tap, len, ring, 0⟩ } 0#64) ∧
      (∀ i < len, tap.read i = s.block.ob.read i) ∧ (∀ i < 2 * len, ring.read i = 0#64) ∧
      (∀ i, len ≤ i → tap.read i = s.block.fir.tap.read i) ∧
      ∀ i, 2 * len ≤ i → ring.read i = s.block.fir.ring.read i) ∧
    (¬ legal → exec .firCreate s = .next (s.takeFault .badLength)) ∧
    (legal → ¬ finite → exec .firCreate s = .next (s.takeFault .nonFinite))

/-- R172: the sample goes to both halves of the ring, the output is the sum over `k = 0..L-1` from `+0.0`, `w` advances
modulo `L`; the checks in their order. -/
def Obligations.FirProcFiltersOneSample : Prop :=
  ∀ (x : F64) (s : State),
    let f := s.block.fir
    let ring' := fun j => if j = f.w ∨ j = f.w + f.l then x else f.ring.read j
    let acc := (List.range f.l).foldl (fun acc k => fAdd acc (fMul (f.tap.read k) (ring' (f.w + f.l - k)))) 0#64
    decode ⟨0x00000021#32, x⟩ = .ok (.firProc x) ∧
    (f.l ≠ 0 → fIsFinite x = true → fIsFinite acc = true → ∃ m : Memory,
      exec (.firProc x) s =
        .next (s.answer { s.block with fir := { f with ring := m, w := (f.w + 1) % f.l } } acc) ∧
      ∀ j, m.read j = ring' j) ∧
    (f.l = 0 → exec (.firProc x) s = .next (s.takeFault .notConfigured)) ∧
    (f.l ≠ 0 → fIsFinite x = false → exec (.firProc x) s = .next (s.takeFault .nonFinite)) ∧
    (f.l ≠ 0 → fIsFinite x = true → fIsFinite acc = false → exec (.firProc x) s = .next (s.takeFault .nonFinite))

/-- R173: (b) and (c) hold after reset and are kept by every step of every command, (a) `FIR.PROC` keeps the length,
(d) the indices `FIR.PROC` uses lie in `0..2L-1`. -/
def Obligations.FirInvariantsAreKept : Prop :=
  (∀ p, FirOk (State.resetWith p).block.fir) ∧
  (∀ s t : State, FirOk s.block.fir → step s = .next t → FirOk t.block.fir) ∧
  (∀ (x : F64) (s t : State), exec (.firProc x) s = .next t → t.block.fir.l = s.block.fir.l) ∧
  ∀ f : Fir, FirOk f → 0 < f.l →
    f.w ≤ 2 * f.l - 1 ∧ f.w + f.l ≤ 2 * f.l - 1 ∧ ∀ k < f.l, 1 ≤ f.w + f.l - k ∧ f.w + f.l - k ≤ 2 * f.l - 1

/-- R174: from a fresh filter on, the output for sample `t` is the convolution of the taps with the samples so far, zero
before the first, in the machine's order of operations; `w` is the number of samples modulo `L`. The stream is any
list of samples with finite outputs, given to the block one command each. -/
def Obligations.FirComputesTheConvolution : Prop :=
  ∀ (s : State) (xs : List F64) (rest : List Transaction),
    let f := s.block.fir
    0 < f.l → f.w = 0 → (∀ i < 2 * f.l, f.ring.read i = 0#64) →
    s.pending = xs.map (fun x => encode (.firProc x)) ++ rest →
    (∀ x ∈ xs, fIsFinite x = true) → (∀ t < xs.length, fIsFinite (firOutput f.tap.read f.l xs t) = true) →
      ∃ s' : State, Sys2Proof.core.run xs.length s = .next s' ∧ s'.pending = rest ∧
        SameButFir s.block s'.block ∧ s'.block.fir.tap = f.tap ∧ s'.block.fir.l = f.l ∧
        s'.block.fir.w = xs.length % f.l ∧
        (∀ k < f.l, s'.block.fir.ring.read ((xs.length + f.l - 1) % f.l + f.l - k) = xs.reverse.getD k 0#64) ∧
        ∀ n, xs.length = n + 1 → s'.status = 0#8 ∧ s'.rdata = firOutput f.tap.read f.l xs n

/-- R176: the one-tap filters `[1.0]` and `[0.5]` on every finite sample, and the moving average `[0.5, 0.5]` on the step
sequence of ones: 0.5, then 1.0 for ever. -/
def Obligations.FirOneTapFilters : Prop :=
  (∀ (x : F64) (s : State), s.block.fir.l = 1 → s.block.fir.w = 0 → fIsFinite x = true →
    (s.block.fir.tap.read 0 = 0x3FF0000000000000#64 →
      ∃ t, exec (.firProc x) s = .next t ∧ t.status = 0#8 ∧
        t.rdata = if x = 0x8000000000000000#64 then 0#64 else x) ∧
    (s.block.fir.tap.read 0 = 0x3FE0000000000000#64 →
      ∃ t, exec (.firProc x) s = .next t ∧ t.status = 0#8 ∧
        t.rdata = fAdd 0#64 (fMul 0x3FE0000000000000#64 x) ∧
        (0x0020000000000000 ≤ fMag x ∨ x.getLsbD 0 = false → 2 * fInt t.rdata = fInt x))) ∧
  ∀ (n : Nat) (s : State) (rest : List Transaction), s.block.fir.l = 2 → s.block.fir.w = 0 →
    (∀ i < 4, s.block.fir.ring.read i = 0#64) →
    s.block.fir.tap.read 0 = 0x3FE0000000000000#64 → s.block.fir.tap.read 1 = 0x3FE0000000000000#64 →
    s.pending = List.replicate (n + 1) (encode (.firProc 0x3FF0000000000000#64)) ++ rest →
      ∃ t, Sys2Proof.core.run (n + 1) s = .next t ∧ t.status = 0#8 ∧
        t.rdata = if n = 0 then 0x3FE0000000000000#64 else 0x3FF0000000000000#64

/-! ## ToneResonator (41_tone_resonator.md) -/

/-- R141, R142, R146: the seven fields of one unit; the checks in their order; the corner `BW = 0` (an undamped unit,
70_reset_and_hazards.md R301). `Numerics` is open (log 6); that a coefficient that is not finite faults with NonFinite and
writes nothing is the model's reading of R279 (DEDUCED, log 11). -/
def Obligations.ResSetfreqTunesTheUnit : Prop :=
  (∀ (v : BitVec 4) (w : Word), decode ⟨0#16 ++ (0#4 ++ (v ++ 0x30#8)), w⟩ = .ok (.resSetfreq v)) ∧
  (∀ (v : BitVec 4) (s : State), 4 ≤ v.toNat → exec (.resSetfreq v) s = .next (s.takeFault .badUnit)) ∧
  ∀ (u : ToneUnit) (s : State),
    let f := s.block.arg[0]
    let fs := s.block.arg[1]
    let bw := s.block.arg[2]
    let finite := fIsFinite f = true ∧ fIsFinite fs = true ∧ fIsFinite bw = true
    let legal := fLt 0#64 fs = true ∧ fLe 0#64 bw = true ∧ fLe 0#64 f = true
    let wc := fDiv (fMul (fMul Config.two Config.pi) f) fs
    let b1 := fMul (fMul Config.two (numerics.exp (fNeg (fDiv (fMul Config.pi bw) fs)))) (numerics.cos wc)
    let b2 := fNeg (numerics.exp (fNeg (fDiv (fMul (fMul Config.two Config.pi) bw) fs)))
    let a0 := if fEq bw 0#64 then numerics.sin wc
      else fDiv (numerics.sin wc) (fDiv (fDiv fs Config.six) bw)
    let bounded := fIsFinite a0 = true ∧ fIsFinite b1 = true ∧ fIsFinite b2 = true
    (finite → legal → bounded →
      exec (.resSetfreq (unitCode u)) s =
        .next (s.answer { s.block with res := s.block.res.set u ⟨f, bw, a0, b1, b2, 0#64, 0#64, true⟩ } 0#64)) ∧
    (finite → legal → ¬ bounded → exec (.resSetfreq (unitCode u)) s = .next (s.takeFault .nonFinite)) ∧
    (finite → legal → fEq bw 0#64 = true →
      a0 = numerics.sin wc ∧ b1 = fMul Config.two (numerics.cos wc) ∧ b2 = 0xBFF0000000000000#64 ∧
        (fEq f 0#64 = true → fMag a0 = 0)) ∧
    (¬ finite → exec (.resSetfreq (unitCode u)) s = .next (s.takeFault .nonFinite)) ∧
    (finite → ¬ legal → exec (.resSetfreq (unitCode u)) s = .next (s.takeFault .badConfig))

/-- Every tuning with a sample rate from 1 to 2^20 and neither the frequency nor the bandwidth above it completes. It
rests on the bound 1 + 2^-20 that the model reads from R145 (DEDUCED, log 7). -/
def Obligations.AudioTuningsComplete : Prop :=
  ∀ (u : ToneUnit) (s : State),
    let f := s.block.arg[0]
    let fs := s.block.arg[1]
    let bw := s.block.arg[2]
    fLe Config.one fs = true → fLe fs 0x4130000000000000#64 = true → fLe 0#64 f = true → fLe f fs = true →
    fLe 0#64 bw = true → fLe bw fs = true →
      ∃ t, exec (.resSetfreq (unitCode u)) s = .next t ∧ t.status = 0#8 ∧ (t.block.res.get u).tuned = true

/-- R143: one sample through one resonator; the checks in their order. -/
def Obligations.ResProcFiltersOneSample : Prop :=
  (∀ (v : BitVec 4) (x : Word), decode ⟨0#16 ++ (0#4 ++ (v ++ 0x31#8)), x⟩ = .ok (.resProc v x)) ∧
  (∀ (v : BitVec 4) (x : F64) (s : State), 4 ≤ v.toNat → exec (.resProc v x) s = .next (s.takeFault .badUnit)) ∧
  ∀ (u : ToneUnit) (x : F64) (s : State),
    let r := s.block.res.get u
    let v := fAdd (fAdd (fMul r.a0 x) (fMul r.b1 r.z1)) (fMul r.b2 r.z2)
    let y := if fLt (fAbs v) Config.flushEps then 0#64 else v
    (r.tuned = true → fIsFinite x = true → fIsFinite y = true →
      exec (.resProc (unitCode u) x) s =
        .next (s.answer { s.block with res := s.block.res.set u { r with z1 := y, z2 := r.z1 } } y)) ∧
    (r.tuned = false → exec (.resProc (unitCode u) x) s = .next (s.takeFault .notConfigured)) ∧
    (r.tuned = true → fIsFinite x = false → exec (.resProc (unitCode u) x) s = .next (s.takeFault .nonFinite)) ∧
    (r.tuned = true → fIsFinite x = true → fIsFinite y = false →
      exec (.resProc (unitCode u) x) s = .next (s.takeFault .nonFinite))

/-- R147: no recursive filter ever holds a non-zero value below `FLUSH_EPS`, whatever command is executed. -/
def Obligations.DelaysStayFlushed : Prop :=
  ∀ s t : State, DelaysFlushed s.block → step s = .next t → DelaysFlushed t.block

/-- R149 on the pair of 95_test_vectors.md V-RS3: `fs = 11025`, `BW = 80`, two units tuned 240 Hz apart, to 1080 Hz and 1320
Hz, in any state; a tone at the frequency of one gives that unit more than 10 times the energy of the other over the
1103 samples after the 132 samples (`3/(pi*80)` seconds) in which both settle. It rests on the accuracy of sine, cosine
and exponential that the model reads from R145 (DEDUCED, log 7). -/
def Obligations.ResonatorsDiscriminate : Prop :=
  ∀ (s : State) (u v : ToneUnit) (f g : F64) (xs : List F64), u ≠ v →
    (f, g) ∈ [(0x4090E00000000000#64, 0x4094A00000000000#64), (0x4094A00000000000#64, 0x4090E00000000000#64)] →
    xs.length = 132 + 1103 → IsTone xs f 0x40C5888000000000#64 →
      Discriminates s u v f g 0x40C5888000000000#64 0x4054000000000000#64 xs 132 1103

/-! ## CascadedBiquadFilter (42_biquad_cascade.md) -/

/-- R156: a coefficient list of a legal length, order and of finite cells is loaded and the section state zeroed; the
checks in their order. -/
def Obligations.BqLoadBindsTheSections : Prop :=
  (∀ (v : BitVec 4) (w : Word), decode ⟨0#16 ++ (0#4 ++ (v ++ 0x40#8)), w⟩ = .ok (.bqLoad v)) ∧
  (∀ (v : BitVec 4) (s : State), 4 ≤ v.toNat → exec (.bqLoad v) s = .next (s.takeFault .badUnit)) ∧
  ∀ (u : ToneUnit) (s : State),
    let len := s.block.obLen
    let order := 2 * (len / 4) + len % 4 / 2
    let q := s.block.bq.get u
    let legal := 2 ≤ len ∧ len % 4 ≠ 1 ∧ len % 4 ≠ 3 ∧ order ≤ s.block.params.orderMax
    let finite := ∀ i < len, fIsFinite (s.block.ob.read i) = true
    (legal → finite → ∃ coef z : Memory,
      exec (.bqLoad (unitCode u)) s =
        .next (s.answer { s.block with bq := s.block.bq.set u ⟨order, coef, z⟩ } 0#64) ∧
      (∀ i < len, coef.read i = s.block.ob.read i) ∧ (∀ i < order, z.read i = 0#64) ∧
      (∀ i, len ≤ i → coef.read i = q.coef.read i) ∧ ∀ i, order ≤ i → z.read i = q.z.read i) ∧
    (¬ legal → exec (.bqLoad (unitCode u)) s = .next (s.takeFault .badLength)) ∧
    (legal → ¬ finite → exec (.bqLoad (unitCode u)) s = .next (s.takeFault .nonFinite))

/-- R157, R158, R159: the sections in index order, each on the output of the one before, the trailing first-order one
last; the new state is committed only when the output and all of it are finite. `cascadeOut` and `cascadeState` are the
formulas of R157 and R158 (Sys2Proof/Safety.lean). -/
def Obligations.BqProcRunsTheCascade : Prop :=
  (∀ (v : BitVec 4) (x : Word), decode ⟨0#16 ++ (0#4 ++ (v ++ 0x41#8)), x⟩ = .ok (.bqProc v x)) ∧
  (∀ (v : BitVec 4) (x : F64) (s : State), 4 ≤ v.toNat → exec (.bqProc v x) s = .next (s.takeFault .badUnit)) ∧
  ∀ (u : ToneUnit) (x : F64) (s : State),
    let q := s.block.bq.get u
    let cells := 2 * (q.order / 2) + q.order % 2
    let finite := fIsFinite (cascadeOut q x) = true ∧ ∀ i < cells, fIsFinite (cascadeState q x i) = true
    (q.order ≠ 0 → fIsFinite x = true → finite → ∃ z : Memory,
      exec (.bqProc (unitCode u) x) s =
        .next (s.answer { s.block with bq := s.block.bq.set u { q with z := z } } (cascadeOut q x)) ∧
      (∀ i < cells, z.read i = cascadeState q x i) ∧ ∀ i, cells ≤ i → z.read i = q.z.read i) ∧
    (q.order = 0 → exec (.bqProc (unitCode u) x) s = .next (s.takeFault .notConfigured)) ∧
    (q.order ≠ 0 → fIsFinite x = false → exec (.bqProc (unitCode u) x) s = .next (s.takeFault .nonFinite)) ∧
    (q.order ≠ 0 → fIsFinite x = true → ¬ finite →
      exec (.bqProc (unitCode u) x) s = .next (s.takeFault .nonFinite))

/-! ## LevelAGC (44_level_agc.md) -/

/-- R186: the settings, a fresh window, the initial gain; the checks in their order. -/
def Obligations.AgcConfigStartsAWindow : Prop :=
  ∀ (window : Word) (s : State),
    let target := s.block.arg[0]
    let thr := s.block.arg[1]
    let win := window.toNat
    let finite := fIsFinite target = true ∧ fIsFinite thr = true
    let legal := (1 ≤ win ∧ win < 2 ^ 32) ∧ (fLe 0#64 target = true ∧ fLt 0#64 thr = true) ∧
      fIsFinite (fDiv target thr) = true
    decode ⟨0x00000050#32, window⟩ = .ok (.agcConfig window) ∧
    (finite → legal → exec (.agcConfig window) s = .next (s.answer { s.block with agc :=
      { targetLevel := target, windowSamples := BitVec.ofNat 32 win, threshold := thr, sampleCounter := 0#32,
        currentPeak := 0#64, peakHistory := 0#64, gain := s.block.params.agcGainInit, cfg := true } } 0#64)) ∧
    (¬ finite → exec (.agcConfig window) s = .next (s.takeFault .nonFinite)) ∧
    (finite → ¬ legal → exec (.agcConfig window) s = .next (s.takeFault .badConfig))

/-- R187: the peak and the saturating count. -/
def Obligations.AgcTrackFollowsThePeak : Prop :=
  ∀ (x : F64) (s : State),
    let a := s.block.agc
    decode ⟨0x00000051#32, x⟩ = .ok (.agcTrack x) ∧
    (a.cfg = true → fIsFinite x = true → ∃ c : BitVec 32, c.toNat = min (a.sampleCounter.toNat + 1) (2 ^ 32 - 1) ∧
      exec (.agcTrack x) s = .next (s.answer { s.block with agc := { a with
        currentPeak := if fLt a.currentPeak (fAbs x) then fAbs x else a.currentPeak, sampleCounter := c } } 0#64)) ∧
    (a.cfg = false → exec (.agcTrack x) s = .next (s.takeFault .notConfigured)) ∧
    (a.cfg = true → fIsFinite x = false → exec (.agcTrack x) s = .next (s.takeFault .nonFinite))

/-- R188: the gain from the peak, or the floor at or below the threshold; the window is closed. -/
def Obligations.AgcUpdateSetsTheGain : Prop :=
  (∀ w, decode ⟨0x00000052#32, w⟩ = .ok .agcUpdate) ∧
  ∀ s : State,
    let a := s.block.agc
    (a.cfg = true → exec .agcUpdate s = .next (s.answer { s.block with agc := { a with
      gain := if fLt a.threshold a.currentPeak then fDiv a.targetLevel a.currentPeak else fDiv a.targetLevel a.threshold,
      peakHistory := a.currentPeak, currentPeak := 0#64, sampleCounter := 0#32 } } 0#64)) ∧
    (a.cfg = false → exec .agcUpdate s = .next (s.takeFault .notConfigured))

/-- R189: the sample times the gain; no state is written at all. -/
def Obligations.AgcApplyScales : Prop :=
  ∀ (x : F64) (s : State),
    let a := s.block.agc
    decode ⟨0x00000053#32, x⟩ = .ok (.agcApply x) ∧
    (a.cfg = true → fIsFinite x = true → fIsFinite (fMul x a.gain) = true →
      exec (.agcApply x) s = .next (s.answer s.block (fMul x a.gain))) ∧
    (a.cfg = false → exec (.agcApply x) s = .next (s.takeFault .notConfigured)) ∧
    (a.cfg = true → fIsFinite x = false → exec (.agcApply x) s = .next (s.takeFault .nonFinite)) ∧
    (a.cfg = true → fIsFinite x = true → fIsFinite (fMul x a.gain) = false →
      exec (.agcApply x) s = .next (s.takeFault .nonFinite))

/-- R192: after the update of a window whose peak was above the threshold, `gain * peak` is within one percent of
`target_level`, where neither the target nor the gain is below the smallest normal number (R191 lets the gain
underflow) and the product is finite. -/
def Obligations.AgcConvergesToTheTarget : Prop :=
  ∀ s t : State,
    let a := s.block.agc
    a.cfg = true → fIsFinite a.targetLevel = true → fIsFinite a.threshold = true → fIsFinite a.currentPeak = true →
    fLt 0#64 a.threshold = true → fLt a.threshold a.currentPeak = true →
    fSign a.targetLevel = false → 0x0010000000000000 ≤ fMag a.targetLevel →
    exec .agcUpdate s = .next t → 0x0010000000000000 ≤ fMag t.block.agc.gain →
    fIsFinite (fMul t.block.agc.gain a.currentPeak) = true →
      100 * (fInt (fMul t.block.agc.gain a.currentPeak) - fInt a.targetLevel).natAbs ≤ (fInt a.targetLevel).natAbs

/-! ## SyncDecoder (45_sync_decoder.md) -/

/-- R201: the three thresholds of a preset together; the presets are finite, not negative and in rising order. The table
itself is open (00_scope.md R11; log 8). -/
def Obligations.SyncPresetSetsTheThresholds : Prop :=
  (∀ (imm : BitVec 16) (w : Word), decode ⟨imm ++ 0x0060#16, w⟩ = .ok (.syncPreset imm)) ∧
  (∀ (imm : BitVec 16) (s : State), imm.toNat < 4 →
    exec (.syncPreset imm) s = .next (s.answer { s.block with sync := { s.block.sync with
      sLvl := preset imm.toNat 0, sLvl2 := preset imm.toNat 1, sLvl3 := preset imm.toNat 2,
      sense := BitVec.ofNat 2 imm.toNat, senseSet := true } } 0#64)) ∧
  (∀ (imm : BitVec 16) (s : State), 4 ≤ imm.toNat → exec (.syncPreset imm) s = .next (s.takeFault .badIndex)) ∧
  ∀ p c, FiniteNonneg (preset p c) ∧ fLe (preset p c) (preset (p + 1) c) = true

/-- R203: one timing register; a running countdown is not changed. -/
def Obligations.SyncTimingSetsOneRegister : Prop :=
  ∀ (imm : BitVec 16) (ticks : Word) (s : State),
    let y := s.block.sync
    let v := BitVec.ofNat 32 ticks.toNat
    let legal := 1 ≤ ticks.toNat ∧ ticks.toNat < 2 ^ 32
    decode ⟨imm ++ 0x0061#16, ticks⟩ = .ok (.syncTiming imm ticks) ∧
    (legal →
      (imm = 0#16 → exec (.syncTiming imm ticks) s = .next (s.answer { s.block with sync := { y with tLMin := v } } 0#64)) ∧
      (imm = 1#16 → exec (.syncTiming imm ticks) s = .next (s.answer { s.block with sync := { y with tLValid := v } } 0#64)) ∧
      (imm = 2#16 → exec (.syncTiming imm ticks) s = .next (s.answer { s.block with sync := { y with tStart := v } } 0#64)) ∧
      (imm = 3#16 → exec (.syncTiming imm ticks) s = .next (s.answer { s.block with sync := { y with tBit := v } } 0#64))) ∧
    (4 ≤ imm.toNat → exec (.syncTiming imm ticks) s = .next (s.takeFault .badIndex)) ∧
    (imm.toNat < 4 → ¬ legal → exec (.syncTiming imm ticks) s = .next (s.takeFault .badConfig))

/-- R204, the faults of a tick, in their order: then no counter moves. -/
def Obligations.SyncStepRefusals : Prop :=
  (∀ w, decode ⟨0x00000062#32, w⟩ = .ok .syncStep) ∧
  ∀ s : State,
    let y := s.block.sync
    let ready := y.senseSet = true ∧ 1 ≤ y.tLMin.toNat ∧ 1 ≤ y.tLValid.toNat ∧ 1 ≤ y.tStart.toNat ∧ 1 ≤ y.tBit.toNat
    (¬ ready → exec .syncStep s = .next (s.takeFault .notConfigured)) ∧
    (ready → (∃ k, ∃ h : k < 4, fIsFinite s.block.arg[k] = false) →
      exec .syncStep s = .next (s.takeFault .nonFinite))

/-- R205: a tick in Idle. -/
def Obligations.SyncTickInIdle : Prop :=
  ∀ s : State, ReadyToTick s → s.block.sync.tag = .idle →
    let y := s.block.sync
    let le := s.block.arg[0]
    ∃ (w : Word) (n : BitVec 32),
      n.toNat = (if fLt y.sLvl le then min (y.leadCnt.toNat + 1) (2 ^ 32 - 1) else 0) ∧
      exec .syncStep s = .next (s.answer { s.block with sync := { y with
        leadCnt := n, tag := if y.tLMin.toNat ≤ n.toNat then .leaderDetect else .idle } } w)

/-- R206: a tick in LeaderDetect. -/
def Obligations.SyncTickInLeaderDetect : Prop :=
  ∀ s : State, ReadyToTick s → s.block.sync.tag = .leaderDetect →
    let y := s.block.sync
    let le := s.block.arg[0]
    ∃ (w : Word) (y' : Sync), exec .syncStep s = .next (s.answer { s.block with sync := y' } w) ∧
      (fLt y.sLvl le = true → ∃ n : BitVec 32, n.toNat = min (y.leadCnt.toNat + 1) (2 ^ 32 - 1) ∧
        y' = { y with leadCnt := n }) ∧
      (fLt y.sLvl le = false → y.tLValid.toNat ≤ y.leadCnt.toNat →
        y' = { y with tag := .startBitValidate, timer := y.tStart, leadCnt := 0#32 }) ∧
      (fLt y.sLvl le = false → y.leadCnt.toNat < y.tLValid.toNat → y' = { y with leadCnt := 0#32 })

/-- R207: a tick in StartBitValidate, on a timer that has not run out (45_sync_decoder.md R215); no envelope is read, so
the result is the same for all of them. -/
def Obligations.SyncTickInStartBitValidate : Prop :=
  ∀ s : State, ReadyToTick s → s.block.sync.tag = .startBitValidate → 1 ≤ s.block.sync.timer.toNat →
    let y := s.block.sync
    ∃ (w : Word) (y' : Sync), exec .syncStep s = .next (s.answer { s.block with sync := y' } w) ∧
      (y.timer.toNat = 1 → y' = { y with
        tag := .visDecoding, acc := ⟨0#4, 0#8, 0#64, 0#64, 0#64, 0#64⟩, timer := y.tBit }) ∧
      (1 < y.timer.toNat → y' = { y with timer := y.timer - 1#32 })

/-- R208 to R212: a tick in VisDecoding, on a timer that has not run out: the countdown, and on expiry the latch, the
discrimination, the bit, and after the eighth bit the parity; bits 12 and 13 of the answer are the two events. -/
def Obligations.SyncTickInVisDecoding : Prop :=
  ∀ s : State, ReadyToTick s → s.block.sync.tag = .visDecoding → 1 ≤ s.block.sync.timer.toNat →
    s.block.sync.acc.bitsReceived.toNat ≤ 7 →
    let y := s.block.sync
    let le := s.block.arg[0]
    let sy := s.block.arg[1]
    let ma := s.block.arg[2]
    let sp := s.block.arg[3]
    let cleared : VisAcc := ⟨0#4, 0#8, 0#64, 0#64, 0#64, 0#64⟩
    let rejected := { y with tag := .idle, timer := 0#32, leadCnt := 0#32, acc := cleared }
    let fails := (fLt ma le = true ∧ fLt sp le = true) ∨ fLt (fAbs (fSub ma sp)) y.sLvl2 = true
    let byte := y.acc.dataByte ||| ((if fLt sp ma then 1#8 else 0#8) <<< y.acc.bitsReceived.toNat)
    let parity := byte.getLsbD 0 ^^ byte.getLsbD 1 ^^ byte.getLsbD 2 ^^ byte.getLsbD 3 ^^ byte.getLsbD 4 ^^
      byte.getLsbD 5 ^^ byte.getLsbD 6
    ∃ (w : Word) (y' : Sync), exec .syncStep s = .next (s.answer { s.block with sync := y' } w) ∧
      w.getLsbD 12 = decide (y'.tag = .dataWait) ∧ w.getLsbD 13 = decide (y'.tag = .idle) ∧
      (1 < y.timer.toNat → y' = { y with timer := y.timer - 1#32 }) ∧
      (y.timer.toNat = 1 → fails → y' = rejected) ∧
      (y.timer.toNat = 1 → ¬ fails → y.acc.bitsReceived.toNat < 7 →
        y' = { y with timer := y.tBit, acc := ⟨y.acc.bitsReceived + 1#4, byte, le, ma, sp, sy⟩ }) ∧
      (y.timer.toNat = 1 → ¬ fails → y.acc.bitsReceived.toNat = 7 → parity = byte.getLsbD 7 →
        y' = { y with visByte := byte, visValid := true, tag := .dataWait, timer := 0#32, leadCnt := 0#32,
                      acc := cleared }) ∧
      (y.timer.toNat = 1 → ¬ fails → y.acc.bitsReceived.toNat = 7 → parity ≠ byte.getLsbD 7 → y' = rejected)

/-- R213: a tick in DataWait changes nothing, and of the commands only the two resets leave the state. -/
def Obligations.SyncDataWaitIsTerminal : Prop :=
  (∀ s : State, ReadyToTick s → s.block.sync.tag = .dataWait →
    ∃ w : Word, exec .syncStep s = .next (s.answer s.block w)) ∧
  ∀ (i : Instr) (s t : State), s.block.sync.tag = .dataWait → exec i s = .next t →
    (i = .syncReset ∨ i = .pipeReset) ∨
      (t.block.sync.tag = .dataWait ∧ t.block.sync.visByte = s.block.sync.visByte ∧
        t.block.sync.visValid = s.block.sync.visValid ∧ t.block.sync.leadCnt = s.block.sync.leadCnt ∧
        t.block.sync.timer = s.block.sync.timer)

/-- R214, 10_state.md R50: the dynamic state of the decoder goes to its reset value, everything else stays. -/
def Obligations.SyncResetClearsTheDecoder : Prop :=
  (∀ w, decode ⟨0x00000063#32, w⟩ = .ok .syncReset) ∧
  ∀ s : State, exec .syncReset s = .next (s.answer { s.block with sync := { s.block.sync with
    tag := .idle, leadCnt := 0#32, timer := 0#32, acc := ⟨0#4, 0#8, 0#64, 0#64, 0#64, 0#64⟩, visByte := 0#8,
    visValid := false } } 0#64)

/-- R215: the invariants of the decoder hold after reset and are kept by every step of every command. The last field of
`SyncOk`, that a decoder without a byte shows the byte 0, is R221's. -/
def Obligations.SyncInvariantsAreKept : Prop :=
  (∀ p, SyncOk (State.resetWith p).block.sync) ∧
  ∀ s t : State, SyncOk s.block.sync → step s = .next t → SyncOk t.block.sync

/-- R220, the decode lemma: the ticks are numbered from the one that entered VisDecoding; tick `k` has the envelopes
`env k`, and only those of the ticks `k*T_BIT` matter. The first clause decodes eight separable bits, the second meets a
bit that is not separable. -/
def Obligations.DecodeLemma : Prop :=
  ∀ (s : State) (env : Nat → Envelopes) (rest : List Transaction),
    let y := s.block.sync
    let period := y.tBit.toNat
    let bit := fun k => bitOf (env (k * period))
    let clear := fun k => separable (env (k * period)) y.sLvl2
    y.senseSet = true → (1 ≤ y.tLMin.toNat ∧ 1 ≤ y.tLValid.toNat ∧ 1 ≤ y.tStart.toNat ∧ 1 ≤ period) →
    y.tag = .visDecoding → y.acc = VisAcc.cleared → y.timer = y.tBit → y.visValid = false →
    (∀ k, 1 ≤ k → k ≤ 8 * period → (env k).finite = true) →
      (s.pending = feedTicks env (8 * period) ++ rest → (∀ k, 1 ≤ k → k ≤ 8 → clear k = true) →
        ∃ t, Sys2Proof.core.run (5 * (8 * period)) s = .next t ∧ t.pending = rest ∧
          (bit 8 = (bit 1 ^^ bit 2 ^^ bit 3 ^^ bit 4 ^^ bit 5 ^^ bit 6 ^^ bit 7) →
            t.block.sync.tag = .dataWait ∧ t.block.sync.visValid = true ∧ t.block.sync.visByte.toNat = byteOf bit 8) ∧
          (bit 8 ≠ (bit 1 ^^ bit 2 ^^ bit 3 ^^ bit 4 ^^ bit 5 ^^ bit 6 ^^ bit 7) →
            t.block.sync.tag = .idle ∧ t.block.sync.visValid = false)) ∧
      (∀ j, 1 ≤ j → j ≤ 8 → s.pending = feedTicks env (j * period) ++ rest →
        (∀ k, 1 ≤ k → k < j → clear k = true) → clear j = false →
        ∃ t, Sys2Proof.core.run (5 * (j * period)) s = .next t ∧ t.pending = rest ∧
          t.block.sync.tag = .idle ∧ t.block.sync.visValid = false)

/-! ## The sample pipeline (46_pipeline_and_host.md) -/

/-- R245 with R242 and R243: the precondition comes before the look at the sample; a 16-bit sample is its exact binary64
value. The last clause, that a sample command ends executed, `NotConfigured` or `NonFinite`, is derived from 60_exceptions.md
R272; `PipeSampleCompletes` says when it is which. -/
def Obligations.PipeSampleRefusals : Prop :=
  (∀ (imm : BitVec 16) (w : Word), decode ⟨imm ++ 0x0070#16, w⟩ = .ok (.pipeSampleI16 imm)) ∧
  (∀ x : F64, decode ⟨0x00000071#32, x⟩ = .ok (.pipeSampleF64 x)) ∧
  (∀ (imm : BitVec 16) (s : State), exec (.pipeSampleI16 imm) s = exec (.pipeSampleF64 (fOfInt imm.toInt)) s ∧
    fInt (fOfInt imm.toInt) = imm.toInt * unitsPerOne) ∧
  ∀ (x : F64) (s : State),
    let b := s.block
    let configured := 0 < b.fir.l ∧ b.agc.cfg = true ∧ (∀ u, (b.res.get u).tuned = true) ∧
      (∀ u, 0 < (b.bq.get u).order) ∧ b.sync.senseSet = true ∧
      1 ≤ b.sync.tLMin.toNat ∧ 1 ≤ b.sync.tLValid.toNat ∧ 1 ≤ b.sync.tStart.toNat ∧ 1 ≤ b.sync.tBit.toNat
    (¬ configured → exec (.pipeSampleF64 x) s = .next (s.takeFault .notConfigured)) ∧
    (configured → fIsFinite x = false → exec (.pipeSampleF64 x) s = .next (s.takeFault .nonFinite)) ∧
    (configured → fIsFinite x = true →
      exec (.pipeSampleF64 x) s = .next (s.takeFault .nonFinite) ∨
        ∃ b' w, exec (.pipeSampleF64 x) s = .next (s.answer b' w))

/-- R246: on a configured block the sample step is the stand-alone commands one after another, each on the state the one
before left, the envelopes given to `SYNC.STEP` in place of `ARG[0..3]`; when each of them is executed, so is the
sample command, and the block after it is theirs with `ARG` as before, the clip's `ovf` and the seven diagnostic
registers. (The status word is `StatusWordLayout`'s.) -/
def Obligations.PipeSampleRunsTheStages : Prop :=
  ∀ (x0 : F64) (s s1 s2 s3 s4 t : State) (r e : ToneUnit → State),
    let b := s.block
    let level := fMul 0x3FE8000000000000#64 b.params.fullScale
    let high := fLt level x0 = true
    let low := fLt x0 (fNeg level) = true
    let x1 := if fLt level x0 then level else if fLt x0 (fNeg level) then fNeg level else x0
    let ran := fun (i : Instr) (from' to' : State) => exec i from' = .next to' ∧ to'.status = 0#8
    let pair := fun (u : ToneUnit) (from' : State) =>
      ran (.resProc (unitCode u) s4.rdata) from' (r u) ∧ ran (.bqProc (unitCode u) (fAbs (r u).rdata)) (r u) (e u)
    fIsFinite x0 = true → (∀ u, (b.res.get u).tuned = true) → (∀ u, 0 < (b.bq.get u).order) →
    ran (.firProc x1) s s1 → ran (.agcTrack s1.rdata) s1 s2 →
    (if s2.block.agc.windowSamples.toNat ≤ s2.block.agc.sampleCounter.toNat then ran .agcUpdate s2 s3 else s3 = s2) →
    ran (.agcApply s1.rdata) s3 s4 →
    pair .leader s4 → pair .sync (e .leader) → pair .mark (e .sync) → pair .space (e .mark) →
    ran .syncStep { e .space with block := { (e .space).block with arg :=
      (((b.arg.set 0 (e .leader).rdata).set 1 (e .sync).rdata).set 2 (e .mark).rdata).set 3 (e .space).rdata } } t →
      ∃ w : Word,
        let after := s.answer { t.block with
          arg := b.arg, ovf := b.ovf || decide (high ∨ low),
          diag := ⟨x1, s1.rdata, s4.rdata,
            ⟨(e .leader).rdata, (e .sync).rdata, (e .mark).rdata, (e .space).rdata⟩⟩ } w
        exec (.pipeSampleF64 x0) s = .next after ∧
          ∀ imm : BitVec 16, fOfInt imm.toInt = x0 → exec (.pipeSampleI16 imm) s = .next after

/-- R246 in values, with R244 and 60_exceptions.md R272: on a configured block a sample command is executed when every stage's
value is finite, and leaves the seven diagnostic registers, the gain and the FIR filter as the formulas say; when some
stage's value is not finite (the FIR output, the AGC output, a resonator's output, an envelope or a new cascade cell) it is
answered with NonFinite and no state changes. `y u` is the resonator's output, `e u` the envelope. -/
def Obligations.PipeSampleCompletes : Prop :=
  ∀ (x0 : F64) (s : State),
    let b := s.block
    let f := b.fir
    let a := b.agc
    let level := fMul 0x3FE8000000000000#64 b.params.fullScale
    let x1 := if fLt level x0 then level else if fLt x0 (fNeg level) then fNeg level else x0
    let ring' := fun j => if j = f.w ∨ j = f.w + f.l then x1 else f.ring.read j
    let x2 := (List.range f.l).foldl (fun acc k => fAdd acc (fMul (f.tap.read k) (ring' (f.w + f.l - k)))) 0#64
    let peak := if fLt a.currentPeak (fAbs x2) then fAbs x2 else a.currentPeak
    let closes := a.windowSamples.toNat ≤ min (a.sampleCounter.toNat + 1) (2 ^ 32 - 1)
    let gain := if closes then
        (if fLt a.threshold peak then fDiv a.targetLevel peak else fDiv a.targetLevel a.threshold) else a.gain
    let x3 := fMul x2 gain
    let y := fun u =>
      let r := b.res.get u
      let v := fAdd (fAdd (fMul r.a0 x3) (fMul r.b1 r.z1)) (fMul r.b2 r.z2)
      if fLt (fAbs v) Config.flushEps then 0#64 else v
    let e := fun u => cascadeOut (b.bq.get u) (fAbs (y u))
    let finite := fIsFinite x2 = true ∧ fIsFinite x3 = true ∧ (∀ u, fIsFinite (y u) = true) ∧
      ∀ u, fIsFinite (e u) = true ∧ ∀ i < 2 * ((b.bq.get u).order / 2) + (b.bq.get u).order % 2,
        fIsFinite (cascadeState (b.bq.get u) (fAbs (y u)) i) = true
    (0 < f.l ∧ a.cfg = true ∧ (∀ u, (b.res.get u).tuned = true) ∧ (∀ u, 0 < (b.bq.get u).order) ∧
      b.sync.senseSet = true ∧ 1 ≤ b.sync.tLMin.toNat ∧ 1 ≤ b.sync.tLValid.toNat ∧ 1 ≤ b.sync.tStart.toNat ∧
      1 ≤ b.sync.tBit.toNat) →
    fIsFinite x0 = true →
    (finite → ∃ t, exec (.pipeSampleF64 x0) s = .next t ∧ t.status = 0#8 ∧ t.pending = s.pending.tail ∧
        t.block.diag = ⟨x1, x2, x3, ⟨e .leader, e .sync, e .mark, e .space⟩⟩ ∧ t.block.agc.gain = gain ∧
        (∀ j, t.block.fir.ring.read j = ring' j) ∧ t.block.fir.w = (f.w + 1) % f.l ∧
        (∀ u, (t.block.res.get u).z1 = y u ∧ (t.block.res.get u).z2 = (b.res.get u).z1) ∧
        ∀ imm : BitVec 16, fOfInt imm.toInt = x0 → exec (.pipeSampleI16 imm) s = .next t) ∧
    (¬ finite → exec (.pipeSampleF64 x0) s = .next (s.takeFault .nonFinite) ∧
      ∀ imm : BitVec 16, fOfInt imm.toInt = x0 → exec (.pipeSampleI16 imm) s = .next (s.takeFault .nonFinite))

/-- 10_state.md R37, R244 (`CLIP_LEVEL` is 0.75 * `FULL_SCALE`): `ovf` is set by a clipped sample, stays set through every
other command, and only `PIPE.RESET` clears it. With a legal `FULL_SCALE` (00_scope.md R11) the level is not negative, so
a sample is past it on one side only. -/
def Obligations.OverflowFlagIsSticky : Prop :=
  ∀ (i : Instr) (s t : State), exec i s = .next t →
    let level := fMul 0x3FE8000000000000#64 s.block.params.fullScale
    (i = .pipeReset → t.block.ovf = false) ∧
    (i ≠ .pipeReset → s.block.ovf = true → t.block.ovf = true) ∧
    (t.block.ovf = true → s.block.ovf = true ∨
      ∃ x, (i = .pipeSampleF64 x ∨ ∃ imm, i = .pipeSampleI16 imm ∧ x = fOfInt imm.toInt) ∧
        t.status = 0#8 ∧ (fLt level x = true ∨ fLt x (fNeg level) = true)) ∧
    (ParamsOk s.block.params →
      ∀ x, (i = .pipeSampleF64 x ∨ ∃ imm, i = .pipeSampleI16 imm ∧ x = fOfInt imm.toInt) → t.status = 0#8 →
        (fLt level x = true → t.block.ovf = true ∧ t.block.diag.tap0 = level) ∧
        (fLt x (fNeg level) = true → t.block.ovf = true ∧ t.block.diag.tap0 = fNeg level) ∧
        (fLt level x = false → fLt x (fNeg level) = false →
          t.block.ovf = s.block.ovf ∧ t.block.diag.tap0 = x))

/-! ## Every state -/

/-- The model's one form of a memory (log 5) is kept by every step, so that two memories that read the same are the same
data. -/
def Obligations.MemoriesStayCanonical : Prop :=
  (∀ s t : State, CellsCanonical s.block → step s = .next t → CellsCanonical t.block) ∧
  ∀ m m' : Memory, m.wf = true → m'.wf = true → (∀ i, m.read i = m'.read i) → m = m'

/-- 20_memory.md R60, R63: on a block with legal parameters no step lets a length pass its capacity, `w` reach `L` or a memory
list a cell outside its address space. A listed cell is one that does not hold what an unlisted one reads as (the model's
form of a memory, log 5), so a zero written outside would leave no entry; what commands READ is
`ReadsStayInTheirSpaces`. -/
def Obligations.LengthsAndListedCellsStayInTheirSpaces : Prop :=
  ∀ s t : State, ParamsOk s.block.params → WithinSpaces s.block → step s = .next t →
    WithinSpaces t.block ∧ t.block.params = s.block.params

/-- 60_exceptions.md R279, 10_state.md R30, 44_level_agc.md R191: every binary64 value of the state stays finite, on a
block with a legal `AGC_GAIN_INIT` (00_scope.md R11); the gain stays finite and not negative, and the processing
commands return finite values. -/
def Obligations.ValuesStayFinite : Prop :=
  (∀ s t : State, ParamsOk s.block.params → AllFinite s.block → AgcOk s.block.agc → step s = .next t →
    AllFinite t.block ∧ AgcOk t.block.agc) ∧
  ∀ (i : Instr) (s t : State),
    ((∃ x, i = .firProc x) ∨ (∃ u x, i = .resProc u x) ∨ (∃ u x, i = .bqProc u x) ∨ ∃ x, i = .agcApply x) →
    exec i s = .next t → fIsFinite t.rdata = true

/-- 20_memory.md R60: `OB`, `TAP`, `RING`, `BQC` and `BQZ` are read only at their valid indices: on two states whose blocks
differ at most in cells outside those ranges every command gives the same answer, and leaves two such blocks again. The
write index is below `L` (43_circular_fir.md R173); the pending commands may differ. -/
def Obligations.ReadsStayInTheirSpaces : Prop :=
  ∀ (i : Instr) (s s' t t' : State), SameValid s.block s'.block → (0 < s.block.fir.l → s.block.fir.w < s.block.fir.l) →
    exec i s = .next t → exec i s' = .next t' →
      t'.status = t.status ∧ t'.rdata = t.rdata ∧ SameValid t.block t'.block

/-- The accuracy 00_scope.md R16 (d) lets a model assume, as the named properties of one tuning (41_tone_resonator.md R145)
and of one LowPass specification with gain 1 (40_filter_designer.md R125), reaches the machine's state: the tuning is
executed and the unit's registers are within 1e-9 of the closed forms, and the taps in `OB` of an executed design sum to 1
within 1e-6. The properties are hypotheses here (log 7 says what is imposed on every record). -/
def Obligations.AccuracyReachesTheState : Prop :=
  (∀ (u : ToneUnit) (s : State),
    let f := s.block.arg[0]
    let fs := s.block.arg[1]
    let bw := s.block.arg[2]
    let wc := 2 * Real.pi * valueOf f / valueOf fs
    (fIsFinite f = true ∧ fIsFinite fs = true ∧ fIsFinite bw = true) →
    (fLt 0#64 fs = true ∧ fLe 0#64 bw = true ∧ fLe 0#64 f = true) → MeetsR145 numerics f fs bw →
      ∃ t, exec (.resSetfreq (unitCode u)) s = .next t ∧ t.status = 0#8 ∧
        RelativelyClose (t.block.res.get u).a0
          (if valueOf bw = 0 then Real.sin wc else Real.sin wc / (valueOf fs / 6 / valueOf bw)) ∧
        RelativelyClose (t.block.res.get u).b1 (2 * Real.exp (-Real.pi * valueOf bw / valueOf fs) * Real.cos wc) ∧
        RelativelyClose (t.block.res.get u).b2 (-Real.exp (-2 * Real.pi * valueOf bw / valueOf fs))) ∧
  ∀ (tapCount : Word) (s t : State), s.block.arg[4] = Config.one →
    MeetsR125 numerics s.block.params tapCount.toNat s.block.arg[0] s.block.arg[1] s.block.arg[2] s.block.arg[3] →
    exec (.firDesign 0#16 tapCount) s = .next t → t.status = 0#8 →
      fIsFinite (tapSum t.block.ob.read tapCount.toNat) = true ∧
        |valueOf (tapSum t.block.ob.read tapCount.toNat) - 1| < 1e-6
end

