-- ==== Sys2Proof/Laws/Float.lean ====
section
/-!
SUPPORT. The small lemmas of the binary64 arithmetic: what a packed value is, that rounding is monotone and leaves a
representable magnitude alone, and the bounds on sums, products and quotients that follow.
-/

namespace Sys2Proof.Machine

/-! ## Sign, magnitude, packing -/

theorem infMag_lt : infMag < 2 ^ 63 := by decide

theorem fMag_lt (x : F64) : fMag x < 2 ^ 63 := Nat.mod_lt _ (by decide)

theorem toNat_eq_sign_add_mag (x : F64) : x.toNat = (if fSign x then 2 ^ 63 else 0) + fMag x := by
  have := x.isLt
  unfold fMag fSign
  split <;> (rename_i h; simp at h; omega)

theorem toNat_fPack (neg : Bool) (m : Nat) :
    (fPack neg m).toNat = (if neg then 2 ^ 63 else 0) + min m infMag := by
  have := infMag_lt
  unfold fPack
  rw [BitVec.toNat_ofNat, Nat.mod_eq_of_lt]
  split <;> omega

@[simp] theorem fMag_fPack (neg : Bool) (m : Nat) : fMag (fPack neg m) = min m infMag := by
  have := infMag_lt
  rw [fMag, toNat_fPack]
  split <;> omega

@[simp] theorem fSign_fPack (neg : Bool) (m : Nat) : fSign (fPack neg m) = neg := by
  have := infMag_lt
  rw [fSign, toNat_fPack]
  cases neg <;> (simp; try omega)

theorem fPack_sign_mag (x : F64) (h : fMag x ≤ infMag) : fPack (fSign x) (fMag x) = x := by
  apply BitVec.eq_of_toNat_eq
  rw [toNat_fPack, toNat_eq_sign_add_mag x, min_eq_left h]

theorem fIsFinite_iff (x : F64) : fIsFinite x = true ↔ fMag x < infMag := by simp [fIsFinite]

@[simp] theorem fIsFinite_fPack (neg : Bool) (m : Nat) : fIsFinite (fPack neg m) = true ↔ m < infMag := by
  rw [fIsFinite_iff, fMag_fPack]; omega

theorem not_nan_of_finite {x : F64} (h : fIsFinite x = true) : fIsNaN x = false := by
  rw [fIsFinite_iff] at h; simp [fIsNaN]; omega

theorem not_inf_of_finite {x : F64} (h : fIsFinite x = true) : fIsInf x = false := by
  rw [fIsFinite_iff] at h; simp [fIsInf]; omega

@[simp] theorem fNaN_not_finite : fIsFinite fNaN = false := by decide

theorem toNat_fAbs (x : F64) : (fAbs x).toNat = fMag x := by
  have := fMag_lt x
  simp only [fAbs, BitVec.toNat_ofNat]; omega

@[simp] theorem fMag_fAbs (x : F64) : fMag (fAbs x) = fMag x := by
  have := fMag_lt x
  rw [fMag, toNat_fAbs]; omega

@[simp] theorem fSign_fAbs (x : F64) : fSign (fAbs x) = false := by
  have := fMag_lt x
  simp only [fSign, toNat_fAbs, decide_eq_false_iff_not]; omega

@[simp] theorem fIsFinite_fAbs (x : F64) : fIsFinite (fAbs x) = fIsFinite x := by simp [fIsFinite]

theorem toNat_fNeg (x : F64) : (fNeg x).toNat = (if fSign x then 0 else 2 ^ 63) + fMag x := by
  have := fMag_lt x
  rw [fNeg, BitVec.toNat_ofNat, Nat.mod_eq_of_lt]
  split <;> omega

@[simp] theorem fMag_fNeg (x : F64) : fMag (fNeg x) = fMag x := by
  have := fMag_lt x
  rw [fMag, toNat_fNeg]; split <;> omega

@[simp] theorem fSign_fNeg (x : F64) : fSign (fNeg x) = !fSign x := by
  have := fMag_lt x
  cases h : fSign x <;> (rw [fSign, toNat_fNeg, h]; simp; try omega)

@[simp] theorem fIsFinite_fNeg (x : F64) : fIsFinite (fNeg x) = fIsFinite x := by simp [fIsFinite]

/-! ## The order -/

theorem fLt_iff {x y : F64} (hx : fIsFinite x = true) (hy : fIsFinite y = true) :
    fLt x y = true ↔ fKey x < fKey y := by
  simp [fLt, not_nan_of_finite hx, not_nan_of_finite hy]

theorem fLe_iff {x y : F64} (hx : fIsFinite x = true) (hy : fIsFinite y = true) :
    fLe x y = true ↔ fKey x ≤ fKey y := by
  simp [fLe, not_nan_of_finite hx, not_nan_of_finite hy]

@[simp] theorem fKey_zero : fKey 0#64 = 0 := by decide

theorem fKey_nonneg_iff (x : F64) : 0 ≤ fKey x ↔ fSign x = false ∨ fMag x = 0 := by
  unfold fKey; cases fSign x <;> simp

theorem fKey_of_pos {x : F64} (h : fSign x = false) : fKey x = fMag x := by simp [fKey, h]

theorem pos_of_fKey_pos {x : F64} (h : 0 < fKey x) : fSign x = false ∧ 0 < fMag x := by
  unfold fKey at h; cases hs : fSign x <;> simp [hs] at h ⊢ <;> omega

/-! ## Rounding -/

theorem two_pow_add_mod (m : Nat) : 2 ^ 52 + m % 2 ^ 52 < 2 ^ 53 := by
  have := Nat.mod_lt m (show 0 < 2 ^ 52 by decide); omega

theorem log2_eq {n k : Nat} (h1 : 2 ^ k ≤ n) (h2 : n < 2 ^ (k + 1)) : Nat.log2 n = k := by
  have hn : n ≠ 0 := by have := Nat.two_pow_pos k; omega
  exact (Nat.log2_eq_iff hn).2 ⟨h1, h2⟩

theorem roundShift_of_lt {q : Nat} (h : q < 2 ^ 53) : roundShift q = 0 := by
  unfold roundShift
  rcases Nat.eq_zero_or_pos q with rfl | hq
  · decide
  · have := (Nat.log2_lt (by omega : q ≠ 0)).2 h; omega

theorem roundShift_of_range {q e : Nat} (h1 : 2 ^ 52 * 2 ^ e ≤ q) (h2 : q < 2 ^ 53 * 2 ^ e) :
    roundShift q = e := by
  unfold roundShift
  rw [log2_eq (k := 52 + e)]
  · omega
  · rw [Nat.pow_add]; exact h1
  · rw [show 52 + e + 1 = 53 + e by omega, Nat.pow_add]; exact h2

theorem lt_of_roundShift (q : Nat) : q < 2 ^ 53 * 2 ^ roundShift q := by
  rcases Nat.lt_or_ge q (2 ^ 53) with h | h
  · rw [roundShift_of_lt h]; simpa using h
  · have hq : q ≠ 0 := by have := Nat.two_pow_pos 53; omega
    have h52 : 53 ≤ Nat.log2 q := (Nat.le_log2 hq).2 h
    unfold roundShift
    rw [← Nat.pow_add, show 53 + (Nat.log2 q - 52) = Nat.log2 q + 1 by omega]
    exact Nat.lt_log2_self

theorem le_of_roundShift_pos {q : Nat} (h : 0 < roundShift q) : 2 ^ 52 * 2 ^ roundShift q ≤ q := by
  have hq : q ≠ 0 := by rintro rfl; revert h; decide
  unfold roundShift at *
  rw [← Nat.pow_add, show 52 + (Nat.log2 q - 52) = Nat.log2 q by omega]
  exact Nat.log2_self_le hq

theorem roundShift_mono {q q' : Nat} (h : q ≤ q') : roundShift q ≤ roundShift q' := by
  unfold roundShift
  rcases Nat.eq_zero_or_pos q with rfl | hq
  · simp
  · have : Nat.log2 q ≤ Nat.log2 q' :=
      (Nat.le_log2 (by omega)).2 (le_trans (Nat.log2_self_le (by omega)) h)
    omega

theorem divNearest_mul (q : Nat) {d : Nat} (hd : 0 < d) : divNearest (q * d) d = q := by
  unfold divNearest
  rw [Nat.mul_div_cancel _ hd, Nat.mul_mod_left]
  rw [if_neg (by omega)]; rfl

theorem divNearest_le_succ (n d : Nat) : divNearest n d ≤ n / d + 1 := by
  unfold divNearest; split <;> omega

theorem le_divNearest (n d : Nat) : n / d ≤ divNearest n d := by
  unfold divNearest; split <;> omega

theorem div_le_div_cross {n d n' d' : Nat} (hd : 0 < d) (hd' : 0 < d') (h : n * d' ≤ n' * d) : n / d ≤ n' / d' := by
  rw [Nat.le_div_iff_mul_le hd']
  have h1 : n / d * d ≤ n := Nat.div_mul_le_self n d
  have h2 : n / d * d' * d ≤ n' * d := by
    calc n / d * d' * d = n / d * d * d' := by ring
      _ ≤ n * d' := Nat.mul_le_mul_right _ h1
      _ ≤ n' * d := h
  exact Nat.le_of_mul_le_mul_right h2 hd

theorem divNearest_mono {n d n' d' : Nat} (hd : 0 < d) (hd' : 0 < d') (h : n * d' ≤ n' * d) :
    divNearest n d ≤ divNearest n' d' := by
  have hq := div_le_div_cross hd hd' h
  rcases Nat.lt_or_ge (n / d) (n' / d') with hlt | hge
  · exact le_trans (divNearest_le_succ n d) (le_trans hlt (le_divNearest n' d'))
  · have heq : n / d = n' / d' := le_antisymm hq hge
    have hn := Nat.div_add_mod n d
    have hn' := Nat.div_add_mod n' d'
    have hr : n % d * d' ≤ n' % d' * d := by
      have e1 : n * d' = n / d * d * d' + n % d * d' := by
        conv_lhs => rw [← hn]
        ring
      have e2 : n' * d = n / d * d * d' + n' % d' * d := by
        conv_lhs => rw [← hn']
        rw [← heq]; ring
      omega
    unfold divNearest
    rw [heq]
    split
    · rename_i hup
      rw [if_pos]
      rcases hup with hup | ⟨hup, hodd⟩
      · left
        have : d * d' < 2 * (n' % d') * d := by
          have h1 : d * d' < 2 * (n % d) * d' := Nat.mul_lt_mul_of_pos_right hup hd'
          nlinarith
        have h2 : d' * d < 2 * (n' % d') * d := by linarith [Nat.mul_comm d d']
        exact Nat.lt_of_mul_lt_mul_right h2
      · have : d * d' ≤ 2 * (n' % d') * d := by nlinarith
        have h2 : d' * d ≤ 2 * (n' % d') * d := by linarith [Nat.mul_comm d d']
        have h3 : d' ≤ 2 * (n' % d') := Nat.le_of_mul_le_mul_right h2 hd
        rcases Nat.lt_or_ge d' (2 * (n' % d')) with h4 | h4
        · exact Or.inl h4
        · exact Or.inr ⟨le_antisymm h4 h3, hodd⟩
    · exact Nat.le_add_right _ _

/-- A representable magnitude rounds to itself, over any denominator. -/
theorem roundMag_magUnits (m : Nat) {d : Nat} (hd : 0 < d) : roundMag (magUnits m * d) d = m := by
  unfold roundMag
  rw [Nat.mul_div_cancel _ hd]
  unfold magUnits
  split
  · rename_i h
    rw [roundShift_of_lt (by omega), pow_zero, Nat.mul_one, divNearest_mul m hd]; simp
  · rename_i h
    have hb := two_pow_add_mod m
    have hp := Nat.two_pow_pos (m / 2 ^ 52 - 1)
    rw [roundShift_of_range (e := m / 2 ^ 52 - 1) (Nat.mul_le_mul_right _ (by omega))
      (Nat.mul_lt_mul_of_pos_right hb hp)]
    rw [show (2 ^ 52 + m % 2 ^ 52) * 2 ^ (m / 2 ^ 52 - 1) * d =
      (2 ^ 52 + m % 2 ^ 52) * (d * 2 ^ (m / 2 ^ 52 - 1)) by ring, divNearest_mul _ (Nat.mul_pos hd hp)]
    have h1 : 1 ≤ m / 2 ^ 52 := by omega
    have h2 := Nat.div_add_mod m (2 ^ 52)
    omega

/-- Rounding is monotone. -/
theorem roundMag_mono {n d n' d' : Nat} (hd : 0 < d) (hd' : 0 < d') (h : n * d' ≤ n' * d) :
    roundMag n d ≤ roundMag n' d' := by
  have hq := div_le_div_cross hd hd' h
  have hs := roundShift_mono hq
  unfold roundMag
  rcases Nat.lt_or_ge (roundShift (n / d)) (roundShift (n' / d')) with hlt | hge
  · have hp := Nat.two_pow_pos (roundShift (n / d))
    have hp' := Nat.two_pow_pos (roundShift (n' / d'))
    have hup : divNearest n (d * 2 ^ roundShift (n / d)) ≤ 2 ^ 53 := by
      have h1 := lt_of_roundShift (n / d)
      have h2 : n / (d * 2 ^ roundShift (n / d)) < 2 ^ 53 := by
        rw [← Nat.div_div_eq_div_mul]
        exact Nat.div_lt_of_lt_mul (by linarith [Nat.mul_comm (2 ^ 53) (2 ^ roundShift (n / d))])
      have := divNearest_le_succ n (d * 2 ^ roundShift (n / d))
      omega
    have hlo : 2 ^ 52 ≤ divNearest n' (d' * 2 ^ roundShift (n' / d')) := by
      have h1 := le_of_roundShift_pos (q := n' / d') (by omega)
      have h2 : 2 ^ 52 ≤ n' / (d' * 2 ^ roundShift (n' / d')) := by
        rw [← Nat.div_div_eq_div_mul]
        exact (Nat.le_div_iff_mul_le hp').2 h1
      exact le_trans h2 (le_divNearest _ _)
    omega
  · have heq : roundShift (n / d) = roundShift (n' / d') := le_antisymm hs hge
    rw [heq]
    have hp := Nat.two_pow_pos (roundShift (n' / d'))
    have := divNearest_mono (n := n) (d := d * 2 ^ roundShift (n' / d')) (n' := n')
      (d' := d' * 2 ^ roundShift (n' / d')) (Nat.mul_pos hd hp) (Nat.mul_pos hd' hp) (by nlinarith)
    omega

theorem roundMag_le {n d m : Nat} (hd : 0 < d) (h : n ≤ magUnits m * d) : roundMag n d ≤ m := by
  have := roundMag_mono (n := n) (d := d) (n' := magUnits m * 1) (d' := 1) hd one_pos (by simpa using h)
  rwa [roundMag_magUnits m one_pos] at this

theorem le_roundMag {n d m : Nat} (hd : 0 < d) (h : magUnits m * d ≤ n) : m ≤ roundMag n d := by
  have := roundMag_mono (n := magUnits m * 1) (d := 1) (n' := n) (d' := d) one_pos hd (by simpa using h)
  rwa [roundMag_magUnits m one_pos] at this

@[simp] theorem roundMag_zero (d : Nat) : roundMag 0 d = 0 := by
  rcases Nat.eq_zero_or_pos d with rfl | h
  · decide
  · exact Nat.le_zero.1 (roundMag_le h (by simp))

theorem magUnits_mono {m m' : Nat} (h : m ≤ m') : magUnits m ≤ magUnits m' := by
  by_contra hc
  push Not at hc
  have h1 := le_roundMag (n := magUnits m) (d := 1) (m := m' + 0) one_pos (by simpa using hc.le)
  have h2 := roundMag_magUnits m (d := 1) one_pos
  rw [Nat.mul_one] at h2
  have h3 : m = m' := by omega
  subst h3; exact lt_irrefl _ hc

theorem magUnits_lt {m m' : Nat} (h : m < m') : magUnits m < magUnits m' := by
  refine lt_of_le_of_ne (magUnits_mono h.le) fun he => ?_
  have h1 := roundMag_magUnits m (d := 1) one_pos
  have h2 := roundMag_magUnits m' (d := 1) one_pos
  rw [he] at h1; omega

theorem magUnits_eq_zero {m : Nat} : magUnits m = 0 ↔ m = 0 := by
  constructor
  · intro h
    by_contra hm
    have := magUnits_lt (show 0 < m by omega)
    omega
  · rintro rfl; rfl

theorem unitsPerOne_pos : 0 < unitsPerOne := by unfold unitsPerOne; positivity

theorem magUnits_one : magUnits (fMag Config.one) = unitsPerOne := by decide +kernel

/-! ## What an operation on finite values gives -/

theorem fMul_finite_eq {x y : F64} (hx : fIsFinite x = true) (hy : fIsFinite y = true) :
    fMul x y = fPack (fSign x != fSign y) (roundMag (fUnits x * fUnits y) unitsPerOne) := by
  simp [fMul, not_nan_of_finite hx, not_nan_of_finite hy, not_inf_of_finite hx, not_inf_of_finite hy]

theorem fDiv_finite_eq {x y : F64} (hx : fIsFinite x = true) (hy : fIsFinite y = true) (h0 : fMag y ≠ 0) :
    fDiv x y = fPack (fSign x != fSign y) (roundMag (fUnits x * unitsPerOne) (fUnits y)) := by
  simp [fDiv, not_nan_of_finite hx, not_nan_of_finite hy, not_inf_of_finite hx, not_inf_of_finite hy, h0]

theorem fAdd_finite_eq {x y : F64} (hx : fIsFinite x = true) (hy : fIsFinite y = true) :
    fAdd x y = if fInt x + fInt y = 0 then fPack (fSign x && fSign y) 0
      else fPack (decide (fInt x + fInt y < 0)) (roundMag (fInt x + fInt y).natAbs 1) := by
  simp [fAdd, not_nan_of_finite hx, not_nan_of_finite hy, not_inf_of_finite hx, not_inf_of_finite hy]

theorem fMag_fAdd_of_finite {x y : F64} (hx : fIsFinite x = true) (hy : fIsFinite y = true) :
    fMag (fAdd x y) = min (roundMag (fInt x + fInt y).natAbs 1) infMag := by
  rw [fAdd_finite_eq hx hy]
  split
  · rename_i h; rw [h]; simp
  · simp

theorem natAbs_fInt (x : F64) : (fInt x).natAbs = fUnits x := by
  unfold fInt; split <;> simp

/-- A product of finite values is no larger than `m` where the exact one is not. -/
theorem fMag_fMul_le {x y : F64} {m : Nat} (hx : fIsFinite x = true) (hy : fIsFinite y = true)
    (h : fUnits x * fUnits y ≤ magUnits m * unitsPerOne) : fMag (fMul x y) ≤ m := by
  rw [fMul_finite_eq hx hy, fMag_fPack]
  exact le_trans (min_le_left _ _) (roundMag_le unitsPerOne_pos h)

/-- A quotient of finite values is no larger than `m` where the exact one is not. -/
theorem fMag_fDiv_le {x y : F64} {m : Nat} (hx : fIsFinite x = true) (hy : fIsFinite y = true) (h0 : fMag y ≠ 0)
    (h : fUnits x * unitsPerOne ≤ magUnits m * fUnits y) : fMag (fDiv x y) ≤ m := by
  have hp : 0 < fUnits y := Nat.pos_of_ne_zero (by simpa [fUnits, magUnits_eq_zero] using h0)
  rw [fDiv_finite_eq hx hy h0, fMag_fPack]
  exact le_trans (min_le_left _ _) (roundMag_le hp h)

/-- A sum of finite values is no larger than `m` where the exact one is not. -/
theorem fMag_fAdd_le {x y : F64} {m : Nat} (hx : fIsFinite x = true) (hy : fIsFinite y = true)
    (h : (fInt x + fInt y).natAbs ≤ magUnits m) : fMag (fAdd x y) ≤ m := by
  rw [fMag_fAdd_of_finite hx hy]
  exact le_trans (min_le_left _ _) (roundMag_le one_pos (by simpa using h))

/-- Dividing by a larger magnitude gives no larger magnitude. -/
theorem fMag_fDiv_anti {x y y' : F64} (hx : fIsFinite x = true) (hy : fIsFinite y = true)
    (hy' : fIsFinite y' = true) (h0 : fMag y ≠ 0) (h : fMag y ≤ fMag y') : fMag (fDiv x y') ≤ fMag (fDiv x y) := by
  have h0' : fMag y' ≠ 0 := by omega
  have hp : 0 < fUnits y := Nat.pos_of_ne_zero (by simpa [fUnits, magUnits_eq_zero] using h0)
  have hp' : 0 < fUnits y' := Nat.pos_of_ne_zero (by simpa [fUnits, magUnits_eq_zero] using h0')
  rw [fDiv_finite_eq hx hy h0, fDiv_finite_eq hx hy' h0', fMag_fPack, fMag_fPack]
  have : roundMag (fUnits x * unitsPerOne) (fUnits y') ≤ roundMag (fUnits x * unitsPerOne) (fUnits y) :=
    roundMag_mono hp' hp (Nat.mul_le_mul_left _ (magUnits_mono h))
  omega

/-- Multiplying by 1.0 changes no finite value. -/
theorem fMul_one_left {x : F64} (hx : fIsFinite x = true) : fMul Config.one x = x := by
  have h1 : fIsFinite Config.one = true := by decide
  have hs : fSign Config.one = false := by decide
  have hm : fMag x ≤ infMag := by rw [fIsFinite_iff] at hx; omega
  rw [fMul_finite_eq h1 hx, hs, show fUnits Config.one = unitsPerOne from magUnits_one, fUnits, Nat.mul_comm,
    roundMag_magUnits _ unitsPerOne_pos]
  simpa using fPack_sign_mag x hm

/-- Adding `+0.0` changes no finite value but `-0.0`. -/
theorem fAdd_zero_left {x : F64} (hx : fIsFinite x = true) (h0 : fMag x ≠ 0) : fAdd 0#64 x = x := by
  have h1 : fIsFinite 0#64 = true := by decide
  have hm : fMag x ≤ infMag := by rw [fIsFinite_iff] at hx; omega
  have hu : 0 < fUnits x := Nat.pos_of_ne_zero (by simpa [fUnits, magUnits_eq_zero] using h0)
  have hi : fInt 0#64 = 0 := by decide
  rw [fAdd_finite_eq h1 hx, hi, zero_add, if_neg (by rw [← Int.natAbs_eq_zero, natAbs_fInt]; omega), natAbs_fInt]
  have hsign : decide (fInt x < 0) = fSign x := by
    unfold fInt; cases fSign x <;> (simp; try omega)
  rw [hsign, fUnits, ← Nat.mul_one (magUnits (fMag x)), roundMag_magUnits _ one_pos]
  exact fPack_sign_mag x hm

/-! ## The error of one rounding -/

/-- A rounded quotient is off by at most half the divisor. -/
theorem divNearest_error (n : Nat) {d : Nat} (hd : 0 < d) :
    2 * (divNearest n d * d) ≤ 2 * n + d ∧ 2 * n ≤ 2 * (divNearest n d * d) + d := by
  have h := Nat.div_add_mod n d
  have hm : n % d < d := Nat.mod_lt n hd
  rw [Nat.mul_comm] at h
  unfold divNearest
  split
  · rename_i hc
    rw [Nat.add_mul, Nat.one_mul]
    generalize n / d * d = a at *
    generalize n % d = r at *
    omega
  · rename_i hc
    simp only [Nat.add_zero]
    generalize n / d * d = a at *
    generalize n % d = r at *
    omega

theorem magUnits_shift {k s : Nat} (h1 : 2 ^ 52 ≤ k) (h2 : k ≤ 2 ^ 53) : magUnits (s * 2 ^ 52 + k) = k * 2 ^ s := by
  unfold magUnits
  rw [if_neg (by omega)]
  rcases Nat.lt_or_ge k (2 ^ 53) with h | h
  · rw [show (s * 2 ^ 52 + k) % 2 ^ 52 = k - 2 ^ 52 by omega, show (s * 2 ^ 52 + k) / 2 ^ 52 - 1 = s by omega,
      Nat.add_sub_cancel' h1]
  · have hk : k = 2 ^ 53 := by omega
    rw [show (s * 2 ^ 52 + k) % 2 ^ 52 = 0 by omega, show (s * 2 ^ 52 + k) / 2 ^ 52 - 1 = s + 1 by omega, hk, pow_succ]
    omega

/-- A whole number of units that needs rounding at all is moved by at most one part in 2^53. -/
theorem roundMag_error {n : Nat} (h : 2 ^ 52 ≤ n) :
    2 ^ 53 * magUnits (roundMag n 1) ≤ 2 ^ 53 * n + n ∧ 2 ^ 53 * n ≤ 2 ^ 53 * magUnits (roundMag n 1) + n := by
  have hs := lt_of_roundShift n
  have hp := Nat.two_pow_pos (roundShift n)
  have hlow : 2 ^ 52 * 2 ^ roundShift n ≤ n := by
    rcases Nat.eq_zero_or_pos (roundShift n) with h0 | h0
    · rw [h0]; simpa using h
    · exact le_of_roundShift_pos h0
  have hk1 : 2 ^ 52 ≤ divNearest n (2 ^ roundShift n) :=
    le_trans ((Nat.le_div_iff_mul_le hp).2 hlow) (le_divNearest _ _)
  have hk2 : divNearest n (2 ^ roundShift n) ≤ 2 ^ 53 :=
    le_trans (divNearest_le_succ _ _) (Nat.div_lt_of_lt_mul (by rw [Nat.mul_comm]; exact hs))
  have he := divNearest_error n hp
  have hm : magUnits (roundMag n 1) = divNearest n (2 ^ roundShift n) * 2 ^ roundShift n := by
    unfold roundMag
    rw [Nat.div_one, Nat.one_mul, magUnits_shift hk1 hk2]
  rw [hm]
  generalize divNearest n (2 ^ roundShift n) * 2 ^ roundShift n = v at *
  generalize 2 ^ roundShift n = d at *
  omega

/-- Doubling a normal value that does not overflow is exact. -/
theorem fInt_double {x : F64} (h1 : 2 ^ 52 ≤ fMag x) (h2 : fMag x + 2 ^ 52 < infMag) :
    fIsFinite (fMul Config.two x) = true ∧ fInt (fMul Config.two x) = 2 * fInt x := by
  have hx : fIsFinite x = true := (fIsFinite_iff x).2 (by omega)
  have hu : fUnits Config.two = 2 * unitsPerOne := by decide +kernel
  have hd : magUnits (fMag x + 2 ^ 52) = 2 * fUnits x := by
    unfold fUnits magUnits
    rw [if_neg (by omega), if_neg (by omega), Nat.add_mod_right, Nat.add_div_right _ (by decide),
      show fMag x / 2 ^ 52 + 1 - 1 = (fMag x / 2 ^ 52 - 1) + 1 by omega, pow_succ]
    ring
  have e : fMul Config.two x = fPack (fSign x) (fMag x + 2 ^ 52) := by
    rw [fMul_finite_eq (by decide) hx, hu, show 2 * unitsPerOne * fUnits x = magUnits (fMag x + 2 ^ 52) * unitsPerOne by
      rw [hd]; ring, roundMag_magUnits _ unitsPerOne_pos, show fSign Config.two = false by decide, Bool.false_bne]
  rw [e]
  refine ⟨(fIsFinite_fPack _ _).2 h2, ?_⟩
  rw [fInt, fInt, fSign_fPack, fUnits, fMag_fPack, min_eq_left (by omega), hd]
  cases fSign x <;> simp

end Sys2Proof.Machine
end

