-- ==== Sys2Proof/Laws/Memory.lean ====
section
/-!
SUPPORT. The laws of an address space: what a read gives after a write, and that every operation keeps the canonical
form.
-/

namespace Sys2Proof.Machine

@[simp] theorem Memory.read_nil (i : Nat) : Memory.read [] i = Memory.unlisted := rfl

@[simp] theorem Memory.erase_nil (i : Nat) : Memory.erase [] i = [] := rfl

theorem Memory.read_erase (m : Memory) (i j : Nat) :
    (m.erase i).read j = if j = i then Memory.unlisted else m.read j := by
  induction m with
  | nil => simp
  | cons c rest ih =>
    obtain ⟨k, v⟩ := c
    unfold Memory.erase at *
    by_cases hk : k = i
    · subst hk
      rw [List.filter_cons_of_neg (by simp), ih]
      by_cases hj : j = k
      · simp [hj]
      · simp [hj, Memory.read, Ne.symm hj]
    · rw [List.filter_cons_of_pos (by simpa using hk), Memory.read, Memory.read, ih]
      by_cases hj : k = j
      · subst hj; simp [hk]
      · simp [hj]

theorem Memory.read_place_same {m : Memory} {i : Nat} (v : Word) (h : ∀ c ∈ m, c.1 ≠ i) :
    (m.place i v).read i = v := by
  induction m with
  | nil => simp [Memory.place, Memory.read]
  | cons c rest ih =>
    obtain ⟨k, w⟩ := c
    have hk : k ≠ i := h (k, w) (by simp)
    unfold Memory.place
    split
    · simp [Memory.read]
    · rw [Memory.read, if_neg hk]
      exact ih fun c hc => h c (List.mem_cons_of_mem _ hc)

theorem Memory.read_place_other {i j : Nat} (m : Memory) (v : Word) (h : j ≠ i) :
    (m.place i v).read j = m.read j := by
  induction m with
  | nil => simp [Memory.place, Memory.read, Ne.symm h]
  | cons c rest ih =>
    obtain ⟨k, w⟩ := c
    unfold Memory.place
    split
    · rw [Memory.read, if_neg (Ne.symm h)]
    · rw [Memory.read, Memory.read, ih]

theorem Memory.mem_erase_ne {m : Memory} {i : Nat} : ∀ c ∈ m.erase i, c.1 ≠ i := by
  intro c hc
  simpa using (List.mem_filter.1 hc).2

/-- A read after a write: the value at the place written, the old value everywhere else. -/
theorem Memory.read_write (m : Memory) (i j : Nat) (v : Word) :
    (m.write i v).read j = if j = i then v else m.read j := by
  unfold Memory.write
  split
  · rename_i h; rw [Memory.read_erase, h]
  · by_cases hj : j = i
    · subst hj; rw [if_pos rfl, Memory.read_place_same v Memory.mem_erase_ne]
    · rw [if_neg hj, Memory.read_place_other _ _ hj, Memory.read_erase, if_neg hj]

@[simp] theorem Memory.read_write_same (m : Memory) (i : Nat) (v : Word) : (m.write i v).read i = v := by
  rw [Memory.read_write, if_pos rfl]

theorem Memory.read_write_ne {m : Memory} {i j : Nat} {v : Word} (h : j ≠ i) : (m.write i v).read j = m.read j := by
  rw [Memory.read_write, if_neg h]

/-- A read after a list was written from a place up. -/
theorem Memory.read_writeFrom (vs : List Word) : ∀ (m : Memory) (i j : Nat),
    (m.writeFrom i vs).read j = if h : i ≤ j ∧ j - i < vs.length then vs[j - i]'h.2 else m.read j := by
  induction vs with
  | nil => intro m i j; simp [Memory.writeFrom]
  | cons v vs ih =>
    intro m i j
    rw [Memory.writeFrom, ih, Memory.read_write]
    by_cases h1 : j = i
    · subst h1; simp
    · by_cases h2 : i + 1 ≤ j ∧ j - (i + 1) < vs.length
      · have h3 : i ≤ j ∧ j - i < (v :: vs).length := by simp; omega
        rw [dif_pos h2, dif_pos h3]
        have h4 : j - i = (j - (i + 1)) + 1 := by omega
        simp only [h4, List.getElem_cons_succ]
      · have h3 : ¬ (i ≤ j ∧ j - i < (v :: vs).length) := by simp; omega
        rw [dif_neg h2, dif_neg h3, if_neg h1]

@[simp] theorem Memory.length_cells (m : Memory) (n : Nat) : (m.cells n).length = n := by simp [Memory.cells]

@[simp] theorem Memory.getElem_cells (m : Memory) (n i : Nat) (h : i < (m.cells n).length) :
    (m.cells n)[i] = m.read i := by simp [Memory.cells]

theorem Memory.mem_cells {m : Memory} {n : Nat} {v : Word} : v ∈ m.cells n ↔ ∃ i < n, m.read i = v := by
  simp [Memory.cells]

/-! ## The canonical form -/

theorem Memory.wf_iff (m : Memory) :
    m.wf = true ↔ m.Pairwise (fun a b => a.1 < b.1) ∧ ∀ c ∈ m, c.2 ≠ Memory.unlisted := by
  simp [Memory.wf]

theorem Memory.wf_nil : Memory.wf [] = true := by decide

theorem Memory.erase_wf {m : Memory} (i : Nat) (h : m.wf = true) : (m.erase i).wf = true := by
  rw [Memory.wf_iff] at *
  exact ⟨h.1.filter _, fun c hc => h.2 c (List.mem_filter.1 hc).1⟩

theorem Memory.mem_place {m : Memory} {i : Nat} {v : Word} {c : Nat × Word} (h : c ∈ m.place i v) :
    c = (i, v) ∨ c ∈ m := by
  induction m with
  | nil => simpa [Memory.place] using h
  | cons d rest ih =>
    obtain ⟨k, w⟩ := d
    unfold Memory.place at h
    split at h
    · rcases List.mem_cons.1 h with h | h
      · exact Or.inl h
      · exact Or.inr h
    · rcases List.mem_cons.1 h with h | h
      · exact Or.inr (h ▸ List.mem_cons_self)
      · exact (ih h).imp id (List.mem_cons_of_mem _)

theorem Memory.place_rising {m : Memory} {i : Nat} (v : Word) (h : m.Pairwise (fun a b => a.1 < b.1))
    (hi : ∀ c ∈ m, c.1 ≠ i) : (m.place i v).Pairwise (fun a b => a.1 < b.1) := by
  induction m with
  | nil => simp [Memory.place]
  | cons d rest ih =>
    obtain ⟨k, w⟩ := d
    have hk : k ≠ i := hi (k, w) (by simp)
    have hrest := List.pairwise_cons.1 h
    unfold Memory.place
    split
    · rename_i hlt
      refine List.pairwise_cons.2 ⟨fun c hc => ?_, h⟩
      rcases List.mem_cons.1 hc with rfl | hc
      · exact hlt
      · exact lt_trans hlt (hrest.1 c hc)
    · refine List.pairwise_cons.2 ⟨fun c hc => ?_, ih hrest.2 fun c hc => hi c (List.mem_cons_of_mem _ hc)⟩
      rcases Memory.mem_place hc with rfl | hc
      · show k < i; omega
      · exact hrest.1 c hc

theorem Memory.write_wf {m : Memory} (i : Nat) (v : Word) (h : m.wf = true) : (m.write i v).wf = true := by
  unfold Memory.write
  split
  · exact Memory.erase_wf i h
  · rename_i hv
    have he := (Memory.wf_iff _).1 (Memory.erase_wf i h)
    refine (Memory.wf_iff _).2 ⟨Memory.place_rising v he.1 Memory.mem_erase_ne, fun c hc => ?_⟩
    rcases Memory.mem_place hc with rfl | hc
    · exact hv
    · exact he.2 c hc

theorem Memory.writeFrom_wf (vs : List Word) : ∀ {m : Memory} (i : Nat), m.wf = true → (m.writeFrom i vs).wf = true := by
  induction vs with
  | nil => intro m i h; exact h
  | cons v vs ih => intro m i h; exact ih (i + 1) (Memory.write_wf i v h)

end Sys2Proof.Machine
end

