-- ==== Sys2Proof/Laws/Numerics.lean ====
section
/-!
SUPPORT. What is known of the elementary functions and of the presets, and how a magnitude bound goes through the
arithmetic; with these a design or a tuning can be shown to complete although the functions are open.
-/

namespace Sys2Proof.Machine

/-! ## The imposed properties -/

theorem withProperty_spec {p : F64 → Bool} {d : F64} (h : p d = true) (v : F64) : p (withProperty p d v) = true := by
  unfold withProperty; split <;> assumption

theorem isUnitBounded_iff (v : F64) : isUnitBounded v = true ↔ fMag v ≤ fMag unitBound := by simp [isUnitBounded]

/-! ## The references -/

theorem reference_bounded (c : Nat → Int) (x : F64) : (reference c x).natAbs ≤ 2 ^ 128 := by
  unfold reference refOne
  generalize powerSeries c (fInt x / refUnit) 128 0 (2 ^ 128) = v
  omega

theorem refUnit_mul : 2 ^ 128 * refUnit = unitsPerOne := by
  unfold refUnit unitsPerOne; rw [← Nat.pow_add]

theorem roundMag_reference {r : Int} (h : r.natAbs ≤ 2 ^ 128) : roundMag (r.natAbs * refUnit) 1 ≤ fMag Config.one := by
  refine roundMag_le one_pos ?_
  rw [magUnits_one, ← refUnit_mul, Nat.mul_one]
  exact Nat.mul_le_mul_right _ h

theorem ofReference_bounded {r : Int} (h : r.natAbs ≤ 2 ^ 128) : isUnitBounded (ofReference r) = true := by
  rw [isUnitBounded_iff, ofReference, fMag_fPack]
  exact le_trans (min_le_left _ _) (le_trans (roundMag_reference h) (by decide))

/-- The value nearest to a reference is near it. -/
theorem ofReference_near {r : Int} (h : r.natAbs ≤ 2 ^ 128) : isNear (ofReference r) (r * refUnit) = true := by
  have hm := roundMag_reference h
  have hone : fMag Config.one < infMag := by decide
  have hf : fMag (ofReference r) = roundMag (r.natAbs * refUnit) 1 := by
    rw [ofReference, fMag_fPack]; omega
  have hu : fUnits (ofReference r) = magUnits (roundMag (r.natAbs * refUnit) 1) := by rw [fUnits, hf]
  have hs : fSign (ofReference r) = decide (r < 0) := fSign_fPack _ _
  have hpos : 2 ^ 52 ≤ refUnit := by unfold refUnit; exact Nat.pow_le_pow_right (by decide) (by decide)
  rw [isNear, decide_eq_true_eq, Int.natAbs_mul, Int.natAbs_natCast]
  rcases eq_or_ne r 0 with rfl | hr
  · decide +kernel
  · have he := roundMag_error (n := r.natAbs * refUnit)
      (le_trans hpos (Nat.le_mul_of_pos_left _ (Int.natAbs_pos.2 hr)))
    rw [← hu] at he
    have hi : (fInt (ofReference r) - r * refUnit).natAbs =
        ((fUnits (ofReference r) : Int) - (r.natAbs * refUnit : Nat)).natAbs := by
      rw [fInt, hs, Nat.cast_mul]
      generalize fUnits (ofReference r) = a
      generalize refUnit = k
      rcases lt_or_ge r 0 with h0 | h0
      · simp only [h0, decide_true, if_true, Int.ofNat_natAbs_of_nonpos h0.le]
        rw [← Int.natAbs_neg, show -(-(a : Int) - r * k) = a - -r * k by ring]
      · simp only [not_lt.2 h0, decide_false, Bool.false_eq_true, if_false, Int.natAbs_of_nonneg h0]
    rw [hi]
    generalize fUnits (ofReference r) = a at *
    generalize r.natAbs * refUnit = n at *
    omega

/-- The two zeros. -/
theorem zero_of_fMag {x : F64} (h : fMag x = 0) : x = 0#64 ∨ x = 0x8000000000000000#64 := by
  have h2 := toNat_eq_sign_add_mag x
  rw [h] at h2
  cases hs : fSign x
  · left; apply BitVec.eq_of_toNat_eq; simpa [hs] using h2
  · right; apply BitVec.eq_of_toNat_eq; simpa [hs] using h2

/-! ## What each function has -/

theorem numerics_sin_spec {x : F64} (h : fIsFinite x = true) : isSineOf x (numerics.sin x) = true := by
  simp only [numerics, constrainNumerics, h, if_true]
  refine withProperty_spec (p := isSineOf x) ?_ _
  have hb : (sineRef x).natAbs ≤ 2 ^ 128 := reference_bounded _ x
  have hz : fMag x = 0 → fMag (ofReference (sineRef x)) = 0 := by
    intro h0; rcases zero_of_fMag h0 with rfl | rfl <;> decide +kernel
  have hz' : (decide (fMag x ≠ 0) || decide (fMag (ofReference (sineRef x)) = 0)) = true := by
    by_cases h0 : fMag x = 0
    · simp [hz h0]
    · simp [h0]
  rw [isSineOf, ofReference_bounded hb, hz', ofReference_near hb, Bool.or_true]; rfl

theorem numerics_cos_spec {x : F64} (h : fIsFinite x = true) : isCosineOf x (numerics.cos x) = true := by
  simp only [numerics, constrainNumerics, h, if_true]
  refine withProperty_spec (p := isCosineOf x) ?_ _
  have hb : (cosineRef x).natAbs ≤ 2 ^ 128 := reference_bounded _ x
  rw [isCosineOf, ofReference_bounded hb, ofReference_near hb, Bool.or_true]; rfl

theorem numerics_exp_spec {x : F64} (h : fIsFinite x = true) (h0 : fLe x 0#64 = true) :
    isExpOf x (numerics.exp x) = true := by
  simp only [numerics, constrainNumerics, h, h0, Bool.and_self, if_true]
  refine withProperty_spec (p := isExpOf x) ?_ _
  have hb : (expRef x).natAbs ≤ 2 ^ 128 := reference_bounded _ x
  have hz : fMag x = 0 → ofReference (expRef x) = Config.one := by
    intro h0; rcases zero_of_fMag h0 with rfl | rfl <;> decide +kernel
  have hz' : (decide (fMag x ≠ 0) || decide (ofReference (expRef x) = Config.one)) = true := by
    by_cases h0 : fMag x = 0
    · simp [hz h0]
    · simp [h0]
  rw [isExpOf, ofReference_bounded hb, hz', ofReference_near hb, Bool.or_true]; rfl

theorem numerics_tan_finite {x : F64} (h : fIsFinite x = true) : fIsFinite (numerics.tan x) = true := by
  simp only [numerics, constrainNumerics, h, if_true]
  exact withProperty_spec (p := fIsFinite) (by decide) _

theorem numerics_sqrt_spec {x : F64} (h : fIsFinite x = true) (h0 : fLe 0#64 x = true) :
    isRootOf x (numerics.sqrt x) = true := by
  simp only [numerics, constrainNumerics, h, h0, Bool.and_self, if_true]
  refine withProperty_spec (p := isRootOf x) ?_ _
  rw [isRootOf, h]
  by_cases h0 : fMag x = 0 <;> by_cases h1 : x = Config.one <;> simp [h0, h1]

theorem numerics_pow_spec {x y : F64} (h : isRulePower x y = true) : isPowerOf x (numerics.pow x y) = true := by
  simp only [numerics, constrainNumerics, h, if_true]
  exact withProperty_spec (p := isPowerOf x) (by rw [isPowerOf, decide_eq_true (show fMag 0#64 = 0 by decide), Bool.or_true]; decide) _

/-! ## The parts of it that proofs use -/

theorem numerics_sin_bounded {x : F64} (h : fIsFinite x = true) : fMag (numerics.sin x) ≤ fMag unitBound := by
  have := numerics_sin_spec h
  simp only [isSineOf, Bool.and_eq_true, isUnitBounded_iff] at this
  exact this.1.1

theorem numerics_sin_zero {x : F64} (h : fMag x = 0) : fMag (numerics.sin x) = 0 := by
  have := numerics_sin_spec (x := x) ((fIsFinite_iff _).2 (by rw [h]; decide))
  simp only [isSineOf, Bool.and_eq_true, Bool.or_eq_true, decide_eq_true_eq, h, ne_eq, not_true, false_or] at this
  exact this.1.2

/-- Where the accuracy of R145 is imposed on the sine. -/
theorem numerics_sin_near {x : F64} (h : fIsFinite x = true)
    (hx : (isMagBetween 0x3C30000000000000#64 Config.one x ||
      (isMagBetween Config.one 0x4019000000000000#64 x && isSteady (sineRef x))) = true) :
    isNear (numerics.sin x) (sineRef x * refUnit) = true := by
  have hs := numerics_sin_spec h
  rw [isSineOf, hx, Bool.and_eq_true, Bool.not_true, Bool.false_or] at hs
  exact hs.2

/-- Where the accuracy of R145 is imposed on the cosine. -/
theorem numerics_cos_near {x : F64} (h : fIsFinite x = true)
    (hx : (isMagBetween 0#64 0x4019000000000000#64 x && isSteady (cosineRef x)) = true) :
    isNear (numerics.cos x) (cosineRef x * refUnit) = true := by
  have hs := numerics_cos_spec h
  rw [isCosineOf, hx, Bool.and_eq_true, Bool.not_true, Bool.false_or] at hs
  exact hs.2

theorem numerics_cos_bounded {x : F64} (h : fIsFinite x = true) : fMag (numerics.cos x) ≤ fMag unitBound := by
  have := numerics_cos_spec h
  simp only [isCosineOf, Bool.and_eq_true, isUnitBounded_iff] at this
  exact this.1

theorem numerics_exp_bounded {x : F64} (h : fIsFinite x = true) (h0 : fLe x 0#64 = true) :
    fMag (numerics.exp x) ≤ fMag unitBound := by
  have := numerics_exp_spec h h0
  simp only [isExpOf, Bool.and_eq_true, isUnitBounded_iff] at this
  exact this.1.1

/-- R141, R301: a zero bandwidth gives an undamped unit. -/
theorem numerics_exp_zero {x : F64} (h : fMag x = 0) : numerics.exp x = Config.one := by
  have := numerics_exp_spec (x := x) ((fIsFinite_iff _).2 (by rw [h]; decide))
    (by rcases zero_of_fMag h with rfl | rfl <;> decide)
  simp only [isExpOf, Bool.and_eq_true, Bool.or_eq_true, decide_eq_true_eq, h, ne_eq, not_true, false_or] at this
  exact this.1.2

theorem numerics_sqrt_finite {x : F64} (h : fIsFinite x = true) (h0 : fLe 0#64 x = true) :
    fIsFinite (numerics.sqrt x) = true := by
  have := numerics_sqrt_spec h h0
  simp only [isRootOf, Bool.and_eq_true] at this
  exact this.1.1

theorem numerics_sqrt_zero {x : F64} (h : fMag x = 0) : fMag (numerics.sqrt x) = 0 := by
  have := numerics_sqrt_spec (x := x) ((fIsFinite_iff _).2 (by rw [h]; decide))
    (by rcases zero_of_fMag h with rfl | rfl <;> decide)
  simp only [isRootOf, Bool.and_eq_true, Bool.or_eq_true, decide_eq_true_eq, h, ne_eq, not_true, false_or] at this
  exact this.1.2

theorem numerics_sqrt_one : numerics.sqrt Config.one = Config.one := by
  have := numerics_sqrt_spec (x := Config.one) (by decide) (by decide)
  simp only [isRootOf, Bool.and_eq_true, Bool.or_eq_true, decide_eq_true_eq, ne_eq, not_true, false_or] at this
  exact this.2

theorem numerics_pow_zero {x : F64} (h : x = 0#64) : fMag (numerics.pow x Config.kaiserPowExp) = 0 := by
  have := numerics_pow_spec (x := x) (y := Config.kaiserPowExp) (by rw [h]; decide)
  simp only [isPowerOf, Bool.and_eq_true, Bool.or_eq_true, decide_eq_true_eq, h, ne_eq] at this
  exact (h ▸ this.2.resolve_left (by decide))

theorem isFiniteNonneg_iff (v : F64) : isFiniteNonneg v = true ↔ fIsFinite v = true ∧ fLe 0#64 v = true := by
  simp [isFiniteNonneg]

theorem presetComponent_finite (raw : Nat → Nat → F64) (c : Nat) : ∀ p, isFiniteNonneg (presetComponent raw p c) = true
  | 0 => withProperty_spec (p := isFiniteNonneg) (by decide) _
  | p + 1 => by
    simp only [presetComponent, withProperty]
    split
    · rename_i h; simp only [Bool.and_eq_true] at h; exact h.1
    · exact presetComponent_finite raw c p

theorem preset_finite (p c : Nat) : fIsFinite (preset p c) = true :=
  ((isFiniteNonneg_iff _).1 (presetComponent_finite _ _ _)).1

/-! ## Magnitude bounds through the arithmetic -/

theorem finite_of_mag_le {x b : F64} (h : fMag x ≤ fMag b) (hb : fIsFinite b = true) : fIsFinite x = true := by
  rw [fIsFinite_iff] at *; omega

theorem fUnits_mono {x b : F64} (h : fMag x ≤ fMag b) : fUnits x ≤ fUnits b := magUnits_mono h

theorem fUnits_pos {x : F64} (h : fMag x ≠ 0) : 0 < fUnits x :=
  Nat.pos_of_ne_zero (by simpa [fUnits, magUnits_eq_zero] using h)

theorem fMag_fMul_mono {x y a b : F64} (hx : fMag x ≤ fMag a) (hy : fMag y ≤ fMag b) (ha : fIsFinite a = true)
    (hb : fIsFinite b = true) : fMag (fMul x y) ≤ fMag (fMul a b) := by
  rw [fMul_finite_eq (finite_of_mag_le hx ha) (finite_of_mag_le hy hb), fMul_finite_eq ha hb, fMag_fPack, fMag_fPack]
  have := roundMag_mono (n := fUnits x * fUnits y) (n' := fUnits a * fUnits b) unitsPerOne_pos unitsPerOne_pos
    (Nat.mul_le_mul_right _ (Nat.mul_le_mul (fUnits_mono hx) (fUnits_mono hy)))
  omega

/-- A smaller numerator over a larger denominator. -/
theorem fMag_fDiv_mono {x y a b : F64} (hx : fMag x ≤ fMag a) (hy : fMag b ≤ fMag y) (ha : fIsFinite a = true)
    (hyf : fIsFinite y = true) (hb : fMag b ≠ 0) : fMag (fDiv x y) ≤ fMag (fDiv a b) := by
  have hbf := finite_of_mag_le hy hyf
  have hy0 : fMag y ≠ 0 := by omega
  rw [fDiv_finite_eq (finite_of_mag_le hx ha) hyf hy0, fDiv_finite_eq ha hbf hb, fMag_fPack, fMag_fPack]
  have := roundMag_mono (n := fUnits x * unitsPerOne) (d := fUnits y) (n' := fUnits a * unitsPerOne) (d' := fUnits b)
    (fUnits_pos hy0) (fUnits_pos hb)
    (Nat.mul_le_mul (Nat.mul_le_mul_right _ (fUnits_mono hx)) (fUnits_mono hy))
  omega

theorem fInt_of_pos {x : F64} (h : fSign x = false) : fInt x = fUnits x := by simp [fInt, h]

theorem natAbs_add_le {p q : Int} {x y a b : Nat} (h1 : x ≤ a) (h2 : y ≤ b) (h3 : p.natAbs = x) (h4 : q.natAbs = y) :
    (p + q).natAbs * 1 ≤ ((a : Int) + b).natAbs * 1 := by omega

theorem fMag_fAdd_mono {x y a b : F64} (hx : fMag x ≤ fMag a) (hy : fMag y ≤ fMag b) (ha : fIsFinite a = true)
    (hb : fIsFinite b = true) (hsa : fSign a = false) (hsb : fSign b = false) : fMag (fAdd x y) ≤ fMag (fAdd a b) := by
  rw [fMag_fAdd_of_finite (finite_of_mag_le hx ha) (finite_of_mag_le hy hb), fMag_fAdd_of_finite ha hb,
    fInt_of_pos hsa, fInt_of_pos hsb]
  exact min_le_min_right _ (roundMag_mono one_pos one_pos
    (natAbs_add_le (fUnits_mono hx) (fUnits_mono hy) (natAbs_fInt x) (natAbs_fInt y)))

/-- A sum whose exact value is at least a positive value is positive and no smaller. -/
theorem fAdd_ge {x y b : F64} (hx : fIsFinite x = true) (hy : fIsFinite y = true) (hb : fMag b ≠ 0)
    (hbf : fIsFinite b = true) (h : (fUnits b : Int) ≤ fInt x + fInt y) :
    fSign (fAdd x y) = false ∧ fMag b ≤ fMag (fAdd x y) := by
  have hp := fUnits_pos hb
  have hm := (fIsFinite_iff b).1 hbf
  rw [fAdd_finite_eq hx hy]
  have h1 : fUnits b ≤ (fInt x + fInt y).natAbs ∧ fInt x + fInt y ≠ 0 ∧ ¬ fInt x + fInt y < 0 := by
    generalize fInt x + fInt y = z at *
    generalize fUnits b = w at *
    omega
  rw [if_neg h1.2.1, fSign_fPack, fMag_fPack]
  exact ⟨decide_eq_false h1.2.2, le_min (le_roundMag one_pos (by rw [Nat.mul_one]; exact h1.1)) hm.le⟩

theorem fMul_comm {x y : F64} (hx : fIsFinite x = true) (hy : fIsFinite y = true) : fMul x y = fMul y x := by
  rw [fMul_finite_eq hx hy, fMul_finite_eq hy hx, Nat.mul_comm, bne_comm]

theorem fMul_one_right {x : F64} (hx : fIsFinite x = true) : fMul x Config.one = x := by
  rw [fMul_comm hx (by decide), fMul_one_left hx]

/-! ## A factor -1, and sums near 0 -/

theorem fMul_minus_one {x : F64} (hx : fIsFinite x = true) : fMul x 0xBFF0000000000000#64 = fNeg x := by
  have hm : fMag x ≤ infMag := ((fIsFinite_iff x).1 hx).le
  rw [fMul_finite_eq hx (by decide), show fUnits 0xBFF0000000000000#64 = unitsPerOne from magUnits_one, fUnits,
    roundMag_magUnits _ unitsPerOne_pos, show fSign 0xBFF0000000000000#64 = true by decide]
  have h := fPack_sign_mag (fNeg x) (by rw [fMag_fNeg]; exact hm)
  rw [fMag_fNeg, fSign_fNeg] at h
  rw [← h]; cases fSign x <;> rfl

theorem fNeg_fNeg (x : F64) : fNeg (fNeg x) = x := by
  apply BitVec.eq_of_toNat_eq
  rw [toNat_fNeg, fMag_fNeg, fSign_fNeg, toNat_eq_sign_add_mag x]
  cases fSign x <;> rfl

theorem fInt_fNeg (x : F64) : fInt (fNeg x) = -fInt x := by
  rw [fInt, fInt, fUnits, fMag_fNeg, fSign_fNeg, ← fUnits]
  cases fSign x <;> simp

/-- Above a half the values are multiples of 2^-53. -/
theorem unit_dvd_fInt {x : F64} (h : fMag 0x3FE0000000000000#64 ≤ fMag x) : ((2 ^ 1021 : Nat) : Int) ∣ fInt x := by
  rw [← Int.dvd_natAbs, natAbs_fInt, Int.natCast_dvd_natCast, fUnits, magUnits,
    if_neg (by rw [show fMag 0x3FE0000000000000#64 = 1022 * 2 ^ 52 by decide] at h; omega)]
  refine Dvd.dvd.mul_left (Nat.pow_dvd_pow 2 ?_) _
  rw [show fMag 0x3FE0000000000000#64 = 1022 * 2 ^ 52 by decide] at h
  omega

/-! ## Positive values between bounds -/

/-- Positive in sign, its magnitude between two others. -/
structure Within (lo hi v : F64) : Prop where
  sign : fSign v = false
  lower : fMag lo ≤ fMag v
  upper : fMag v ≤ fMag hi

theorem Within.refl {v : F64} (h : fSign v = false) : Within v v v := ⟨h, le_refl _, le_refl _⟩

theorem Within.finite {lo hi v : F64} (h : Within lo hi v) (hf : fIsFinite hi = true) : fIsFinite v = true :=
  finite_of_mag_le h.upper hf

theorem Within.positive {lo hi v : F64} (h : Within lo hi v) (hf : fIsFinite hi = true) (h0 : fMag lo ≠ 0) :
    fLt 0#64 v = true := by
  have := h.lower
  rw [fLt_iff (by decide) (h.finite hf), fKey_zero, fKey_of_pos h.sign]
  omega

/-- What an accuracy of 1e-9 says of a positive value. -/
theorem Within.of_near {lo hi v : F64} {r : Int} (h : isNear v r = true) (h1 : 10 ^ 9 * fUnits lo < (10 ^ 9 - 1) * r)
    (h2 : (10 ^ 9 + 1) * r < 10 ^ 9 * fUnits hi) : Within lo hi v := by
  rw [isNear, decide_eq_true_eq] at h
  have hu := natAbs_fInt v
  have hpos : 0 < fInt v := by
    generalize fInt v = z at *
    generalize fUnits lo = a at *
    omega
  have hlo : fUnits lo < fUnits v := by
    generalize fInt v = z at *
    generalize fUnits lo = a at *
    generalize fUnits v = b at *
    omega
  have hhi : fUnits v < fUnits hi := by
    generalize fInt v = z at *
    generalize fUnits hi = a at *
    generalize fUnits v = b at *
    omega
  refine ⟨?_, ?_, ?_⟩
  · rcases hs : fSign v with _ | _
    · rfl
    · rw [fInt, hs] at hpos
      generalize fUnits v = b at *
      simp only [if_true] at hpos
      omega
  · by_contra hc
    exact absurd (fUnits_mono (Nat.le_of_lt (Nat.lt_of_not_le hc))) (Nat.not_le.2 hlo)
  · by_contra hc
    exact absurd (fUnits_mono (Nat.le_of_lt (Nat.lt_of_not_le hc))) (Nat.not_le.2 hhi)

theorem Within.mul {a b c d x y : F64} (hx : Within a b x) (hy : Within c d y) (hb : fIsFinite b = true)
    (hd : fIsFinite d = true) : Within (fMul a c) (fMul b d) (fMul x y) := by
  have hxf := hx.finite hb
  have hyf := hy.finite hd
  refine ⟨?_, fMag_fMul_mono hx.lower hy.lower hxf hyf, fMag_fMul_mono hx.upper hy.upper hb hd⟩
  rw [fMul_finite_eq hxf hyf, fSign_fPack, hx.sign, hy.sign]; rfl

theorem Within.div {a b c d x y : F64} (hx : Within a b x) (hy : Within c d y) (hb : fIsFinite b = true)
    (hd : fIsFinite d = true) (hc : fMag c ≠ 0) : Within (fDiv a d) (fDiv b c) (fDiv x y) := by
  have hxf := hx.finite hb
  have hyf := hy.finite hd
  have h0 : fMag y ≠ 0 := by have := hy.lower; omega
  refine ⟨?_, fMag_fDiv_mono hx.lower hy.upper hxf hd h0, fMag_fDiv_mono hx.upper hy.lower hb hyf hc⟩
  rw [fDiv_finite_eq hxf hyf h0, fSign_fPack, hx.sign, hy.sign]; rfl

theorem Within.add {a b c d x y : F64} (hx : Within a b x) (hy : Within c d y) (hb : fIsFinite b = true)
    (hd : fIsFinite d = true) (hbs : fSign b = false) (hds : fSign d = false) :
    Within (fAdd a c) (fAdd b d) (fAdd x y) := by
  have hxf := hx.finite hb
  have hyf := hy.finite hd
  refine ⟨?_, fMag_fAdd_mono hx.lower hy.lower hxf hyf hx.sign hy.sign, fMag_fAdd_mono hx.upper hy.upper hb hd hbs hds⟩
  rw [fAdd_finite_eq hxf hyf, fInt_of_pos hx.sign, fInt_of_pos hy.sign]
  split
  · rw [fSign_fPack, hx.sign]; rfl
  · rw [fSign_fPack]
    exact decide_eq_false (not_lt.2 (by positivity))

end Sys2Proof.Machine
end

