-- ==== Sys2Proof/Laws/State.lean ====
section
/-!
SUPPORT. One lemma per field per update of the state, each true by rfl, so that no later proof unfolds an update.
-/

namespace Sys2Proof.Machine

/-! ## The ends of a command -/

section
variable (s : State) (b : Block) (r : Word) (f : FaultCode)
@[simp] theorem State.answer_block : (s.answer b r).block = b := rfl
@[simp] theorem State.answer_pending : (s.answer b r).pending = s.pending.tail := rfl
@[simp] theorem State.answer_status : (s.answer b r).status = 0#8 := rfl
@[simp] theorem State.answer_rdata : (s.answer b r).rdata = r := rfl
@[simp] theorem State.takeFault_block : (s.takeFault f).block = s.block := rfl
@[simp] theorem State.takeFault_pending : (s.takeFault f).pending = s.pending.tail := rfl
@[simp] theorem State.takeFault_status : (s.takeFault f).status = statusCode f := rfl
@[simp] theorem State.takeFault_rdata : (s.takeFault f).rdata = 0#64 := rfl
@[simp] theorem State.complete_ok : s.complete (.ok (b, r)) = .next (s.answer b r) := rfl
@[simp] theorem State.complete_error : s.complete (.error f) = .next (s.takeFault f) := rfl
end

/-! ## The four units -/

section
variable {α : Type} (q : Quad α) (u : ToneUnit) (v : α)
@[simp] theorem Quad.get_set_same : (q.set u v).get u = v := by cases u <;> rfl
theorem Quad.get_set_ne {u' : ToneUnit} (h : u' ≠ u) : (q.set u v).get u' = q.get u' := by
  cases u <;> cases u' <;> first | rfl | exact absurd rfl h
@[simp] theorem Quad.set_get : q.set u (q.get u) = q := by cases u <;> rfl
@[simp] theorem Quad.set_set (w : α) : (q.set u v).set u w = q.set u w := by cases u <;> rfl
theorem Quad.ext_get {q q' : Quad α} (h : ∀ u, q.get u = q'.get u) : q = q' := by
  obtain ⟨a, b, c, d⟩ := q
  obtain ⟨a', b', c', d'⟩ := q'
  have h1 := h .leader
  have h2 := h .sync
  have h3 := h .mark
  have h4 := h .space
  simp only [Quad.get] at h1 h2 h3 h4
  rw [h1, h2, h3, h4]
end

/-! ## The parts of the block -/

section
variable (b : Block)
@[simp] theorem Block.withArg_params (i : Fin 8) (v : Word) : (b.withArg i v).params = b.params := rfl
@[simp] theorem Block.withArg_arg (i : Fin 8) (v : Word) : (b.withArg i v).arg = b.arg.set i v := rfl
@[simp] theorem Block.withArg_ob (i : Fin 8) (v : Word) : (b.withArg i v).ob = b.ob := rfl
@[simp] theorem Block.withArg_obLen (i : Fin 8) (v : Word) : (b.withArg i v).obLen = b.obLen := rfl
@[simp] theorem Block.withArg_fir (i : Fin 8) (v : Word) : (b.withArg i v).fir = b.fir := rfl
@[simp] theorem Block.withArg_res (i : Fin 8) (v : Word) : (b.withArg i v).res = b.res := rfl
@[simp] theorem Block.withArg_bq (i : Fin 8) (v : Word) : (b.withArg i v).bq = b.bq := rfl
@[simp] theorem Block.withArg_agc (i : Fin 8) (v : Word) : (b.withArg i v).agc = b.agc := rfl
@[simp] theorem Block.withArg_sync (i : Fin 8) (v : Word) : (b.withArg i v).sync = b.sync := rfl
@[simp] theorem Block.withArg_ovf (i : Fin 8) (v : Word) : (b.withArg i v).ovf = b.ovf := rfl
@[simp] theorem Block.withArg_diag (i : Fin 8) (v : Word) : (b.withArg i v).diag = b.diag := rfl
@[simp] theorem Block.withOb_params (m : Memory) (n : Nat) : (b.withOb m n).params = b.params := rfl
@[simp] theorem Block.withOb_arg (m : Memory) (n : Nat) : (b.withOb m n).arg = b.arg := rfl
@[simp] theorem Block.withOb_ob (m : Memory) (n : Nat) : (b.withOb m n).ob = m := rfl
@[simp] theorem Block.withOb_obLen (m : Memory) (n : Nat) : (b.withOb m n).obLen = n := rfl
@[simp] theorem Block.withOb_fir (m : Memory) (n : Nat) : (b.withOb m n).fir = b.fir := rfl
@[simp] theorem Block.withOb_res (m : Memory) (n : Nat) : (b.withOb m n).res = b.res := rfl
@[simp] theorem Block.withOb_bq (m : Memory) (n : Nat) : (b.withOb m n).bq = b.bq := rfl
@[simp] theorem Block.withOb_agc (m : Memory) (n : Nat) : (b.withOb m n).agc = b.agc := rfl
@[simp] theorem Block.withOb_sync (m : Memory) (n : Nat) : (b.withOb m n).sync = b.sync := rfl
@[simp] theorem Block.withOb_ovf (m : Memory) (n : Nat) : (b.withOb m n).ovf = b.ovf := rfl
@[simp] theorem Block.withOb_diag (m : Memory) (n : Nat) : (b.withOb m n).diag = b.diag := rfl
@[simp] theorem Block.withFir_params (f : Fir) : (b.withFir f).params = b.params := rfl
@[simp] theorem Block.withFir_arg (f : Fir) : (b.withFir f).arg = b.arg := rfl
@[simp] theorem Block.withFir_ob (f : Fir) : (b.withFir f).ob = b.ob := rfl
@[simp] theorem Block.withFir_obLen (f : Fir) : (b.withFir f).obLen = b.obLen := rfl
@[simp] theorem Block.withFir_fir (f : Fir) : (b.withFir f).fir = f := rfl
@[simp] theorem Block.withFir_res (f : Fir) : (b.withFir f).res = b.res := rfl
@[simp] theorem Block.withFir_bq (f : Fir) : (b.withFir f).bq = b.bq := rfl
@[simp] theorem Block.withFir_agc (f : Fir) : (b.withFir f).agc = b.agc := rfl
@[simp] theorem Block.withFir_sync (f : Fir) : (b.withFir f).sync = b.sync := rfl
@[simp] theorem Block.withFir_ovf (f : Fir) : (b.withFir f).ovf = b.ovf := rfl
@[simp] theorem Block.withFir_diag (f : Fir) : (b.withFir f).diag = b.diag := rfl
@[simp] theorem Block.withRes_params (u : ToneUnit) (r : Resonator) : (b.withRes u r).params = b.params := rfl
@[simp] theorem Block.withRes_arg (u : ToneUnit) (r : Resonator) : (b.withRes u r).arg = b.arg := rfl
@[simp] theorem Block.withRes_ob (u : ToneUnit) (r : Resonator) : (b.withRes u r).ob = b.ob := rfl
@[simp] theorem Block.withRes_obLen (u : ToneUnit) (r : Resonator) : (b.withRes u r).obLen = b.obLen := rfl
@[simp] theorem Block.withRes_fir (u : ToneUnit) (r : Resonator) : (b.withRes u r).fir = b.fir := rfl
@[simp] theorem Block.withRes_res (u : ToneUnit) (r : Resonator) : (b.withRes u r).res = b.res.set u r := rfl
@[simp] theorem Block.withRes_bq (u : ToneUnit) (r : Resonator) : (b.withRes u r).bq = b.bq := rfl
@[simp] theorem Block.withRes_agc (u : ToneUnit) (r : Resonator) : (b.withRes u r).agc = b.agc := rfl
@[simp] theorem Block.withRes_sync (u : ToneUnit) (r : Resonator) : (b.withRes u r).sync = b.sync := rfl
@[simp] theorem Block.withRes_ovf (u : ToneUnit) (r : Resonator) : (b.withRes u r).ovf = b.ovf := rfl
@[simp] theorem Block.withRes_diag (u : ToneUnit) (r : Resonator) : (b.withRes u r).diag = b.diag := rfl
@[simp] theorem Block.withBq_params (u : ToneUnit) (q : Biquad) : (b.withBq u q).params = b.params := rfl
@[simp] theorem Block.withBq_arg (u : ToneUnit) (q : Biquad) : (b.withBq u q).arg = b.arg := rfl
@[simp] theorem Block.withBq_ob (u : ToneUnit) (q : Biquad) : (b.withBq u q).ob = b.ob := rfl
@[simp] theorem Block.withBq_obLen (u : ToneUnit) (q : Biquad) : (b.withBq u q).obLen = b.obLen := rfl
@[simp] theorem Block.withBq_fir (u : ToneUnit) (q : Biquad) : (b.withBq u q).fir = b.fir := rfl
@[simp] theorem Block.withBq_res (u : ToneUnit) (q : Biquad) : (b.withBq u q).res = b.res := rfl
@[simp] theorem Block.withBq_bq (u : ToneUnit) (q : Biquad) : (b.withBq u q).bq = b.bq.set u q := rfl
@[simp] theorem Block.withBq_agc (u : ToneUnit) (q : Biquad) : (b.withBq u q).agc = b.agc := rfl
@[simp] theorem Block.withBq_sync (u : ToneUnit) (q : Biquad) : (b.withBq u q).sync = b.sync := rfl
@[simp] theorem Block.withBq_ovf (u : ToneUnit) (q : Biquad) : (b.withBq u q).ovf = b.ovf := rfl
@[simp] theorem Block.withBq_diag (u : ToneUnit) (q : Biquad) : (b.withBq u q).diag = b.diag := rfl
@[simp] theorem Block.withAgc_params (a : Agc) : (b.withAgc a).params = b.params := rfl
@[simp] theorem Block.withAgc_arg (a : Agc) : (b.withAgc a).arg = b.arg := rfl
@[simp] theorem Block.withAgc_ob (a : Agc) : (b.withAgc a).ob = b.ob := rfl
@[simp] theorem Block.withAgc_obLen (a : Agc) : (b.withAgc a).obLen = b.obLen := rfl
@[simp] theorem Block.withAgc_fir (a : Agc) : (b.withAgc a).fir = b.fir := rfl
@[simp] theorem Block.withAgc_res (a : Agc) : (b.withAgc a).res = b.res := rfl
@[simp] theorem Block.withAgc_bq (a : Agc) : (b.withAgc a).bq = b.bq := rfl
@[simp] theorem Block.withAgc_agc (a : Agc) : (b.withAgc a).agc = a := rfl
@[simp] theorem Block.withAgc_sync (a : Agc) : (b.withAgc a).sync = b.sync := rfl
@[simp] theorem Block.withAgc_ovf (a : Agc) : (b.withAgc a).ovf = b.ovf := rfl
@[simp] theorem Block.withAgc_diag (a : Agc) : (b.withAgc a).diag = b.diag := rfl
@[simp] theorem Block.withSync_params (y : Sync) : (b.withSync y).params = b.params := rfl
@[simp] theorem Block.withSync_arg (y : Sync) : (b.withSync y).arg = b.arg := rfl
@[simp] theorem Block.withSync_ob (y : Sync) : (b.withSync y).ob = b.ob := rfl
@[simp] theorem Block.withSync_obLen (y : Sync) : (b.withSync y).obLen = b.obLen := rfl
@[simp] theorem Block.withSync_fir (y : Sync) : (b.withSync y).fir = b.fir := rfl
@[simp] theorem Block.withSync_res (y : Sync) : (b.withSync y).res = b.res := rfl
@[simp] theorem Block.withSync_bq (y : Sync) : (b.withSync y).bq = b.bq := rfl
@[simp] theorem Block.withSync_agc (y : Sync) : (b.withSync y).agc = b.agc := rfl
@[simp] theorem Block.withSync_sync (y : Sync) : (b.withSync y).sync = y := rfl
@[simp] theorem Block.withSync_ovf (y : Sync) : (b.withSync y).ovf = b.ovf := rfl
@[simp] theorem Block.withSync_diag (y : Sync) : (b.withSync y).diag = b.diag := rfl
@[simp] theorem Block.withOvf_params (o : Bool) : (b.withOvf o).params = b.params := rfl
@[simp] theorem Block.withOvf_arg (o : Bool) : (b.withOvf o).arg = b.arg := rfl
@[simp] theorem Block.withOvf_ob (o : Bool) : (b.withOvf o).ob = b.ob := rfl
@[simp] theorem Block.withOvf_obLen (o : Bool) : (b.withOvf o).obLen = b.obLen := rfl
@[simp] theorem Block.withOvf_fir (o : Bool) : (b.withOvf o).fir = b.fir := rfl
@[simp] theorem Block.withOvf_res (o : Bool) : (b.withOvf o).res = b.res := rfl
@[simp] theorem Block.withOvf_bq (o : Bool) : (b.withOvf o).bq = b.bq := rfl
@[simp] theorem Block.withOvf_agc (o : Bool) : (b.withOvf o).agc = b.agc := rfl
@[simp] theorem Block.withOvf_sync (o : Bool) : (b.withOvf o).sync = b.sync := rfl
@[simp] theorem Block.withOvf_ovf (o : Bool) : (b.withOvf o).ovf = o := rfl
@[simp] theorem Block.withOvf_diag (o : Bool) : (b.withOvf o).diag = b.diag := rfl
@[simp] theorem Block.withDiag_params (d : Diag) : (b.withDiag d).params = b.params := rfl
@[simp] theorem Block.withDiag_arg (d : Diag) : (b.withDiag d).arg = b.arg := rfl
@[simp] theorem Block.withDiag_ob (d : Diag) : (b.withDiag d).ob = b.ob := rfl
@[simp] theorem Block.withDiag_obLen (d : Diag) : (b.withDiag d).obLen = b.obLen := rfl
@[simp] theorem Block.withDiag_fir (d : Diag) : (b.withDiag d).fir = b.fir := rfl
@[simp] theorem Block.withDiag_res (d : Diag) : (b.withDiag d).res = b.res := rfl
@[simp] theorem Block.withDiag_bq (d : Diag) : (b.withDiag d).bq = b.bq := rfl
@[simp] theorem Block.withDiag_agc (d : Diag) : (b.withDiag d).agc = b.agc := rfl
@[simp] theorem Block.withDiag_sync (d : Diag) : (b.withDiag d).sync = b.sync := rfl
@[simp] theorem Block.withDiag_ovf (d : Diag) : (b.withDiag d).ovf = b.ovf := rfl
@[simp] theorem Block.withDiag_diag (d : Diag) : (b.withDiag d).diag = d := rfl
end

/-! ## Reset -/

section
variable (p : Config.Params)
@[simp] theorem Block.resetWith_params : (Block.resetWith p).params = p := rfl
@[simp] theorem Block.resetWith_obLen : (Block.resetWith p).obLen = 0 := rfl
@[simp] theorem Block.resetWith_fir : (Block.resetWith p).fir = ⟨[], 0, [], 0⟩ := rfl
@[simp] theorem Block.resetWith_res (u : ToneUnit) : (Block.resetWith p).res.get u = Resonator.reset := by cases u <;> rfl
@[simp] theorem Block.resetWith_bq (u : ToneUnit) : (Block.resetWith p).bq.get u = Biquad.reset := by cases u <;> rfl
@[simp] theorem Block.resetWith_agc : (Block.resetWith p).agc = Agc.reset p.agcGainInit := rfl
@[simp] theorem Block.resetWith_sync : (Block.resetWith p).sync = Sync.reset := rfl
@[simp] theorem Block.resetWith_ovf : (Block.resetWith p).ovf = false := rfl
@[simp] theorem State.resetWith_block : (State.resetWith p).block = Block.resetWith p := rfl
end

end Sys2Proof.Machine
end

