-- ==== Sys2Proof/Laws/Ops.lean ====
section
/-!
SUPPORT. For each shared operation one lemma that says once everything it can do when it succeeds; proofs cite it
instead of unfolding the operation.
-/

namespace Sys2Proof.Machine

/-- A command ends in an answer or in a fault, a next state either way. -/
theorem State.complete_next (s : State) (r : Result) : ∃ t, s.complete r = .next t := by
  rcases r with f | ⟨b, w⟩
  · exact ⟨_, rfl⟩
  · exact ⟨_, rfl⟩

/-- What the next state is when a command completes. -/
theorem State.complete_eq_next {s t : State} {r : Result} (h : s.complete r = .next t) :
    (∃ b w, r = .ok (b, w) ∧ t = s.answer b w) ∨ ∃ f, r = .error f ∧ t = s.takeFault f := by
  rcases r with f | ⟨b, w⟩
  · simp only [State.complete_error, Host.Outcome.next.injEq] at h
    exact Or.inr ⟨f, rfl, h.symm⟩
  · simp only [State.complete_ok, Host.Outcome.next.injEq] at h
    exact Or.inl ⟨b, w, rfl, h.symm⟩

/-- A completed command, read from the right. -/
theorem ok_eq_ok_iff {a p : Block × Word} : (Except.ok a : Result) = .ok p ↔ p = a :=
  ⟨fun h => (Except.ok.inj h).symm, fun h => by rw [h]⟩

theorem error_ne_ok {f : FaultCode} {p : Block × Word} : ((Except.error f : Result) = .ok p) ↔ False := by
  simp

theorem statusCode_ne_zero (f : FaultCode) : statusCode f ≠ 0#8 := by cases f <;> decide

/-! ## The checks -/

theorem requireFinite_ok {xs : List F64} {k : Result} {p : Block × Word} :
    requireFinite xs k = .ok p ↔ (∀ x ∈ xs, fIsFinite x = true) ∧ k = .ok p := by
  unfold requireFinite
  split
  · rename_i h; simp; exact fun _ => List.all_eq_true.1 h
  · rename_i h
    simp only [reduceCtorEq, false_iff, not_and]
    exact fun hf => absurd (List.all_eq_true.2 hf) h

theorem requireFinite_of_finite {xs : List F64} (k : Result) (h : ∀ x ∈ xs, fIsFinite x = true) :
    requireFinite xs k = k := by
  unfold requireFinite; rw [if_pos (List.all_eq_true.2 h)]

theorem requireFinite_of_not {xs : List F64} (k : Result) {x : F64} (hx : x ∈ xs) (h : fIsFinite x = false) :
    requireFinite xs k = .error .nonFinite := by
  unfold requireFinite
  rw [if_neg]
  intro hall
  rw [List.all_eq_true.1 hall x hx] at h
  exact absurd h (by decide)

theorem withUnit_ok {u : BitVec 4} {k : ToneUnit → Result} {p : Block × Word} :
    withUnit u k = .ok p ↔ ∃ t, unitOf u = some t ∧ k t = .ok p := by
  unfold withUnit; split <;> simp_all

theorem withImm_ok {α : Type} {o : Option α} {k : α → Result} {p : Block × Word} :
    withImm o k = .ok p ↔ ∃ a, o = some a ∧ k a = .ok p := by
  unfold withImm; split <;> simp_all

theorem Result.andThen_ok {r : Result} {k : Block → Word → Result} {p : Block × Word} :
    r.andThen k = .ok p ↔ ∃ b w, r = .ok (b, w) ∧ k b w = .ok p := by
  unfold Result.andThen
  split
  · rename_i b w; simp
  · simp

theorem Result.andThen_error {r : Result} {k : Block → Word → Result} {f : FaultCode} :
    r.andThen k = .error f ↔ r = .error f ∨ ∃ b w, r = .ok (b, w) ∧ k b w = .error f := by
  unfold Result.andThen
  split
  · rename_i b w; simp
  · simp

/-- The four units a `U` field can name (30_encoding.md R81). -/
theorem unitOf_eq_some_iff {u : BitVec 4} {t : ToneUnit} :
    unitOf u = some t ↔
      (u = 0#4 ∧ t = .leader) ∨ (u = 1#4 ∧ t = .sync) ∨ (u = 2#4 ∧ t = .mark) ∨ (u = 3#4 ∧ t = .space) := by
  revert u; cases t <;> decide

theorem unitOf_isSome_iff (u : BitVec 4) : (unitOf u).isSome = true ↔ u.toNat ≤ 3 := by
  revert u; decide

theorem argIndexOf_eq_some_iff {imm : BitVec 16} {i : Fin 8} : argIndexOf imm = some i ↔ imm.toNat = i := by
  unfold argIndexOf
  split
  · simp [Fin.ext_iff]
  · simp; omega

theorem countOf_eq_some_iff {w : Word} {c : BitVec 32} :
    countOf w = some c ↔ 1 ≤ w.toNat ∧ w.toNat < 2 ^ 32 ∧ c.toNat = w.toNat := by
  unfold countOf
  split
  · rename_i h
    constructor
    · intro hc
      cases hc
      refine ⟨h.1, h.2, ?_⟩
      rw [BitVec.toNat_ofNat, Nat.mod_eq_of_lt h.2]
    · rintro ⟨_, _, h3⟩
      rw [← h3, BitVec.ofNat_toNat, BitVec.setWidth_eq]
  · rename_i h
    simp only [reduceCtorEq, false_iff]
    rintro ⟨h1, h2, -⟩
    exact h ⟨h1, h2⟩

/-! ## Transport -/

theorem argSet_ok {imm : BitVec 16} {v : Word} {b : Block} {p : Block × Word} :
    argSet imm v b = .ok p ↔ ∃ i, argIndexOf imm = some i ∧ p = (b.withArg i v, 0#64) := by
  simp [argSet, withImm_ok, -Except.ok.injEq, ok_eq_ok_iff]

theorem obPush_ok {v : Word} {b : Block} {p : Block × Word} :
    obPush v b = .ok p ↔
      b.obLen ≠ b.params.obMax ∧ p = (b.withOb (b.ob.write b.obLen v) (b.obLen + 1), 0#64) := by
  unfold obPush; split <;> simp_all [-Except.ok.injEq, ok_eq_ok_iff]

theorem obRead_ok {imm : BitVec 16} {b : Block} {p : Block × Word} :
    obRead imm b = .ok p ↔ imm.toNat < b.obLen ∧ p = (b, b.ob.read imm.toNat) := by
  unfold obRead
  split
  · simp; omega
  · rename_i h
    rw [ok_eq_ok_iff]; exact ⟨fun hp => ⟨by omega, hp⟩, fun hp => hp.2⟩

theorem regRead_ok {imm : BitVec 16} {b : Block} {p : Block × Word} :
    regRead imm b = .ok p ↔ ∃ v, registerValue b imm.toNat = some v ∧ p = (b, v) := by
  simp [regRead, withImm_ok, -Except.ok.injEq, ok_eq_ok_iff]

/-! ## FilterDesigner -/

theorem storeDesign_ok {cells : List F64} {b : Block} {p : Block × Word} :
    storeDesign cells b = .ok p ↔
      (∀ x ∈ cells, fIsFinite x = true) ∧
        p = (b.withOb (b.ob.writeFrom 0 cells) cells.length, BitVec.ofNat 64 cells.length) := by
  simp [storeDesign, requireFinite_ok, -Except.ok.injEq, ok_eq_ok_iff]

theorem firDesign_ok {nm : Config.Numerics} {imm : BitVec 16} {n : Word} {b : Block} {p : Block × Word} :
    firDesign nm imm n b = .ok p ↔ ∃ kind taps, filterKindOf imm = some kind ∧
      firTaps nm b.params kind n.toNat (b.argReg 0) (b.argReg 1) (b.argReg 2) (b.argReg 3) (b.argReg 4) = .ok taps ∧
      storeDesign taps b = .ok p := by
  simp only [firDesign, withImm_ok]
  constructor
  · rintro ⟨kind, hk, h⟩
    split at h
    · cases h
    · exact ⟨kind, _, hk, ‹_›, h⟩
  · rintro ⟨kind, taps, hk, ht, h⟩
    exact ⟨kind, hk, by rw [ht]; exact h⟩

theorem iirDesign_ok {nm : Config.Numerics} {imm : BitVec 16} {b : Block} {p : Block × Word} :
    iirDesign nm imm b = .ok p ↔ ∃ n cheb, iirFieldsOf imm = some (n, cheb) ∧
      iirSpecCheck b.params n cheb (b.argReg 0) (b.argReg 1) (b.argReg 2) = none ∧
      storeDesign (iirCells nm n cheb (b.argReg 0) (b.argReg 1) (b.argReg 2)) b = .ok p := by
  simp only [iirDesign, withImm_ok]
  constructor
  · rintro ⟨⟨n, cheb⟩, hk, h⟩
    dsimp only at h
    split at h
    · cases h
    · exact ⟨n, cheb, hk, ‹_›, h⟩
  · rintro ⟨n, cheb, hk, hc, h⟩
    exact ⟨(n, cheb), hk, by dsimp only; rw [hc]; exact h⟩

/-! ## CircularFIRFilter -/

theorem firCreate_ok {b : Block} {p : Block × Word} :
    firCreate b = .ok p ↔ (1 ≤ b.obLen ∧ b.obLen ≤ b.params.lMax) ∧ (∀ x ∈ b.obCells, fIsFinite x = true) ∧
      p = (b.withFir
        { tap := b.fir.tap.writeFrom 0 b.obCells, l := b.obLen,
          ring := b.fir.ring.writeFrom 0 (List.replicate (2 * b.obLen) 0#64), w := 0 }, 0#64) := by
  unfold firCreate
  split
  · simp; omega
  · rename_i h
    rw [requireFinite_ok]
    have : 1 ≤ b.obLen ∧ b.obLen ≤ b.params.lMax := by omega
    simp only [this, and_self, true_and, ok_eq_ok_iff]

theorem firProc_ok {x : F64} {b : Block} {p : Block × Word} :
    firProc x b = .ok p ↔ b.fir.l ≠ 0 ∧ fIsFinite x = true ∧ fIsFinite (b.fir.output x) = true ∧
      p = (b.withFir { b.fir with ring := b.fir.record x, w := (b.fir.w + 1) % b.fir.l }, b.fir.output x) := by
  unfold firProc
  split <;> simp_all [requireFinite_ok, -Except.ok.injEq, ok_eq_ok_iff]

/-! ## ToneResonator -/

theorem resTune_ok {nm : Config.Numerics} {u : ToneUnit} {f fs bw : F64} {b : Block} {p : Block × Word} :
    resTune nm u f fs bw b = .ok p ↔
      (fIsFinite f = true ∧ fIsFinite fs = true ∧ fIsFinite bw = true) ∧
      (fLt 0#64 fs = true ∧ fLe 0#64 bw = true ∧ fLe 0#64 f = true) ∧
      (fIsFinite (resA0 nm f fs bw) = true ∧ fIsFinite (resB1 nm f fs bw) = true ∧
        fIsFinite (resB2 nm fs bw) = true) ∧
      p = (b.withRes u
          { centerFreq := f, bandwidth := bw, a0 := resA0 nm f fs bw, b1 := resB1 nm f fs bw,
            b2 := resB2 nm fs bw, z1 := 0#64, z2 := 0#64, tuned := true }, 0#64) := by
  unfold resTune
  rw [requireFinite_ok]
  split
  · simp_all
  · rename_i h
    rw [requireFinite_ok]
    simp only [not_not] at h
    simp [h, -Except.ok.injEq, ok_eq_ok_iff]

theorem resStep_ok {u : ToneUnit} {x : F64} {b : Block} {p : Block × Word} :
    resStep u x b = .ok p ↔
      (b.res.get u).tuned = true ∧ fIsFinite x = true ∧ fIsFinite (fFlush ((b.res.get u).raw x)) = true ∧
      p = (b.withRes u { b.res.get u with z1 := fFlush ((b.res.get u).raw x), z2 := (b.res.get u).z1 },
            fFlush ((b.res.get u).raw x)) := by
  unfold resStep
  simp only
  split <;> simp_all [requireFinite_ok, -Except.ok.injEq, ok_eq_ok_iff]

/-! ## CascadedBiquadFilter -/

theorem bqBind_ok {u : ToneUnit} {b : Block} {p : Block × Word} :
    bqBind u b = .ok p ↔
      (2 ≤ b.obLen ∧ b.obLen % 4 ≠ 1 ∧ b.obLen % 4 ≠ 3) ∧
      2 * (b.obLen / 4) + b.obLen % 4 / 2 ≤ b.params.orderMax ∧ (∀ x ∈ b.obCells, fIsFinite x = true) ∧
      p = (b.withBq u
        { order := 2 * (b.obLen / 4) + b.obLen % 4 / 2, coef := (b.bq.get u).coef.writeFrom 0 b.obCells,
          z := (b.bq.get u).z.writeFrom 0 (List.replicate (2 * (b.obLen / 4) + b.obLen % 4 / 2) 0#64) }, 0#64) := by
  unfold bqBind
  split
  · rename_i h
    simp only [reduceCtorEq, false_iff, not_and]
    intro h2; omega
  · rename_i h
    split
    · rename_i h2
      simp only [reduceCtorEq, false_iff, not_and]
      intro _ h3; omega
    · rename_i h2
      rw [requireFinite_ok]
      have h3 : 2 ≤ b.obLen ∧ b.obLen % 4 ≠ 1 ∧ b.obLen % 4 ≠ 3 := by omega
      have h4 : 2 * (b.obLen / 4) + b.obLen % 4 / 2 ≤ b.params.orderMax := by omega
      simp only [h3, h4, and_self, true_and, ok_eq_ok_iff, ne_eq, not_false_eq_true]

theorem bqStep_ok {u : ToneUnit} {x : F64} {b : Block} {p : Block × Word} :
    bqStep u x b = .ok p ↔
      (b.bq.get u).order ≠ 0 ∧ fIsFinite x = true ∧ fIsFinite ((b.bq.get u).run x).2 = true ∧
      (∀ v ∈ ((b.bq.get u).run x).1.cells (b.bq.get u).stateCells, fIsFinite v = true) ∧
      p = (b.withBq u { b.bq.get u with z := ((b.bq.get u).run x).1 }, ((b.bq.get u).run x).2) := by
  unfold bqStep
  simp only
  split
  · simp_all
  · rename_i h
    rw [requireFinite_ok, requireFinite_ok]
    simp only [List.mem_cons, List.not_mem_nil, or_false, forall_eq, forall_eq_or_imp, ne_eq, h,
      not_false_eq_true, true_and, and_assoc, ok_eq_ok_iff]

/-! ## LevelAGC -/

theorem agcSetup_ok {target thr : F64} {window : Word} {b : Block} {p : Block × Word} :
    agcSetup target thr window b = .ok p ↔
      (fIsFinite target = true ∧ fIsFinite thr = true) ∧ fLe 0#64 target = true ∧ fLt 0#64 thr = true ∧
      fIsFinite (fDiv target thr) = true ∧ ∃ win, countOf window = some win ∧
      p = (b.withAgc
          { targetLevel := target, windowSamples := win, threshold := thr, sampleCounter := 0#32,
            currentPeak := 0#64, peakHistory := 0#64, gain := b.params.agcGainInit, cfg := true }, 0#64) := by
  unfold agcSetup
  rw [requireFinite_ok]
  split
  · simp_all
  · rename_i win hw
    split
    · rename_i h
      simp only [List.mem_cons, List.not_mem_nil, or_false, reduceCtorEq, and_false, false_iff]
      rintro ⟨-, h1, h2, -⟩
      exact h ⟨h1, h2⟩
    · rename_i h
      rw [not_not] at h
      split
      · rename_i h2
        simp only [List.mem_cons, List.not_mem_nil, or_false, reduceCtorEq, and_false, false_iff]
        rintro ⟨-, -, -, h3, -⟩
        exact h2 h3
      · rename_i h2
        rw [not_not] at h2
        simp [h, h2, hw, -Except.ok.injEq, ok_eq_ok_iff]

theorem agcTrack_ok {x : F64} {b : Block} {p : Block × Word} :
    agcTrack x b = .ok p ↔ b.agc.cfg = true ∧ fIsFinite x = true ∧
      p = (b.withAgc { b.agc with
        currentPeak := fMax b.agc.currentPeak (fAbs x), sampleCounter := sat32Inc b.agc.sampleCounter }, 0#64) := by
  unfold agcTrack
  split <;> simp_all [requireFinite_ok, -Except.ok.injEq, ok_eq_ok_iff]

theorem agcUpdate_ok {b : Block} {p : Block × Word} :
    agcUpdate b = .ok p ↔ b.agc.cfg = true ∧
      p = (b.withAgc { b.agc with
        gain := b.agc.nextGain, peakHistory := b.agc.currentPeak, currentPeak := 0#64, sampleCounter := 0#32 },
        0#64) := by
  unfold agcUpdate
  split <;> simp_all [-Except.ok.injEq, ok_eq_ok_iff]

theorem agcApply_ok {x : F64} {b : Block} {p : Block × Word} :
    agcApply x b = .ok p ↔ b.agc.cfg = true ∧ fIsFinite x = true ∧ fIsFinite (fMul x b.agc.gain) = true ∧
      p = (b, fMul x b.agc.gain) := by
  unfold agcApply
  split <;> simp_all [requireFinite_ok, -Except.ok.injEq, ok_eq_ok_iff]

/-! ## SyncDecoder -/

theorem syncPreset_ok {table : Nat → Nat → F64} {imm : BitVec 16} {b : Block} {p : Block × Word} :
    syncPreset table imm b = .ok p ↔ ∃ i, presetIndexOf imm = some i ∧
      p = (b.withSync { b.sync with
        sLvl := table i.toNat 0, sLvl2 := table i.toNat 1, sLvl3 := table i.toNat 2, sense := i,
        senseSet := true }, 0#64) := by
  simp [syncPreset, withImm_ok, -Except.ok.injEq, ok_eq_ok_iff]

theorem syncTiming_ok {imm : BitVec 16} {ticks : Word} {b : Block} {p : Block × Word} :
    syncTiming imm ticks b = .ok p ↔ ∃ r t, timingRegOf imm = some r ∧ countOf ticks = some t ∧
      p = (b.withSync (b.sync.withTiming r t), 0#64) := by
  simp only [syncTiming, withImm_ok]
  constructor
  · rintro ⟨r, hr, h⟩
    split at h
    · cases h
    · exact ⟨r, _, hr, ‹_›, (Except.ok.inj h).symm⟩
  · rintro ⟨r, t, hr, ht, rfl⟩
    exact ⟨r, hr, by rw [ht]⟩

theorem syncTick_ok {le sy ma sp : F64} {b : Block} {p : Block × Word} :
    syncTick le sy ma sp b = .ok p ↔ b.sync.senseSet = true ∧ b.sync.timingOk = true ∧
      (fIsFinite le = true ∧ fIsFinite sy = true ∧ fIsFinite ma = true ∧ fIsFinite sp = true) ∧
      p = (b.withSync (tick le sy ma sp b.sync),
        statusWord b.sync.tag (b.withSync (tick le sy ma sp b.sync))) := by
  unfold syncTick
  split
  · rename_i h
    simp only [reduceCtorEq, false_iff]
    rintro ⟨h1, h2, -⟩
    rw [h1, h2] at h
    exact absurd h (by decide)
  · rename_i h
    rw [requireFinite_ok]
    have : b.sync.senseSet = true ∧ b.sync.timingOk = true := by
      constructor
      · by_contra hc; exact h (Or.inl (by simpa using hc))
      · by_contra hc; exact h (Or.inr (by simpa using hc))
    simp [this, -Except.ok.injEq, ok_eq_ok_iff]

/-! ## The sample step -/

theorem stageFir_ok {x : F64} {b : Block} {p : Block × Word} :
    stageFir x b = .ok p ↔ ∃ b1 y, firProc x b = .ok (b1, y) ∧ p = (b1.withDiag { b1.diag with tap1 := y }, y) := by
  simp [stageFir, Result.andThen_ok, -Except.ok.injEq, ok_eq_ok_iff]

theorem stageAgc_ok {x : F64} {b : Block} {p : Block × Word} :
    stageAgc x b = .ok p ↔ ∃ b1 w1 b2 w2 b3 y, agcTrack x b = .ok (b1, w1) ∧
      (if b1.agc.windowSamples ≤ b1.agc.sampleCounter then agcUpdate b1 else .ok (b1, 0#64)) = .ok (b2, w2) ∧
      agcApply x b2 = .ok (b3, y) ∧ p = (b3.withDiag { b3.diag with tap2 := y }, y) := by
  simp only [stageAgc, Result.andThen_ok]
  constructor
  · rintro ⟨b1, w1, h1, b2, w2, h2, b3, y, h3, h4⟩
    exact ⟨b1, w1, b2, w2, b3, y, h1, h2, h3, (Except.ok.inj h4).symm⟩
  · rintro ⟨b1, w1, b2, w2, b3, y, h1, h2, h3, rfl⟩
    exact ⟨b1, w1, h1, b2, w2, h2, b3, y, h3, rfl⟩

theorem stageTone_ok {u : ToneUnit} {x : F64} {b : Block} {p : Block × Word} :
    stageTone u x b = .ok p ↔ ∃ b1 r b2 e, resStep u x b = .ok (b1, r) ∧ bqStep u (fAbs r) b1 = .ok (b2, e) ∧
      p = (b2.withDiag { b2.diag with env := b2.diag.env.set u e }, e) := by
  simp only [stageTone, Result.andThen_ok]
  constructor
  · rintro ⟨b1, r, h1, b2, e, h2, h3⟩
    exact ⟨b1, r, b2, e, h1, h2, (Except.ok.inj h3).symm⟩
  · rintro ⟨b1, r, b2, e, h1, h2, rfl⟩
    exact ⟨b1, r, h1, b2, e, h2, rfl⟩

theorem stageTones_ok {x : F64} {b : Block} {p : Block × Word} :
    stageTones x b = .ok p ↔ ∃ b1 le b2 sy b3 ma b4 sp, stageTone .leader x b = .ok (b1, le) ∧
      stageTone .sync x b1 = .ok (b2, sy) ∧ stageTone .mark x b2 = .ok (b3, ma) ∧
      stageTone .space x b3 = .ok (b4, sp) ∧ syncTick le sy ma sp b4 = .ok p := by
  simp only [stageTones, Result.andThen_ok]
  constructor
  · rintro ⟨b1, le, h1, b2, sy, h2, b3, ma, h3, b4, sp, h4, h5⟩
    exact ⟨b1, le, b2, sy, b3, ma, b4, sp, h1, h2, h3, h4, h5⟩
  · rintro ⟨b1, le, b2, sy, b3, ma, b4, sp, h1, h2, h3, h4, h5⟩
    exact ⟨b1, le, h1, b2, sy, h2, b3, ma, h3, b4, sp, h4, h5⟩

/-- The whole sample step, when it succeeds: the stages one after another, each on the block the last one left. -/
theorem pipeSample_ok {x0 : F64} {b : Block} {p : Block × Word} :
    pipeSample x0 b = .ok p ↔ b.configured = true ∧ fIsFinite x0 = true ∧ ∃ b1 x2 b2 x3,
      stageFir (clip b.clipLevel x0) (stageClip x0 b) = .ok (b1, x2) ∧ stageAgc x2 b1 = .ok (b2, x3) ∧
      stageTones x3 b2 = .ok p := by
  unfold pipeSample
  split
  · simp_all
  · rename_i h
    simp only [Bool.not_eq_false] at h
    rw [requireFinite_ok]
    simp only [sampleStep, Result.andThen_ok, List.mem_cons, List.not_mem_nil, or_false, forall_eq, h, true_and]
    constructor
    · rintro ⟨hf, b1, x2, h1, b2, x3, h2, h3⟩
      exact ⟨hf, b1, x2, b2, x3, h1, h2, h3⟩
    · rintro ⟨hf, b1, x2, b2, x3, h1, h2, h3⟩
      exact ⟨hf, b1, x2, h1, b2, x3, h2, h3⟩

end Sys2Proof.Machine
end

