-- ==== Sys2Proof/Laws/PerInstr.lean ====
section
/-!
SUPPORT. Facts about each command as syntax, one lemma per constructor.
-/

namespace Sys2Proof.Laws

/-- A packed command word as a number (30_encoding.md R81). -/
theorem toNat_packCw (op : BitVec 8) (u : BitVec 4) (imm : BitVec 16) :
    (packCw op u imm).toNat = imm.toNat * 65536 + u.toNat * 256 + op.toNat := by
  have h1 := op.isLt
  have h2 := u.isLt
  have h3 : u.toNat <<< 8 ||| op.toNat = u.toNat * 256 + op.toNat := by
    rw [← Nat.shiftLeft_add_eq_or_of_lt h1, Nat.shiftLeft_eq]
  have h4 : imm.toNat <<< 16 ||| (u.toNat * 256 + op.toNat) = imm.toNat * 65536 + (u.toNat * 256 + op.toNat) := by
    rw [← Nat.shiftLeft_add_eq_or_of_lt (by omega), Nat.shiftLeft_eq]
  simp only [packCw, BitVec.toNat_append, BitVec.toNat_ofNat, Nat.zero_mod, Nat.zero_shiftLeft, Nat.zero_or, h3]
  rw [h4]; omega

/-- A format I word under the format's mask is its opcode (30_encoding.md R82). -/
theorem packCw_and_formatI (op : BitVec 8) (imm : BitVec 16) :
    packCw op 0 imm &&& 0x0000FFFF#32 = op.setWidth 32 := by
  have h1 := op.isLt
  apply BitVec.eq_of_toNat_eq
  rw [BitVec.toNat_and, toNat_packCw, show (0x0000FFFF#32).toNat = 2 ^ 16 - 1 by decide,
    Nat.and_two_pow_sub_one_eq_mod, BitVec.toNat_setWidth]
  simp; omega

/-- The mask of a command's row in spec/opcode_table.json. -/
def rowMask : Instr → BitVec 32
  | .argSet _ _ => 0x0000FFFF#32
  | .obClear => 0xFFFFFFFF#32
  | .obPush _ => 0xFFFFFFFF#32
  | .obRead _ => 0x0000FFFF#32
  | .regRead _ => 0x0000FFFF#32
  | .firDesign _ _ => 0x0000FFFF#32
  | .iirDesign _ => 0x0000FFFF#32
  | .firCreate => 0xFFFFFFFF#32
  | .firProc _ => 0xFFFFFFFF#32
  | .resSetfreq _ => 0xFFFFF0FF#32
  | .resProc _ _ => 0xFFFFF0FF#32
  | .bqLoad _ => 0xFFFFF0FF#32
  | .bqProc _ _ => 0xFFFFF0FF#32
  | .agcConfig _ => 0xFFFFFFFF#32
  | .agcTrack _ => 0xFFFFFFFF#32
  | .agcUpdate => 0xFFFFFFFF#32
  | .agcApply _ => 0xFFFFFFFF#32
  | .syncPreset _ => 0x0000FFFF#32
  | .syncTiming _ _ => 0x0000FFFF#32
  | .syncStep => 0xFFFFFFFF#32
  | .syncReset => 0xFFFFFFFF#32
  | .pipeSampleI16 _ => 0x0000FFFF#32
  | .pipeSampleF64 _ => 0xFFFFFFFF#32
  | .pipeReset => 0xFFFFFFFF#32

/-- The match value of a command's row in spec/opcode_table.json. -/
def rowMatch : Instr → BitVec 32
  | .argSet _ _ => 0x00000001#32
  | .obClear => 0x00000002#32
  | .obPush _ => 0x00000003#32
  | .obRead _ => 0x00000004#32
  | .regRead _ => 0x00000005#32
  | .firDesign _ _ => 0x00000010#32
  | .iirDesign _ => 0x00000011#32
  | .firCreate => 0x00000020#32
  | .firProc _ => 0x00000021#32
  | .resSetfreq _ => 0x00000030#32
  | .resProc _ _ => 0x00000031#32
  | .bqLoad _ => 0x00000040#32
  | .bqProc _ _ => 0x00000041#32
  | .agcConfig _ => 0x00000050#32
  | .agcTrack _ => 0x00000051#32
  | .agcUpdate => 0x00000052#32
  | .agcApply _ => 0x00000053#32
  | .syncPreset _ => 0x00000060#32
  | .syncTiming _ _ => 0x00000061#32
  | .syncStep => 0x00000062#32
  | .syncReset => 0x00000063#32
  | .pipeSampleI16 _ => 0x00000070#32
  | .pipeSampleF64 _ => 0x00000071#32
  | .pipeReset => 0x0000007F#32

/-- The encoder's word matches the row of its own command in the opcode table (30_encoding.md R82). -/
def RowMatches.Statement (i : Instr) : Prop := (encode i).cw &&& rowMask i = rowMatch i

theorem RowMatches.argSet (imm : BitVec 16) (v : Word) : RowMatches.Statement (.argSet imm v) := packCw_and_formatI _ imm
theorem RowMatches.obClear : RowMatches.Statement .obClear := by
  show packCw _ _ _ &&& 0xFFFFFFFF#32 = 0x00000002#32; decide
theorem RowMatches.obPush (v : Word) : RowMatches.Statement (.obPush v) := by
  show packCw _ _ _ &&& 0xFFFFFFFF#32 = 0x00000003#32; decide
theorem RowMatches.obRead (imm : BitVec 16) : RowMatches.Statement (.obRead imm) := packCw_and_formatI _ imm
theorem RowMatches.regRead (imm : BitVec 16) : RowMatches.Statement (.regRead imm) := packCw_and_formatI _ imm
theorem RowMatches.firDesign (imm : BitVec 16) (tapCount : Word) : RowMatches.Statement (.firDesign imm tapCount) := packCw_and_formatI _ imm
theorem RowMatches.iirDesign (imm : BitVec 16) : RowMatches.Statement (.iirDesign imm) := packCw_and_formatI _ imm
theorem RowMatches.firCreate : RowMatches.Statement .firCreate := by
  show packCw _ _ _ &&& 0xFFFFFFFF#32 = 0x00000020#32; decide
theorem RowMatches.firProc (x : Word) : RowMatches.Statement (.firProc x) := by
  show packCw _ _ _ &&& 0xFFFFFFFF#32 = 0x00000021#32; decide
theorem RowMatches.resSetfreq (u : BitVec 4) : RowMatches.Statement (.resSetfreq u) := by
  show packCw _ u _ &&& 0xFFFFF0FF#32 = 0x00000030#32; revert u; decide
theorem RowMatches.resProc (u : BitVec 4) (x : Word) : RowMatches.Statement (.resProc u x) := by
  show packCw _ u _ &&& 0xFFFFF0FF#32 = 0x00000031#32; revert u; decide
theorem RowMatches.bqLoad (u : BitVec 4) : RowMatches.Statement (.bqLoad u) := by
  show packCw _ u _ &&& 0xFFFFF0FF#32 = 0x00000040#32; revert u; decide
theorem RowMatches.bqProc (u : BitVec 4) (x : Word) : RowMatches.Statement (.bqProc u x) := by
  show packCw _ u _ &&& 0xFFFFF0FF#32 = 0x00000041#32; revert u; decide
theorem RowMatches.agcConfig (window : Word) : RowMatches.Statement (.agcConfig window) := by
  show packCw _ _ _ &&& 0xFFFFFFFF#32 = 0x00000050#32; decide
theorem RowMatches.agcTrack (x : Word) : RowMatches.Statement (.agcTrack x) := by
  show packCw _ _ _ &&& 0xFFFFFFFF#32 = 0x00000051#32; decide
theorem RowMatches.agcUpdate : RowMatches.Statement .agcUpdate := by
  show packCw _ _ _ &&& 0xFFFFFFFF#32 = 0x00000052#32; decide
theorem RowMatches.agcApply (x : Word) : RowMatches.Statement (.agcApply x) := by
  show packCw _ _ _ &&& 0xFFFFFFFF#32 = 0x00000053#32; decide
theorem RowMatches.syncPreset (imm : BitVec 16) : RowMatches.Statement (.syncPreset imm) := packCw_and_formatI _ imm
theorem RowMatches.syncTiming (imm : BitVec 16) (ticks : Word) : RowMatches.Statement (.syncTiming imm ticks) := packCw_and_formatI _ imm
theorem RowMatches.syncStep : RowMatches.Statement .syncStep := by
  show packCw _ _ _ &&& 0xFFFFFFFF#32 = 0x00000062#32; decide
theorem RowMatches.syncReset : RowMatches.Statement .syncReset := by
  show packCw _ _ _ &&& 0xFFFFFFFF#32 = 0x00000063#32; decide
theorem RowMatches.pipeSampleI16 (imm : BitVec 16) : RowMatches.Statement (.pipeSampleI16 imm) := packCw_and_formatI _ imm
theorem RowMatches.pipeSampleF64 (x : Word) : RowMatches.Statement (.pipeSampleF64 x) := by
  show packCw _ _ _ &&& 0xFFFFFFFF#32 = 0x00000071#32; decide
theorem RowMatches.pipeReset : RowMatches.Statement .pipeReset := by
  show packCw _ _ _ &&& 0xFFFFFFFF#32 = 0x0000007F#32; decide

end Sys2Proof.Laws
end

