-- ==== Sys2Proof/Laws/Sections.lean ====
section
/-!
SUPPORT. When the sections of `IIR.DESIGN` are finite (40_filter_designer.md R131, R132): 00_scope.md R16 gives of the
tangent `K` only that it is finite.
-/

namespace Sys2Proof.Machine

/-- The largest finite value. -/
def largest : F64 := 0x7FEFFFFFFFFFFFFF#64

theorem fMag_le_largest {x : F64} (h : fIsFinite x = true) : fMag x ≤ fMag largest := by
  have := (fIsFinite_iff x).1 h
  have e : fMag largest = infMag - 1 := by decide
  omega

/-- A first-order section with the real pole 1 is finite for every finite `K` but -1. -/
theorem section1_finite {k : F64} (hk : fIsFinite k = true) (hne : k ≠ 0xBFF0000000000000#64) :
    fIsFinite (fDiv k (fAdd Config.one k)) = true ∧ fIsFinite (fDiv (fSub k Config.one) (fAdd k Config.one)) = true := by
  have hcomm : fAdd k Config.one = fAdd Config.one k := by
    rw [fAdd_finite_eq hk (by decide), fAdd_finite_eq (by decide) hk, Int.add_comm, Bool.and_comm]
  rw [hcomm]
  have hd : fIsFinite (fAdd Config.one k) = true := finite_of_mag_le
    (fMag_fAdd_mono (x := Config.one) (a := Config.one) (le_refl _) (fMag_le_largest hk) (by decide)
      (by decide) (by decide) (by decide)) (by decide +kernel)
  have hn : fIsFinite (fSub k Config.one) = true := finite_of_mag_le
    (fMag_fAdd_mono (y := fNeg Config.one) (b := Config.one) (fMag_le_largest hk) (le_of_eq (by decide))
      (by decide) (by decide) (by decide) (by decide)) (by decide +kernel)
  have hone : fInt Config.one = unitsPerOne := by decide +kernel
  have hmag : ∀ m : F64, fIsFinite m = true → fUnits m ≤ (fInt Config.one + fInt k).natAbs →
      fMag m ≤ fMag (fAdd Config.one k) := by
    intro m hm h
    rw [fMag_fAdd_of_finite (by decide) hk]
    exact le_min (le_roundMag one_pos (by rw [Nat.mul_one]; exact h)) ((fIsFinite_iff m).1 hm).le
  rcases Nat.lt_or_ge (fInt Config.one + fInt k).natAbs unitsPerOne with h | h
  · have hk2 : fMag k ≤ fMag Config.two := by
      by_contra hc
      have := fUnits_mono (Nat.le_of_lt (Nat.lt_of_not_le hc))
      have hlt : fUnits Config.two < fUnits k := magUnits_lt (Nat.lt_of_not_le hc)
      have e2 : fUnits Config.two = 2 * unitsPerOne := by decide +kernel
      have ha := natAbs_fInt k
      rw [hone] at h
      generalize unitsPerOne = u at *
      omega
    have hdv : fMag 0x3CA0000000000000#64 ≤ fMag (fAdd Config.one k) := by
      refine hmag _ (by decide) ?_
      have e : fUnits 0x3CA0000000000000#64 = 2 ^ 1021 := by decide +kernel
      rw [e]
      rcases Nat.lt_or_ge (fMag k) (fMag 0x3FE0000000000000#64) with hs | hs
      · have h1 := fUnits_mono hs.le
        have e3 : 2 * fUnits 0x3FE0000000000000#64 = unitsPerOne := by decide +kernel
        have e4 : 2 * 2 ^ 1021 ≤ unitsPerOne := by decide +kernel
        have ha := natAbs_fInt k
        rw [hone]
        generalize unitsPerOne = u at *
        generalize 2 ^ 1021 = v at *
        omega
      · have h1 := unit_dvd_fInt hs
        have h2 : ((2 ^ 1021 : Nat) : Int) ∣ fInt Config.one := by
          rw [hone]; exact Int.natCast_dvd_natCast.2 (by unfold unitsPerOne; exact Nat.pow_dvd_pow 2 (by decide))
        have h3 := dvd_add h2 h1
        have h0 : fInt Config.one + fInt k ≠ 0 := by
          intro h0
          apply hne
          have hs : fSign k = true := by
            by_contra hc
            rw [hone, fInt_of_pos (by simpa using hc)] at h0
            have := unitsPerOne_pos
            generalize unitsPerOne = u at *
            omega
          have hu : fUnits k = fUnits Config.one := by
            rw [← natAbs_fInt, ← natAbs_fInt]
            generalize fInt Config.one = a at *
            omega
          have hm : fMag k = fMag Config.one := by
            rcases Nat.lt_trichotomy (fMag k) (fMag Config.one) with hl | hl | hl
            · exact absurd hu (ne_of_lt (magUnits_lt hl))
            · exact hl
            · exact absurd hu (ne_of_gt (magUnits_lt hl))
          have := fPack_sign_mag k ((fIsFinite_iff k).1 hk).le
          rw [← this, hs, hm]; decide
        exact Nat.le_of_dvd (Int.natAbs_pos.2 h0) (Int.natCast_dvd.1 h3)
    have hd0 : fMag 0x3CA0000000000000#64 ≠ 0 := by decide
    refine ⟨?_, ?_⟩
    · exact finite_of_mag_le (fMag_fDiv_mono hk2 hdv (by decide) hd hd0) (by decide +kernel)
    · exact finite_of_mag_le (fMag_fDiv_mono (fMag_fAdd_mono (y := fNeg Config.one) (b := Config.one) hk2
        (le_of_eq (by decide)) (by decide) (by decide) (by decide) (by decide)) hdv (by decide +kernel) hd hd0) (by decide +kernel)
  · have hd1 : fMag Config.one ≤ fMag (fAdd Config.one k) := hmag Config.one (by decide) (by
      rw [show fUnits Config.one = unitsPerOne from magUnits_one]; exact h)
    have hq : ∀ v : F64, fIsFinite v = true → fIsFinite (fDiv v (fAdd Config.one k)) = true := by
      intro v hv
      have h0 : fMag (fAdd Config.one k) ≠ 0 := by
        rw [show fMag Config.one = 0x3FF0000000000000 by decide] at hd1; omega
      refine finite_of_mag_le (b := v) (fMag_fDiv_le hv hd h0 ?_) hv
      have := fUnits_mono hd1
      rw [show fUnits Config.one = unitsPerOne from magUnits_one] at this
      exact Nat.mul_le_mul_left _ this
    exact ⟨hq _ hk, hq _ hn⟩

/-- The second-order section of order 2 is finite for `K = -1`: its denominator is `2 - sqrt(2)`. -/
theorem section2_finite {sg om : F64} (hs : Within 0x3FE6A00000000000#64 0x3FE6A20000000000#64 sg)
    (ho : Within 0x3FE6A00000000000#64 0x3FE6A20000000000#64 om) :
    ∀ x ∈ section2Cells 0xBFF0000000000000#64 sg om, fIsFinite x = true := by
  have hw := (hs.mul hs (by decide) (by decide)).add (ho.mul ho (by decide) (by decide)) (by decide +kernel)
    (by decide +kernel) (by decide +kernel) (by decide +kernel)
  have ht := (Within.refl (v := Config.two) (by decide)).mul hs (by decide) (by decide)
  have htf := ht.finite (by decide +kernel)
  have hwf := hw.finite (by decide +kernel)
  have hone : fInt Config.one = unitsPerOne := by decide +kernel
  simp only [section2Cells]
  rw [fMul_minus_one hwf, fMul_minus_one (by rw [fIsFinite_iff, fMag_fNeg, ← fIsFinite_iff]; exact hwf), fNeg_fNeg,
    fMul_minus_one htf]
  generalize hW : fAdd (fMul sg sg) (fMul om om) = w at *
  generalize hT : fMul Config.two sg = t at *
  have hntf : fIsFinite (fNeg t) = true := by rw [fIsFinite_iff, fMag_fNeg, ← fIsFinite_iff]; exact htf
  have e1 : 1414 * unitsPerOne ≤ 1000 * fUnits (fMul Config.two 0x3FE6A00000000000#64) := by decide +kernel
  have e2 : 1000 * fUnits (fMul Config.two 0x3FE6A20000000000#64) ≤ 1415 * unitsPerOne := by decide +kernel
  have e3 : 1000 * fUnits (0x3FDC000000000000#64) ≥ 430 * unitsPerOne := by decide +kernel
  have e3' : 1000 * fUnits (0x3FDC000000000000#64) ≤ 440 * unitsPerOne := by decide +kernel
  have e4 : 990 * unitsPerOne ≤ 1000 * fUnits (fAdd (fMul 0x3FE6A00000000000#64 0x3FE6A00000000000#64)
      (fMul 0x3FE6A00000000000#64 0x3FE6A00000000000#64)) := by decide +kernel
  have e5 : 2 * fUnits 0x3FE0000000000000#64 = unitsPerOne := by decide +kernel
  have hx : fMag (fAdd Config.one (fNeg t)) ≤ fMag 0x3FDC000000000000#64 := by
    refine fMag_fAdd_le (by decide) hntf ?_
    rw [hone, fInt_fNeg, fInt_of_pos ht.sign]
    have h1 := fUnits_mono ht.lower
    have h2 := fUnits_mono ht.upper
    show _ ≤ fUnits 0x3FDC000000000000#64
    generalize unitsPerOne = u at *
    omega
  have hxf : fIsFinite (fAdd Config.one (fNeg t)) = true := finite_of_mag_le hx (by decide)
  have hD : fMag 0x3FE0000000000000#64 ≤ fMag (fAdd (fAdd Config.one (fNeg t)) w) := by
    refine (fAdd_ge hxf hwf (by decide) (by decide) ?_).2
    rw [fInt_of_pos hw.sign]
    have h1 := fUnits_mono hx
    have h2 := fUnits_mono hw.lower
    have h3 := natAbs_fInt (fAdd Config.one (fNeg t))
    generalize unitsPerOne = u at *
    omega
  have hDf : fIsFinite (fAdd (fAdd Config.one (fNeg t)) w) = true := finite_of_mag_le
    (fMag_fAdd_mono hx hw.upper (by decide) (by decide +kernel) (by decide) (by decide +kernel)) (by decide +kernel)
  have h0 : fMag 0x3FE0000000000000#64 ≠ 0 := by decide
  have two_le : ∀ v : F64, fMag v ≤ fMag 0x4014000000000000#64 →
      fIsFinite (fDiv v (fAdd (fAdd Config.one (fNeg t)) w)) = true :=
    fun v hv => finite_of_mag_le (fMag_fDiv_mono hv hD (by decide) hDf h0) (by decide +kernel)
  have hwm : fMag w ≤ fMag Config.two := le_trans hw.upper (by decide +kernel)
  have htm : fMag (fNeg (fNeg t)) ≤ fMag Config.two := by
    rw [fNeg_fNeg]; exact le_trans ht.upper (by decide +kernel)
  intro x hm
  simp only [List.mem_cons, List.not_mem_nil, or_false] at hm
  rcases hm with rfl | rfl | rfl | rfl
  · refine finite_of_mag_le (fMag_fDiv_mono (fMag_fMul_mono (x := Config.two) (a := Config.two) (le_refl _)
      (fMag_fAdd_mono (b := Config.one) hwm (le_of_eq (by decide)) (by decide) (by decide) (by decide) (by decide))
      (by decide) (by decide +kernel)) hD
      (by decide +kernel) hDf h0) (by decide +kernel)
  · exact finite_of_mag_le (fMag_fDiv_mono (fMag_fAdd_mono (fMag_fAdd_mono (x := Config.one) (a := Config.one)
      (le_refl _) htm (by decide) (by decide) (by decide) (by decide)) hwm (by decide +kernel) (by decide)
      (by decide +kernel) (by decide)) hD (by decide +kernel) hDf h0) (by decide +kernel)
  · exact two_le _ (le_trans hwm (by decide))
  · exact finite_of_mag_le (fMag_fMul_mono (x := Config.two) (a := Config.two) (le_refl _)
      (fMag_fDiv_mono hwm hD (by decide) hDf h0) (by decide) (by decide +kernel)) (by decide +kernel)

/-- The two sines and cosines of order 2. -/
theorem pole_within (r : F64) : Within 0x3FE6A00000000000#64 0x3FE6A20000000000#64 (poleSg numerics 2 false r 0) ∧
    Within 0x3FE6A00000000000#64 0x3FE6A20000000000#64 (poleOm numerics 2 false r 0) := by
  have ha : poleAngle 2 0 = 0x3FE921FB54442D18#64 := by decide +kernel
  refine ⟨?_, ?_⟩
  · rw [poleSg, ha]
    exact Within.of_near (numerics_sin_near (by decide) (by decide +kernel)) (by decide +kernel) (by decide +kernel)
  · rw [poleOm, ha]
    exact Within.of_near (numerics_cos_near (by decide) (by decide +kernel)) (by decide +kernel) (by decide +kernel)

/-- Order 1, Butterworth: the cells are finite for every finite tangent but -1. -/
theorem iirCells_order1 {fc fs r : F64} (hx : fIsFinite (fDiv (fMul Config.pi fc) fs) = true)
    (hne : numerics.tan (fDiv (fMul Config.pi fc) fs) ≠ 0xBFF0000000000000#64) :
    ∀ x ∈ iirCells numerics 1 false fc fs r, fIsFinite x = true := by
  have hk := numerics_tan_finite hx
  intro x hm
  rw [iirCells] at hm
  simp only [Nat.reduceDiv, List.range_zero, List.map_nil, List.flatten_nil, List.nil_append, Nat.reduceMod, if_true,
    realPole, Bool.false_eq_true, if_false, section1Cells, fMul_one_left hk, List.mem_cons, List.not_mem_nil,
    or_false] at hm
  have h := section1_finite hk hne
  rcases hm with rfl | rfl
  · exact h.2
  · exact h.1

/-- Order 2, Butterworth: the cells are finite for the tangent -1. -/
theorem iirCells_order2 {fc fs r : F64} (he : numerics.tan (fDiv (fMul Config.pi fc) fs) = 0xBFF0000000000000#64) :
    ∀ x ∈ iirCells numerics 2 false fc fs r, fIsFinite x = true := by
  intro x hm
  rw [iirCells, he] at hm
  simp only [Nat.reduceDiv, List.range_one, List.map_cons, List.map_nil, List.flatten_cons, List.flatten_nil,
    List.append_nil, Nat.reduceMod, zero_ne_one, if_false] at hm
  exact section2_finite (pole_within r).1 (pole_within r).2 x hm

end Sys2Proof.Machine
end

