-- ==== Sys2Proof/WellFormed.lean ====
section
/-!
DEFINITION. Well-formed commands: those that pass steps (4) and (5) of the decode order (30_encoding.md R91), the
unit check and the checks of an immediate's must-be-zero bits (R88). A command that fails one is a legal encoding
(R86): the block answers it with `BadUnit` or `BadIndex`.
-/

namespace Sys2Proof

/-- R91 (4): the unit exists. -/
def unitExists (u : BitVec 4) : Bool := decide (u.toNat ≤ 3)

/-- R88: the bits of `IMM` from `bits` up are zero. -/
def immBelow (imm : BitVec 16) (bits : Nat) : Bool := decide (imm.toNat < 2 ^ bits)

/-- R91 (4) and (5) for each command; the commands with no unit and no reserved immediate bit have no check. -/
def Instr.wellFormed : Instr → Bool
  | .argSet imm _ => immBelow imm 3
  | .obClear => true
  | .obPush _ => true
  | .obRead _ => true
  | .regRead _ => true
  | .firDesign imm _ => immBelow imm 2
  | .iirDesign imm => immBelow imm 9
  | .firCreate => true
  | .firProc _ => true
  | .resSetfreq u => unitExists u
  | .resProc u _ => unitExists u
  | .bqLoad u => unitExists u
  | .bqProc u _ => unitExists u
  | .agcConfig _ => true
  | .agcTrack _ => true
  | .agcUpdate => true
  | .agcApply _ => true
  | .syncPreset imm => immBelow imm 2
  | .syncTiming imm _ => immBelow imm 2
  | .syncStep => true
  | .syncReset => true
  | .pipeSampleI16 _ => true
  | .pipeSampleF64 _ => true
  | .pipeReset => true

end Sys2Proof
end

