-- ==== Sys2Proof/Tests/Slice0.lean ====
section
/-!
SUPPORT. Tests of the model, each with the place of spec/ its expected value comes from, and after them the witnesses of
the statements' hypotheses. `decide +kernel` evaluates the arithmetic in the kernel; no axiom is used.
-/

namespace Sys2Proof.Tests

open Sys2Proof Sys2Proof.Machine Sys2Proof.Safety

-- One test at a time: the tests otherwise take a thread each.
set_option Elab.async false

/-! ## Helpers -/

/-- The state after a command. -/
def nx (i : Instr) (s : State) : State :=
  match exec i s with
  | .next t => t
  | .fault _ => s
  | .refused _ => s

/-- `STATUS` and `RDATA` of a command on a block. -/
def ans (i : Instr) (b : Block) : BitVec 8 × Word :=
  ((nx i ⟨b, [], 0#8, 0#64⟩).status, (nx i ⟨b, [], 0#8, 0#64⟩).rdata)

/-- The block after a command. -/
def blk (i : Instr) (b : Block) : Block := (nx i ⟨b, [], 0#8, 0#64⟩).block

/-- The block after a list of commands. -/
def blks : List Instr → Block → Block
  | [], b => b
  | i :: rest, b => blks rest (blk i b)

/-- `STATUS` of one step with a transaction on the port, from reset. -/
def portStatus (cw : BitVec 32) : BitVec 8 :=
  match step ⟨Block.reset, [⟨cw, 0#64⟩], 0#8, 0#64⟩ with
  | .next t => t.status
  | .fault _ => 255#8
  | .refused _ => 255#8

theorem exec_nx (i : Instr) (s : State) : exec i s = .next (nx i s) := by
  have h : ∃ t, exec i s = .next t := by cases i <;> first
    | exact State.complete_next _ _
    | exact State.complete_next s (obClear s.block)
    | exact State.complete_next s (syncReset s.block)
    | exact State.complete_next s (.ok (Block.resetWith s.block.params, 0#64))
  obtain ⟨t, ht⟩ := h
  simp [nx, ht]

/-- Argument registers 0 to 4. -/
def args (a0 a1 a2 a3 a4 : Word) (b : Block) : Block :=
  { b with arg := ((((b.arg.set 0 a0).set 1 a1).set 2 a2).set 3 a3).set 4 a4 }

/-- An operand buffer of a length with its first cells. -/
def buffer (cells : List Word) (n : Nat) (b : Block) : Block :=
  { b with ob := Memory.writeFrom [] 0 cells, obLen := n }

def one : Word := 0x3FF0000000000000#64
def half : Word := 0x3FE0000000000000#64
def nan : Word := 0x7FF8000000000000#64
def posInf : Word := 0x7FF0000000000000#64
def maxFinite : Word := 0x7FEFFFFFFFFFFFFF#64
def two : Word := 0x4000000000000000#64
def eight : Word := 0x4020000000000000#64
def cut : Word := 0x400C000000000000#64

/-! ## WellFormed: an ill-formed command for each check -/

theorem test_wf_refuses_a_unit_above_three :
    (Instr.resSetfreq 4#4).wellFormed = false ∧ (Instr.resProc 15#4 one).wellFormed = false ∧
      (Instr.bqLoad 4#4).wellFormed = false ∧ (Instr.bqProc 8#4 one).wellFormed = false ∧
      (Instr.bqProc 3#4 one).wellFormed = true := by decide
theorem test_wf_refuses_an_argument_above_seven :
    (Instr.argSet 8#16 one).wellFormed = false ∧ (Instr.argSet 7#16 one).wellFormed = true := by decide
theorem test_wf_refuses_reserved_design_bits :
    (Instr.firDesign 4#16 2#64).wellFormed = false ∧ (Instr.iirDesign 0x202#16).wellFormed = false ∧
      (Instr.iirDesign 0x1FF#16).wellFormed = true := by decide
theorem test_wf_refuses_reserved_sync_bits :
    (Instr.syncPreset 4#16).wellFormed = false ∧ (Instr.syncTiming 0x8000#16 1#64).wellFormed = false := by decide

/-! ## Decoding: the words of V-ENC1 and V-ENC2 (95_test_vectors.md 2.1), written out from 30_encoding.md R81 to R85 -/

theorem test_decode_transport :
    decode ⟨0x00010001#32, 0x40C5888000000000#64⟩ = .ok (.argSet 1#16 0x40C5888000000000#64) ∧
    decode ⟨0x00000002#32, 0xDEAD#64⟩ = .ok .obClear ∧
    decode ⟨0x00000003#32, 0x3FD0000000000000#64⟩ = .ok (.obPush 0x3FD0000000000000#64) ∧
    decode ⟨0x00020004#32, 0xDEAD#64⟩ = .ok (.obRead 2#16) ∧
    decode ⟨0x01220005#32, 0xDEAD#64⟩ = .ok (.regRead 290#16) := ⟨rfl, rfl, rfl, rfl, rfl⟩
theorem test_decode_designer :
    decode ⟨0x00020010#32, 0x0000000000000010#64⟩ = .ok (.firDesign 2#16 16#64) ∧
    decode ⟨0x01030011#32, 0xDEAD#64⟩ = .ok (.iirDesign 0x103#16) := ⟨rfl, rfl⟩
theorem test_decode_filters :
    decode ⟨0x00000020#32, 0xDEAD#64⟩ = .ok .firCreate ∧
    decode ⟨0x00000021#32, 0x3FF0000000000000#64⟩ = .ok (.firProc one) ∧
    decode ⟨0x00000130#32, 0xDEAD#64⟩ = .ok (.resSetfreq 1#4) ∧
    decode ⟨0x00000231#32, 0x3FE0000000000000#64⟩ = .ok (.resProc 2#4 half) ∧
    decode ⟨0x00000340#32, 0xDEAD#64⟩ = .ok (.bqLoad 3#4) ∧
    decode ⟨0x00000041#32, 0x3FF0000000000000#64⟩ = .ok (.bqProc 0#4 one) := ⟨rfl, rfl, rfl, rfl, rfl, rfl⟩
theorem test_decode_agc :
    decode ⟨0x00000050#32, 0x000000000000044F#64⟩ = .ok (.agcConfig 1103#64) ∧
    decode ⟨0x00000051#32, 0xBFE0000000000000#64⟩ = .ok (.agcTrack 0xBFE0000000000000#64) ∧
    decode ⟨0x00000052#32, 0xDEAD#64⟩ = .ok .agcUpdate ∧
    decode ⟨0x00000053#32, 0x3F50624DD2F1A9FC#64⟩ = .ok (.agcApply 0x3F50624DD2F1A9FC#64) := ⟨rfl, rfl, rfl, rfl⟩
theorem test_decode_sync :
    decode ⟨0x00010060#32, 0xDEAD#64⟩ = .ok (.syncPreset 1#16) ∧
    decode ⟨0x00030061#32, 0x000000000000014B#64⟩ = .ok (.syncTiming 3#16 331#64) ∧
    decode ⟨0x00000062#32, 0xDEAD#64⟩ = .ok .syncStep ∧ decode ⟨0x00000063#32, 0xDEAD#64⟩ = .ok .syncReset := ⟨rfl, rfl, rfl, rfl⟩
theorem test_decode_pipeline :
    decode ⟨0x80000070#32, 0xDEAD#64⟩ = .ok (.pipeSampleI16 0x8000#16) ∧
    decode ⟨0x00000071#32, 0x40D8000000000000#64⟩ = .ok (.pipeSampleF64 0x40D8000000000000#64) ∧
    decode ⟨0x0000007F#32, 0xDEAD#64⟩ = .ok .pipeReset := ⟨rfl, rfl, rfl⟩
theorem test_port_illegal_words : ([0x00000000#32, 0x00000006#32, 0x00000080#32, 0x000000FF#32, 0x00001021#32,
    0x00010021#32, 0x00000121#32, 0x00010031#32, 0x00000110#32].map portStatus).all (· = 1#8) = true := by
  decide +kernel
theorem test_port_bad_unit : ([0x00000431#32, 0x00000F40#32].map portStatus).all (· = 2#8) = true := by decide +kernel
theorem test_port_bad_index : ([0x00080001#32, 0x00040010#32, 0x02020011#32, 0x00040060#32, 0x00040061#32,
    0x00230005#32, 0x01080005#32, 0x01400005#32, 0xFFFF0004#32].map portStatus).all (· = 3#8) = true := by
  decide +kernel
theorem test_port_legal_registers : ([0x01000005#32, 0x01070005#32].map portStatus).all (· = 0#8) = true := by
  decide +kernel
theorem test_table_word_with_data : decodeTableWord 96 (0x14B * 2 ^ 32 + 0x00030061) = some (.syncTiming 3#16 331#64) := rfl
theorem test_table_word_without_data : decodeTableWord 32 0x00000340 = some (.bqLoad 3#4) := rfl

/-! ## Transport (V-HOST1 to V-HOST3) -/

theorem test_obPush_keeps_a_nan : blks [.obPush 0x3FD0000000000000#64, .obPush nan] Block.reset =
    { Block.reset with ob := [(0, 0x3FD0000000000000#64), (1, nan)], obLen := 2 } := by decide +kernel
theorem test_obRead_reads_the_second_cell :
    ans (.obRead 1#16) (blks [.obPush half, .obPush nan] Block.reset) = (0#8, nan) ∧
      ans (.obRead 2#16) (blks [.obPush half, .obPush nan] Block.reset) = (3#8, 0#64) := by decide +kernel
theorem test_obClear_then_read : ans (.obRead 0#16) (blks [.obPush half, .obClear] Block.reset) = (3#8, 0#64) := by
  decide +kernel
theorem test_argSet_any_pattern : (blk (.argSet 3#16 0xFFFFFFFFFFFFFFFF#64) Block.reset).arg[3] = 0xFFFFFFFFFFFFFFFF#64 := by
  decide +kernel
/-- 46_pipeline_and_host.md R240, the example. -/
theorem test_regRead_vis : ans (.regRead 1#16)
    { Block.reset with sync := { Sync.reset with tag := .dataWait, visByte := 0xAC#8, visValid := true } } =
      (0#8, 0x1AC#64) := by decide +kernel
theorem test_pipeReset_flags : ans (.regRead 2#16) (blk .pipeReset { Block.reset with ovf := true }) = (0#8, 0#64) := by
  decide +kernel

/-! ## FilterDesigner: V-FD9, V-FD10, V-FD13; the taps themselves rest on the open functions -/

theorem test_bessel_of_zero_and_one :
    besselI0 0#64 = one ∧ besselI0 one = 0x3FF441CE4B3841BD#64 := by decide +kernel
theorem test_kaiser_linear_piece : kaiserAlpha default 0x4049000000000000#64 = 0x4012347D805E5F31#64 := by decide +kernel
/-- 40_filter_designer.md R114: the value at `A = 21` is 0, whatever the record is. -/
theorem test_kaiser_at_21 : kaiserAlpha numerics 0x4035000000000000#64 = 0#64 := by
  have h := numerics_pow_zero (x := fSub 0x4035000000000000#64 Config.kaiser21) (by decide +kernel)
  rw [kaiserAlpha, if_neg (by decide), if_pos (by decide)]
  rcases zero_of_fMag h with h | h <;> rw [h] <;> decide +kernel
/-- 40_filter_designer.md R116: the numerator and the denominator of `win[0]` are the same value. -/
theorem test_window_at_the_centre (alpha : F64) (h : fIsFinite alpha = true) :
    kaiserWindow numerics alpha 2 0 = fDiv (besselI0 alpha) (besselI0 alpha) := by
  have h1 : fSub Config.one (fMul (fDiv (fOfNat (2 * 0)) (fOfNat 2)) (fDiv (fOfNat (2 * 0)) (fOfNat 2))) = Config.one := by
    decide +kernel
  rw [kaiserWindow]
  rw [h1, numerics_sqrt_one, fMul_one_right h]
/-- V-FD1, the steps after the sine: `h = [0.25, 0.22507907903927651]`. -/
theorem test_design_normalises : mirror (([0x3FD0000000000000#64, 0x3FCCCF6429BE6621#64].map
    (fDiv · (mirroredSum [0x3FD0000000000000#64, 0x3FCCCF6429BE6621#64]))).map (fMul · one)) =
      [0x3FD492F2547471B0#64, 0x3FD6DA1B57171CA2#64, 0x3FD492F2547471B0#64] := by decide +kernel
/-- V-FD12, the first row, from `K = 0.41421356237309503`. -/
theorem test_first_order_section : section1Cells 0x3FDA827999FCEF32#64 one =
    [0xBFDA827999FCEF33#64, 0x3FD2BEC333018867#64] := by decide +kernel

/-! ## ToneResonator: V-RS1, V-RS2, V-RS4, V-RS5 -/

/-- The record that answers the references: the binary64 values nearest to the real ones. -/
def nearest : Config.Numerics := constrainNumerics default

/-- V-RS1, to the bit: the references of sine, cosine and exponential are the real functions. -/
theorem test_references_give_v_rs1 :
    resA0 nearest 0x4091300000000000#64 0x40C5888000000000#64 0x4054000000000000#64 = 0x3F9A2745F9C5A9A2#64 ∧
    resB1 nearest 0x4091300000000000#64 0x40C5888000000000#64 0x4054000000000000#64 = 0x3FF954CB776F8453#64 ∧
    resB2 nearest 0x40C5888000000000#64 0x4054000000000000#64 = 0xBFEE92E4F2C67486#64 := by decide +kernel
/-- V-RS4, the row 7000, 8000, 80: an angle past pi, a negative sine. -/
theorem test_references_give_v_rs4 :
    resA0 nearest 0x40BB580000000000#64 0x40BF400000000000#64 0x4054000000000000#64 = 0xBFA5B8E9FBFF43A8#64 := by
  decide +kernel
/-- 41_tone_resonator.md R141, 70_reset_and_hazards.md R301: a zero bandwidth of either sign gives `b2 = -1`, whatever the
record is. -/
theorem test_zero_bandwidth_is_undamped : resB2 numerics 0x40BF400000000000#64 0#64 = 0xBFF0000000000000#64 ∧
    resB2 numerics 0x40BF400000000000#64 0x8000000000000000#64 = 0xBFF0000000000000#64 := by
  constructor <;> (rw [resB2, numerics_exp_zero (by decide +kernel)]; decide)

def tuned : Resonator := ⟨0#64, 0#64, half, one, 0xBFE0000000000000#64, 0#64, 0#64, true⟩
def tunedBlock : Block := { Block.reset with res := ⟨tuned, tuned, tuned, tuned⟩ }

theorem test_resProc_recursion :
    ans (.resProc 2#4 0#64) (blks [.resProc 2#4 one, .resProc 2#4 0#64] tunedBlock) = (0#8, 0x3FD0000000000000#64) ∧
    (blks [.resProc 2#4 one, .resProc 2#4 0#64, .resProc 2#4 0#64] tunedBlock).res.mark =
      { tuned with z1 := 0x3FD0000000000000#64, z2 := half } := by decide +kernel
theorem test_resProc_flushes : ((blk (.resProc 0#4 0#64) { Block.reset with res := ⟨{ tuned with
    a0 := one, b1 := half, b2 := 0#64, z1 := 0x3849856BE3CFD156#64 }, tuned, tuned, tuned⟩ }).res.leader.z1,
    (blk (.resProc 0#4 0#64) { Block.reset with res := ⟨{ tuned with
    a0 := one, b1 := half, b2 := 0#64, z1 := 0x3849856BE3CFD156#64 }, tuned, tuned, tuned⟩ }).res.leader.z2) =
    (0#64, 0x3849856BE3CFD156#64) := by decide +kernel

/-! ## CascadedBiquadFilter: V-BQ1, V-BQ3, V-BQ5 -/

def order3 : Block := blk (.bqLoad 0#4) (buffer [0xBFE0000000000000#64, 0#64, 0x3FD0000000000000#64, half,
  0xBFE0000000000000#64, 0x3FD0000000000000#64] 6 Block.reset)

theorem test_bqLoad_order : order3.bq.leader.order = 3 ∧ order3.bq.leader.z = [] := by decide +kernel
theorem test_bqProc_order3 : ans (.bqProc 0#4 one) (blks [.bqProc 0#4 one, .bqProc 0#4 one, .bqProc 0#4 one] order3) =
    (0#8, 0x3FF2800000000000#64) ∧
    (blks [.bqProc 0#4 one, .bqProc 0#4 one, .bqProc 0#4 one, .bqProc 0#4 one] order3).bq.leader.z =
      [(0, 0x3FFE000000000000#64), (1, 0x3FFC000000000000#64), (2, 0x4005800000000000#64)] := by decide +kernel
theorem test_bqProc_output_is_not_flushed : ans (.bqProc 0#4 0#64) { Block.reset with bq :=
    ⟨⟨2, [(0, 0xBFE0000000000000#64), (2, one)], [(0, 0x3849856BE3CFD156#64)]⟩, Biquad.reset, Biquad.reset, Biquad.reset⟩ } =
    (0#8, 0x3839856BE3CFD156#64) := by decide +kernel

/-! ## CircularFIRFilter: V-FIR3, V-FIR4, V-FIR5 -/

def threeTaps : Block := blk .firCreate (buffer [one, 0x4000000000000000#64, 0x4008000000000000#64] 3 Block.reset)

theorem test_firCreate_state : threeTaps.fir =
    ⟨[(0, one), (1, 0x4000000000000000#64), (2, 0x4008000000000000#64)], 3, [], 0⟩ := by decide +kernel
theorem test_firCreate_empty : ans .firCreate Block.reset = (6#8, 0#64) := by decide +kernel
/-- Inputs 1, 10, 100 give 1, 12, 123: `TAP[0]` meets the newest sample. -/
theorem test_firProc_order : ans (.firProc 0x4059000000000000#64) (blks [.firProc one, .firProc 0x4024000000000000#64]
    threeTaps) = (0#8, 0x405EC00000000000#64) := by decide +kernel
theorem test_firProc_overflow_leaves_the_ring :
    let b := blks [.obPush 0x7FE1CCF385EBC8A0#64, .obPush 0x7FE1CCF385EBC8A0#64, .firCreate, .firProc one] Block.reset
    ans (.firProc 0x4024000000000000#64) b = (7#8, 0#64) ∧ blk (.firProc 0x4024000000000000#64) b = b ∧
      b.fir.ring = [(0, one), (2, one)] ∧ b.fir.w = 1 := by decide +kernel

/-! ## LevelAGC: V-AGC1, V-AGC3, V-AGC4, V-AGC5 -/

/-- `AGC.SETUP 1.0, 0.01, 4`. -/
def agcBlock : Block := blk (.agcConfig 4#64) (args one 0x3F847AE147AE147B#64 0#64 0#64 0#64 Block.reset)

theorem test_agcConfig_gain : agcBlock.agc = ⟨one, 4#32, 0x3F847AE147AE147B#64, 0#32, 0#64, 0#64, one, true⟩ := by
  decide +kernel
theorem test_agcConfig_range : ans (.agcConfig 0#64) (args one half 0#64 0#64 0#64 Block.reset) = (10#8, 0#64) ∧
    ans (.agcConfig 0x100000000#64) (args one half 0#64 0#64 0#64 Block.reset) = (10#8, 0#64) := by decide +kernel
theorem test_agcTrack_negative : (blk (.agcTrack 0xBFE8000000000000#64) agcBlock).agc.currentPeak =
    0x3FE8000000000000#64 := by decide +kernel
theorem test_agcUpdate_gain : (blks [.agcTrack 0x3FE8000000000000#64, .agcUpdate] agcBlock).agc.gain =
    0x3FF5555555555555#64 := by decide +kernel
theorem test_agcUpdate_floor : (blks [.agcTrack 0x3F50624DD2F1A9FC#64, .agcUpdate] agcBlock).agc.gain =
    0x4059000000000000#64 := by decide +kernel
/-- 44_level_agc.md R189, the example. -/
theorem test_agcApply_scales : ans (.agcApply 0xBFD0000000000000#64)
    { agcBlock with agc := { agcBlock.agc with gain := 0x4000000000000000#64 } } = (0#8, 0xBFE0000000000000#64) := by
  decide +kernel

/-! ## SyncDecoder: V-SY2, V-SY4 to V-SY8, V-SY10, with the vectors' thresholds in the registers -/

def decoder : Sync := { Sync.reset with
  sense := 1#2, senseSet := true, sLvl := 0x3FD0000000000000#64, sLvl2 := 0x3FB0000000000000#64, sLvl3 := half,
  tLMin := 2#32, tLValid := 3#32, tStart := 2#32, tBit := 2#32 }

/-- A tick on given envelopes. -/
def feed (le sy ma sp : Word) (y : Sync) : Block :=
  { Block.reset with arg := ((((Block.reset.arg.set 0 le).set 1 sy).set 2 ma).set 3 sp), sync := y }

def v09 : Word := 0x3FECCCCCCCCCCCCD#64

theorem test_syncPreset_marks_the_sense : ((blk (.syncPreset 1#16) Block.reset).sync.sense,
    (blk (.syncPreset 1#16) Block.reset).sync.senseSet) = (1#2, true) := by decide +kernel
theorem test_syncTiming_keeps_the_countdown : (blk (.syncTiming 3#16 331#64)
    { Block.reset with sync := { decoder with timer := 2#32 } }).sync = { decoder with timer := 2#32, tBit := 331#32 } := by
  decide +kernel
theorem test_syncTiming_range : ans (.syncTiming 3#16 0#64) Block.reset = (10#8, 0#64) ∧
    ans (.syncTiming 3#16 0x100000000#64) Block.reset = (10#8, 0#64) := by decide +kernel
/-- 45_sync_decoder.md R204, the example. -/
theorem test_syncStep_leader_found : ans .syncStep (feed v09 0#64 0#64 0#64 { decoder with leadCnt := 2#32, tLMin := 3#32 }) =
    (0#8, 0x200#64) := by decide +kernel
theorem test_syncStep_leader_ends : ans .syncStep (feed 0x3FC999999999999A#64 0#64 0#64 0#64
    { decoder with tag := .leaderDetect, leadCnt := 3#32 }) = (0#8, 0x400#64) := by decide +kernel
/-- The byte `0xAC`: seven bits in, the eighth is the parity bit. -/
theorem test_syncStep_decodes : ans .syncStep (feed 0x3FA999999999999A#64 0#64 0x3FE999999999999A#64 0x3FB999999999999A#64
    { decoder with tag := .visDecoding, timer := 1#32, acc := ⟨7#4, 0x2C#8, 0#64, 0#64, 0#64, 0#64⟩ }) =
      (0#8, 0x19AC#64) := by decide +kernel
theorem test_syncStep_rejects_parity : ans .syncStep (feed 0x3FA999999999999A#64 0#64 0x3FB999999999999A#64
    0x3FE999999999999A#64
    { decoder with tag := .visDecoding, timer := 1#32, acc := ⟨7#4, 0x2C#8, 0#64, 0#64, 0#64, 0#64⟩ }) =
      (0#8, 0x2000#64) := by decide +kernel
theorem test_syncStep_equality_is_separable : (blk .syncStep (feed 0x3FA999999999999A#64 0#64 0x3FD4000000000000#64
    0x3FD0000000000000#64 { decoder with tag := .visDecoding, timer := 1#32 })).sync.acc.dataByte = 1#8 := by
  decide +kernel
theorem test_syncReset_keeps_the_timing : (blk .syncReset { Block.reset with sync := { decoder with
    tag := .dataWait, visByte := 0xAC#8, visValid := true } }).sync = decoder := by decide +kernel

/-! ## Parameters (00_scope.md R11): a block with other legal values -/

/-- `L_MAX` 3, `ORDER_MAX` 4, `OB_MAX` 10, `FULL_SCALE` 1.0, `AGC_GAIN_INIT` 0.5. -/
def small : Config.Params := ⟨3, 4, 10, one, half⟩
theorem test_params_capacity : ans (.obPush one) { Block.resetWith small with obLen := 10 } = (4#8, 0#64) ∧
    ans .firCreate { Block.resetWith small with obLen := 4 } = (6#8, 0#64) ∧
    ans (.bqLoad 0#4) { Block.resetWith small with obLen := 10 } = (6#8, 0#64) := by decide +kernel
theorem test_params_survive_reset : blk .pipeReset { Block.resetWith small with ovf := true } = Block.resetWith small ∧
    (Block.resetWith small).agc.gain = half ∧ (Block.resetWith small).clipLevel = 0x3FE8000000000000#64 ∧
    Block.reset.clipLevel = 0x40D8000000000000#64 := by decide +kernel

/-! ## The pipeline: a small configured block (one tap, first-order envelopes) -/

def envelope : Biquad := ⟨1, [(0, 0xBFE0000000000000#64), (1, 0x3FD0000000000000#64)], []⟩

def configured : Block := { Block.reset with
  fir := ⟨[(0, one)], 1, [], 0⟩, res := ⟨tuned, tuned, tuned, tuned⟩, bq := ⟨envelope, envelope, envelope, envelope⟩,
  agc := ⟨one, 1#32, half, 0#32, 0#64, 0#64, one, true⟩, sync := decoder }

/-- By hand: 1200.0 is tracked, closes the window (1 sample), gain 1/1200, so `TAP2` is `1200 * (1/1200)`. -/
theorem test_pipe_sample_i16 : ans (.pipeSampleI16 0xFB50#16) configured = (0#8, 0#64) ∧
    (blk (.pipeSampleI16 0xFB50#16) configured).diag.tap0 = 0xC092C00000000000#64 ∧
    (blk (.pipeSampleI16 0xFB50#16) configured).agc.peakHistory = 0x4092C00000000000#64 := by decide +kernel
/-- 46_pipeline_and_host.md R243, the example: 30000.0 clips to 24576.0 and sets `ovf`. -/
theorem test_pipe_clips : (ans (.pipeSampleF64 0x40DD4C0000000000#64) configured).2 = 0x4000#64 ∧
    (blk (.pipeSampleF64 0x40DD4C0000000000#64) configured).diag.tap0 = 0x40D8000000000000#64 := by decide +kernel
theorem test_pipe_infinity_changes_nothing : ans (.pipeSampleF64 posInf) configured = (7#8, 0#64) ∧
    blk (.pipeSampleF64 posInf) configured = configured := by decide +kernel

/-! ## Witnesses of the designs and tunings: they complete although the functions are open -/

def khz : Word := 0x408F400000000000#64
def khz8 : Word := 0x40BF400000000000#64

theorem bessel_of_a_zero {x : F64} (h : fMag x = 0) : besselI0 x = one := by
  rcases zero_of_fMag h with rfl | rfl <;> decide +kernel

/-- `win[H] = 1/I0(alpha)` (40_filter_designer.md R116). -/
theorem test_window_at_the_end (alpha : F64) (h : fIsFinite alpha = true) :
    kaiserWindow numerics alpha 2 1 = fDiv one (besselI0 alpha) := by
  have hr : fSub Config.one (fMul (fDiv (fOfNat (2 * 1)) (fOfNat 2)) (fDiv (fOfNat (2 * 1)) (fOfNat 2))) = 0#64 := by
    decide +kernel
  have hs : fMag (numerics.sqrt 0#64) = 0 := numerics_sqrt_zero (by decide)
  have hz : fMag (fMul alpha (numerics.sqrt 0#64)) = 0 := Nat.le_zero.1 (fMag_fMul_le h (numerics_sqrt_finite (by decide)
    (by decide)) (by rw [show fUnits (numerics.sqrt 0#64) = 0 from magUnits_eq_zero.2 hs, Nat.mul_zero]; exact Nat.zero_le _))
  rw [kaiserWindow]
  rw [hr, bessel_of_a_zero hz]

theorem window_of_alpha_zero : kaiserWindow numerics 0#64 2 1 = one := by
  rw [test_window_at_the_end _ (by decide), bessel_of_a_zero (x := 0#64) (by decide)]; decide +kernel

theorem alpha_zero : kaiserAlpha numerics 0#64 = 0#64 := by
  rw [kaiserAlpha, if_pos (by decide)]

/-- `sin(2*pi*1000/8000)`, and what is known of it. -/
def sine : F64 := numerics.sin 0x3FE921FB54442D18#64
def sineLow : F64 := 0x3FE6A09E65DC27DF#64
def sineHigh : F64 := 0x3FE6A09E6733C0CD#64
theorem sine_within : Within sineLow sineHigh sine :=
  Within.of_near (numerics_sin_near (by decide) (by decide)) (by decide +kernel) (by decide +kernel)

/-- The half array of order 2 with cutoff 1000 at rate 8000 and no attenuation. -/
theorem half_flat : (List.range (2 / 2 + 1)).map (idealTap numerics khz8 khz (kaiserAlpha numerics 0#64) 2) =
    [0x3FD0000000000000#64, fMul (fDiv sine Config.pi) one] := by
  rw [show List.range (2 / 2 + 1) = [0, 1] from rfl, List.map_cons, List.map_cons, List.map_nil, idealTap, if_pos rfl,
    idealTap, if_neg (by decide), alpha_zero, window_of_alpha_zero,
    show fDiv (fMul (fMul (fMul Config.two Config.pi) khz) (fOfNat 1)) khz8 = 0x3FE921FB54442D18#64 by decide +kernel,
    show fMul Config.pi (fOfNat 1) = Config.pi by decide +kernel, show fDiv (fMul Config.two khz) khz8 = 0x3FD0000000000000#64
      by decide +kernel]
  rfl

theorem tap_within : Within (fMul (fDiv sineLow Config.pi) one) (fMul (fDiv sineHigh Config.pi) one)
    (fMul (fDiv sine Config.pi) one) :=
  (sine_within.div (Within.refl (v := Config.pi) (by decide)) (by decide) (by decide) (by decide)).mul
    (Within.refl (v := one) (by decide)) (by decide +kernel) (by decide)

/-- The normalising sum of that design, and its two taps. -/
def designSum : F64 := fAdd 0x3FD0000000000000#64 (fMul Config.two (fMul (fDiv sine Config.pi) one))
def sumLow : F64 := fAdd 0x3FD0000000000000#64 (fMul Config.two (fMul (fDiv sineLow Config.pi) one))
def sumHigh : F64 := fAdd 0x3FD0000000000000#64 (fMul Config.two (fMul (fDiv sineHigh Config.pi) one))
theorem designSum_within : Within sumLow sumHigh designSum :=
  (Within.refl (v := 0x3FD0000000000000#64) (by decide)).add
    ((Within.refl (v := Config.two) (by decide)).mul tap_within (by decide) (by decide +kernel)) (by decide)
    (by decide +kernel) (by decide) (by decide +kernel)

def centre : F64 := fMul (fDiv 0x3FD0000000000000#64 designSum) one
def side : F64 := fMul (fDiv (fMul (fDiv sine Config.pi) one) designSum) one
theorem centre_within : Within (fMul (fDiv 0x3FD0000000000000#64 sumHigh) one) (fMul (fDiv 0x3FD0000000000000#64 sumLow) one)
    centre :=
  ((Within.refl (v := 0x3FD0000000000000#64) (by decide)).div designSum_within (by decide) (by decide +kernel)
    (by decide +kernel)).mul (Within.refl (v := one) (by decide)) (by decide +kernel) (by decide)
theorem side_within : Within (fMul (fDiv (fMul (fDiv sineLow Config.pi) one) sumHigh) one)
    (fMul (fDiv (fMul (fDiv sineHigh Config.pi) one) sumLow) one) side :=
  (tap_within.div designSum_within (by decide +kernel) (by decide +kernel) (by decide +kernel)).mul
    (Within.refl (v := one) (by decide)) (by decide +kernel) (by decide)

/-- V-FD1, `FIR.SPEC LP, 8000.0, 1000.0, 0.0, 0.0, 1.0, 2`. -/
theorem designTaps : firTaps numerics Config.defaults .lowPass 2 khz8 khz 0#64 0#64 one = .ok [side, centre, side] := by
  have hc : firSpecCheck Config.defaults .lowPass 2 khz8 khz 0#64 0#64 one = none := by decide +kernel
  have hp := designSum_within.positive (by decide +kernel) (by decide +kernel)
  simp only [firTaps, hc, show prototypeCutoff .lowPass khz8 khz 0#64 = khz from rfl, half_flat, mirroredSum, List.foldl_cons,
    List.foldl_nil]
  rw [show fAdd 0x3FD0000000000000#64 (fMul Config.two (fMul (fDiv sine Config.pi) one)) = designSum from rfl, if_pos hp]
  rfl

theorem designTaps_finite : ∀ x ∈ [side, centre, side], fIsFinite x = true := by
  have h1 := side_within.finite (by decide +kernel)
  have h2 := centre_within.finite (by decide +kernel)
  simp [h1, h2]

/-- V-FD1, the tolerance of R16 (d): the taps are near 0.32146890876336 and 0.35706218247328014, and their sum is near 1. -/
theorem test_design_near_v_fd1 : Within 0x3FD492F250000000#64 0x3FD492F258000000#64 side ∧
    Within 0x3FD6DA1B50000000#64 0x3FD6DA1B60000000#64 centre := by
  refine ⟨⟨side_within.sign, le_trans (by decide +kernel) side_within.lower, le_trans side_within.upper (by decide +kernel)⟩,
    ⟨centre_within.sign, le_trans (by decide +kernel) centre_within.lower, le_trans centre_within.upper (by decide +kernel)⟩⟩

/-- The block with the operands of that design. -/
def designBlock : Block := args khz8 khz 0#64 0#64 one Block.reset

/-- Of `FirDesignWritesTheTaps` (low-pass, every tap finite), `FirDesignTapsAreSymmetric` and `AccuracyReachesTheState`:
`FIR.DESIGN LP, 2` on that block is executed. -/
theorem witness_firDesign_completes : ∃ t, exec (.firDesign 0#16 2#64) ⟨designBlock, [], 0#8, 0#64⟩ = .next t ∧
    t.status = 0#8 := by
  have hp : firDesign numerics 0#16 2#64 designBlock = .ok _ :=
    firDesign_ok.2 ⟨.lowPass, _, by decide, designTaps, storeDesign_ok.2 ⟨designTaps_finite, Eq.refl _⟩⟩
  exact ⟨_, by rw [exec, execFirDesign, hp, State.complete_ok], State.answer_status _ _ _⟩

theorem valueOf_near_one {lo hi v : F64} (h : Within lo hi v) (h1 : (10 ^ 6 - 1) * unitsPerOne < 10 ^ 6 * fUnits lo)
    (h2 : 10 ^ 6 * fUnits hi < (10 ^ 6 + 1) * unitsPerOne) : |valueOf v - 1| < 1e-6 := by
  have hl := fUnits_mono h.lower
  have hh := fUnits_mono h.upper
  have hp : (0 : ℚ) < unitsPerOne := Nat.cast_pos.2 unitsPerOne_pos
  have e1 : (10 ^ 6 - 1) * unitsPerOne < 10 ^ 6 * fUnits v := lt_of_lt_of_le h1 (Nat.mul_le_mul_left _ hl)
  have e2 : 10 ^ 6 * fUnits v < (10 ^ 6 + 1) * unitsPerOne := lt_of_le_of_lt (Nat.mul_le_mul_left _ hh) h2
  have q1 : ((10 ^ 6 - 1 : ℕ) : ℚ) * unitsPerOne < 10 ^ 6 * fUnits v := by exact_mod_cast e1
  have q2 : 10 ^ 6 * (fUnits v : ℚ) < (10 ^ 6 + 1) * unitsPerOne := by exact_mod_cast e2
  rw [valueOf, fInt_of_pos h.sign, Int.cast_natCast, div_sub_one hp.ne', abs_lt]
  generalize (unitsPerOne : ℚ) = k at *
  generalize (fUnits v : ℚ) = w at *
  constructor
  · rw [lt_div_iff₀ hp]; norm_num at q1 q2 ⊢; linarith
  · rw [div_lt_iff₀ hp]; norm_num at q1 q2 ⊢; linarith

/-- Of `AccuracyReachesTheState`, second clause: the taps of that design sum to 1 within 1e-6. -/
theorem witness_MeetsR125 : MeetsR125 numerics Config.defaults 2 khz8 khz 0#64 0#64 := by
  intro taps ht
  rw [show Config.one = one from rfl, designTaps] at ht
  cases ht
  have hs := (side_within.add centre_within (by decide +kernel) (by decide +kernel) (by decide +kernel)
    (by decide +kernel)).add side_within (by decide +kernel) (by decide +kernel) (by decide +kernel) (by decide +kernel)
  exact ⟨hs.finite (by decide +kernel), valueOf_near_one hs (by decide +kernel) (by decide +kernel)⟩

/-- Of `FirDesignWritesTheTaps`: a band-pass with attenuation 60 and the largest finite gain: the centre tap overflows. -/
theorem witness_firDesign_not_finite : firDesign numerics 2#16 2#64
    (args khz8 khz 0x40A7700000000000#64 0x404E000000000000#64 maxFinite Block.reset) = .error .nonFinite := by
  generalize hb : args khz8 khz 0x40A7700000000000#64 0x404E000000000000#64 maxFinite Block.reset = b
  have hpar : b.params = Config.defaults := by rw [← hb]; rfl
  have ha : b.argReg 0 = khz8 ∧ b.argReg 1 = khz ∧ b.argReg 2 = 0x40A7700000000000#64 ∧
      b.argReg 3 = 0x404E000000000000#64 ∧ b.argReg 4 = maxFinite := by rw [← hb]; decide +kernel
  have hc : firSpecCheck Config.defaults .bandPass 2 khz8 khz 0x40A7700000000000#64 0x404E000000000000#64 maxFinite = none := by
    decide +kernel
  have hal : kaiserAlpha numerics 0x404E000000000000#64 = 0x40169CF0307F23CD#64 := by
    rw [kaiserAlpha, if_neg (by decide), if_neg (by decide)]; decide +kernel
  have hi0 : besselI0 0x40169CF0307F23CD#64 = 0x40488633E9F8ACD9#64 := by decide +kernel
  have hh : (List.range (2 / 2 + 1)).map (idealTap numerics khz8 khz (kaiserAlpha numerics 0x404E000000000000#64) 2) =
      [0x3FD0000000000000#64, fMul (fDiv sine Config.pi) 0x3F94E09789238FBA#64] := by
    rw [show List.range (2 / 2 + 1) = [0, 1] from rfl, List.map_cons, List.map_cons, List.map_nil, idealTap, if_pos rfl,
      idealTap, if_neg (by decide), hal, test_window_at_the_end _ (by decide), hi0,
      show fDiv (fMul (fMul (fMul Config.two Config.pi) khz) (fOfNat 1)) khz8 = 0x3FE921FB54442D18#64 by decide +kernel,
      show fMul Config.pi (fOfNat 1) = Config.pi by decide +kernel, show fDiv (fMul Config.two khz) khz8 = 0x3FD0000000000000#64
        by decide +kernel, show fDiv one 0x40488633E9F8ACD9#64 = 0x3F94E09789238FBA#64 by decide +kernel]
    rfl
  have hs : Within (fAdd 0x3FD0000000000000#64 (fMul Config.two (fMul (fDiv sineLow Config.pi) 0x3F94E09789238FBA#64)))
      (fAdd 0x3FD0000000000000#64 (fMul Config.two (fMul (fDiv sineHigh Config.pi) 0x3F94E09789238FBA#64)))
      (fAdd 0x3FD0000000000000#64 (fMul Config.two (fMul (fDiv sine Config.pi) 0x3F94E09789238FBA#64))) :=
    (Within.refl (v := 0x3FD0000000000000#64) (by decide)).add ((Within.refl (v := Config.two) (by decide)).mul
      ((sine_within.div (Within.refl (v := Config.pi) (by decide)) (by decide) (by decide) (by decide)).mul
        (Within.refl (v := 0x3F94E09789238FBA#64) (by decide)) (by decide +kernel) (by decide)) (by decide) (by decide +kernel))
      (by decide) (by decide +kernel) (by decide) (by decide +kernel)
  have hv := ((Within.refl (v := 0x3FD0000000000000#64) (by decide)).div hs (by decide) (by decide +kernel)
    (by decide +kernel)).mul (Within.refl (v := maxFinite) (by decide)) (by decide +kernel) (by decide)
  have hcf : fIsFinite (fMul Config.two (fMul (fDiv 0x3FD0000000000000#64 (fAdd 0x3FD0000000000000#64
      (fMul Config.two (fMul (fDiv sine Config.pi) 0x3F94E09789238FBA#64)))) maxFinite)) = false := by
    have := fMag_fMul_mono (x := Config.two) (a := Config.two) (le_refl _) hv.lower (by decide) (hv.finite (by decide +kernel))
    rw [Bool.eq_false_iff, ne_eq, fIsFinite_iff]
    exact fun hc => absurd (lt_of_le_of_lt this hc) (by decide +kernel)
  rw [firDesign, show filterKindOf 2#16 = some .bandPass by decide, withImm]
  rw [hpar, ha.1, ha.2.1, ha.2.2.1, ha.2.2.2.1, ha.2.2.2.2, show (2#64).toNat = 2 by decide]
  simp only [firTaps, hc, show prototypeCutoff .bandPass khz8 khz 0x40A7700000000000#64 = khz by decide +kernel, hh, mirroredSum,
    List.foldl_cons, List.foldl_nil]
  rw [if_pos (hs.positive (by decide +kernel) (by decide +kernel))]
  refine requireFinite_of_not _ ?_ hcf
  simp only [List.map_cons, List.map_nil, bandTransform, List.mapIdx_cons, List.mapIdx_nil, mirror, List.tail_cons,
    List.reverse_cons, List.reverse_nil, List.nil_append, List.cons_append, List.mem_cons, bandTap, if_true]
  exact Or.inr (Or.inl trivial)

/-- Of `FirDesignWritesTheTaps`: the band-pass prototype with cutoffs one unit apart: the cutoff underflows to 0, every
`h[n]` is a zero, the sum is not positive. -/
theorem witness_firDesign_sum_not_positive :
    firTaps numerics Config.defaults .bandPass 2 eight 1#64 2#64 0#64 one = .error .invalidSpec := by
  have hc : firSpecCheck Config.defaults .bandPass 2 eight 1#64 2#64 0#64 one = none := by decide +kernel
  have hh : (List.range (2 / 2 + 1)).map (idealTap numerics eight 0#64 (kaiserAlpha numerics 0#64) 2) =
      [0#64, fMul (fDiv (numerics.sin 0#64) Config.pi) one] := by
    rw [show List.range (2 / 2 + 1) = [0, 1] from rfl, List.map_cons, List.map_cons, List.map_nil, idealTap, if_pos rfl,
      idealTap, if_neg (by decide), alpha_zero, window_of_alpha_zero,
      show fDiv (fMul (fMul (fMul Config.two Config.pi) 0#64) (fOfNat 1)) eight = 0#64 by decide +kernel,
      show fMul Config.pi (fOfNat 1) = Config.pi by decide +kernel, show fDiv (fMul Config.two 0#64) eight = 0#64
        by decide +kernel]
  simp only [firTaps, hc, show prototypeCutoff .bandPass eight 1#64 2#64 = 0#64 by decide +kernel, hh, mirroredSum,
    List.foldl_cons, List.foldl_nil]
  rw [if_neg]
  rcases zero_of_fMag (numerics_sin_zero (x := 0#64) (by decide)) with h | h <;> rw [h] <;> decide +kernel

/-- Of `FirDesignWritesTheTaps`, the corners: `A = 21`, a parameter 0 (`A = 0`), and a window at its end. -/
theorem witness_firDesign_corners : kaiserAlpha numerics 0x4035000000000000#64 = 0#64 ∧ kaiserAlpha numerics 0#64 = 0#64 ∧
    kaiserWindow numerics 0#64 2 1 = one := ⟨test_kaiser_at_21, alpha_zero, window_of_alpha_zero⟩

/-- The operands of `IIR.SPEC 1000.0, 8000.0, n` (V-FD12). -/
def iirBlock : Block := args 0x408F400000000000#64 0x40BF400000000000#64 nan 0#64 0#64 Block.reset

/-- Of `IirDesignWritesTheSections`, the clause of finite coefficients and the last one: `IIR.DESIGN` on that block is executed,
of order 1 for every tangent but -1, of order 2 for the tangent -1. -/
theorem witness_iirDesign_completes : ∃ imm ∈ [1#16, 2#16], ∃ t,
    exec (.iirDesign imm) ⟨iirBlock, [], 0#8, 0#64⟩ = .next t ∧ t.status = 0#8 := by
  have done : ∀ (imm : BitVec 16) (n : Nat), iirFieldsOf imm = some (n, false) →
      iirSpecCheck iirBlock.params n false (iirBlock.argReg 0) (iirBlock.argReg 1) (iirBlock.argReg 2) = none →
      (∀ x ∈ iirCells numerics n false (iirBlock.argReg 0) (iirBlock.argReg 1) (iirBlock.argReg 2), fIsFinite x = true) →
      ∃ t, exec (.iirDesign imm) ⟨iirBlock, [], 0#8, 0#64⟩ = .next t ∧ t.status = 0#8 := by
    intro imm n h1 h2 h3
    have hp : iirDesign numerics imm iirBlock = .ok _ := iirDesign_ok.2 ⟨n, false, h1, h2, storeDesign_ok.2 ⟨h3, Eq.refl _⟩⟩
    exact ⟨_, by rw [exec, execIirDesign, hp, State.complete_ok], State.answer_status _ _ _⟩
  by_cases h : numerics.tan (fDiv (fMul Config.pi (iirBlock.argReg 0)) (iirBlock.argReg 1)) = 0xBFF0000000000000#64
  · exact ⟨2#16, by decide, done _ 2 (by decide) (by decide +kernel) (iirCells_order2 h)⟩
  · exact ⟨1#16, by decide, done _ 1 (by decide) (by decide +kernel) (iirCells_order1 (by decide +kernel) h)⟩

/-- Of `IirDesignWritesTheSections`, the clause of coefficients that are not finite: no operands give one for every record, so
the witness is a record that has every property asked of it, whose tangent is -1: then `1 + K` is 0. -/
def minusTangent : Config.Numerics := { (default : Config.Numerics) with tan := fun _ => 0xBFF0000000000000#64 }
theorem witness_iirDesign_not_finite :
    iirDesign (constrainNumerics minusTangent) 1#16 (args 0x4008000000000000#64 eight nan 0#64 0#64 Block.reset) =
      .error .nonFinite := by decide +kernel

/-- `RES.TUNE SPACE, 1300.0, 11025.0, 80.0`: the three coefficients are finite. -/
def toneBlock : Block := args 0x4094500000000000#64 0x40C5888000000000#64 0x4054000000000000#64 0#64 0#64 Block.reset

theorem witness_resSetfreq_finite :
    fIsFinite (resA0 numerics 0x4094500000000000#64 0x40C5888000000000#64 0x4054000000000000#64) = true ∧
    fIsFinite (resB1 numerics 0x4094500000000000#64 0x40C5888000000000#64 0x4054000000000000#64) = true ∧
    fIsFinite (resB2 numerics 0x40C5888000000000#64 0x4054000000000000#64) = true := by
  have hv : fIsFinite (fDiv (fMul (fMul Config.two Config.pi) 0x4094500000000000#64) 0x40C5888000000000#64) = true := by
    decide +kernel
  have he := numerics_exp_bounded (x := fNeg (fDiv (fMul Config.pi 0x4054000000000000#64) 0x40C5888000000000#64))
    (by decide +kernel) (by decide +kernel)
  have he2 := numerics_exp_bounded
    (x := fNeg (fDiv (fMul (fMul Config.two Config.pi) 0x4054000000000000#64) 0x40C5888000000000#64))
    (by decide +kernel) (by decide +kernel)
  refine ⟨?_, ?_, ?_⟩
  · rw [resA0, if_neg (by decide)]
    exact finite_of_mag_le (fMag_fDiv_mono (numerics_sin_bounded hv) (le_refl _) (by decide) (by decide +kernel)
      (by decide +kernel)) (by decide +kernel)
  · rw [resB1]
    have h1 := fMag_fMul_mono (x := Config.two) (a := Config.two) (le_refl _) he (by decide) (by decide)
    exact finite_of_mag_le (fMag_fMul_mono h1 (numerics_cos_bounded hv) (by decide +kernel) (by decide))
      (by decide +kernel)
  · rw [resB2, fIsFinite_fNeg]
    exact finite_of_mag_le he2 (by decide)

/-- Of `ResSetfreqTunesTheUnit`: `RES.SETFREQ SPACE` on that block is executed. -/
theorem witness_resSetfreq_completes : ∃ t, exec (.resSetfreq (unitCode .space)) ⟨toneBlock, [], 0#8, 0#64⟩ = .next t ∧
    t.status = 0#8 := by
  have hp : resSetfreq numerics (unitCode .space) toneBlock = .ok _ :=
    withUnit_ok.2 ⟨.space, by decide, resTune_ok.2 ⟨by decide, by decide +kernel, witness_resSetfreq_finite, Eq.refl _⟩⟩
  exact ⟨_, by rw [exec, execResSetfreq, hp, State.complete_ok], State.answer_status _ _ _⟩

/-- Of `ResSetfreqTunesTheUnit`, the clause of coefficients that are not finite: with the smallest rate, the frequency 0 and
the bandwidth 1.0, `a0` is a zero over a zero. -/
theorem witness_resSetfreq_not_finite : fLt 0#64 1#64 = true ∧ fIsFinite (resA0 numerics 0#64 1#64 one) = false := by
  refine ⟨by decide, ?_⟩
  have e : fDiv (fMul (fMul Config.two Config.pi) 0#64) 1#64 = 0#64 := by decide +kernel
  have d : fDiv (fDiv 1#64 Config.six) one = 0#64 := by decide +kernel
  rw [resA0, if_neg (by decide), e, d]
  rcases zero_of_fMag (numerics_sin_zero (x := 0#64) (by decide)) with h | h <;> rw [h] <;> decide +kernel

/-- Of `AccuracyReachesTheState`, first clause, and of the zero bandwidth of `ResSetfreqTunesTheUnit`: the tuning
`RES.TUNE u, 0.0, 1.0, 0.0` meets R145 (V-RS4: `a0 = 0`, `b1 = 2`, `b2 = -1`). -/
theorem witness_MeetsR145 : MeetsR145 numerics 0#64 one 0#64 := by
  have v0 : valueOf 0#64 = 0 := by
    rw [valueOf, show fInt 0#64 = 0 by decide]
    generalize unitsPerOne = k
    simp
  have e : fDiv (fMul (fMul Config.two Config.pi) 0#64) one = 0#64 := by decide +kernel
  refine ⟨?_, ?_, ?_⟩
  · have hz : fIsFinite (numerics.sin 0#64) = true ∧ fInt (numerics.sin 0#64) = 0 := by
      rcases zero_of_fMag (numerics_sin_zero (x := 0#64) (by decide)) with h | h <;> rw [h] <;>
        exact ⟨by decide, by decide +kernel⟩
    rw [resA0, if_pos (by decide), e, v0, if_pos rfl]
    refine ⟨hz.1, ?_⟩
    rw [valueOf, hz.2]
    generalize unitsPerOne = k
    simp
  · have hn := numerics_cos_near (x := 0#64) (by decide) (by decide +kernel)
    have hc : Within half two (numerics.cos 0#64) := Within.of_near hn (by decide +kernel) (by decide +kernel)
    have hl := hc.lower
    have hh := hc.upper
    rw [show fMag half = 0x3FE0000000000000 by decide] at hl
    rw [show fMag two = 0x4000000000000000 by decide] at hh
    have hd := fInt_double (x := numerics.cos 0#64) (by omega) (by unfold infMag; omega)
    have hb : resB1 numerics 0#64 one 0#64 = fMul Config.two (numerics.cos 0#64) := by
      rw [resB1, numerics_exp_zero (by decide +kernel), e, show fMul Config.two Config.one = Config.two by decide +kernel]
    rw [hb]
    refine ⟨hd.1, ?_⟩
    have hu : cosineRef 0#64 * refUnit = (unitsPerOne : Int) := by decide +kernel
    rw [hu, isNear, decide_eq_true_eq, Int.natAbs_natCast] at hn
    rw [v0, valueOf, hd.2]
    generalize fInt (numerics.cos 0#64) = z at *
    have hU : (0 : ℝ) < unitsPerOne := Nat.cast_pos.2 unitsPerOne_pos
    generalize unitsPerOne = k at *
    have h1 : |(z : ℝ) - k| * 10 ^ 9 ≤ k := by
      have : ((z - k).natAbs : ℝ) * 10 ^ 9 ≤ k := by exact_mod_cast hn
      rwa [Nat.cast_natAbs, Int.cast_abs, Int.cast_sub, Int.cast_natCast] at this
    push_cast
    simp only [mul_zero, zero_div, Real.exp_zero, Real.cos_zero, mul_one]
    rw [show (2 * (z : ℝ) / k - 2) = 2 * ((z - k) / k) by field_simp, abs_mul, abs_div, abs_of_pos hU,
      abs_of_pos (show (0 : ℝ) < 2 by norm_num)]
    have : |(z : ℝ) - k| / k ≤ 1e-9 := by rw [div_le_iff₀ hU]; linarith
    linarith
  · have hv : fIsFinite 0xBFF0000000000000#64 = true := by decide
    have hw : valueOf 0xBFF0000000000000#64 = -1 := by
      have hU : (unitsPerOne : ℚ) ≠ 0 := Nat.cast_ne_zero.2 unitsPerOne_pos.ne'
      rw [valueOf, show fInt 0xBFF0000000000000#64 = -(unitsPerOne : Int) by decide +kernel, Int.cast_neg, Int.cast_natCast,
        neg_div, div_self hU]
    have hb : resB2 numerics one 0#64 = 0xBFF0000000000000#64 := by
      rw [resB2, numerics_exp_zero (by decide +kernel)]; decide
    rw [hb]
    refine ⟨hv, ?_⟩
    rw [hw, v0]
    norm_num

/-- Every real value between -1 and 1 has a binary64 value within 1e-6 of it. -/
theorem exists_close (r : ℝ) (h : |r| ≤ 1) : ∃ x : F64, fIsFinite x = true ∧ |(valueOf x : ℝ) - r| ≤ 1e-6 := by
  obtain ⟨h1, h2⟩ := abs_le.1 h
  have hk : (0 : ℝ) < 2 ^ 128 := by positivity
  have hb : (⌊r * 2 ^ 128⌋).natAbs ≤ 2 ^ 128 := by
    have l : -(2 ^ 128 : Int) ≤ ⌊r * 2 ^ 128⌋ := Int.le_floor.2 (by push_cast; nlinarith)
    have u : ⌊r * 2 ^ 128⌋ ≤ (2 ^ 128 : Int) := Int.floor_le_iff.2 (by push_cast; nlinarith)
    omega
  have hn := ofReference_near hb
  refine ⟨ofReference ⌊r * 2 ^ 128⌋, finite_of_mag_le ((isUnitBounded_iff _).1 (ofReference_bounded hb)) (by decide), ?_⟩
  have hf1 := Int.floor_le (r * 2 ^ 128)
  have hf2 := Int.lt_floor_add_one (r * 2 ^ 128)
  rw [isNear, decide_eq_true_eq, Int.natAbs_mul, Int.natAbs_natCast] at hn
  have hU : (unitsPerOne : ℝ) = 2 ^ 128 * refUnit := by
    rw [← refUnit_mul, Nat.cast_mul, Nat.cast_pow, Nat.cast_ofNat]
  have hp : (0 : ℝ) < refUnit := Nat.cast_pos.2 (by unfold refUnit; positivity)
  have hn' : |(fInt (ofReference ⌊r * 2 ^ 128⌋) : ℝ) - ⌊r * 2 ^ 128⌋ * refUnit| * 10 ^ 9 ≤ 2 ^ 128 * refUnit := by
    have : ((fInt (ofReference ⌊r * 2 ^ 128⌋) - ⌊r * 2 ^ 128⌋ * refUnit).natAbs : ℝ) * 10 ^ 9 ≤ 2 ^ 128 * refUnit := by
      exact_mod_cast le_trans hn (Nat.mul_le_mul_right _ hb)
    rwa [Nat.cast_natAbs, Int.cast_abs, Int.cast_sub, Int.cast_mul, Int.cast_natCast] at this
  rw [valueOf, Rat.cast_div, Rat.cast_intCast, Rat.cast_natCast, hU]
  generalize (⌊r * 2 ^ 128⌋ : ℝ) = z at *
  generalize (fInt (ofReference ⌊r * 2 ^ 128⌋) : ℝ) = y at *
  generalize (refUnit : ℝ) = k at *
  have hc : (10 : ℝ) ^ 9 ≤ 2 ^ 128 := by norm_num
  generalize (2 : ℝ) ^ 128 = c at *
  have e : y / (c * k) - r = ((y - z * k) + (z - r * c) * k) / (c * k) := by field_simp; ring
  rw [e, abs_div, abs_of_pos (mul_pos hk hp), div_le_iff₀ (mul_pos hk hp)]
  have t := abs_add_le (y - z * k) ((z - r * c) * k)
  have t2 : |(z - r * c) * k| ≤ k := by
    rw [abs_mul, abs_of_pos hp]
    have : |z - r * c| ≤ 1 := abs_le.2 ⟨by linarith only [hf1, hf2], by linarith only [hf1, hf2]⟩
    exact le_of_le_of_eq (mul_le_mul_of_nonneg_right this hp.le) (one_mul k)
  have t3 : 10 ^ 9 * k ≤ c * k := mul_le_mul_of_nonneg_right hc hp.le
  norm_num at hn' t3 ⊢
  linarith only [t, t2, t3, hn', mul_pos hk hp]

/-- Of `ResonatorsDiscriminate`: there is a tone of 1080 Hz, and MARK and SPACE are two units. -/
theorem witness_ResonatorsDiscriminate : ToneUnit.mark ≠ .space ∧
    ∃ xs : List F64, xs.length = 132 + 1103 ∧ IsTone xs 0x4090E00000000000#64 0x40C5888000000000#64 := by
  refine ⟨by decide, ?_⟩
  have h := fun n : Nat => exists_close
    (Real.sin (2 * Real.pi * valueOf 0x4090E00000000000#64 * n / valueOf 0x40C5888000000000#64)) (Real.abs_sin_le_one _)
  choose x hx using h
  refine ⟨List.ofFn fun n : Fin (132 + 1103) => x n, List.length_ofFn, fun n hn => ?_⟩
  rw [List.getElem_ofFn]
  exact hx n

/-- V-RS3: the operands of the two tunings, 1080, 1320, 11025 and 80. -/
theorem test_v_rs3_operands : fInt 0x4090E00000000000#64 = 1080 * unitsPerOne ∧
    fInt 0x4094A00000000000#64 = 1320 * unitsPerOne ∧ fInt 0x40C5888000000000#64 = 11025 * unitsPerOne ∧
    fInt 0x4054000000000000#64 = 80 * unitsPerOne := by decide +kernel

/-! ## Witnesses: for every statement with hypotheses, a state and operands that meet them, clause by clause -/

/-- A state with a block and an empty port. -/
def on (b : Block) : State := ⟨b, [], 0#8, 0#64⟩
def minusOne : Word := 0xBFF0000000000000#64
def four : Word := 0x4010000000000000#64

theorem witness_StepRunsTheDecodedCommand : let s : State := ⟨Block.reset, [⟨0x00000002#32, 0#64⟩], 0#8, 0#64⟩
    s.pending = ⟨0x00000002#32, 0#64⟩ :: [] ∧ decode ⟨0x00000002#32, 0#64⟩ = .ok .obClear := ⟨rfl, rfl⟩
theorem witness_EveryTransactionIsAnsweredOnce : let s : State := ⟨Block.reset, [⟨0#32, 0#64⟩], 0#8, 0#64⟩
    s.pending = ⟨0#32, 0#64⟩ :: [] := rfl

def opcodesN : List (BitVec 8) :=
  [0x02#8, 0x03#8, 0x20#8, 0x21#8, 0x50#8, 0x51#8, 0x52#8, 0x53#8, 0x62#8, 0x63#8, 0x71#8, 0x7F#8]
def opcodesU : List (BitVec 8) := [0x30#8, 0x31#8, 0x40#8, 0x41#8]
def opcodesI : List (BitVec 8) := [0x01#8, 0x04#8, 0x05#8, 0x10#8, 0x11#8, 0x60#8, 0x61#8, 0x70#8]
/-- Each way to be illegal alone (`RSV`, opcode, `U` and `IMM` of an `N`, `IMM` of a `U`, `U` of an `I`), then a legal
word of a unit that is not there. -/
theorem witness_IllegalWordsAreRefused :
    (0x00001021#32).extractLsb' 12 4 ≠ 0#4 ∧ (0x00000006#32).extractLsb' 0 8 ∉ opcodesN ++ opcodesU ++ opcodesI ∧
    ((0x00000121#32).extractLsb' 0 8 ∈ opcodesN ∧ (0x00000121#32).extractLsb' 8 4 ≠ 0#4) ∧
    ((0x00010021#32).extractLsb' 0 8 ∈ opcodesN ∧ (0x00010021#32).extractLsb' 16 16 ≠ 0#16) ∧
    ((0x00010031#32).extractLsb' 0 8 ∈ opcodesU ∧ (0x00010031#32).extractLsb' 16 16 ≠ 0#16) ∧
    ((0x00000110#32).extractLsb' 0 8 ∈ opcodesI ∧ (0x00000110#32).extractLsb' 8 4 ≠ 0#4) ∧
    ((0x00000431#32).extractLsb' 0 8 ∈ opcodesU ∧ (0x00000431#32).extractLsb' 12 4 = 0#4 ∧
      (0x00000431#32).extractLsb' 16 16 = 0#16 ∧ 4 ≤ ((0x00000431#32).extractLsb' 8 4).toNat) := by decide
theorem witness_EncodeOfDecode : decode ⟨0x00000002#32, 0xDEAD#64⟩ = .ok .obClear ∧
    decode ⟨0x00000003#32, 0xDEAD#64⟩ = .ok (.obPush 0xDEAD#64) := ⟨rfl, rfl⟩
theorem witness_StepRunsTheDecodedCommand_idle : State.reset.pending = [] := rfl
theorem paramsOk_defaults : ParamsOk Config.defaults :=
  ⟨by decide, by decide, by decide, by decide, ⟨by decide, by decide⟩⟩
theorem witness_ResetValues : (State.resetWith small).block.params = small ∧
    exec .pipeReset (on (Block.resetWith small)) = .next (nx .pipeReset (on (Block.resetWith small))) := ⟨rfl, exec_nx _ _⟩
theorem witness_ResetMeetsTheInvariants : ParamsOk small ∧ small ≠ Config.defaults :=
  ⟨⟨by decide, by decide, by decide, by decide, ⟨by decide, by decide⟩⟩, by decide⟩
theorem witness_PipeResetRestoresReset :
    exec .pipeReset (on { configured with ovf := true }) = .next (nx .pipeReset (on { configured with ovf := true })) ∧
    (nx .pipeReset (on { configured with ovf := true })).block.ovf = false := ⟨exec_nx _ _, rfl⟩

theorem witness_ArgSetWritesOneRegister : (7#16).toNat < 8 ∧ 8 ≤ (8#16).toNat := by decide
theorem witness_ObClearEmptiesTheBuffer : exec .obClear (on order3) = .next (nx .obClear (on order3)) := exec_nx _ _
theorem witness_ObPushAppends : (buffer [] 1023 Block.reset).obLen ≠ Block.reset.params.obMax ∧
    (buffer [] 1024 Block.reset).obLen = Block.reset.params.obMax := by decide
theorem witness_ObReadReturnsTheCell : (0#16).toNat < (buffer [half] 1 Block.reset).obLen ∧
    (buffer [half] 1 Block.reset).obLen ≤ (1#16).toNat := by decide
theorem witness_RegReadReturnsTheRegister :
    ((34#16).toNat, 0#64) ∈ registerTable Block.reset ∧ ((311#16).toNat, 0#64) ∈ registerTable Block.reset ∧
    (∀ v, ((35#16).toNat, v) ∉ registerTable Block.reset) ∧ (∀ v, ((264#16).toNat, v) ∉ registerTable Block.reset) ∧
    ∀ v, ((320#16).toNat, v) ∉ registerTable Block.reset := by
  refine ⟨by decide +kernel, by decide +kernel, ?_, ?_, ?_⟩ <;> intro v <;> simp [registerTable, unitRows]
theorem witness_FlagsRegisterBits : (13 : Nat) ≤ 13 := by decide
/-- Each stepping command is executed. -/
theorem witness_StatusWordLayout :
    (nx .syncStep (on (feed half 0#64 0#64 0#64 decoder))).status = 0#8 ∧
    (nx (.pipeSampleI16 0xFB50#16) (on configured)).status = 0#8 ∧
    (nx (.pipeSampleF64 one) (on configured)).status = 0#8 := by decide +kernel
theorem witness_CommandsWriteOnlyTheirWriteSet :
    exec (.argSet 7#16 one) (on Block.reset) = .next (nx (.argSet 7#16 one) (on Block.reset)) ∧
    (nx (.argSet 7#16 one) (on Block.reset)).status = 0#8 ∧
    exec .firCreate (on Block.reset) = .next (nx .firCreate (on Block.reset)) ∧
    (nx .firCreate (on Block.reset)).status ≠ 0#8 := ⟨exec_nx _ _, by decide +kernel, exec_nx _ _, by decide +kernel⟩

/-- The two conditions of `FirDesignRefusals` on the five operands. -/
def firFinite (band : Bool) (b : Block) : Bool :=
  fIsFinite b.arg[0] && fIsFinite b.arg[1] && fIsFinite b.arg[3] && fIsFinite b.arg[4] && (!band || fIsFinite b.arg[2])
def firLegal (band : Bool) (n : Nat) (b : Block) : Bool :=
  decide ((n < 2 ^ 32 ∧ 1 ≤ n) ∧ (n % 2 = 0 ∧ n + 1 ≤ b.params.lMax ∧ n + 1 ≤ b.params.obMax)) &&
    (fLt 0#64 b.arg[1] && fLt b.arg[1] (fDiv b.arg[0] Config.two)) &&
    (!band || (fLt 0#64 b.arg[2] && fLt b.arg[2] (fDiv b.arg[0] Config.two) && fLt b.arg[1] b.arg[2])) && fLe 0#64 b.arg[3]
/-- Each operand alone not finite, and (of `FirDesignWritesTheTaps` too) the specifications within it. -/
theorem witness_FirDesignRefusals_finite :
    4 ≤ (4#16).toNat ∧ filterKindOf 0#16 = some .lowPass ∧ filterKindOf 3#16 = some .bandStop ∧
    ([args nan cut 0#64 0#64 one Block.reset, args eight posInf 0#64 0#64 one Block.reset,
      args eight cut 0#64 nan one Block.reset, args eight cut 0#64 0#64 nan Block.reset].all
        (fun b => !firFinite false b)) = true ∧
    firFinite true (args eight one nan 0#64 one Block.reset) = false ∧
    firFinite false (args eight one nan 0#64 one Block.reset) = true := by decide +kernel
/-- Each test alone failing, at its boundary: the tap count, the cuts, the attenuation. -/
theorem witness_FirDesignRefusals_legal :
    let low := args eight cut nan 0#64 one Block.reset
    let bad := [(0, low), (2 ^ 32, low), (3, low), (1024, low), (2, args eight 0#64 nan 0#64 one Block.reset),
      (2, args eight four nan 0#64 one Block.reset), (2, args eight cut nan minusOne one Block.reset)]
    let badBand := [args eight one 0#64 0#64 one Block.reset, args eight one four 0#64 one Block.reset,
      args eight one one 0#64 one Block.reset]
    (bad.all fun p => firFinite false p.2 && !firLegal false p.1 p.2) = true ∧
    (badBand.all fun b => firFinite true b && !firLegal true 2 b) = true ∧
    firLegal false 1022 low = true ∧ firLegal true 2 (args eight one two 0#64 one Block.reset) = true := by decide +kernel
/-- The two conditions of `IirDesignRefusals`. -/
def iirFinite (cheb : Bool) (b : Block) : Bool :=
  fIsFinite b.arg[0] && fIsFinite b.arg[1] && (!cheb || fIsFinite b.arg[2])
def iirLegal (cheb : Bool) (b : Block) : Bool :=
  fLt 0#64 b.arg[1] && (fLt 0#64 b.arg[0] && fLt b.arg[0] (fDiv b.arg[1] Config.two)) && (!cheb || fLt 0#64 b.arg[2])
theorem witness_IirDesignRefusals :
    512 ≤ (512#16).toNat ∧ (0x100#16).toNat % 256 = 0 ∧ (17#16).toNat % 256 = 17 ∧ (0x110#16).toNat % 256 = 16 ∧
    ([args nan four nan 0#64 0#64 Block.reset, args one posInf nan 0#64 0#64 Block.reset].all
      (fun b => !iirFinite false b)) = true ∧ iirFinite true (args one four nan 0#64 0#64 Block.reset) = false ∧
    ([args one 0#64 nan 0#64 0#64 Block.reset, args 0#64 four nan 0#64 0#64 Block.reset,
      args two four nan 0#64 0#64 Block.reset].all (fun b => iirFinite false b && !iirLegal false b)) = true ∧
    iirFinite true (args one four 0#64 0#64 0#64 Block.reset) = true ∧
    iirLegal true (args one four 0#64 0#64 0#64 Block.reset) = false ∧
    iirLegal true (args one four half 0#64 0#64 Block.reset) = true := by decide +kernel

/-- The lengths 1 and 1024, 0 and 1025, and a cell that is not finite. -/
theorem witness_FirCreateBindsTheTaps :
    (1 ≤ (buffer [one] 1 Block.reset).obLen ∧ ∀ i < 1, fIsFinite ((buffer [one] 1 Block.reset).ob.read i) = true) ∧
    ((buffer [] 1024 Block.reset).obLen ≤ Config.defaults.lMax ∧
      ∀ i < 1024, fIsFinite ((buffer [] 1024 Block.reset).ob.read i) = true) ∧
    ¬ 1 ≤ Block.reset.obLen ∧ ¬ (buffer [] 1025 Block.reset).obLen ≤ Config.defaults.lMax ∧
    ¬ ∀ i < 2, fIsFinite ((buffer [one, nan] 2 Block.reset).ob.read i) = true := by
  refine ⟨by decide +kernel, ⟨by decide, fun i _ => by rfl⟩, by decide, by decide, by decide +kernel⟩
theorem witness_FirProcFiltersOneSample :
    (threeTaps.fir.l ≠ 0 ∧ fIsFinite one = true ∧ fIsFinite (threeTaps.fir.output one) = true) ∧
    Block.reset.fir.l = 0 ∧ fIsFinite posInf = false ∧
    fIsFinite ((⟨[(0, maxFinite), (1, maxFinite)], 2, [(0, one), (2, one)], 1⟩ : Fir).output one) = false := by
  decide +kernel
theorem witness_FirInvariantsAreKept : FirOk threeTaps.fir ∧ 0 < threeTaps.fir.l ∧
    step (on threeTaps) = .next (on threeTaps) ∧ exec (.firProc one) (on threeTaps) = .next (nx (.firProc one) (on threeTaps)) :=
  ⟨⟨by decide +kernel, by decide +kernel⟩, by decide +kernel, rfl, exec_nx _ _⟩
theorem witness_FirComputesTheConvolution :
    (0 < threeTaps.fir.l ∧ threeTaps.fir.w = 0 ∧ threeTaps.fir.ring = []) ∧
    (fIsFinite one && fIsFinite 0x4024000000000000#64) = true ∧
    fIsFinite (firOutput threeTaps.fir.tap.read threeTaps.fir.l [one, 0x4024000000000000#64] 0) = true ∧
    fIsFinite (firOutput threeTaps.fir.tap.read threeTaps.fir.l [one, 0x4024000000000000#64] 1) = true := by
  refine ⟨by decide +kernel, by decide +kernel, by decide +kernel, by decide +kernel⟩
theorem witness_FirOneTapFilters_movingAverage :
    (blk .firCreate (buffer [half, half] 2 Block.reset)).fir = ⟨[(0, half), (1, half)], 2, [], 0⟩ := by decide +kernel
theorem witness_FirOneTapFilters :
    let tap := fun c : Word => blk .firCreate (buffer [c] 1 Block.reset)
    (tap one).fir.l = 1 ∧ (tap one).fir.w = 0 ∧ (tap one).fir.tap.read 0 = 0x3FF0000000000000#64 ∧
    (tap half).fir.l = 1 ∧ (tap half).fir.w = 0 ∧ (tap half).fir.tap.read 0 = 0x3FE0000000000000#64 ∧
    fIsFinite 0x8000000000000000#64 = true ∧ fIsFinite 0x0020000000000000#64 = true ∧
    0x0020000000000000 ≤ fMag 0x0020000000000000#64 ∧ (2#64).getLsbD 0 = false := by decide +kernel

/-- Each operand alone not finite, and alone out of its range; and (of `AudioTuningsComplete`) the ranges, at both ends. -/
theorem witness_ResSetfreqTunesTheUnit_faults :
    4 ≤ (4#4).toNat ∧ fIsFinite nan = false ∧ fLt 0#64 0x8000000000000000#64 = false ∧ fLe 0#64 minusOne = false ∧
    (fIsFinite minusOne && fIsFinite 0x8000000000000000#64) = true := by decide +kernel
theorem witness_AudioTuningsComplete :
    [(toneBlock.arg[0], toneBlock.arg[1], toneBlock.arg[2]), (one, one, 0#64),
      (0#64, 0x4130000000000000#64, 0x4130000000000000#64)].all (fun (f, fs, bw) =>
        fLe Config.one fs && fLe fs 0x4130000000000000#64 && fLe 0#64 f && fLe f fs && fLe 0#64 bw && fLe bw fs) = true := by
  decide +kernel
theorem witness_ResProcFiltersOneSample :
    4 ≤ (4#4).toNat ∧ (∀ u, (tunedBlock.res.get u).tuned = true) ∧ fIsFinite (fFlush (tuned.raw one)) = true ∧
    (∀ u, (Block.reset.res.get u).tuned = false) ∧ fIsFinite nan = false ∧
    fIsFinite (fFlush ({ tuned with b1 := two, z1 := maxFinite }.raw one)) = false := by
  refine ⟨by decide, fun u => ?_, by decide +kernel, fun u => ?_, by decide, by decide +kernel⟩ <;> cases u <;> rfl
theorem witness_DelaysStayFlushed : DelaysFlushed tunedBlock ∧
    step (on tunedBlock) = .next (on tunedBlock) := by
  refine ⟨fun u => ?_, rfl⟩
  cases u <;> exact ⟨Or.inl rfl, Or.inl rfl, fun i hi => absurd hi (Nat.not_lt_zero i)⟩

/-- The lengths 2 and 32; 0, 3, 5 and 34 (order 17); a cell that is not finite. -/
theorem witness_BqLoadBindsTheSections :
    let legal := fun len : Nat =>
      decide (2 ≤ len ∧ len % 4 ≠ 1 ∧ len % 4 ≠ 3 ∧ 2 * (len / 4) + len % 4 / 2 ≤ Config.defaults.orderMax)
    (legal 2 && legal 6 && legal 32) = true ∧ (legal 0 || legal 3 || legal 5 || legal 34) = false ∧
    (∀ i < 2, fIsFinite ((buffer [half, half] 2 Block.reset).ob.read i) = true) ∧
    ¬ ∀ i < 2, fIsFinite ((buffer [half, nan] 2 Block.reset).ob.read i) = true := by decide +kernel
theorem witness_BqProcRunsTheCascade :
    let q := order3.bq.leader
    (q.order ≠ 0 ∧ fIsFinite one = true ∧ fIsFinite (cascadeOut q one) = true ∧
      ∀ i < 2 * (q.order / 2) + q.order % 2, fIsFinite (cascadeState q one i) = true) ∧
    (∀ u, (Block.reset.bq.get u).order = 0) ∧ fIsFinite posInf = false ∧
    fIsFinite (cascadeOut ⟨1, [(0, half), (1, maxFinite)], []⟩ two) = false := by
  refine ⟨by decide +kernel, fun u => ?_, by decide, by decide +kernel⟩
  cases u <;> rfl

/-- The windows 1 and 2^32 - 1; 0 and 2^32; the target 0 and below it; a threshold of 0; a ratio that overflows. -/
theorem witness_AgcConfigStartsAWindow :
    let legal := fun (win : Word) (target thr : F64) => decide (1 ≤ win.toNat ∧ win.toNat < 2 ^ 32) &&
      (fLe 0#64 target && fLt 0#64 thr) && fIsFinite (fDiv target thr)
    (legal 1#64 0#64 one && legal 0xFFFFFFFF#64 one half) = true ∧
    (legal 0#64 one one || legal 0x100000000#64 one one || legal 1#64 minusOne one || legal 1#64 one 0#64 ||
      legal 1#64 maxFinite half) = false ∧ (fIsFinite minusOne && fIsFinite maxFinite) = true ∧
    fIsFinite nan = false := by decide +kernel
theorem witness_AgcTrackFollowsThePeak : agcBlock.agc.cfg = true ∧ fIsFinite minusOne = true ∧
    Block.reset.agc.cfg = false ∧ fIsFinite posInf = false := by decide +kernel
theorem witness_AgcUpdateSetsTheGain : agcBlock.agc.cfg = true ∧ Block.reset.agc.cfg = false := by decide +kernel
theorem witness_AgcApplyScales : agcBlock.agc.cfg = true ∧ fIsFinite one = true ∧
    fIsFinite (fMul one agcBlock.agc.gain) = true ∧ Block.reset.agc.cfg = false ∧ fIsFinite nan = false ∧
    fIsFinite maxFinite = true ∧ fIsFinite (fMul maxFinite two) = false := by decide +kernel
/-- The window of V-AGC3: peak 0.75, target 1.0, threshold 0.01. -/
theorem witness_AgcConvergesToTheTarget :
    let s := on (blk (.agcTrack 0x3FE8000000000000#64) agcBlock)
    let a := s.block.agc
    exec .agcUpdate s = .next (nx .agcUpdate s) ∧
    (a.cfg = true ∧ fIsFinite a.targetLevel = true ∧ fIsFinite a.threshold = true ∧ fIsFinite a.currentPeak = true ∧
      fLt 0#64 a.threshold = true ∧ fLt a.threshold a.currentPeak = true ∧ fSign a.targetLevel = false ∧
      0x0010000000000000 ≤ fMag a.targetLevel ∧ 0x0010000000000000 ≤ fMag (nx .agcUpdate s).block.agc.gain ∧
      fIsFinite (fMul (nx .agcUpdate s).block.agc.gain a.currentPeak) = true) := ⟨exec_nx _ _, by decide +kernel⟩

theorem witness_SyncPresetSetsTheThresholds : (3#16).toNat < 4 ∧ 4 ≤ (4#16).toNat := by decide
theorem witness_SyncTimingSetsOneRegister :
    (1 ≤ (1#64).toNat ∧ (0xFFFFFFFF#64).toNat < 2 ^ 32) ∧ 4 ≤ (4#16).toNat ∧ (3#16).toNat < 4 ∧
    ¬ 1 ≤ (0#64).toNat ∧ ¬ (0x100000000#64).toNat < 2 ^ 32 := by decide

/-- Ready to tick, in Bool. -/
def ready (b : Block) : Bool :=
  b.sync.senseSet && decide (1 ≤ b.sync.tLMin.toNat) && decide (1 ≤ b.sync.tLValid.toNat) &&
    decide (1 ≤ b.sync.tStart.toNat) && decide (1 ≤ b.sync.tBit.toNat) && fIsFinite b.arg[0] && fIsFinite b.arg[1] &&
    fIsFinite b.arg[2] && fIsFinite b.arg[3]
theorem ready_spec {b : Block} (h : ready b = true) : ReadyToTick (on b) := by
  simp only [ready, Bool.and_eq_true, decide_eq_true_eq] at h
  obtain ⟨⟨⟨⟨⟨⟨⟨⟨h1, h2⟩, h3⟩, h4⟩, h5⟩, h6⟩, h7⟩, h8⟩, h9⟩ := h
  exact ⟨h1, ⟨h2, h3, h4, h5⟩, h6, h7, h8, h9⟩

theorem witness_SyncStepRefusals :
    Block.reset.sync.senseSet = false ∧ ({ decoder with tBit := 0#32 } : Sync).tBit.toNat = 0 ∧
    ready (feed 0#64 0#64 0#64 0#64 decoder) = true ∧
    (∃ k, ∃ h : k < 4, fIsFinite (feed 0#64 0#64 0#64 nan decoder).arg[k] = false) ∧
    ∃ k, ∃ h : k < 4, fIsFinite (feed posInf 0#64 0#64 0#64 decoder).arg[k] = false :=
  ⟨by decide +kernel, by decide, by decide +kernel, ⟨3, by decide, by decide +kernel⟩, ⟨0, by decide, by decide +kernel⟩⟩
theorem witness_SyncTickInIdle : ReadyToTick (on (feed v09 0#64 0#64 0#64 decoder)) ∧
    (feed v09 0#64 0#64 0#64 decoder).sync.tag = .idle := ⟨ready_spec (by decide +kernel), rfl⟩
/-- Above the level; at it with the count at `T_LVALID`; at it with the count one short. -/
theorem witness_SyncTickInLeaderDetect :
    let y := { decoder with tag := .leaderDetect, leadCnt := 3#32 }
    let y' := { decoder with tag := .leaderDetect, leadCnt := 2#32 }
    ReadyToTick (on (feed v09 0#64 0#64 0#64 y)) ∧ fLt y.sLvl v09 = true ∧
    ReadyToTick (on (feed y.sLvl 0#64 0#64 0#64 y)) ∧ fLt y.sLvl y.sLvl = false ∧ y.tLValid.toNat ≤ y.leadCnt.toNat ∧
    ReadyToTick (on (feed y.sLvl 0#64 0#64 0#64 y')) ∧ y'.leadCnt.toNat < y'.tLValid.toNat := by
  refine ⟨ready_spec (by decide +kernel), by decide +kernel, ready_spec (by decide +kernel), by decide +kernel,
    by decide, ready_spec (by decide +kernel), by decide⟩
theorem witness_SyncTickInStartBitValidate :
    ReadyToTick (on (feed 0#64 0#64 0#64 0#64 { decoder with tag := .startBitValidate, timer := 1#32 })) ∧
    ReadyToTick (on (feed 0#64 0#64 0#64 0#64 { decoder with tag := .startBitValidate, timer := 2#32 })) :=
  ⟨ready_spec (by decide +kernel), ready_spec (by decide +kernel)⟩
/-- The discrimination, in Bool. -/
def fails (le ma sp lvl : F64) : Bool := (fLt ma le && fLt sp le) || fLt (fAbs (fSub ma sp)) lvl
/-- The clauses of a tick in VisDecoding: not expired (timer 2), expired (timer 1) and not separable either way,
separable with the count 6, with the count 7 and either parity. -/
theorem witness_SyncTickInVisDecoding :
    let y := fun (t : BitVec 32) (n : BitVec 4) => { decoder with
      tag := SyncTag.visDecoding, timer := t, acc := ⟨n, 0x2C#8, 0#64, 0#64, 0#64, 0#64⟩ }
    ([y 2#32 0#4, y 1#32 6#4, y 1#32 7#4].all (fun y => ready (feed 0#64 0#64 half 0#64 y) &&
      decide (1 ≤ y.timer.toNat ∧ y.acc.bitsReceived.toNat ≤ 7))) = true ∧
    fails one half 0#64 decoder.sLvl2 = true ∧ fails 0#64 half half decoder.sLvl2 = true ∧
    fails 0#64 half 0#64 decoder.sLvl2 = false ∧ fails 0#64 0#64 half decoder.sLvl2 = false ∧
    dataParity (0x2C#8 ||| 1#8 <<< 7) = (0x2C#8 ||| 1#8 <<< 7 : BitVec 8).getLsbD 7 ∧
    dataParity (0x2C#8 ||| 0#8 <<< 7) ≠ (0x2C#8 ||| 0#8 <<< 7 : BitVec 8).getLsbD 7 := by decide +kernel
theorem witness_SyncDataWaitIsTerminal :
    let b := feed 0#64 0#64 0#64 0#64 { decoder with tag := .dataWait, visByte := 0xAC#8, visValid := true }
    ReadyToTick (on b) ∧ b.sync.tag = .dataWait ∧ exec .syncStep (on b) = .next (nx .syncStep (on b)) :=
  ⟨ready_spec (by decide +kernel), rfl, exec_nx _ _⟩
theorem witness_SyncInvariantsAreKept :
    SyncOk { decoder with tag := .visDecoding, timer := 2#32, acc := ⟨6#4, 0x2C#8, half, half, 0#64, 0#64⟩ } ∧
    SyncOk { decoder with tag := .dataWait, visByte := 0xAC#8, visValid := true } ∧
    step State.reset = .next State.reset := by
  refine ⟨⟨?_, ?_, ?_, ?_, ?_, ?_, ?_⟩, ⟨?_, ?_, ?_, ?_, ?_, ?_, ?_⟩, rfl⟩ <;> decide

/-- Two separable ticks, of the bit 1 and of the bit 0, and one that is not separable. -/
def tickOne : Envelopes := ⟨0#64, 0#64, half, 0#64⟩
def tickZero : Envelopes := ⟨0#64, 0#64, 0#64, half⟩
def tickBad : Envelopes := ⟨one, 0#64, half, 0#64⟩
/-- The byte `0xAC` and its parity bit, the least significant bit first; with one tick a bit. -/
def tickEnv (k : Nat) : Envelopes := if k ∈ [3, 4, 6, 8] then tickOne else tickZero
/-- The second bit is not separable. -/
def tickEnvBad (k : Nat) : Envelopes := if k = 2 then tickBad else tickOne
theorem witness_DecodeLemma :
    let y := { decoder with tag := .visDecoding, timer := 1#32, tBit := 1#32 }
    (y.senseSet = true ∧ 1 ≤ y.tLMin.toNat ∧ 1 ≤ y.tLValid.toNat ∧ 1 ≤ y.tStart.toNat ∧ 1 ≤ y.tBit.toNat) ∧
    (y.acc = VisAcc.cleared ∧ y.timer = y.tBit ∧ y.visValid = false) ∧
    (∀ k < 9, (tickEnv k).finite = true ∧ separable (tickEnv k) y.sLvl2 = true) ∧
    bitOf (tickEnv 8) = (bitOf (tickEnv 1) ^^ bitOf (tickEnv 2) ^^ bitOf (tickEnv 3) ^^ bitOf (tickEnv 4) ^^
      bitOf (tickEnv 5) ^^ bitOf (tickEnv 6) ^^ bitOf (tickEnv 7)) ∧
    (∀ k < 9, (tickEnvBad k).finite = true) ∧ separable (tickEnvBad 1) y.sLvl2 = true ∧
    separable (tickEnvBad 2) y.sLvl2 = false := by decide +kernel

/-- The states of the two clauses: the ticks of eight bits, and the ticks up to the second bit, stand on the port. -/
theorem witness_DecodeLemma_states :
    let y := { decoder with tag := .visDecoding, timer := 1#32, tBit := 1#32 }
    let s : State := ⟨{ Block.reset with sync := y }, feedTicks tickEnv 8, 0#8, 0#64⟩
    let s' : State := ⟨{ Block.reset with sync := y }, feedTicks tickEnvBad 2, 0#8, 0#64⟩
    s.block.sync.tag = .visDecoding ∧ s.pending = feedTicks tickEnv (8 * 1) ++ [] ∧
      s'.block.sync.tag = .visDecoding ∧ s'.pending = feedTicks tickEnvBad (2 * 1) ++ [] := ⟨rfl, rfl, rfl, rfl⟩

/-- Not configured; configured with a sample that is not finite; configured with one that is. -/
theorem witness_PipeSampleRefusals : Block.reset.configured = false ∧ configured.configured = true ∧
    fIsFinite nan = false ∧ fIsFinite one = true := by decide +kernel

/-- The commands of one sample on `configured`, and the state after each prefix of them. -/
def afterFir : State := nx (.firProc one) (on configured)
def afterTrack : State := nx (.agcTrack afterFir.rdata) afterFir
def afterUpdate : State := nx .agcUpdate afterTrack
def afterAgc : State := nx (.agcApply afterFir.rdata) afterUpdate
def afterRes (u : ToneUnit) (s : State) : State := nx (.resProc (unitCode u) afterAgc.rdata) s
def afterBq (u : ToneUnit) (s : State) : State := nx (.bqProc (unitCode u) (fAbs (afterRes u s).rdata)) (afterRes u s)
def afterTones : ToneUnit → State
  | .leader => afterBq .leader afterAgc
  | .sync => afterBq .sync (afterBq .leader afterAgc)
  | .mark => afterBq .mark (afterBq .sync (afterBq .leader afterAgc))
  | .space => afterBq .space (afterBq .mark (afterBq .sync (afterBq .leader afterAgc)))
/-- The state of the chain with its envelopes in the argument registers. -/
def readyTick : State := { (afterTones .space) with
  block := (((((afterTones .space).block.withArg 0 (afterTones .leader).rdata).withArg 1 (afterTones .sync).rdata).withArg 2
    (afterTones .mark).rdata).withArg 3 (afterTones .space).rdata) }
/-- With `exec_nx`, each command of the chain is executed: every `STATUS` on the way is 0. -/
theorem witness_PipeSampleRunsTheStages :
    fIsFinite one = true ∧ afterFir.status = 0#8 ∧ afterTrack.status = 0#8 ∧
    afterTrack.block.agc.windowSamples.toNat ≤ afterTrack.block.agc.sampleCounter.toNat ∧ afterUpdate.status = 0#8 ∧
    afterAgc.status = 0#8 ∧ (afterRes .leader afterAgc).status = 0#8 ∧ (afterTones .leader).status = 0#8 ∧
    (afterRes .sync (afterTones .leader)).status = 0#8 ∧ (afterTones .sync).status = 0#8 ∧
    (afterRes .mark (afterTones .sync)).status = 0#8 ∧ (afterTones .mark).status = 0#8 ∧
    (afterRes .space (afterTones .mark)).status = 0#8 ∧ (afterTones .space).status = 0#8 ∧
    (nx .syncStep readyTick).status = 0#8 ∧ fOfInt (1#16).toInt = one := by
  decide +kernel
theorem witness_PipeSampleRunsTheStages_units :
    (∀ u, (configured.res.get u).tuned = true) ∧ ∀ u, 0 < (configured.bq.get u).order := by
  refine ⟨fun u => ?_, fun u => ?_⟩ <;> cases u <;> decide
/-- The stages' values of one sample of 1.0 on `configured` (the AGC window closes; the gain is 1.0): each is finite. -/
theorem witness_PipeSampleCompletes :
    let y := fFlush (tuned.raw (fMul one (fDiv one one)))
    configured.configured = true ∧ fIsFinite (configured.fir.output one) = true ∧ configured.fir.output one = one ∧
    fIsFinite (fMul one (fDiv one one)) = true ∧ fIsFinite y = true ∧ fIsFinite (cascadeOut envelope (fAbs y)) = true ∧
    fIsFinite (cascadeState envelope (fAbs y) 0) = true := by decide +kernel
/-- The other clause: the block with the largest tap on a sample of 2.0 (a 16-bit one too), and a gain that overflows the AGC
output on a finite FIR output. -/
theorem witness_PipeSampleCompletes_not_finite :
    let b := { configured with fir := ⟨[(0, maxFinite)], 1, [], 0⟩ }
    b.configured = true ∧ fIsFinite (b.fir.output two) = false ∧ fOfInt (2#16).toInt = two ∧
    fIsFinite (configured.fir.output two) = true ∧ fIsFinite (fMul (configured.fir.output two) maxFinite) = false := by
  decide +kernel
theorem witness_OverflowFlagIsSticky :
    exec (.pipeSampleF64 0x40DD4C0000000000#64) (on configured) =
      .next (nx (.pipeSampleF64 0x40DD4C0000000000#64) (on configured)) ∧
    (nx (.pipeSampleF64 0x40DD4C0000000000#64) (on configured)).status = 0#8 ∧
    (nx (.pipeSampleF64 0x40DD4C0000000000#64) (on configured)).block.ovf = true ∧
    fLt 0x40D8000000000000#64 0x40DD4C0000000000#64 = true ∧ fLt 0xC0DD4C0000000000#64 0xC0D8000000000000#64 = true ∧
    fLt 0x40D8000000000000#64 0x40D8000000000000#64 = false := ⟨exec_nx _ _, by decide +kernel⟩

theorem cellsCanonical_configured : CellsCanonical configured := by
  refine ⟨by decide, by decide, by decide, fun u => ?_⟩
  cases u <;> decide
theorem witness_MemoriesStayCanonical : CellsCanonical configured ∧ step (on configured) = .next (on configured) ∧
    configured.fir.tap.wf = true := ⟨cellsCanonical_configured, rfl, by decide⟩
theorem witness_LengthsAndListedCellsStayInTheirSpaces :
    ParamsOk configured.params ∧ WithinSpaces configured ∧ step (on configured) = .next (on configured) := by
  refine ⟨paramsOk_defaults, ?_, rfl⟩
  refine ⟨by decide, by decide, by decide, fun u => by cases u <;> decide, ?_, ?_, ?_, fun u => ?_⟩
  rotate_right
  · cases u <;> (unfold CellsBelow; decide)
  all_goals (unfold CellsBelow; decide)
theorem witness_ValuesStayFinite : ParamsOk configured.params ∧ AllFinite configured ∧ AgcOk configured.agc := by
  refine ⟨paramsOk_defaults, ⟨by decide +kernel, by decide +kernel, fun u => ?_, fun u => ?_, by decide +kernel, by decide +kernel,
    by decide +kernel, ⟨by decide, by decide, by decide, fun u => ?_⟩⟩, ⟨?_, ?_, ?_, fun _ => ?_⟩⟩
  · cases u <;> (unfold ResFinite; decide)
  · cases u <;> (unfold BqFinite; decide +kernel)
  · cases u <;> decide
  all_goals first | decide +kernel | (unfold FiniteNonneg; decide +kernel)

/-- `configured` with a cell past the valid range of every space. -/
def configuredDirty : Block := { configured with
  ob := [(3, half)], fir := ⟨[(0, one), (1, half)], 1, [(2, half)], 0⟩,
  bq := ⟨{ envelope with coef := envelope.coef ++ [(2, half)], z := [(1, half)] }, envelope, envelope, envelope⟩ }
theorem witness_ReadsStayInTheirSpaces : SameValid configured configuredDirty ∧ configured ≠ configuredDirty ∧
    (0 < configured.fir.l → configured.fir.w < configured.fir.l) ∧
    exec (.firProc one) (on configured) = .next (nx (.firProc one) (on configured)) ∧
    exec (.firProc one) (on configuredDirty) = .next (nx (.firProc one) (on configuredDirty)) := by
  refine ⟨⟨rfl, fun u => ?_, by decide, by decide, by decide, fun u => ?_, fun u => ?_⟩, by decide, by decide, exec_nx _ _,
    exec_nx _ _⟩ <;> cases u <;> decide

end Sys2Proof.Tests
end

section
/-!
PROOF. The accuracy of `Numerics` reaches the machine's state (00_scope.md R16): what `RES.SETFREQ` and `FIR.DESIGN`
leave in the block when they are executed.
-/

namespace Sys2Proof.Proofs

-- One theorem is elaborated at a time, as in the tests: each further thread takes its own share of the memory limit.
set_option Elab.async false

open Sys2Proof Sys2Proof.Machine Sys2Proof.Safety

/-! ## Cells written from index 0 -/

/-- A buffer written from index 0 reads as the list, and past the list as before. -/
theorem read_writeFrom_zero (m : Memory) (vs : List Word) (i : Nat) :
    (m.writeFrom 0 vs).read i = vs.getD i (m.read i) := by
  rw [Memory.read_writeFrom]
  by_cases hi : i < vs.length
  · rw [dif_pos ⟨Nat.zero_le i, by omega⟩, List.getD_eq_getElem _ _ hi]
    simp only [Nat.sub_zero]
  · rw [dif_neg (by omega), List.getD_eq_default _ _ (by omega)]

/-! ## RES.SETFREQ -/

/-- 30_encoding.md R81, 41_tone_resonator.md R141: the unit of the four that the command names is tuned from `ARG`. -/
theorem exec_resSetfreq_unitCode (u : ToneUnit) (s : State) : exec (.resSetfreq (unitCode u)) s =
    s.complete (resTune numerics u s.block.arg[0] s.block.arg[1] s.block.arg[2] s.block) := by
  cases u <;> rfl

/-- 41_tone_resonator.md R141: on legal operands with finite coefficients the unit is tuned, its delays are cleared. -/
theorem exec_resSetfreq_tunes {u : ToneUnit} {s : State}
    (hfin : fIsFinite s.block.arg[0] = true ∧ fIsFinite s.block.arg[1] = true ∧ fIsFinite s.block.arg[2] = true)
    (hlegal : fLt 0#64 s.block.arg[1] = true ∧ fLe 0#64 s.block.arg[2] = true ∧ fLe 0#64 s.block.arg[0] = true)
    (ha0 : fIsFinite (resA0 numerics s.block.arg[0] s.block.arg[1] s.block.arg[2]) = true)
    (hb1 : fIsFinite (resB1 numerics s.block.arg[0] s.block.arg[1] s.block.arg[2]) = true)
    (hb2 : fIsFinite (resB2 numerics s.block.arg[1] s.block.arg[2]) = true) :
    exec (.resSetfreq (unitCode u)) s = .next (s.answer (s.block.withRes u
      { centerFreq := s.block.arg[0], bandwidth := s.block.arg[2],
        a0 := resA0 numerics s.block.arg[0] s.block.arg[1] s.block.arg[2],
        b1 := resB1 numerics s.block.arg[0] s.block.arg[1] s.block.arg[2],
        b2 := resB2 numerics s.block.arg[1] s.block.arg[2], z1 := 0#64, z2 := 0#64, tuned := true }) 0#64) := by
  rw [exec_resSetfreq_unitCode, resTune_ok.2 ⟨hfin, hlegal, ⟨ha0, hb1, hb2⟩, rfl⟩, State.complete_ok]

/-! ## FIR.DESIGN -/

/-- 40_filter_designer.md R112: an accepted specification has an even order. -/
theorem even_of_firSpecCheck {p : Config.Params} {kind : FilterKind} {n : Nat} {fs fLow fHigh a g : F64}
    (h : firSpecCheck p kind n fs fLow fHigh a g = none) : n % 2 = 0 := by
  by_contra hodd
  have hbad : ¬ (n % 2 = 0 ∧ n + 1 ≤ p.lMax ∧ n + 1 ≤ p.obMax) := fun hlen => hodd hlen.1
  simp only [firSpecCheck, hbad, not_false_eq_true, if_true, ite_self] at h
  split at h <;> cases h

/-- 40_filter_designer.md R121: mirroring a half array about its first element. -/
theorem length_mirror (h : List F64) : (mirror h).length = h.length - 1 + h.length := by
  simp [mirror]

/-- 40_filter_designer.md R111: a design of order `n` has `n + 1` taps. -/
theorem length_firTaps {nm : Config.Numerics} {p : Config.Params} {kind : FilterKind} {n : Nat}
    {fs fLow fHigh a g : F64} {taps : List F64} (h : firTaps nm p kind n fs fLow fHigh a g = .ok taps) :
    taps.length = n + 1 := by
  unfold firTaps at h
  split at h
  next => cases h
  next hcheck =>
    have heven := even_of_firSpecCheck hcheck
    dsimp only at h
    split at h
    next =>
      cases h
      simp only [length_mirror, bandTransform, List.length_mapIdx, List.length_map, List.length_range]
      omega
    next => cases h

/-- 40_filter_designer.md R122: an executed design left its taps in the operand buffer, from index 0. -/
theorem ob_of_firDesign_executed {imm : BitVec 16} {tapCount : Word} {s t : State}
    (hexec : exec (.firDesign imm tapCount) s = .next t) (hstatus : t.status = 0#8) :
    ∃ kind taps, filterKindOf imm = some kind ∧
      firTaps numerics s.block.params kind tapCount.toNat s.block.arg[0] s.block.arg[1] s.block.arg[2]
        s.block.arg[3] s.block.arg[4] = .ok taps ∧
      ∀ i, t.block.ob.read i = taps.getD i (s.block.ob.read i) := by
  rw [exec, execFirDesign] at hexec
  rcases State.complete_eq_next hexec with ⟨b, w, hok, rfl⟩ | ⟨f, -, rfl⟩
  · obtain ⟨kind, taps, hkind, htaps, hstore⟩ := firDesign_ok.1 hok
    obtain ⟨-, hp⟩ := storeDesign_ok.1 hstore
    cases hp
    exact ⟨kind, taps, hkind, htaps, fun i => read_writeFrom_zero _ _ _⟩
  · exact absurd hstatus (statusCode_ne_zero f)

/-- A sum of taps depends on the cells it adds alone. -/
theorem tapSum_congr {tap tap' : Nat → F64} {n : Nat} (h : ∀ i ≤ n, tap i = tap' i) : tapSum tap n = tapSum tap' n := by
  unfold tapSum
  rw [h 0 (Nat.zero_le n)]
  refine List.foldl_ext _ _ _ fun acc i hi => ?_
  rw [h (i + 1) (List.mem_range.1 hi)]

/-! ## The accuracy of both -/

/-- Settles O60: the registers and the taps are the values the two named properties speak of. -/
theorem accuracyReachesTheState : Obligations.AccuracyReachesTheState := by
  unfold Obligations.AccuracyReachesTheState
  refine ⟨fun u s => ?_, fun tapCount s t hgain hmeets hexec hstatus => ?_⟩
  · intro f fs bw wc hfin hlegal ⟨ha0, hb1, hb2⟩
    refine ⟨_, exec_resSetfreq_tunes hfin hlegal ha0.1 hb1.1 hb2.1, State.answer_status _ _ _, ?_⟩
    simp only [State.answer_block, Block.withRes_res, Quad.get_set_same]
    exact ⟨ha0, hb1, hb2⟩
  · obtain ⟨kind, taps, hkind, htaps, hob⟩ := ob_of_firDesign_executed hexec hstatus
    obtain rfl : FilterKind.lowPass = kind := Option.some.inj hkind
    rw [hgain] at htaps
    have hsum : tapSum t.block.ob.read tapCount.toNat = tapSum (fun i => taps.getD i 0#64) tapCount.toNat := by
      refine tapSum_congr fun i hi => ?_
      have hlt : i < taps.length := by rw [length_firTaps htaps]; omega
      rw [hob, List.getD_eq_getElem _ _ hlt, List.getD_eq_getElem _ _ hlt]
    rw [hsum]
    exact hmeets taps htaps

end Sys2Proof.Proofs
end

section
/-!
PROOF. `IIR.DESIGN` on a legal specification (40_filter_designer.md R126 to R132): where each coefficient stands in the
list of cells, what the command does with that list, and an order that is executed at every legal cutoff and rate.
-/

namespace Sys2Proof.Proofs

-- One theorem is elaborated at a time, as in the tests: each further thread takes its own share of the memory limit.
set_option Elab.async false

open Sys2Proof Sys2Proof.Machine Sys2Proof.Safety

/-! ## The command word -/

section
variable (op : BitVec 8) (u : BitVec 4) (imm : BitVec 16)

/-- A run of bits of a packed word, as a number. -/
theorem toNat_extract_packCw (start len : Nat) : ((packCw op u imm).extractLsb' start len).toNat =
    (imm.toNat * 65536 + u.toNat * 256 + op.toNat) / 2 ^ start % 2 ^ len := by
  rw [BitVec.extractLsb'_toNat, Laws.toNat_packCw, Nat.shiftRight_eq_div_pow]

@[simp] theorem fieldOp_packCw : fieldOp (packCw op u imm) = op := by
  apply BitVec.eq_of_toNat_eq
  rw [fieldOp, toNat_extract_packCw]
  omega

@[simp] theorem fieldU_packCw : fieldU (packCw op u imm) = u := by
  apply BitVec.eq_of_toNat_eq
  rw [fieldU, toNat_extract_packCw]
  omega

@[simp] theorem fieldRsv_packCw : fieldRsv (packCw op u imm) = 0#4 := by
  apply BitVec.eq_of_toNat_eq
  rw [fieldRsv, toNat_extract_packCw, BitVec.toNat_ofNat]
  omega

@[simp] theorem fieldImm_packCw : fieldImm (packCw op u imm) = imm := by
  apply BitVec.eq_of_toNat_eq
  rw [fieldImm, toNat_extract_packCw]
  omega

/-- 30_encoding.md R91: a packed word passes the check of `RSV`, and its fields are decoded. -/
theorem decode_packCw (w : Word) : decode ⟨packCw op u imm, w⟩ = decodeFields op u imm w := by
  simp only [decode, fieldOp_packCw, fieldU_packCw, fieldRsv_packCw, fieldImm_packCw, if_true]

end

/-- 30_encoding.md R85: the word of `IIR.DESIGN`. -/
theorem decode_iirDesign (imm : BitVec 16) (w : Word) : decode ⟨imm ++ 0x0011#16, w⟩ = .ok (.iirDesign imm) :=
  decode_packCw 0x11#8 0#4 imm w

/-- 30_encoding.md R88: the order and the kind of a legal immediate. -/
theorem iirFieldsOf_of_lt {imm : BitVec 16} (h : imm.toNat < 512) :
    iirFieldsOf imm = some (imm.toNat % 256, imm.getLsbD 8) := by
  have hbit : decide (256 ≤ imm.toNat) = imm.getLsbD 8 := by
    rw [← BitVec.testBit_toNat, Nat.testBit_eq_decide_div_mod_eq, decide_eq_decide]
    omega
  rw [iirFieldsOf, if_pos h, hbit]

/-! ## The list of cells -/

section
variable {α : Type} {group : Nat → List α}

/-- The length of a list of `m` groups of four. -/
theorem length_flatten_groups (hlen : ∀ k, (group k).length = 4) (m : Nat) :
    (((List.range m).map group).flatten).length = 4 * m := by
  simp only [List.length_flatten, List.map_map, Function.comp_def, hlen, List.map_const', List.length_range,
    List.sum_replicate, smul_eq_mul, Nat.mul_comm]

/-- Element `j` of group `k`, in a list of groups of four. -/
theorem getElem?_flatten_groups (hlen : ∀ k, (group k).length = 4) {m k j : Nat} (hk : k < m) (hj : j < 4) :
    (((List.range m).map group).flatten)[4 * k + j]? = (group k)[j]? := by
  induction m with
  | zero => omega
  | succ m ih =>
    have hm := length_flatten_groups hlen m
    rw [List.range_succ, List.map_append, List.flatten_append, List.map_singleton, List.flatten_singleton]
    rcases Nat.lt_or_ge k m with hlt | hge
    · rw [List.getElem?_append_left (by omega), ih hlt]
    · obtain rfl : m = k := by omega
      rw [List.getElem?_append_right (by omega), hm, Nat.add_sub_cancel_left]

end

section
variable (nm : Config.Numerics) (n : Nat) (cheb : Bool) (fc fs r : F64)

/-- 40_filter_designer.md R128: `K`. -/
def warpedCutoff : F64 := nm.tan (fDiv (fMul Config.pi fc) fs)

/-- The cells of pole pair `k` (R131). -/
def pairCells (k : Nat) : List F64 :=
  section2Cells (warpedCutoff nm fc fs) (poleSg nm n cheb r k) (poleOm nm n cheb r k)

/-- The cells of the real pole of an odd order (R132). -/
def oddCells : List F64 := section1Cells (warpedCutoff nm fc fs) (realPole nm n cheb r)

theorem length_pairCells (k : Nat) : (pairCells nm n cheb fc fs r k).length = 4 := rfl

theorem length_oddCells : (oddCells nm n cheb fc fs r).length = 2 := rfl

/-- The cells of a design: the groups of the pole pairs, then the pair of an odd order (R126). -/
theorem iirCells_eq : iirCells nm n cheb fc fs r =
    ((List.range (n / 2)).map (pairCells nm n cheb fc fs r)).flatten ++
      if n % 2 = 1 then oddCells nm n cheb fc fs r else [] := rfl

theorem length_iirCells : (iirCells nm n cheb fc fs r).length = 4 * (n / 2) + 2 * (n % 2) := by
  rw [iirCells_eq, List.length_append, length_flatten_groups (length_pairCells nm n cheb fc fs r)]
  rcases Nat.mod_two_eq_zero_or_one n with h | h
  · rw [h, if_neg (by decide), List.length_nil]
  · rw [h, if_pos rfl, length_oddCells]

/-- What every cell of a design has is what the cells of every section have. -/
theorem forall_iirCells {P : F64 → Prop} : (∀ x ∈ iirCells nm n cheb fc fs r, P x) ↔
    (∀ k < n / 2, ∀ x ∈ pairCells nm n cheb fc fs r k, P x) ∧
      (n % 2 = 1 → ∀ x ∈ oddCells nm n cheb fc fs r, P x) := by
  rw [iirCells_eq, List.forall_mem_append]
  refine and_congr ?_ ?_
  · simp only [List.mem_flatten, List.mem_map, List.mem_range]
    constructor
    · exact fun h k hk x hx => h x ⟨_, ⟨k, hk, rfl⟩, hx⟩
    · rintro h x ⟨_, ⟨k, hk, rfl⟩, hx⟩
      exact h k hk x hx
  · split <;> simp_all

variable {nm n cheb fc fs r}

/-- Cell `j` of the group of pole pair `k`. -/
theorem iirCells_pair {k j : Nat} (hk : k < n / 2) (hj : j < 4) :
    (iirCells nm n cheb fc fs r)[4 * k + j]? = (pairCells nm n cheb fc fs r k)[j]? := by
  have hlen := length_pairCells nm n cheb fc fs r
  rw [iirCells_eq, List.getElem?_append_left (by rw [length_flatten_groups hlen]; omega),
    getElem?_flatten_groups hlen hk hj]

/-- Cell `j` of the pair of an odd order. -/
theorem iirCells_odd (hodd : n % 2 = 1) (j : Nat) :
    (iirCells nm n cheb fc fs r)[4 * (n / 2) + j]? = (oddCells nm n cheb fc fs r)[j]? := by
  have hlen := length_flatten_groups (length_pairCells nm n cheb fc fs r) (n / 2)
  rw [iirCells_eq, if_pos hodd, List.getElem?_append_right (by omega), hlen, Nat.add_sub_cancel_left]

/-! What the buffer reads as when the cells were written to it from index 0 (R126). -/

theorem read_iirCells_pair (m : Memory) {k j : Nat} (hk : k < n / 2) (hj : j < 4) :
    (m.writeFrom 0 (iirCells nm n cheb fc fs r)).read (4 * k + j) =
      (pairCells nm n cheb fc fs r k).getD j (m.read (4 * k + j)) := by
  rw [read_writeFrom_zero, List.getD_eq_getElem?_getD, iirCells_pair hk hj, ← List.getD_eq_getElem?_getD]

theorem read_iirCells_odd (m : Memory) (hodd : n % 2 = 1) (j : Nat) :
    (m.writeFrom 0 (iirCells nm n cheb fc fs r)).read (4 * (n / 2) + j) =
      (oddCells nm n cheb fc fs r).getD j (m.read (4 * (n / 2) + j)) := by
  rw [read_writeFrom_zero, List.getD_eq_getElem?_getD, iirCells_odd hodd, ← List.getD_eq_getElem?_getD]

theorem read_iirCells_past (m : Memory) {i : Nat} (hi : 4 * (n / 2) + 2 * (n % 2) ≤ i) :
    (m.writeFrom 0 (iirCells nm n cheb fc fs r)).read i = m.read i := by
  rw [read_writeFrom_zero, List.getD_eq_default _ _ (by rwa [length_iirCells])]

end

/-! ## The command -/

/-- 40_filter_designer.md R127: what a legal specification is. -/
theorem iirSpecCheck_eq_none {p : Config.Params} {n : Nat} {cheb : Bool} {fc fs r : F64}
    (horder : 1 ≤ n ∧ n ≤ p.orderMax)
    (hfin : fIsFinite fc = true ∧ fIsFinite fs = true ∧ (cheb = true → fIsFinite r = true))
    (hrate : fLt 0#64 fs = true ∧ fLt 0#64 fc = true ∧ fLt fc (fDiv fs Config.two) = true)
    (hripple : cheb = true → fLt 0#64 r = true) : iirSpecCheck p n cheb fc fs r = none := by
  rw [iirSpecCheck, if_neg (by omega), if_neg (by omega), if_neg (not_not.2 hfin), if_neg (not_not.2 hrate),
    if_neg fun h => h.2 (hripple h.1)]

/-- 40_filter_designer.md R126: on a legal specification the cells are stored. -/
theorem exec_iirDesign_of_legal {imm : BitVec 16} {s : State} {n : Nat} {cheb : Bool}
    (hfields : iirFieldsOf imm = some (n, cheb))
    (hspec : iirSpecCheck s.block.params n cheb s.block.arg[0] s.block.arg[1] s.block.arg[2] = none) :
    exec (.iirDesign imm) s =
      s.complete (storeDesign (iirCells numerics n cheb s.block.arg[0] s.block.arg[1] s.block.arg[2]) s.block) := by
  change iirSpecCheck s.block.params n cheb (s.block.argReg 0) (s.block.argReg 1) (s.block.argReg 2) = none at hspec
  rw [exec, execIirDesign, iirDesign, hfields, withImm]
  dsimp only
  rw [hspec]
  rfl

/-- A list of finite cells is stored, and the command is executed. -/
theorem complete_storeDesign_of_finite {cells : List F64} (s : State) (h : ∀ x ∈ cells, fIsFinite x = true) :
    s.complete (storeDesign cells s.block) =
      .next (s.answer (s.block.withOb (s.block.ob.writeFrom 0 cells) cells.length) (BitVec.ofNat 64 cells.length)) := by
  rw [storeDesign_ok.2 ⟨h, rfl⟩, State.complete_ok]

/-- A list with a cell that is not finite is refused (60_exceptions.md R279). -/
theorem complete_storeDesign_of_not_finite {cells : List F64} (s : State) (h : ¬ ∀ x ∈ cells, fIsFinite x = true) :
    s.complete (storeDesign cells s.block) = .next (s.takeFault .nonFinite) := by
  push Not at h
  obtain ⟨x, hx, hbad⟩ := h
  rw [storeDesign, requireFinite_of_not _ hx (Bool.eq_false_iff.2 hbad), State.complete_error]

/-- A legal Butterworth design whose cells are finite is executed. -/
theorem iirDesign_executed {imm : BitVec 16} {s : State} {n : Nat} (hfields : iirFieldsOf imm = some (n, false))
    (hspec : iirSpecCheck s.block.params n false s.block.arg[0] s.block.arg[1] s.block.arg[2] = none)
    (hcells : ∀ x ∈ iirCells numerics n false s.block.arg[0] s.block.arg[1] s.block.arg[2], fIsFinite x = true) :
    ∃ t, exec (.iirDesign imm) s = .next t ∧ t.status = 0#8 :=
  ⟨_, by rw [exec_iirDesign_of_legal hfields hspec, complete_storeDesign_of_finite s hcells], State.answer_status _ _ _⟩

/-- Order 1 is executed for every tangent but -1, order 2 for the tangent -1. -/
theorem iirDesign_order1_or_order2 {s : State} (horder : 2 ≤ s.block.params.orderMax)
    (hfin : fIsFinite s.block.arg[0] = true ∧ fIsFinite s.block.arg[1] = true)
    (hrate : fLt 0#64 s.block.arg[1] = true ∧ fLt 0#64 s.block.arg[0] = true ∧
      fLt s.block.arg[0] (fDiv s.block.arg[1] Config.two) = true)
    (harg : fIsFinite (fDiv (fMul Config.pi s.block.arg[0]) s.block.arg[1]) = true) :
    ∃ imm ∈ [1#16, 2#16], ∃ t, exec (.iirDesign imm) s = .next t ∧ t.status = 0#8 := by
  have hspec : ∀ n, 1 ≤ n → n ≤ 2 →
      iirSpecCheck s.block.params n false s.block.arg[0] s.block.arg[1] s.block.arg[2] = none := fun n h1 h2 =>
    iirSpecCheck_eq_none ⟨h1, le_trans h2 horder⟩ ⟨hfin.1, hfin.2, nofun⟩ hrate nofun
  by_cases htan : numerics.tan (fDiv (fMul Config.pi s.block.arg[0]) s.block.arg[1]) = 0xBFF0000000000000#64
  · exact ⟨2#16, by decide, iirDesign_executed (by decide) (hspec 2 (by decide) (by decide)) (iirCells_order2 htan)⟩
  · exact ⟨1#16, by decide, iirDesign_executed (by decide) (hspec 1 (by decide) (by decide)) (iirCells_order1 harg htan)⟩

/-- Settles O23: the cells of a legal specification are finite or refused, and `OB` holds each at its place. -/
theorem iirDesignWritesTheSections : Obligations.IirDesignWritesTheSections := by
  unfold Obligations.IirDesignWritesTheSections
  refine ⟨fun imm w s himm => ⟨decode_iirDesign imm w, ?_⟩, fun s horder ⟨hfc, hfs, hrate⟩ harg =>
    iirDesign_order1_or_order2 horder ⟨hfc, hfs⟩ hrate harg⟩
  intro n cheb fc fs r kk eps v theta sg om c wkk sgk d a1 a2 b0 b1 a1' b0' len finite horder hfin hlegal
  obtain ⟨hfsPos, hfcPos, hfcLow, hripple⟩ := hlegal
  have hspec := iirSpecCheck_eq_none horder hfin ⟨hfsPos, hfcPos, hfcLow⟩ hripple
  have hexec := exec_iirDesign_of_legal (iirFieldsOf_of_lt himm) hspec
  have hcells : finite ↔ ∀ x ∈ iirCells numerics n cheb fc fs r, fIsFinite x = true := by
    simp only [forall_iirCells, pairCells, oddCells, section2Cells, section1Cells, List.forall_mem_cons, List.not_mem_nil,
      false_imp_iff, implies_true, and_true]
    exact Iff.rfl
  have hlen : (iirCells numerics n cheb fc fs r).length = len := length_iirCells numerics n cheb fc fs r
  constructor
  · intro hfinite
    refine ⟨s.block.ob.writeFrom 0 (iirCells numerics n cheb fc fs r), ?_, fun k hk => ?_, fun hodd => ?_, fun i hi => ?_⟩
    · rw [hexec, complete_storeDesign_of_finite s (hcells.1 hfinite), hlen]
      rfl
    · exact ⟨read_iirCells_pair _ hk (j := 0) (by decide), read_iirCells_pair _ hk (j := 1) (by decide),
        read_iirCells_pair _ hk (j := 2) (by decide), read_iirCells_pair _ hk (j := 3) (by decide)⟩
    · exact ⟨read_iirCells_odd _ hodd 0, read_iirCells_odd _ hodd 1⟩
    · exact read_iirCells_past _ hi
  · intro hnot
    rw [hexec, complete_storeDesign_of_not_finite s fun h => hnot (hcells.2 h)]

end Sys2Proof.Proofs
end

section
/-!
PROOF. What a command writes and what it leaves alone (10_state.md R42), and what follows from it for the overflow flag
(R37, 46_pipeline_and_host.md R244). A command is read as one function of the block; each executed command's write set
is proved from the lemma that says what the command does, and the sample step's from what each of its stages keeps.
-/

namespace Sys2Proof.Proofs

-- One theorem is elaborated at a time, as in the tests: each further thread takes its own share of the memory limit.
set_option Elab.async false

open Sys2Proof Sys2Proof.Machine Sys2Proof.Safety

/-! ## A command as a function of the block -/

/-- What a command does to the block, apart from the command port. -/
def effect (i : Instr) (b : Block) : Result :=
  match i with
  | .argSet imm v => argSet imm v b
  | .obClear => obClear b
  | .obPush v => obPush v b
  | .obRead imm => obRead imm b
  | .regRead imm => regRead imm b
  | .firDesign imm tapCount => firDesign numerics imm tapCount b
  | .iirDesign imm => iirDesign numerics imm b
  | .firCreate => firCreate b
  | .firProc x => firProc x b
  | .resSetfreq u => resSetfreq numerics u b
  | .resProc u x => resProc u x b
  | .bqLoad u => bqLoad u b
  | .bqProc u x => bqProc u x b
  | .agcConfig window => agcConfig window b
  | .agcTrack x => agcTrack x b
  | .agcUpdate => agcUpdate b
  | .agcApply x => agcApply x b
  | .syncPreset imm => syncPreset preset imm b
  | .syncTiming imm ticks => syncTiming imm ticks b
  | .syncStep => syncStep b
  | .syncReset => syncReset b
  | .pipeSampleI16 imm => pipeSample (sampleOf imm) b
  | .pipeSampleF64 x => pipeSample x b
  | .pipeReset => .ok (Block.resetWith b.params, 0#64)

/-- 70_reset_and_hazards.md R304: every command completes with its effect on the block, answered or faulted. -/
theorem exec_eq_complete (i : Instr) (s : State) : exec i s = s.complete (effect i s.block) := by
  cases i <;> rfl

/-- The two ends of a command: executed with `STATUS` 0, or a fault that keeps the block (60_exceptions.md R270). -/
theorem exec_cases {i : Instr} {s t : State} (h : exec i s = .next t) :
    (t.status = 0#8 ∧ ∃ w, effect i s.block = .ok (t.block, w)) ∨ (t.status ≠ 0#8 ∧ t.block = s.block) := by
  rw [exec_eq_complete] at h
  rcases State.complete_eq_next h with ⟨b, w, hok, rfl⟩ | ⟨f, -, rfl⟩
  · exact .inl ⟨rfl, w, hok⟩
  · exact .inr ⟨statusCode_ne_zero f, rfl⟩

/-! ## Cells past the ones written -/

/-- A list written from index 0 leaves the cells past it. -/
theorem sameCellsFrom_writeFrom (m : Memory) {vs : List Word} {n : Nat} (h : vs.length ≤ n) :
    SameCellsFrom m (m.writeFrom 0 vs) n := fun j hj => by
  rw [read_writeFrom_zero, List.getD_eq_default _ _ (h.trans hj)]

/-- A cell written below an index leaves the cells from that index up. -/
theorem sameCellsFrom_write {m m' : Memory} {i n : Nat} (h : SameCellsFrom m m' n) (hi : i < n) (v : Word) :
    SameCellsFrom m (m'.write i v) n := fun j hj => by
  rw [Memory.read_write_ne (by omega), h j hj]

theorem sameCellsFrom_refl (m : Memory) (n : Nat) : SameCellsFrom m m n := fun _ _ => rfl

/-- 42_biquad_cascade.md R157: section `j` writes the state cells `2j` and `2j + 1` at most. -/
theorem section2_sameCellsFrom (coef z : Memory) (j : Nat) (d : F64) :
    SameCellsFrom z (section2 coef z j d).1 (2 * j + 2) :=
  sameCellsFrom_write (sameCellsFrom_write (sameCellsFrom_refl z _) (by omega) _) (by omega) _

/-- R159: `n` sections from section `j` on write state cells below `2(j + n)`. -/
theorem sectionsFrom_sameCellsFrom (coef : Memory) (n : Nat) : ∀ (j : Nat) (zd : Memory × F64),
    SameCellsFrom zd.1 (sectionsFrom coef n j zd).1 (2 * (j + n)) := by
  induction n with
  | zero => exact fun j zd => sameCellsFrom_refl zd.1 _
  | succ n ih =>
    intro j zd k hk
    rw [sectionsFrom, ih (j + 1) _ k (by omega), section2_sameCellsFrom coef zd.1 j zd.2 k (by omega)]

/-- R159: the whole cascade writes state cells below its order, `2m + odd`. -/
theorem run_sameCellsFrom (q : Biquad) (x : F64) : SameCellsFrom q.z (q.run x).1 q.order := by
  intro k hk
  have hpairs : ((sectionsFrom q.coef q.sections 0 (q.z, x)).1).read k = q.z.read k :=
    sectionsFrom_sameCellsFrom q.coef q.sections 0 (q.z, x) k (by unfold Biquad.sections; omega)
  unfold Biquad.run
  split
  · rw [section1, Memory.read_write_ne (by unfold Biquad.sections; omega), hpairs]
  · exact hpairs

/-! ## The parts of the block that one command writes -/

theorem sameButRes_withRes (b : Block) (u : ToneUnit) (r : Resonator) : SameButRes u b (b.withRes u r) := by
  rw [SameButRes, Block.withRes_res, Quad.get_set_same]
  rfl

theorem sameButBq_withBq (b : Block) (u : ToneUnit) (q : Biquad) : SameButBq u b (b.withBq u q) := by
  rw [SameButBq, Block.withBq_bq, Quad.get_set_same]
  rfl

/-- 40_filter_designer.md R122: a design writes `OBLEN` and the cells below it. -/
theorem storeDesign_writes {cells : List F64} {b b' : Block} {w : Word} (h : storeDesign cells b = .ok (b', w)) :
    SameButOb b b' ∧ SameCellsFrom b.ob b'.ob b'.obLen := by
  obtain ⟨-, ⟨⟩⟩ := storeDesign_ok.1 h
  exact ⟨rfl, sameCellsFrom_writeFrom b.ob le_rfl⟩

/-- 30_encoding.md R88: the number that selects a timing register. -/
def timingNumber : TimingReg → BitVec 16
  | .lMin => 0#16
  | .lValid => 1#16
  | .start => 2#16
  | .bit => 3#16

theorem eq_timingNumber_of_timingRegOf {imm : BitVec 16} {r : TimingReg} (h : timingRegOf imm = some r) :
    imm = timingNumber r := by
  unfold timingRegOf at h
  split at h <;> cases h <;> exact BitVec.eq_of_toNat_eq ‹_›

/-! ## The dynamic fields of the decoder -/

/-- 45_sync_decoder.md R209 to R212: a bit decision writes dynamic fields only. -/
theorem decideBit_dynamic (le sy ma sp : F64) (y : Sync) : SameButDynamic y (decideBit le sy ma sp y) := by
  unfold decideBit finishByte
  simp only
  split
  · rfl
  · split
    · split <;> rfl
    · rfl

/-- R204 to R213: a tick writes dynamic fields only, whatever the tag on entry. -/
theorem tick_dynamic (le sy ma sp : F64) (y : Sync) : SameButDynamic y (tick le sy ma sp y) := by
  unfold tick
  split
  case h_1 => rfl
  case h_2 => unfold tickLeader; split <;> [rfl; (split <;> rfl)]
  case h_3 => unfold tickStart; split <;> rfl
  case h_4 => unfold tickVis; split <;> [exact decideBit_dynamic le sy ma sp y; rfl]
  case h_5 => rfl

/-- R204: a tick leaves the block but for the dynamic fields. -/
theorem syncTick_writes {le sy ma sp : F64} {b b' : Block} {w : Word} (h : syncTick le sy ma sp b = .ok (b', w)) :
    SameButSync b b' ∧ SameButDynamic b.sync b'.sync := by
  obtain ⟨-, -, -, ⟨⟩⟩ := syncTick_ok.1 h
  exact ⟨rfl, tick_dynamic le sy ma sp b.sync⟩

/-! ## What the stages of the sample step keep -/

theorem samplePartsOnly_refl (b : Block) : SamplePartsOnly b b :=
  ⟨rfl, rfl, rfl, rfl, rfl, fun _ => rfl, fun _ => rfl, rfl, rfl⟩

theorem samplePartsOnly_trans {b b' b'' : Block} (h : SamplePartsOnly b b') (h' : SamplePartsOnly b' b'') :
    SamplePartsOnly b b'' where
  params := h'.params.trans h.params
  arg := h'.arg.trans h.arg
  ob := h'.ob.trans h.ob
  obLen := h'.obLen.trans h.obLen
  fir := h'.fir.trans (by rw [h.fir])
  res u := (h'.res u).trans (by rw [h.res u])
  bq u := (h'.bq u).trans (by rw [h.bq u])
  agc := h'.agc.trans (by rw [h.agc])
  sync := Eq.trans h'.sync (by rw [show b'.sync = _ from h.sync])

/-- What a stage after the clip does: it writes what the sample step may write, and neither `ovf` nor `TAP0`
(46_pipeline_and_host.md R246). -/
structure StageKeeps (b b' : Block) : Prop extends SamplePartsOnly b b' where
  ovf : b'.ovf = b.ovf
  tap0 : b'.diag.tap0 = b.diag.tap0

theorem StageKeeps.trans {b b' b'' : Block} (h : StageKeeps b b') (h' : StageKeeps b' b'') : StageKeeps b b'' :=
  ⟨samplePartsOnly_trans h.toSamplePartsOnly h'.toSamplePartsOnly, h'.ovf.trans h.ovf, h'.tap0.trans h.tap0⟩

theorem StageKeeps.refl (b : Block) : StageKeeps b b := ⟨samplePartsOnly_refl b, rfl, rfl⟩

theorem stageKeeps_withDiag (b : Block) {d : Diag} (h : d.tap0 = b.diag.tap0) : StageKeeps b (b.withDiag d) :=
  ⟨⟨rfl, rfl, rfl, rfl, rfl, fun _ => rfl, fun _ => rfl, rfl, rfl⟩, rfl, h⟩

theorem stageKeeps_withAgc (b : Block) {a : Agc} (h : a = { b.agc with
    gain := a.gain, peakHistory := a.peakHistory, currentPeak := a.currentPeak, sampleCounter := a.sampleCounter }) :
    StageKeeps b (b.withAgc a) :=
  ⟨⟨rfl, rfl, rfl, rfl, rfl, fun _ => rfl, fun _ => rfl, h, rfl⟩, rfl, rfl⟩

theorem firProc_keeps {x : F64} {b b' : Block} {w : Word} (h : firProc x b = .ok (b', w)) : StageKeeps b b' := by
  obtain ⟨-, -, -, ⟨⟩⟩ := firProc_ok.1 h
  exact ⟨⟨rfl, rfl, rfl, rfl, rfl, fun _ => rfl, fun _ => rfl, rfl, rfl⟩, rfl, rfl⟩

theorem agcTrack_keeps {x : F64} {b b' : Block} {w : Word} (h : agcTrack x b = .ok (b', w)) : StageKeeps b b' := by
  obtain ⟨-, -, ⟨⟩⟩ := agcTrack_ok.1 h
  exact stageKeeps_withAgc b rfl

theorem agcUpdate_keeps {b b' : Block} {w : Word} (h : agcUpdate b = .ok (b', w)) : StageKeeps b b' := by
  obtain ⟨-, ⟨⟩⟩ := agcUpdate_ok.1 h
  exact stageKeeps_withAgc b rfl

theorem agcApply_keeps {x : F64} {b b' : Block} {w : Word} (h : agcApply x b = .ok (b', w)) : StageKeeps b b' := by
  obtain ⟨-, -, -, ⟨⟩⟩ := agcApply_ok.1 h
  exact StageKeeps.refl b

theorem resStep_keeps {u : ToneUnit} {x : F64} {b b' : Block} {w : Word} (h : resStep u x b = .ok (b', w)) :
    StageKeeps b b' := by
  obtain ⟨-, -, -, ⟨⟩⟩ := resStep_ok.1 h
  refine ⟨⟨rfl, rfl, rfl, rfl, rfl, fun v => ?_, fun _ => rfl, rfl, rfl⟩, rfl, rfl⟩
  by_cases hv : v = u
  · rw [hv, Block.withRes_res, Quad.get_set_same]
  · rw [Block.withRes_res, Quad.get_set_ne b.res u _ hv]

theorem bqStep_keeps {u : ToneUnit} {x : F64} {b b' : Block} {w : Word} (h : bqStep u x b = .ok (b', w)) :
    StageKeeps b b' := by
  obtain ⟨-, -, -, -, ⟨⟩⟩ := bqStep_ok.1 h
  refine ⟨⟨rfl, rfl, rfl, rfl, rfl, fun _ => rfl, fun v => ?_, rfl, rfl⟩, rfl, rfl⟩
  by_cases hv : v = u
  · rw [hv, Block.withBq_bq, Quad.get_set_same]
  · rw [Block.withBq_bq, Quad.get_set_ne b.bq u _ hv]

theorem syncTick_keeps {le sy ma sp : F64} {b b' : Block} {w : Word} (h : syncTick le sy ma sp b = .ok (b', w)) :
    StageKeeps b b' := by
  obtain ⟨-, -, -, ⟨⟩⟩ := syncTick_ok.1 h
  exact ⟨⟨rfl, rfl, rfl, rfl, rfl, fun _ => rfl, fun _ => rfl, rfl, tick_dynamic le sy ma sp b.sync⟩, rfl, rfl⟩

theorem stageFir_keeps {x : F64} {b b' : Block} {w : Word} (h : stageFir x b = .ok (b', w)) : StageKeeps b b' := by
  obtain ⟨b1, y, hproc, ⟨⟩⟩ := stageFir_ok.1 h
  exact (firProc_keeps hproc).trans (stageKeeps_withDiag b1 rfl)

theorem stageAgc_keeps {x : F64} {b b' : Block} {w : Word} (h : stageAgc x b = .ok (b', w)) : StageKeeps b b' := by
  obtain ⟨b1, w1, b2, w2, b3, y, htrack, hwindow, happly, ⟨⟩⟩ := stageAgc_ok.1 h
  have hupdate : StageKeeps b1 b2 := by
    split at hwindow
    · exact agcUpdate_keeps hwindow
    · cases hwindow
      exact StageKeeps.refl b1
  exact (((agcTrack_keeps htrack).trans hupdate).trans (agcApply_keeps happly)).trans (stageKeeps_withDiag b3 rfl)

theorem stageTone_keeps {u : ToneUnit} {x : F64} {b b' : Block} {w : Word} (h : stageTone u x b = .ok (b', w)) :
    StageKeeps b b' := by
  obtain ⟨b1, r, b2, e, hres, hbq, ⟨⟩⟩ := stageTone_ok.1 h
  exact ((resStep_keeps hres).trans (bqStep_keeps hbq)).trans (stageKeeps_withDiag b2 rfl)

theorem stageTones_keeps {x : F64} {b b' : Block} {w : Word} (h : stageTones x b = .ok (b', w)) : StageKeeps b b' := by
  obtain ⟨b1, le, b2, sy, b3, ma, b4, sp, hle, hsy, hma, hsp, htick⟩ := stageTones_ok.1 h
  exact ((((stageTone_keeps hle).trans (stageTone_keeps hsy)).trans (stageTone_keeps hma)).trans
    (stageTone_keeps hsp)).trans (syncTick_keeps htick)

/-- R244: the clip writes `ovf` and `TAP0` alone. -/
theorem stageClip_partsOnly (x : F64) (b : Block) : SamplePartsOnly b (stageClip x b) :=
  ⟨rfl, rfl, rfl, rfl, rfl, fun _ => rfl, fun _ => rfl, rfl, rfl⟩

/-- R246: all that follows the clip keeps its `ovf` and its `TAP0`. -/
theorem pipeSample_keeps_clip {x : F64} {b b' : Block} {w : Word} (h : pipeSample x b = .ok (b', w)) :
    StageKeeps (stageClip x b) b' := by
  obtain ⟨-, -, b1, x2, b2, x3, hfir, hagc, htones⟩ := pipeSample_ok.1 h
  exact ((stageFir_keeps hfir).trans (stageAgc_keeps hagc)).trans (stageTones_keeps htones)

/-- 10_state.md R42, the row of `PIPE.SAMPLE_*`. -/
theorem pipeSample_partsOnly {x : F64} {b b' : Block} {w : Word} (h : pipeSample x b = .ok (b', w)) :
    SamplePartsOnly b b' :=
  samplePartsOnly_trans (stageClip_partsOnly x b) (pipeSample_keeps_clip h).toSamplePartsOnly

/-! ## The write table -/

/-- 10_state.md R42: an executed command writes its row of the table. -/
theorem writeSet_of_effect {i : Instr} {b b' : Block} {w : Word} (h : effect i b = .ok (b', w)) : WriteSet i b b' := by
  cases i with
  | argSet imm v =>
    obtain ⟨k, hk, ⟨⟩⟩ := argSet_ok.1 h
    refine ⟨rfl, fun j hj hne => ?_⟩
    rw [argIndexOf_eq_some_iff] at hk
    exact Vector.getElem_set_ne k.isLt hj (by omega)
  | obClear => cases h; exact ⟨rfl, rfl⟩
  | obPush v =>
    obtain ⟨-, ⟨⟩⟩ := obPush_ok.1 h
    exact ⟨rfl, fun j hj => Memory.read_write_ne hj⟩
  | obRead imm => obtain ⟨-, ⟨⟩⟩ := obRead_ok.1 h; rfl
  | regRead imm => obtain ⟨v, -, ⟨⟩⟩ := regRead_ok.1 h; rfl
  | firDesign imm tapCount =>
    obtain ⟨kind, taps, -, -, hstore⟩ := firDesign_ok.1 h
    exact storeDesign_writes hstore
  | iirDesign imm =>
    obtain ⟨n, cheb, -, -, hstore⟩ := iirDesign_ok.1 h
    exact storeDesign_writes hstore
  | firCreate =>
    obtain ⟨-, -, ⟨⟩⟩ := firCreate_ok.1 h
    exact ⟨rfl, sameCellsFrom_writeFrom _ (Memory.length_cells _ _).le,
      sameCellsFrom_writeFrom _ List.length_replicate.le⟩
  | firProc x =>
    obtain ⟨-, -, -, ⟨⟩⟩ := firProc_ok.1 h
    refine ⟨rfl, rfl, fun j hw hwl => ?_⟩
    exact (Memory.read_write_ne hwl).trans (Memory.read_write_ne hw)
  | resSetfreq u =>
    obtain ⟨t, ht, htune⟩ := withUnit_ok.1 h
    obtain ⟨-, -, -, ⟨⟩⟩ := resTune_ok.1 htune
    exact ⟨t, ht, sameButRes_withRes b t _⟩
  | resProc u x =>
    obtain ⟨t, ht, hstep⟩ := withUnit_ok.1 h
    refine ⟨t, ht, ?_, (resStep_keeps hstep).res t⟩
    obtain ⟨-, -, -, ⟨⟩⟩ := resStep_ok.1 hstep
    exact sameButRes_withRes b t _
  | bqLoad u =>
    obtain ⟨t, ht, hbind⟩ := withUnit_ok.1 h
    obtain ⟨-, -, -, ⟨⟩⟩ := bqBind_ok.1 hbind
    refine ⟨t, ht, sameButBq_withBq b t _, ?_, ?_⟩ <;> rw [Block.withBq_bq, Quad.get_set_same]
    · exact sameCellsFrom_writeFrom _ (Memory.length_cells _ _).le
    · exact sameCellsFrom_writeFrom _ List.length_replicate.le
  | bqProc u x =>
    obtain ⟨t, ht, hstep⟩ := withUnit_ok.1 h
    refine ⟨t, ht, ?_, (bqStep_keeps hstep).bq t, ?_⟩ <;> obtain ⟨-, -, -, -, ⟨⟩⟩ := bqStep_ok.1 hstep
    · exact sameButBq_withBq b t _
    · rw [Block.withBq_bq, Quad.get_set_same]
      exact run_sameCellsFrom (b.bq.get t) x
  | agcConfig window =>
    obtain ⟨-, -, -, -, win, -, ⟨⟩⟩ := agcSetup_ok.1 h
    rfl
  | agcTrack x => obtain ⟨-, -, ⟨⟩⟩ := agcTrack_ok.1 h; exact ⟨rfl, rfl⟩
  | agcUpdate => obtain ⟨-, ⟨⟩⟩ := agcUpdate_ok.1 h; exact ⟨rfl, rfl⟩
  | agcApply x => obtain ⟨-, -, -, ⟨⟩⟩ := agcApply_ok.1 h; rfl
  | syncPreset imm => obtain ⟨p, -, ⟨⟩⟩ := syncPreset_ok.1 h; exact ⟨rfl, rfl⟩
  | syncTiming imm ticks =>
    obtain ⟨r, t, hr, -, ⟨⟩⟩ := syncTiming_ok.1 h
    rw [eq_timingNumber_of_timingRegOf hr]
    refine ⟨rfl, ?_⟩
    cases r with
    | lMin => exact .inl ⟨rfl, rfl⟩
    | lValid => exact .inr (.inl ⟨rfl, rfl⟩)
    | start => exact .inr (.inr (.inl ⟨rfl, rfl⟩))
    | bit => exact .inr (.inr (.inr ⟨rfl, rfl⟩))
  | syncStep => exact syncTick_writes h
  | syncReset => cases h; exact ⟨rfl, rfl⟩
  | pipeSampleI16 imm => exact pipeSample_partsOnly h
  | pipeSampleF64 x => exact pipeSample_partsOnly h
  | pipeReset => cases h; rfl

/-- Settles O19: an executed command writes its row, and a fault keeps the block. -/
theorem commandsWriteOnlyTheirWriteSet : Obligations.CommandsWriteOnlyTheirWriteSet := by
  unfold Obligations.CommandsWriteOnlyTheirWriteSet
  intro i s t h
  rcases exec_cases h with ⟨h0, w, hok⟩ | ⟨hne, hkept⟩
  · exact ⟨fun _ => writeSet_of_effect hok, fun hne => absurd h0 hne⟩
  · exact ⟨fun h0 => absurd h0 hne, fun _ => hkept⟩

/-! ## The overflow flag -/

/-- The sample a command carries (46_pipeline_and_host.md R242, R243). -/
def sampleOperand : Instr → Option F64
  | .pipeSampleI16 imm => some (sampleOf imm)
  | .pipeSampleF64 x => some x
  | _ => none

/-- The two sample commands, as the statements name them. -/
theorem sampleOperand_eq_some_iff {i : Instr} {x : F64} : sampleOperand i = some x ↔
    (i = .pipeSampleF64 x ∨ ∃ imm, i = .pipeSampleI16 imm ∧ x = fOfInt imm.toInt) := by
  cases i <;> simp [sampleOperand, sampleOf, eq_comm]

theorem effect_of_sampleOperand {i : Instr} {x : F64} (h : sampleOperand i = some x) (b : Block) :
    effect i b = pipeSample x b := by
  rcases sampleOperand_eq_some_iff.1 h with rfl | ⟨imm, rfl, rfl⟩ <;> rfl

/-- 10_state.md R37, R42: no row of the write table but those of the pipeline holds `ovf`. -/
theorem ovf_of_writeSet {i : Instr} {b b' : Block} (h : WriteSet i b b') (hsample : sampleOperand i = none)
    (hreset : i ≠ .pipeReset) : b'.ovf = b.ovf := by
  cases i with
  | argSet | obClear | obPush | firDesign | iirDesign | firCreate | firProc | agcTrack | agcUpdate | syncPreset
  | syncTiming | syncStep | syncReset => exact (congrArg Block.ovf h.1 :)
  | obRead | regRead | agcApply | agcConfig => exact (congrArg Block.ovf h :)
  | resSetfreq => obtain ⟨t, -, hpart⟩ := h; exact (congrArg Block.ovf hpart :)
  | resProc | bqLoad | bqProc => obtain ⟨t, -, hpart, -⟩ := h; exact (congrArg Block.ovf hpart :)
  | pipeSampleI16 | pipeSampleF64 => cases hsample
  | pipeReset => exact absurd rfl hreset

/-- What a command does to `ovf`: `PIPE.RESET` clears it, an executed sample adds whether it is clipped (and shows the
clipped value in `TAP0`), every other command and every fault keeps it. -/
theorem ovf_cases {i : Instr} {s t : State} (h : exec i s = .next t) :
    (i = .pipeReset ∧ t.block.ovf = false) ∨
    (∃ x, sampleOperand i = some x ∧ t.status = 0#8 ∧
      t.block.ovf = (s.block.ovf || clips s.block.clipLevel x) ∧ t.block.diag.tap0 = clip s.block.clipLevel x) ∨
    (i ≠ .pipeReset ∧ (sampleOperand i = none ∨ t.status ≠ 0#8) ∧ t.block.ovf = s.block.ovf) := by
  by_cases hreset : i = .pipeReset
  · subst hreset
    cases h
    exact .inl ⟨rfl, rfl⟩
  rcases exec_cases h with ⟨h0, w, hok⟩ | ⟨hne, hkept⟩
  · cases hsample : sampleOperand i with
    | none => exact .inr (.inr ⟨hreset, .inl rfl, ovf_of_writeSet (writeSet_of_effect hok) hsample hreset⟩)
    | some x =>
      rw [effect_of_sampleOperand hsample] at hok
      have hkeeps := pipeSample_keeps_clip hok
      exact .inr (.inl ⟨x, rfl, h0, hkeeps.ovf, hkeeps.tap0⟩)
  · exact .inr (.inr ⟨hreset, .inr hne, by rw [hkept]⟩)

theorem clips_iff {level x : F64} : clips level x = true ↔ fLt level x = true ∨ fLt x (fNeg level) = true := by
  rw [clips, Bool.or_eq_true]

theorem clip_of_above {level x : F64} (h : fLt level x = true) : clip level x = level := if_pos h

theorem clip_of_below {level x : F64} (habove : fLt level x = false) (hbelow : fLt x (fNeg level) = true) :
    clip level x = fNeg level := by
  rw [clip, habove, if_neg Bool.false_ne_true, if_pos hbelow]

theorem clip_of_inside {level x : F64} (habove : fLt level x = false) (hbelow : fLt x (fNeg level) = false) :
    clip level x = x := by
  rw [clip, habove, hbelow, if_neg Bool.false_ne_true, if_neg Bool.false_ne_true]

/-- 46_pipeline_and_host.md R244: with a level that is not negative no value is outside on both sides. -/
theorem not_above_of_below {level x : F64} (hlevel : fSign level = false) (hbelow : fLt x (fNeg level) = true) :
    fLt level x = false := by
  have hkey : fKey level = fMag level ∧ fKey (fNeg level) = -(fMag level : Int) := by simp [fKey, hlevel]
  rw [Bool.eq_false_iff]
  intro habove
  simp only [fLt, Bool.and_eq_true, decide_eq_true_eq] at hbelow habove
  omega

/-- 00_scope.md R11: the clip level of a legal block is not negative. -/
theorem fSign_clipLevel {b : Block} (h : ParamsOk b.params) : fSign b.clipLevel = false := by
  obtain ⟨hfin, hpos⟩ := h.fullScale
  rw [fLt_iff (by decide) hfin, fKey_zero] at hpos
  rw [Block.clipLevel, fMul_finite_eq (by decide) hfin, fSign_fPack, (pos_of_fKey_pos hpos).1]
  decide

/-- Settles O55: the three cases of `ovf_cases`, and the side of the level a clipped sample is on. -/
theorem overflowFlagIsSticky : Obligations.OverflowFlagIsSticky := by
  unfold Obligations.OverflowFlagIsSticky
  intro i s t h level
  have hlevel : s.block.clipLevel = level := rfl
  simp only [← sampleOperand_eq_some_iff]
  rcases ovf_cases h with ⟨rfl, hcleared⟩ | ⟨x, hx, h0, hovf, htap⟩ | ⟨hne, hno, hovf⟩
  · refine ⟨fun _ => hcleared, fun hne => absurd rfl hne, fun hset => ?_, fun _ x hx => by cases hx⟩
    rw [hcleared] at hset
    cases hset
  · rw [hlevel] at hovf htap
    have hreset : i ≠ .pipeReset := fun hi => by rw [hi] at hx; cases hx
    refine ⟨fun hi => absurd hi hreset, fun _ hset => by rw [hovf, hset, Bool.true_or], fun hset => ?_, ?_⟩
    · rw [hovf, Bool.or_eq_true, clips_iff] at hset
      exact hset.imp id fun hclip => ⟨x, hx, h0, hclip⟩
    · intro hparams x' hx' _
      obtain rfl : x = x' := Option.some.inj (hx.symm.trans hx')
      rw [hovf, htap]
      refine ⟨fun habove => ⟨?_, clip_of_above habove⟩, fun hbelow => ⟨?_, clip_of_below ?_ hbelow⟩,
        fun habove hbelow => ⟨?_, clip_of_inside habove hbelow⟩⟩
      · rw [clips_iff.2 (.inl habove), Bool.or_true]
      · rw [clips_iff.2 (.inr hbelow), Bool.or_true]
      · exact not_above_of_below (fSign_clipLevel hparams) hbelow
      · rw [clips, habove, hbelow, Bool.or_self, Bool.or_false]
  · refine ⟨fun hi => absurd hi hne, fun _ hset => hovf.trans hset, fun hset => .inl (hovf ▸ hset),
      fun _ x hx h0 => ?_⟩
    rcases hno with hnone | hfault
    · rw [hnone] at hx
      cases hx
    · exact absurd h0 hfault

end Sys2Proof.Proofs
end

section
/-!
PROOF. The state right after reset (10_state.md R49): the commands that fault on it, the invariants it meets; and the
`FLAGS` register bit by bit (R41).
-/

namespace Sys2Proof.Proofs

-- One theorem is elaborated at a time, as in the tests: each further thread takes its own share of the memory limit.
set_option Elab.async false

open Sys2Proof Sys2Proof.Machine Sys2Proof.Safety

/-! ## Faults of a command that finds nothing configured -/

/-- 60_exceptions.md R270: a command whose effect is a fault takes it. -/
theorem exec_of_fault {i : Instr} {s : State} {f : FaultCode} (h : effect i s.block = .error f) :
    exec i s = .next (s.takeFault f) := by
  rw [exec_eq_complete, h, State.complete_error]

/-- 30_encoding.md R81: the unit that a number names. -/
@[simp] theorem unitOf_unitCode (u : ToneUnit) : unitOf (unitCode u) = some u := by cases u <;> rfl

theorem withUnit_unitCode (u : ToneUnit) (k : ToneUnit → Result) : withUnit (unitCode u) k = k u := by
  rw [withUnit, unitOf_unitCode]

section
variable {b : Block}

/-- 46_pipeline_and_host.md R239: no index is valid in an empty buffer. -/
theorem obRead_of_empty (h : b.obLen = 0) (imm : BitVec 16) : obRead imm b = .error .badIndex := if_pos (by omega)

/-- 43_circular_fir.md R171: an empty TapSet has no legal length. -/
theorem firCreate_of_empty (h : b.obLen = 0) : firCreate b = .error .badLength := if_pos (by omega)

/-- 42_biquad_cascade.md R156: an empty buffer has no legal length. -/
theorem bqBind_of_empty (h : b.obLen = 0) (u : ToneUnit) : bqBind u b = .error .badLength := if_pos (by omega)

/-- 43_circular_fir.md R172: the filter is not bound. -/
theorem firProc_of_unbound (h : b.fir.l = 0) (x : F64) : firProc x b = .error .notConfigured := if_pos h

/-- 42_biquad_cascade.md R159: the cascade is not loaded. -/
theorem bqStep_of_unloaded {u : ToneUnit} (h : (b.bq.get u).order = 0) (x : F64) :
    bqStep u x b = .error .notConfigured := if_pos h

/-- 46_pipeline_and_host.md R245: with no filter bound the sample step is not configured. -/
theorem pipeSample_of_unbound (h : b.fir.l = 0) (x : F64) : pipeSample x b = .error .notConfigured :=
  if_pos (by simp [Block.configured, Fir.bound, h])

end

/-! ## The values at reset -/

/-- 46_pipeline_and_host.md R249: `PIPE.RESET` leaves the reset block of the same parameters. -/
theorem block_of_pipeReset {s t : State} (h : exec .pipeReset s = .next t) :
    t.block = Block.resetWith s.block.params := by
  cases h
  rfl

/-- Settles O9: the table is `Block.resetWith`'s, and nothing is valid or configured on that block. -/
theorem resetValues : Obligations.ResetValues := by
  unfold Obligations.ResetValues
  refine ⟨rfl, fun p => ?_⟩
  intro b
  refine ⟨rfl, fun i hi => Vector.getElem_replicate hi, rfl, rfl, rfl, Block.resetWith_res p, fun u => ?_,
    rfl, rfl, rfl, rfl, fun s t hp ht => ?_, fun s hs => ?_⟩
  · rw [show b = Block.resetWith p from rfl, Block.resetWith_bq]
    rfl
  · rw [block_of_pipeReset ht, hp]
    rfl
  · have hempty : s.block.obLen = 0 := by rw [hs]; rfl
    have hunbound : s.block.fir.l = 0 := by rw [hs]; rfl
    have hunloaded : ∀ u, (s.block.bq.get u).order = 0 := fun u => by rw [hs]; cases u <;> rfl
    exact ⟨fun imm => exec_of_fault (obRead_of_empty hempty imm), exec_of_fault (firCreate_of_empty hempty),
      fun u => exec_of_fault ((withUnit_unitCode u _).trans (bqBind_of_empty hempty u)),
      fun x => exec_of_fault (firProc_of_unbound hunbound x),
      fun u x => exec_of_fault ((withUnit_unitCode u _).trans (bqStep_of_unloaded (hunloaded u) x)),
      fun imm => exec_of_fault (pipeSample_of_unbound hunbound _),
      fun x => exec_of_fault (pipeSample_of_unbound hunbound x)⟩

/-! ## The invariants at reset -/

theorem fIsFinite_zero : fIsFinite 0#64 = true := by decide

theorem finiteNonneg_zero : FiniteNonneg 0#64 := by unfold FiniteNonneg; decide

/-- 00_scope.md R11: the default parameters are legal. -/
theorem paramsOk_defaults : ParamsOk Config.defaults where
  lMax := by decide
  orderMax := by decide
  obMax := by decide
  fullScale := by decide
  agcGainInit := by unfold FiniteNonneg; decide

section
variable (p : Config.Params)

theorem cellsCanonical_resetWith : CellsCanonical (Block.resetWith p) := by
  refine ⟨Memory.wf_nil, Memory.wf_nil, Memory.wf_nil, fun u => ?_⟩
  rw [Block.resetWith_bq]
  exact ⟨Memory.wf_nil, Memory.wf_nil⟩

/-- 20_memory.md R60: no memory lists a cell, so none lies outside its space. -/
theorem withinSpaces_resetWith : WithinSpaces (Block.resetWith p) := by
  refine ⟨Nat.zero_le _, Nat.zero_le _, nofun, fun u => ?_, nofun, nofun, nofun, fun u => ?_⟩
  · rw [Block.resetWith_bq]
    exact Nat.zero_le _
  · rw [Block.resetWith_bq]
    exact ⟨nofun, nofun⟩

/-- 43_circular_fir.md R173: no filter is bound. -/
theorem firOk_resetWith : FirOk (Block.resetWith p).fir := ⟨nofun, nofun⟩

/-- 45_sync_decoder.md R215: the decoder is in Idle, with every counter and the accumulator cleared. -/
theorem syncOk_reset : SyncOk Sync.reset where
  leadCnt := fun _ _ => rfl
  timer := by decide
  acc := fun _ => rfl
  bits := nofun
  valid := by decide
  parity := nofun
  noByte := fun _ => rfl

/-- 44_level_agc.md R191: the gain is `AGC_GAIN_INIT`, the window is empty, nothing is configured. -/
theorem agcOk_reset {gain : F64} (h : FiniteNonneg gain) : AgcOk (Agc.reset gain) where
  gain := h
  peak := finiteNonneg_zero
  target := finiteNonneg_zero
  configured := nofun

/-- 60_exceptions.md R279: every value is `+0.0` but the gain. -/
theorem allFinite_resetWith {p : Config.Params} (h : fIsFinite p.agcGainInit = true) :
    AllFinite (Block.resetWith p) where
  tap := nofun
  ring := nofun
  res u := by
    rw [Block.resetWith_res]
    exact ⟨fIsFinite_zero, fIsFinite_zero, fIsFinite_zero, fIsFinite_zero, fIsFinite_zero, fIsFinite_zero,
      fIsFinite_zero⟩
  bq u := by
    rw [Block.resetWith_bq]
    exact ⟨nofun, nofun⟩
  agc := ⟨fIsFinite_zero, fIsFinite_zero, fIsFinite_zero, fIsFinite_zero, h⟩
  levels := ⟨fIsFinite_zero, fIsFinite_zero, fIsFinite_zero⟩
  acc := ⟨fIsFinite_zero, fIsFinite_zero, fIsFinite_zero, fIsFinite_zero⟩
  diag := ⟨fIsFinite_zero, fIsFinite_zero, fIsFinite_zero, fun u => by cases u <;> exact fIsFinite_zero⟩

/-- 41_tone_resonator.md R147: the delays are `+0.0`, and no cascade has a state cell. -/
theorem delaysFlushed_resetWith : DelaysFlushed (Block.resetWith p) := fun u => by
  rw [Block.resetWith_res, Block.resetWith_bq]
  exact ⟨.inl rfl, .inl rfl, nofun⟩

end

/-- Settles O11: the reset block meets each invariant; the gain's rests on the legal `AGC_GAIN_INIT`. -/
theorem resetMeetsTheInvariants : Obligations.ResetMeetsTheInvariants := by
  unfold Obligations.ResetMeetsTheInvariants
  exact ⟨paramsOk_defaults, fun p hp => ⟨cellsCanonical_resetWith p, withinSpaces_resetWith p, firOk_resetWith p,
    syncOk_reset, agcOk_reset hp.agcGainInit, allFinite_resetWith hp.agcGainInit.1, delaysFlushed_resetWith p⟩⟩

/-! ## The FLAGS register -/

/-- A flag of a 64-bit register stands at its own place and nowhere else. -/
theorem getLsbD_flagAt {place : Nat} (hplace : place < 64) (f : Bool) (i : Nat) :
    (flagAt place f).getLsbD i = (f && decide (i = place)) := by
  cases f
  · simp [flagAt]
  · rw [flagAt, if_pos rfl, BitVec.getLsbD_ofNat, Nat.testBit_two_pow]
    by_cases hi : i = place
    · simp [hi, hplace]
    · simp [hi, Ne.symm hi]

/-- 10_state.md R41: the flags in the order of their bits. -/
def flagBits (b : Block) : List Bool :=
  [b.ovf, b.fir.bound, b.agc.cfg, b.sync.senseSet, b.res.leader.tuned, b.res.sync.tuned, b.res.mark.tuned,
    b.res.space.tuned, b.bq.leader.loaded, b.bq.sync.loaded, b.bq.mark.loaded, b.bq.space.loaded, b.sync.timingOk]

/-- R41: bit `i` of `FLAGS` is flag `i`, and 0 past the last one. -/
theorem getLsbD_flags (b : Block) (i : Nat) : b.flags.getLsbD i = (flagBits b).getD i false := by
  simp only [Block.flags, BitVec.getLsbD_or, getLsbD_flagAt, Nat.reduceLT]
  by_cases hi : i < 13
  · interval_cases i <;> simp [flagBits]
  · obtain ⟨k, rfl⟩ := Nat.exists_eq_add_of_le' (Nat.le_of_not_lt hi)
    simp [flagBits]

/-- 10_state.md R32: `timing_ok`. -/
theorem timingOk_eq (y : Sync) : y.timingOk =
    decide (1 ≤ y.tLMin.toNat ∧ 1 ≤ y.tLValid.toNat ∧ 1 ≤ y.tStart.toNat ∧ 1 ≤ y.tBit.toNat) := by
  simp only [Sync.timingOk, Bool.decide_and, Bool.and_assoc]

/-- Settles O17: each bit is read off `getLsbD_flags`, a unit's at its number. -/
theorem flagsRegisterBits : Obligations.FlagsRegisterBits := by
  unfold Obligations.FlagsRegisterBits
  intro b
  refine ⟨getLsbD_flags b 0, getLsbD_flags b 1, getLsbD_flags b 2, getLsbD_flags b 3, fun u => ?_, fun u => ?_,
    (getLsbD_flags b 12).trans (timingOk_eq b.sync), fun i hi => ?_⟩
  · cases u <;> exact getLsbD_flags b _
  · cases u <;> exact getLsbD_flags b _
  · rw [getLsbD_flags, List.getD_eq_default _ _ hi]

end Sys2Proof.Proofs
end

section
/-!
PROOF. What the commands do to the five address spaces (20_memory.md R60): every memory is rewritten cell by cell inside
the valid range it has after the command. From this one fact follow the canonical form of the memories (log 5) and the
bounds of R60 and R63.
-/

namespace Sys2Proof.Proofs

-- One theorem is elaborated at a time, as in the tests: each further thread takes its own share of the memory limit.
set_option Elab.async false

open Sys2Proof Sys2Proof.Machine Sys2Proof.Safety

/-! ## The canonical form determines the data -/

theorem read_eq_unlisted {m : Memory} {i : Nat} (h : ∀ c ∈ m, c.1 ≠ i) : m.read i = Memory.unlisted := by
  induction m with
  | nil => rfl
  | cons c rest ih =>
    obtain ⟨k, v⟩ := c
    obtain ⟨hk, hrest⟩ := List.forall_mem_cons.1 h
    rw [Memory.read, if_neg hk, ih hrest]

/-- A canonical memory with a first cell: that cell is listed, lies before the others, and the rest is canonical. -/
theorem wf_cons {k : Nat} {v : Word} {rest : Memory} :
    Memory.wf ((k, v) :: rest) = true ↔
      v ≠ Memory.unlisted ∧ (∀ c ∈ rest, k < c.1) ∧ rest.wf = true := by
  rw [Memory.wf_iff, Memory.wf_iff, List.pairwise_cons, List.forall_mem_cons]
  tauto

/-- The first index of a canonical memory is not above an index that reads as listed. -/
theorem first_le_of_read_ne {k i : Nat} {v : Word} {rest : Memory} (hrest : ∀ c ∈ rest, k < c.1)
    (hread : Memory.read ((k, v) :: rest) i ≠ Memory.unlisted) : k ≤ i := by
  by_contra hlt
  exact hread (read_eq_unlisted (List.forall_mem_cons.2
    ⟨by dsimp only; omega, fun c hc => by have := hrest c hc; omega⟩))

/-- Log 5: two memories in the canonical form that read the same are the same data. -/
theorem eq_of_wf_of_read_eq {m m' : Memory} (hm : m.wf = true) (hm' : m'.wf = true)
    (h : ∀ i, m.read i = m'.read i) : m = m' := by
  have hhead : ∀ (k : Nat) (v : Word) (rest : Memory), Memory.read ((k, v) :: rest) k = v :=
    fun k v rest => if_pos rfl
  induction m generalizing m' with
  | nil =>
    cases m' with
    | nil => rfl
    | cons c' rest' => exact absurd ((hhead _ _ rest').symm.trans (h c'.1).symm) (wf_cons.1 hm').1
  | cons c rest ih =>
    obtain ⟨k, v⟩ := c
    obtain ⟨hv, hlt, hrest⟩ := wf_cons.1 hm
    cases m' with
    | nil => exact absurd ((hhead k v rest).symm.trans (h k)) hv
    | cons c' rest' =>
      obtain ⟨k', v'⟩ := c'
      obtain ⟨hv', hlt', hrest'⟩ := wf_cons.1 hm'
      have hle : k ≤ k' := first_le_of_read_ne hlt (by rw [h k', hhead]; exact hv')
      have hle' : k' ≤ k := first_le_of_read_ne hlt' (by rw [← h k, hhead]; exact hv)
      obtain rfl : k = k' := Nat.le_antisymm hle hle'
      have hval : v = v' := by rw [← hhead k v rest, h k, hhead]
      rw [hval, ih hrest hrest' fun i => ?_]
      by_cases hi : k = i
      · rw [read_eq_unlisted fun c hc => by have := hlt c hc; omega,
          read_eq_unlisted fun c hc => by have := hlt' c hc; omega]
      · have := h i
        rwa [Memory.read, Memory.read, if_neg hi, if_neg hi] at this

/-! ## A memory rewritten below an index -/

/-- The second memory comes from the first by writes at indices below `n`, or was emptied by a reset on the way. -/
inductive Rewritten (n : Nat) (m : Memory) : Memory → Prop where
  | refl : Rewritten n m m
  | reset : Rewritten n m []
  | write {m' : Memory} {i : Nat} (v : Word) : Rewritten n m m' → i < n → Rewritten n m (m'.write i v)

theorem Rewritten.trans {n : Nat} {m m' m'' : Memory} (h : Rewritten n m m') (h' : Rewritten n m' m'') :
    Rewritten n m m'' := by
  induction h' with
  | refl => exact h
  | reset => exact .reset
  | write v _ hi ih => exact ih.write v hi

theorem Rewritten.mono {n k : Nat} {m m' : Memory} (h : Rewritten n m m') (hle : n ≤ k) : Rewritten k m m' := by
  induction h with
  | refl => exact .refl
  | reset => exact .reset
  | write v _ hi ih => exact ih.write v (hi.trans_le hle)

theorem rewritten_writeFrom {n : Nat} (vs : List Word) : ∀ (m : Memory) (i : Nat), i + vs.length ≤ n →
    Rewritten n m (m.writeFrom i vs) := by
  induction vs with
  | nil => exact fun m i _ => .refl
  | cons v vs ih =>
    intro m i hle
    rw [List.length_cons] at hle
    exact (Rewritten.refl.write v (by omega)).trans (ih (m.write i v) (i + 1) (by omega))

theorem Rewritten.wf {n : Nat} {m m' : Memory} (h : Rewritten n m m') (hm : m.wf = true) : m'.wf = true := by
  induction h with
  | refl => exact hm
  | reset => exact Memory.wf_nil
  | write v _ _ ih => exact Memory.write_wf _ v ih

/-- A cell listed after a write was listed before, or is the one written. -/
theorem mem_write {m : Memory} {i : Nat} {v : Word} {c : Nat × Word} (h : c ∈ m.write i v) : c.1 = i ∨ c ∈ m := by
  unfold Memory.write at h
  split at h
  · exact .inr (List.mem_filter.1 h).1
  · exact (Memory.mem_place h).imp (congrArg Prod.fst) fun hc => (List.mem_filter.1 hc).1

theorem Rewritten.cellsBelow {n : Nat} {m m' : Memory} (h : Rewritten n m m') (hm : CellsBelow m n) :
    CellsBelow m' n := by
  induction h with
  | refl => exact hm
  | reset => exact nofun
  | write v _ hi ih => exact fun c hc => (mem_write hc).elim (fun he => he ▸ hi) (ih c)

/-! ## What a command does to the address spaces -/

/-- A property of every unit after one unit was written. -/
theorem forall_get_set {α : Type} {P : ToneUnit → α → Prop} {q : Quad α} {u : ToneUnit} {a : α} (hwritten : P u a)
    (hothers : ∀ v, P v (q.get v)) (v : ToneUnit) : P v ((q.set u a).get v) := by
  by_cases hv : v = u
  · rw [hv, Quad.get_set_same]
    exact hwritten
  · rw [Quad.get_set_ne _ _ _ hv]
    exact hothers v

/-- 10_state.md R24 to R26, R28: every length is within its capacity, and the write index below the length. -/
def LengthsFit (b : Block) : Prop :=
  b.obLen ≤ b.params.obMax ∧ b.fir.l ≤ b.params.lMax ∧ (0 < b.fir.l → b.fir.w < b.fir.l) ∧
    ∀ u, (b.bq.get u).order ≤ b.params.orderMax

/-- 20_memory.md R60: the coefficient cells of a cascade that its order makes valid. -/
def coefCells (order : Nat) : Nat := 4 * (order / 2) + 2 * (order % 2)

/-- What every command does to the address spaces: each memory is rewritten inside the valid range it has after the
command (for the ring also up to the cell `w + L` of a bound filter, 43_circular_fir.md R172), the lengths stay within
the capacities, and the parameters stay. -/
structure SpacesEffect (b b' : Block) : Prop where
  params : b'.params = b.params
  ob : Rewritten b'.obLen b.ob b'.ob
  tap : Rewritten b'.fir.l b.fir.tap b'.fir.tap
  ring : ∀ n, 2 * b'.fir.l ≤ n → (0 < b.fir.l → b.fir.w + b.fir.l < n) → Rewritten n b.fir.ring b'.fir.ring
  coef : ∀ u, Rewritten (coefCells (b'.bq.get u).order) (b.bq.get u).coef (b'.bq.get u).coef
  z : ∀ u, Rewritten (b'.bq.get u).order (b.bq.get u).z (b'.bq.get u).z
  lengths : ParamsOk b.params → LengthsFit b → LengthsFit b'

section
variable {b b' : Block}

/-- The rule of every command that leaves the operand buffer, the FIR filter and the cascades alone. -/
theorem spacesEffect_of_same (hparams : b'.params = b.params) (hob : b'.ob = b.ob) (hlen : b'.obLen = b.obLen)
    (hfir : b'.fir = b.fir) (hbq : b'.bq = b.bq) : SpacesEffect b b' where
  params := hparams
  ob := hob ▸ .refl
  tap := hfir ▸ .refl
  ring := fun _ _ _ => hfir ▸ .refl
  coef := fun _ => hbq ▸ .refl
  z := fun _ => hbq ▸ .refl
  lengths := fun _ h => by rwa [LengthsFit, hparams, hlen, hfir, hbq]

/-- The rule of the operand buffer. -/
theorem spacesEffect_withOb {m : Memory} {n : Nat} (hm : Rewritten n b.ob m)
    (hn : ParamsOk b.params → b.obLen ≤ b.params.obMax → n ≤ b.params.obMax) : SpacesEffect b (b.withOb m n) where
  params := rfl
  ob := hm
  tap := .refl
  ring := fun _ _ _ => .refl
  coef := fun _ => .refl
  z := fun _ => .refl
  lengths := fun hp ⟨hlen, hrest⟩ => ⟨hn hp hlen, hrest⟩

/-- The rule of the FIR filter. -/
theorem spacesEffect_withFir {f : Fir} (htap : Rewritten f.l b.fir.tap f.tap)
    (hring : ∀ n, 2 * f.l ≤ n → (0 < b.fir.l → b.fir.w + b.fir.l < n) → Rewritten n b.fir.ring f.ring)
    (hl : b.fir.l ≤ b.params.lMax → f.l ≤ b.params.lMax) (hw : 0 < f.l → f.w < f.l) :
    SpacesEffect b (b.withFir f) where
  params := rfl
  ob := .refl
  tap := htap
  ring := hring
  coef := fun _ => .refl
  z := fun _ => .refl
  lengths := fun _ ⟨hlen, hcap, _, horder⟩ => ⟨hlen, hl hcap, hw, horder⟩

/-- The rule of one cascade. -/
theorem spacesEffect_withBq {u : ToneUnit} {q : Biquad} (hcoef : Rewritten (coefCells q.order) (b.bq.get u).coef q.coef)
    (hz : Rewritten q.order (b.bq.get u).z q.z)
    (horder : (b.bq.get u).order ≤ b.params.orderMax → q.order ≤ b.params.orderMax) :
    SpacesEffect b (b.withBq u q) where
  params := rfl
  ob := .refl
  tap := .refl
  ring := fun _ _ _ => .refl
  coef := forall_get_set (P := fun v (c : Biquad) => Rewritten (coefCells c.order) (b.bq.get v).coef c.coef)
    hcoef fun _ => .refl
  z := forall_get_set (P := fun v (c : Biquad) => Rewritten c.order (b.bq.get v).z c.z) hz fun _ => .refl
  lengths := fun _ ⟨hlen, hcap, hw, hle⟩ => ⟨hlen, hcap, hw,
    forall_get_set (P := fun _ (c : Biquad) => c.order ≤ b.params.orderMax) (horder (hle u)) hle⟩

/-- 46_pipeline_and_host.md R249: a reset empties every memory. -/
theorem spacesEffect_resetWith : SpacesEffect b (Block.resetWith b.params) where
  params := rfl
  ob := .reset
  tap := .reset
  ring := fun _ _ _ => .reset
  coef u := by rw [Block.resetWith_bq]; exact .reset
  z u := by rw [Block.resetWith_bq]; exact .reset
  lengths := fun _ _ => ⟨Nat.zero_le _, Nat.zero_le _, nofun, fun u => by
    rw [Block.resetWith_bq]; exact Nat.zero_le _⟩

end

/-! ## The commands that write cells -/

/-- 40_filter_designer.md R122: a design that fits the operand buffer. -/
theorem storeDesign_spacesEffect {cells : List F64} {b b' : Block} {w : Word}
    (hfit : ParamsOk b.params → cells.length ≤ b.params.obMax) (h : storeDesign cells b = .ok (b', w)) :
    SpacesEffect b b' := by
  obtain ⟨-, ⟨⟩⟩ := storeDesign_ok.1 h
  exact spacesEffect_withOb (rewritten_writeFrom cells b.ob 0 (by omega)) fun hp _ => hfit hp

/-- R112: a legal tap count fits the filter and the operand buffer. -/
theorem size_of_firSpecCheck {p : Config.Params} {kind : FilterKind} {n : Nat} {fs fLow fHigh a g : F64}
    (h : firSpecCheck p kind n fs fLow fHigh a g = none) : n + 1 ≤ p.lMax ∧ n + 1 ≤ p.obMax := by
  by_contra hsize
  have hrefused : ¬ (n % 2 = 0 ∧ n + 1 ≤ p.lMax ∧ n + 1 ≤ p.obMax) := fun hok => hsize hok.2
  simp only [firSpecCheck, hrefused, not_false_eq_true, if_true, ite_self] at h
  split at h <;> cases h

/-- R112, R122: the taps of a legal specification fit the operand buffer. -/
theorem length_firTaps_le_obMax {nm : Config.Numerics} {p : Config.Params} {kind : FilterKind} {n : Nat}
    {fs fLow fHigh a g : F64} {taps : List F64} (h : firTaps nm p kind n fs fLow fHigh a g = .ok taps) :
    taps.length ≤ p.obMax := by
  rw [length_firTaps h]
  unfold firTaps at h
  split at h
  next => cases h
  next hcheck => exact (size_of_firSpecCheck hcheck).2

/-- R126, R127: the cells of a legal specification fit the operand buffer of a legal block. -/
theorem length_iirCells_le_obMax {p : Config.Params} {n : Nat} {cheb : Bool} {fc fs r : F64} (hp : ParamsOk p)
    (h : iirSpecCheck p n cheb fc fs r = none) : (iirCells numerics n cheb fc fs r).length ≤ p.obMax := by
  have horder : n ≤ p.orderMax := by
    by_contra hlt
    simp only [iirSpecCheck, Nat.lt_of_not_le hlt, if_true, ite_self, reduceCtorEq] at h
  have hcap := hp.obMax.2
  rw [length_iirCells]
  omega

/-- 42_biquad_cascade.md R157 to R159: a run of the cascade writes the state cells below its order. -/
theorem run_rewritten (q : Biquad) (x : F64) : Rewritten q.order q.z (q.run x).1 := by
  have hsections : ∀ (n j : Nat) (zd : Memory × F64), 2 * (j + n) ≤ q.order →
      Rewritten q.order zd.1 (sectionsFrom q.coef n j zd).1 := by
    intro n
    induction n with
    | zero => exact fun j zd _ => .refl
    | succ n ih =>
      intro j zd hle
      have hsection : Rewritten q.order zd.1 (section2 q.coef zd.1 j zd.2).1 :=
        (Rewritten.refl.write _ (by omega)).write _ (by omega)
      exact hsection.trans (ih (j + 1) _ (by omega))
  have hpairs := hsections q.sections 0 (q.z, x) (by unfold Biquad.sections; omega)
  unfold Biquad.run
  split
  · exact hpairs.write _ (by unfold Biquad.sections; omega)
  · exact hpairs

/-- 43_circular_fir.md R172: a sample is recorded at the cells `w` and `w + L`. -/
theorem record_rewritten {f : Fir} {n : Nat} (x : F64) (h : f.w + f.l < n) : Rewritten n f.ring (f.record x) :=
  (Rewritten.refl.write x (by omega)).write x h

theorem firCreate_spacesEffect {b b' : Block} {w : Word} (h : firCreate b = .ok (b', w)) : SpacesEffect b b' := by
  obtain ⟨⟨-, hcap⟩, -, ⟨⟩⟩ := firCreate_ok.1 h
  exact spacesEffect_withFir (rewritten_writeFrom _ _ 0 (by simp [Block.obCells]))
    (fun n hn _ => rewritten_writeFrom _ _ 0 (by simpa using hn)) (fun _ => hcap) id

theorem firProc_spacesEffect {x : F64} {b b' : Block} {w : Word} (h : firProc x b = .ok (b', w)) :
    SpacesEffect b b' := by
  obtain ⟨hbound, -, -, ⟨⟩⟩ := firProc_ok.1 h
  exact spacesEffect_withFir .refl (fun n _ hn => record_rewritten x (hn (by omega))) id (Nat.mod_lt _)

theorem bqBind_spacesEffect {u : ToneUnit} {b b' : Block} {w : Word} (h : bqBind u b = .ok (b', w)) :
    SpacesEffect b b' := by
  obtain ⟨hlen, horder, -, ⟨⟩⟩ := bqBind_ok.1 h
  refine spacesEffect_withBq (rewritten_writeFrom _ _ 0 ?_) (rewritten_writeFrom _ _ 0 (by simp)) fun _ => horder
  simp only [Block.obCells, Memory.length_cells, coefCells]
  omega

theorem bqStep_spacesEffect {u : ToneUnit} {x : F64} {b b' : Block} {w : Word} (h : bqStep u x b = .ok (b', w)) :
    SpacesEffect b b' := by
  obtain ⟨-, -, -, -, ⟨⟩⟩ := bqStep_ok.1 h
  exact spacesEffect_withBq .refl (run_rewritten (b.bq.get u) x) id

/-! ## The sample step -/

/-- What a stage after the FIR filter may write of the filters: the state cells of the cascades
(46_pipeline_and_host.md R246). -/
structure StageEffect (b b' : Block) : Prop where
  fir : b'.fir = b.fir
  order : ∀ u, (b'.bq.get u).order = (b.bq.get u).order
  z : ∀ u, Rewritten (b.bq.get u).order (b.bq.get u).z (b'.bq.get u).z

theorem stageEffect_of_same {b b' : Block} (hfir : b'.fir = b.fir) (hbq : b'.bq = b.bq) : StageEffect b b' :=
  ⟨hfir, fun _ => hbq ▸ rfl, fun _ => hbq ▸ .refl⟩

theorem StageEffect.trans {b b' b'' : Block} (h : StageEffect b b') (h' : StageEffect b' b'') : StageEffect b b'' where
  fir := h'.fir.trans h.fir
  order u := (h'.order u).trans (h.order u)
  z u := (h.z u).trans (h.order u ▸ h'.z u)

theorem stageFir_effect {x : F64} {b b' : Block} {w : Word} (h : stageFir x b = .ok (b', w)) : 0 < b.fir.l ∧
    b'.fir = { b.fir with ring := b.fir.record x, w := (b.fir.w + 1) % b.fir.l } ∧ b'.bq = b.bq := by
  obtain ⟨b1, y, hproc, ⟨⟩⟩ := stageFir_ok.1 h
  obtain ⟨hbound, -, -, ⟨⟩⟩ := firProc_ok.1 hproc
  exact ⟨Nat.pos_of_ne_zero hbound, rfl, rfl⟩

theorem stageAgc_effect {x : F64} {b b' : Block} {w : Word} (h : stageAgc x b = .ok (b', w)) : StageEffect b b' := by
  obtain ⟨b1, w1, b2, w2, b3, y, htrack, hwindow, happly, ⟨⟩⟩ := stageAgc_ok.1 h
  obtain ⟨-, -, ⟨⟩⟩ := agcTrack_ok.1 htrack
  obtain ⟨-, -, -, ⟨⟩⟩ := agcApply_ok.1 happly
  split at hwindow
  · obtain ⟨-, ⟨⟩⟩ := agcUpdate_ok.1 hwindow
    exact stageEffect_of_same rfl rfl
  · cases hwindow
    exact stageEffect_of_same rfl rfl

theorem stageTone_effect {u : ToneUnit} {x : F64} {b b' : Block} {w : Word} (h : stageTone u x b = .ok (b', w)) :
    StageEffect b b' := by
  have hkeeps := stageTone_keeps h
  obtain ⟨b1, r, b2, e, hres, hbq, ⟨⟩⟩ := stageTone_ok.1 h
  have horder : ∀ v, (b2.bq.get v).order = (b.bq.get v).order := fun v => (congrArg Biquad.order (hkeeps.bq v) :)
  have hz := (bqStep_spacesEffect hbq).z
  obtain ⟨-, -, -, ⟨⟩⟩ := resStep_ok.1 hres
  obtain ⟨-, -, -, -, ⟨⟩⟩ := bqStep_ok.1 hbq
  exact ⟨rfl, horder, fun v => horder v ▸ hz v⟩

theorem stageTones_effect {x : F64} {b b' : Block} {w : Word} (h : stageTones x b = .ok (b', w)) :
    StageEffect b b' := by
  obtain ⟨b1, le, b2, sy, b3, ma, b4, sp, hle, hsy, hma, hsp, htick⟩ := stageTones_ok.1 h
  obtain ⟨-, -, -, ⟨⟩⟩ := syncTick_ok.1 htick
  exact ((((stageTone_effect hle).trans (stageTone_effect hsy)).trans (stageTone_effect hma)).trans
    (stageTone_effect hsp)).trans (stageEffect_of_same rfl rfl)

/-- R246: of the address spaces the sample step writes the ring, as `FIR.PROC` does, and the cascades' state. -/
theorem pipeSample_spacesEffect {x : F64} {b b' : Block} {w : Word} (h : pipeSample x b = .ok (b', w)) :
    SpacesEffect b b' := by
  have hparts := pipeSample_partsOnly h
  obtain ⟨-, -, b1, x2, b2, x3, hfir, hagc, htones⟩ := pipeSample_ok.1 h
  obtain ⟨hbound, hfir1, hbq1⟩ := stageFir_effect hfir
  have hstages := (stageAgc_effect hagc).trans (stageTones_effect htones)
  have hfir' : b'.fir = { b.fir with
      ring := b.fir.record (clip b.clipLevel x), w := (b.fir.w + 1) % b.fir.l } := hstages.fir.trans hfir1
  have horder : ∀ u, (b'.bq.get u).order = (b.bq.get u).order := fun u => (congrArg Biquad.order (hparts.bq u) :)
  have hcoef : ∀ u, (b'.bq.get u).coef = (b.bq.get u).coef := fun u => (congrArg Biquad.coef (hparts.bq u) :)
  refine ⟨hparts.params, hparts.ob ▸ .refl, hfir' ▸ .refl, fun n _ hn => ?_, fun u => hcoef u ▸ .refl, fun u => ?_,
    fun _ ⟨hlen, hcap, _, hle⟩ => ⟨?_, ?_, ?_, fun u => ?_⟩⟩
  · rw [hfir']
    exact record_rewritten _ (hn hbound)
  · have hz := hstages.z u
    rw [hbq1] at hz
    exact horder u ▸ hz
  · rwa [hparts.obLen, hparts.params]
  · rwa [hfir', hparts.params]
  · rw [hfir']
    exact Nat.mod_lt _
  · rw [horder, hparts.params]
    exact hle u

/-! ## Every step -/

/-- Each executed command keeps to the address spaces. -/
theorem spacesEffect_of_effect {i : Instr} {b b' : Block} {w : Word} (h : effect i b = .ok (b', w)) :
    SpacesEffect b b' := by
  have hwrites := writeSet_of_effect h
  cases i with
  | argSet | agcTrack | agcUpdate | syncPreset | syncTiming | syncStep | syncReset =>
    rw [hwrites.1]
    exact spacesEffect_of_same rfl rfl rfl rfl rfl
  | obRead | regRead | agcApply | agcConfig =>
    rw [show b' = _ from hwrites]
    exact spacesEffect_of_same rfl rfl rfl rfl rfl
  | resSetfreq =>
    obtain ⟨t, -, hpart⟩ := hwrites
    rw [hpart]
    exact spacesEffect_of_same rfl rfl rfl rfl rfl
  | resProc =>
    obtain ⟨t, -, hpart, -⟩ := hwrites
    rw [hpart]
    exact spacesEffect_of_same rfl rfl rfl rfl rfl
  | obClear => cases h; exact spacesEffect_withOb .refl fun _ _ => Nat.zero_le _
  | obPush v =>
    obtain ⟨hfull, ⟨⟩⟩ := obPush_ok.1 h
    exact spacesEffect_withOb (Rewritten.refl.write v (Nat.lt_succ_self _)) fun _ hle => by omega
  | firDesign imm tapCount =>
    obtain ⟨kind, taps, -, htaps, hstore⟩ := firDesign_ok.1 h
    exact storeDesign_spacesEffect (fun _ => length_firTaps_le_obMax htaps) hstore
  | iirDesign imm =>
    obtain ⟨n, cheb, -, hcheck, hstore⟩ := iirDesign_ok.1 h
    exact storeDesign_spacesEffect (fun hp => length_iirCells_le_obMax hp hcheck) hstore
  | firCreate => exact firCreate_spacesEffect h
  | firProc x => exact firProc_spacesEffect h
  | bqLoad u => obtain ⟨t, -, hbind⟩ := withUnit_ok.1 h; exact bqBind_spacesEffect hbind
  | bqProc u x => obtain ⟨t, -, hstep⟩ := withUnit_ok.1 h; exact bqStep_spacesEffect hstep
  | pipeSampleI16 imm => exact pipeSample_spacesEffect h
  | pipeSampleF64 x => exact pipeSample_spacesEffect h
  | pipeReset => cases h; exact spacesEffect_resetWith

/-- A step keeps the block, or leaves the one an executed command makes of it. -/
theorem block_of_step {s t : State} (h : step s = .next t) :
    t.block = s.block ∨ ∃ i w, effect i s.block = .ok (t.block, w) := by
  unfold step at h
  split at h
  next => cases h; exact .inl rfl
  next =>
    split at h
    next i _ => exact (exec_cases h).elim (fun ⟨_, w, hok⟩ => .inr ⟨i, w, hok⟩) fun ⟨_, hkept⟩ => .inl hkept
    next => cases h; exact .inl rfl

theorem spacesEffect_of_step {s t : State} (h : step s = .next t) : SpacesEffect s.block t.block := by
  rcases block_of_step h with hkept | ⟨i, w, hok⟩
  · rw [hkept]
    exact spacesEffect_of_same rfl rfl rfl rfl rfl
  · exact spacesEffect_of_effect hok

/-- The canonical form is kept by rewriting, wherever the cells are. -/
theorem SpacesEffect.cellsCanonical {b b' : Block} (h : SpacesEffect b b') (hb : CellsCanonical b) :
    CellsCanonical b' := by
  obtain ⟨hob, htap, hring, hbq⟩ := hb
  have hringWritten := h.ring (2 * b'.fir.l + (b.fir.w + b.fir.l + 1)) (by omega) fun _ => by omega
  exact ⟨h.ob.wf hob, h.tap.wf htap, hringWritten.wf hring, fun u => ⟨(h.coef u).wf (hbq u).1, (h.z u).wf (hbq u).2⟩⟩

/-- 20_memory.md R60, R63: every valid range lies in its address space, so rewriting inside it lists no cell outside. -/
theorem SpacesEffect.withinSpaces {b b' : Block} (h : SpacesEffect b b') (hp : ParamsOk b.params)
    (hb : WithinSpaces b) : WithinSpaces b' := by
  obtain ⟨hlen, hcap, hw, horder, hob, htap, hring, hbq⟩ := hb
  obtain ⟨hlen', hcap', hw', horder'⟩ := h.lengths hp ⟨hlen, hcap, hw, horder⟩
  refine ⟨hlen', hcap', hw', horder', ?_⟩
  rw [h.params] at hlen' hcap' horder' ⊢
  refine ⟨(h.ob.mono hlen').cellsBelow hob, (h.tap.mono hcap').cellsBelow htap,
    (h.ring _ (by omega) fun hbound => ?_).cellsBelow hring, fun u => ⟨?_, ?_⟩⟩
  · have := hw hbound
    omega
  · refine ((h.coef u).mono ?_).cellsBelow (hbq u).1
    have := horder' u
    unfold coefCells
    omega
  · refine ((h.z u).mono ?_).cellsBelow (hbq u).2
    have := horder' u
    omega

/-- Settles O56: every memory is rewritten by writes, each of which keeps the form, and the form determines the data. -/
theorem memoriesStayCanonical : Obligations.MemoriesStayCanonical := by
  unfold Obligations.MemoriesStayCanonical
  exact ⟨fun s t hs h => (spacesEffect_of_step h).cellsCanonical hs, fun m m' hm hm' => eq_of_wf_of_read_eq hm hm'⟩

/-- Settles O57: every memory is rewritten inside its valid range, and the valid ranges stay inside the spaces. -/
theorem lengthsAndListedCellsStayInTheirSpaces : Obligations.LengthsAndListedCellsStayInTheirSpaces := by
  unfold Obligations.LengthsAndListedCellsStayInTheirSpaces
  intro s t hp hs h
  exact ⟨(spacesEffect_of_step h).withinSpaces hp hs, (spacesEffect_of_step h).params⟩

end Sys2Proof.Proofs
end

section
/-!
PROOF. The address spaces are read only at their valid indices (20_memory.md R60): a command gives the same answer on two
blocks that differ at most in other cells, and leaves two such blocks. The two runs are followed side by side: one rule per
update of the block, one per check, then each command from these.
-/

namespace Sys2Proof.Proofs

-- One theorem is elaborated at a time, as in the tests: each further thread takes its own share of the memory limit.
set_option Elab.async false

open Sys2Proof Sys2Proof.Machine Sys2Proof.Safety

/-! ## Memories that agree below an index -/

/-- The cells below an index read the same. -/
def SameCellsBelow (m m' : Memory) (n : Nat) : Prop := ∀ i < n, m'.read i = m.read i

section
variable {m m' : Memory} {n : Nat}

theorem SameCellsBelow.cells_eq (h : SameCellsBelow m m' n) : m'.cells n = m.cells n :=
  List.map_congr_left fun i hi => h i (List.mem_range.1 hi)

/-- The same value written to the same cell, where the two memories need not have agreed before. -/
theorem sameCellsBelow_write_of_ne {i : Nat} (h : ∀ j < n, j ≠ i → m'.read j = m.read j) (v : Word) :
    SameCellsBelow (m.write i v) (m'.write i v) n := fun j hj => by
  rw [Memory.read_write, Memory.read_write]
  split
  · rfl
  · exact h j hj ‹_›

theorem SameCellsBelow.write (h : SameCellsBelow m m' n) (i : Nat) (v : Word) :
    SameCellsBelow (m.write i v) (m'.write i v) n :=
  sameCellsBelow_write_of_ne (fun j hj _ => h j hj) v

/-- A list written over the whole range makes any two memories agree there. -/
theorem sameCellsBelow_writeFrom (m m' : Memory) {vs : List Word} (h : n ≤ vs.length) :
    SameCellsBelow (m.writeFrom 0 vs) (m'.writeFrom 0 vs) n := fun i hi => by
  have hlt : i < vs.length := hi.trans_le h
  rw [read_writeFrom_zero, read_writeFrom_zero, List.getD_eq_getElem _ _ hlt, List.getD_eq_getElem _ _ hlt]

end

/-- Two cascades of one order that differ at most in cells past the ones it makes valid. -/
structure SameCascade (q q' : Biquad) : Prop where
  order : q'.order = q.order
  coef : SameCellsBelow q.coef q'.coef (4 * (q.order / 2) + 2 * (q.order % 2))
  z : SameCellsBelow q.z q'.z (2 * (q.order / 2) + q.order % 2)

theorem sameValid_refl (b : Block) : SameValid b b :=
  ⟨rfl, fun _ => rfl, fun _ _ => rfl, fun _ _ => rfl, fun _ _ => rfl, fun _ _ _ => rfl, fun _ _ _ => rfl⟩

/-! ## Two such blocks: what they share -/

section
variable {b b' : Block} (h : SameValid b b')
include h

theorem sameValid_params : b'.params = b.params := (congrArg Block.params h.rest :)
theorem sameValid_arg : b'.arg = b.arg := (congrArg Block.arg h.rest :)
theorem sameValid_obLen : b'.obLen = b.obLen := (congrArg Block.obLen h.rest :)
theorem sameValid_res : b'.res = b.res := (congrArg Block.res h.rest :)
theorem sameValid_agc : b'.agc = b.agc := (congrArg Block.agc h.rest :)
theorem sameValid_sync : b'.sync = b.sync := (congrArg Block.sync h.rest :)
theorem sameValid_ovf : b'.ovf = b.ovf := (congrArg Block.ovf h.rest :)
theorem sameValid_diag : b'.diag = b.diag := (congrArg Block.diag h.rest :)
theorem sameValid_fir_l : b'.fir.l = b.fir.l := (congrArg (fun c => c.fir.l) h.rest :)
theorem sameValid_fir_w : b'.fir.w = b.fir.w := (congrArg (fun c => c.fir.w) h.rest :)

theorem sameValid_argReg (i : Fin 8) : b'.argReg i = b.argReg i := by
  rw [Block.argReg, Block.argReg, sameValid_arg h]

theorem sameValid_clipLevel : b'.clipLevel = b.clipLevel := by
  rw [Block.clipLevel, Block.clipLevel, sameValid_params h]

/-- 10_state.md R24: the valid cells of the operand buffer. -/
theorem sameValid_obCells : b'.obCells = b.obCells := by
  rw [Block.obCells, Block.obCells, sameValid_obLen h]
  exact SameCellsBelow.cells_eq h.ob

theorem sameValid_bound : b'.fir.bound = b.fir.bound := by rw [Fir.bound, Fir.bound, sameValid_fir_l h]

/-- A cascade is loaded by its order, not by its cells (10_state.md R28). -/
theorem sameValid_loaded : b'.bq.leader.loaded = b.bq.leader.loaded ∧ b'.bq.sync.loaded = b.bq.sync.loaded ∧
    b'.bq.mark.loaded = b.bq.mark.loaded ∧ b'.bq.space.loaded = b.bq.space.loaded := by
  have hunit : ∀ u, (b'.bq.get u).loaded = (b.bq.get u).loaded := fun u => by
    rw [Biquad.loaded, Biquad.loaded, h.order u]
  exact ⟨hunit .leader, hunit .sync, hunit .mark, hunit .space⟩

theorem sameValid_configured : b'.configured = b.configured := by
  simp only [Block.configured, sameValid_bound h, sameValid_agc h, sameValid_res h, sameValid_sync h,
    sameValid_loaded h]

theorem sameValid_flags : b'.flags = b.flags := by
  simp only [Block.flags, sameValid_ovf h, sameValid_bound h, sameValid_agc h, sameValid_res h, sameValid_sync h,
    sameValid_loaded h]

/-- 10_state.md R40: a register of the table holds no cell of an address space. -/
theorem sameValid_registerValue (n : Nat) : registerValue b' n = registerValue b n := by
  have hglobal : globalRegister b' n = globalRegister b n := by
    unfold globalRegister
    rw [sameValid_flags h, sameValid_sync h, sameValid_agc h, sameValid_diag h, sameValid_fir_w h, sameValid_fir_l h,
      sameValid_obLen h]
  have hunit : ∀ u r k, unitRegister r (b'.bq.get u) k = unitRegister r (b.bq.get u) k := fun u r k => by
    unfold unitRegister
    rw [h.order u]
  have hunits := And.intro (hunit .leader) (And.intro (hunit .sync) (And.intro (hunit .mark) (hunit .space)))
  simp only [Quad.get] at hunits
  simp only [registerValue, hglobal, sameValid_res h, hunits]

/-! ## The updates of the block -/

theorem sameValid_withArg (i : Fin 8) (v : Word) : SameValid (b.withArg i v) (b'.withArg i v) :=
  ⟨congrArg (Block.withArg · i v) h.rest, h.order, h.ob, h.tap, h.ring, h.coef, h.z⟩

theorem sameValid_withRes (u : ToneUnit) (r : Resonator) : SameValid (b.withRes u r) (b'.withRes u r) :=
  ⟨congrArg (Block.withRes · u r) h.rest, h.order, h.ob, h.tap, h.ring, h.coef, h.z⟩

theorem sameValid_withAgc (a : Agc) : SameValid (b.withAgc a) (b'.withAgc a) :=
  ⟨congrArg (Block.withAgc · a) h.rest, h.order, h.ob, h.tap, h.ring, h.coef, h.z⟩

theorem sameValid_withSync (y : Sync) : SameValid (b.withSync y) (b'.withSync y) :=
  ⟨congrArg (Block.withSync · y) h.rest, h.order, h.ob, h.tap, h.ring, h.coef, h.z⟩

theorem sameValid_withOvf (o : Bool) : SameValid (b.withOvf o) (b'.withOvf o) :=
  ⟨congrArg (Block.withOvf · o) h.rest, h.order, h.ob, h.tap, h.ring, h.coef, h.z⟩

theorem sameValid_withDiag (d : Diag) : SameValid (b.withDiag d) (b'.withDiag d) :=
  ⟨congrArg (Block.withDiag · d) h.rest, h.order, h.ob, h.tap, h.ring, h.coef, h.z⟩

theorem sameValid_withOb {m m' : Memory} {n : Nat} (hm : SameCellsBelow m m' n) :
    SameValid (b.withOb m n) (b'.withOb m' n) :=
  ⟨congrArg (Block.withOb · m' n) h.rest, h.order, hm, h.tap, h.ring, h.coef, h.z⟩

theorem sameValid_withFir {f f' : Fir} (hl : f'.l = f.l) (hw : f'.w = f.w) (htap : SameCellsBelow f.tap f'.tap f.l)
    (hring : SameCellsBelow f.ring f'.ring (2 * f.l)) : SameValid (b.withFir f) (b'.withFir f') where
  rest := by
    have hf : f' = { f with tap := f'.tap, ring := f'.ring } := by rw [← hl, ← hw]
    exact (congrArg (Block.withFir · f') h.rest).trans
      (congrArg (Block.withFir { b with ob := b'.ob, bq := b'.bq }) hf)
  order := h.order
  ob := h.ob
  tap := htap
  ring := hring
  coef := h.coef
  z := h.z

theorem sameCascade_of_sameValid (u : ToneUnit) : SameCascade (b.bq.get u) (b'.bq.get u) :=
  ⟨h.order u, h.coef u, h.z u⟩

theorem sameValid_withBq (u : ToneUnit) {q q' : Biquad} (hq : SameCascade q q') :
    SameValid (b.withBq u q) (b'.withBq u q') := by
  have hunits : ∀ v, SameCascade ((b.bq.set u q).get v) ((b'.bq.set u q').get v) := fun v => by
    by_cases hv : v = u
    · rw [hv, Quad.get_set_same, Quad.get_set_same]
      exact hq
    · rw [Quad.get_set_ne _ _ _ hv, Quad.get_set_ne _ _ _ hv]
      exact sameCascade_of_sameValid h v
  exact ⟨(congrArg (Block.withBq · u q') h.rest :), fun v => (hunits v).order, h.ob, h.tap, h.ring,
    fun v => (hunits v).coef, fun v => (hunits v).z⟩

end

/-! ## Two results that agree -/

/-- The same fault, or the same data word and two blocks that differ at most outside the valid ranges. -/
inductive Agree : Result → Result → Prop where
  | ok {b b' : Block} (w : Word) : SameValid b b' → Agree (.ok (b, w)) (.ok (b', w))
  | error (f : FaultCode) : Agree (.error f) (.error f)

section
variable {r r' : Result}

theorem Agree.requireFinite (xs : List F64) (h : Agree r r') : Agree (requireFinite xs r) (requireFinite xs r') := by
  unfold Machine.requireFinite
  split
  · exact h
  · exact .error _

theorem Agree.withUnit (u : BitVec 4) {k k' : ToneUnit → Result} (h : ∀ t, Agree (k t) (k' t)) :
    Agree (withUnit u k) (withUnit u k') := by
  unfold Machine.withUnit
  split
  · exact h _
  · exact .error _

theorem Agree.withImm {α : Type} (o : Option α) {k k' : α → Result} (h : ∀ a, Agree (k a) (k' a)) :
    Agree (withImm o k) (withImm o k') := by
  unfold Machine.withImm
  split
  · exact h _
  · exact .error _

theorem Agree.andThen {k k' : Block → Word → Result} (h : Agree r r')
    (hk : ∀ b b' w, SameValid b b' → Agree (k b w) (k' b' w)) : Agree (r.andThen k) (r'.andThen k') := by
  cases h with
  | ok w hb => exact hk _ _ w hb
  | error f => exact .error f

/-- A check that both runs make alike. -/
theorem Agree.ite {p : Prop} [Decidable p] {a a' : Result} (h : p → Agree r r') (h' : ¬ p → Agree a a') :
    Agree (if p then r else a) (if p then r' else a') := by
  split
  · exact h ‹_›
  · exact h' ‹_›

end

/-! ## The commands -/

/-- 42_biquad_cascade.md R157: a section reads its own cells. -/
theorem section2_agree {coef coef' z z' : Memory} {j k n : Nat} (d : F64) (hcoef : SameCellsBelow coef coef' k)
    (hz : SameCellsBelow z z' n) (hk : 4 * j + 4 ≤ k) (hn : 2 * j + 2 ≤ n) :
    (section2 coef' z' j d).2 = (section2 coef z j d).2 ∧
      SameCellsBelow (section2 coef z j d).1 (section2 coef' z' j d).1 n := by
  simp only [section2]
  rw [hcoef (4 * j) (by omega), hcoef (4 * j + 1) (by omega), hcoef (4 * j + 2) (by omega),
    hcoef (4 * j + 3) (by omega), hz (2 * j) (by omega), hz (2 * j + 1) (by omega)]
  exact ⟨rfl, (hz.write _ _).write _ _⟩

/-- R158: the trailing section reads its own cells. -/
theorem section1_agree {coef coef' z z' : Memory} {j k n : Nat} (d : F64) (hcoef : SameCellsBelow coef coef' k)
    (hz : SameCellsBelow z z' n) (hk : 4 * j + 2 ≤ k) (hn : 2 * j + 1 ≤ n) :
    (section1 coef' z' j d).2 = (section1 coef z j d).2 ∧
      SameCellsBelow (section1 coef z j d).1 (section1 coef' z' j d).1 n := by
  simp only [section1]
  rw [hcoef (4 * j) (by omega), hcoef (4 * j + 1) (by omega), hz (2 * j) (by omega)]
  exact ⟨rfl, hz.write _ _⟩

/-- R159: `n` sections from section `j` on read cells of sections below `j + n`. -/
theorem sectionsFrom_agree {coef coef' : Memory} {k c : Nat} (hcoef : SameCellsBelow coef coef' k) (n : Nat) :
    ∀ (j : Nat) (z z' : Memory) (d : F64), SameCellsBelow z z' c → 4 * (j + n) ≤ k → 2 * (j + n) ≤ c →
      (sectionsFrom coef' n j (z', d)).2 = (sectionsFrom coef n j (z, d)).2 ∧
        SameCellsBelow (sectionsFrom coef n j (z, d)).1 (sectionsFrom coef' n j (z', d)).1 c := by
  induction n with
  | zero => exact fun j z z' d hz _ _ => ⟨rfl, hz⟩
  | succ n ih =>
    intro j z z' d hz hk hc
    obtain ⟨hout, hz1⟩ := section2_agree d hcoef hz (j := j) (by omega) (by omega)
    have hrest := ih (j + 1) _ _ (section2 coef z j d).2 hz1 (by omega) (by omega)
    rw [sectionsFrom, sectionsFrom]
    rwa [← Prod.mk.eta (p := section2 coef' z' j d), hout]

/-- R159: a run of the cascade reads the cells its order makes valid. -/
theorem SameCascade.run {q q' : Biquad} (h : SameCascade q q') (x : F64) : (q'.run x).2 = (q.run x).2 ∧
    SameCellsBelow (q.run x).1 (q'.run x).1 (2 * (q.order / 2) + q.order % 2) := by
  obtain ⟨hout, hz⟩ := sectionsFrom_agree h.coef (q.order / 2) 0 q.z q'.z x h.z (by omega) (by omega)
  unfold Biquad.run Biquad.sections
  rw [h.order]
  dsimp only
  split
  · rw [hout]
    exact section1_agree _ h.coef hz (by omega) (by omega)
  · exact ⟨hout, hz⟩

/-- 43_circular_fir.md R172: the output reads the taps below `L` and, with `w` below `L`, ring cells below `2L`. -/
theorem convolve_congr {tap tap' ring ring' : Memory} {l w : Nat} (htap : SameCellsBelow tap tap' l)
    (hring : SameCellsBelow ring ring' (2 * l)) (hw : w < l) : convolve tap' ring' l w = convolve tap ring l w :=
  List.foldl_ext _ _ _ fun acc k hk => by
    have hlt := List.mem_range.1 hk
    rw [htap k hlt, hring (w + l - k) (by omega)]

section
variable {b b' : Block} (h : SameValid b b')
include h

theorem storeDesign_agree (cells : List F64) : Agree (storeDesign cells b) (storeDesign cells b') :=
  .requireFinite _ (.ok _ (sameValid_withOb h (sameCellsBelow_writeFrom _ _ le_rfl)))

theorem firDesign_agree (imm : BitVec 16) (tapCount : Word) :
    Agree (firDesign numerics imm tapCount b) (firDesign numerics imm tapCount b') := by
  refine .withImm _ fun kind => ?_
  simp only [sameValid_params h, sameValid_argReg h]
  split
  · exact .error _
  · exact storeDesign_agree h _

theorem iirDesign_agree (imm : BitVec 16) : Agree (iirDesign numerics imm b) (iirDesign numerics imm b') := by
  refine .withImm _ fun (n, cheb) => ?_
  simp only [sameValid_params h, sameValid_argReg h]
  split
  · exact .error _
  · exact storeDesign_agree h _

theorem obPush_agree (v : Word) : Agree (obPush v b) (obPush v b') := by
  unfold obPush
  rw [sameValid_obLen h, sameValid_params h]
  refine .ite (fun _ => .error _) fun _ => .ok _ (sameValid_withOb h ?_)
  exact sameCellsBelow_write_of_ne (fun j hj hne => h.ob j (by omega)) v

theorem obRead_agree (imm : BitVec 16) : Agree (obRead imm b) (obRead imm b') := by
  unfold obRead
  rw [sameValid_obLen h]
  refine .ite (fun _ => .error _) fun hlt => ?_
  rw [h.ob _ (by omega)]
  exact .ok _ h

theorem regRead_agree (imm : BitVec 16) : Agree (regRead imm b) (regRead imm b') := by
  unfold regRead
  rw [sameValid_registerValue h]
  exact .withImm _ fun v => .ok v h

theorem firCreate_agree : Agree (firCreate b) (firCreate b') := by
  unfold firCreate
  rw [sameValid_obLen h, sameValid_params h, sameValid_obCells h]
  refine .ite (fun _ => .error _) fun _ => .requireFinite _ (.ok _ (sameValid_withFir h rfl rfl ?_ ?_))
  · exact sameCellsBelow_writeFrom _ _ (Memory.length_cells _ _).ge
  · exact sameCellsBelow_writeFrom _ _ List.length_replicate.ge

theorem firProc_agree (x : F64) (hw : 0 < b.fir.l → b.fir.w < b.fir.l) : Agree (firProc x b) (firProc x b') := by
  have hring : SameCellsBelow (b.fir.record x) (b'.fir.record x) (2 * b.fir.l) := by
    rw [Fir.record, Fir.record, sameValid_fir_w h, sameValid_fir_l h]
    exact (SameCellsBelow.write h.ring _ _).write _ _
  unfold firProc
  rw [sameValid_fir_l h, sameValid_fir_w h]
  refine .ite (fun _ => .error _) fun hbound => .requireFinite _ ?_
  have hout : b'.fir.output x = b.fir.output x := by
    rw [Fir.output, Fir.output, sameValid_fir_l h, sameValid_fir_w h]
    exact convolve_congr h.tap hring (hw (Nat.pos_of_ne_zero hbound))
  rw [hout]
  exact .requireFinite _ (.ok _ (sameValid_withFir h (sameValid_fir_l h) rfl h.tap hring))

theorem resTune_agree (u : ToneUnit) (f fs bw : F64) :
    Agree (resTune numerics u f fs bw b) (resTune numerics u f fs bw b') :=
  .requireFinite _ (.ite (fun _ => .error _) fun _ => .requireFinite _ (.ok _ (sameValid_withRes h u _)))

theorem resStep_agree (u : ToneUnit) (x : F64) : Agree (resStep u x b) (resStep u x b') := by
  unfold resStep
  rw [sameValid_res h]
  exact .ite (fun _ => .error _) fun _ => .requireFinite _ (.requireFinite _ (.ok _ (sameValid_withRes h u _)))

theorem bqBind_agree (u : ToneUnit) : Agree (bqBind u b) (bqBind u b') := by
  unfold bqBind
  rw [sameValid_obLen h, sameValid_params h, sameValid_obCells h]
  refine .ite (fun _ => .error _) fun hlen => .ite (fun _ => .error _) fun _ => .requireFinite _
    (.ok _ (sameValid_withBq h u ⟨rfl, sameCellsBelow_writeFrom _ _ ?_, sameCellsBelow_writeFrom _ _ ?_⟩))
  · simp only [Block.obCells, Memory.length_cells]
    omega
  · simp only [List.length_replicate]
    omega

theorem bqStep_agree (u : ToneUnit) (x : F64) : Agree (bqStep u x b) (bqStep u x b') := by
  have hq := sameCascade_of_sameValid h u
  obtain ⟨hout, hz⟩ := hq.run x
  have hcells : ((b'.bq.get u).run x).1.cells (b'.bq.get u).stateCells =
      ((b.bq.get u).run x).1.cells (b.bq.get u).stateCells := by
    rw [Biquad.stateCells, Biquad.stateCells, hq.order]
    exact hz.cells_eq
  unfold bqStep
  dsimp only
  rw [hcells, hout, hq.order]
  exact .ite (fun _ => .error _) fun _ => .requireFinite _ (.requireFinite _
    (.ok _ (sameValid_withBq h u ⟨rfl, hq.coef, hz⟩)))

theorem agcSetup_agree (target thr : F64) (window : Word) :
    Agree (agcSetup target thr window b) (agcSetup target thr window b') := by
  unfold agcSetup
  rw [sameValid_params h]
  refine .requireFinite _ ?_
  split
  · exact .error _
  · exact .ite (fun _ => .error _) fun _ => .ite (fun _ => .error _) fun _ => .ok _ (sameValid_withAgc h _)

theorem agcTrack_agree (x : F64) : Agree (agcTrack x b) (agcTrack x b') := by
  unfold agcTrack
  rw [sameValid_agc h]
  exact .ite (fun _ => .error _) fun _ => .requireFinite _ (.ok _ (sameValid_withAgc h _))

theorem agcUpdate_agree : Agree (agcUpdate b) (agcUpdate b') := by
  unfold agcUpdate
  rw [sameValid_agc h]
  exact .ite (fun _ => .error _) fun _ => .ok _ (sameValid_withAgc h _)

theorem agcApply_agree (x : F64) : Agree (agcApply x b) (agcApply x b') := by
  unfold agcApply
  rw [sameValid_agc h]
  exact .ite (fun _ => .error _) fun _ => .requireFinite _ (.requireFinite _ (.ok _ h))

theorem syncTiming_agree (imm : BitVec 16) (ticks : Word) : Agree (syncTiming imm ticks b) (syncTiming imm ticks b') := by
  refine .withImm _ fun r => ?_
  rw [sameValid_sync h]
  split
  · exact .error _
  · exact .ok _ (sameValid_withSync h _)

theorem syncTick_agree (le sy ma sp : F64) : Agree (syncTick le sy ma sp b) (syncTick le sy ma sp b') := by
  unfold syncTick
  rw [sameValid_sync h, statusWord, statusWord, Block.withSync_ovf, Block.withSync_ovf, sameValid_ovf h]
  exact .ite (fun _ => .error _) fun _ => .requireFinite _ (.ok _ (sameValid_withSync h _))

/-! ## The sample step -/

theorem stageClip_agree (x : F64) : SameValid (stageClip x b) (stageClip x b') := by
  unfold stageClip
  rw [sameValid_ovf h, sameValid_clipLevel h, sameValid_diag h]
  exact sameValid_withDiag (sameValid_withOvf h _) _

theorem stageFir_agree (x : F64) (hw : 0 < b.fir.l → b.fir.w < b.fir.l) : Agree (stageFir x b) (stageFir x b') :=
  (firProc_agree h x hw).andThen fun c c' y hc => by
    rw [sameValid_diag hc]
    exact .ok _ (sameValid_withDiag hc _)

theorem stageAgc_agree (x : F64) : Agree (stageAgc x b) (stageAgc x b') := by
  refine (agcTrack_agree h x).andThen fun c c' _ hc => Agree.andThen ?_ fun d d' _ hd => ?_
  · rw [sameValid_agc hc]
    exact .ite (fun _ => agcUpdate_agree hc) fun _ => .ok _ hc
  · refine (agcApply_agree hd x).andThen fun e e' y he => ?_
    rw [sameValid_diag he]
    exact .ok _ (sameValid_withDiag he _)

theorem stageTone_agree (u : ToneUnit) (x : F64) : Agree (stageTone u x b) (stageTone u x b') :=
  (resStep_agree h u x).andThen fun c c' r hc => (bqStep_agree hc u (fAbs r)).andThen fun d d' e hd => by
    rw [sameValid_diag hd]
    exact .ok _ (sameValid_withDiag hd _)

theorem stageTones_agree (x : F64) : Agree (stageTones x b) (stageTones x b') :=
  (stageTone_agree h .leader x).andThen fun _ _ le h1 => (stageTone_agree h1 .sync x).andThen fun _ _ sy h2 =>
    (stageTone_agree h2 .mark x).andThen fun _ _ ma h3 => (stageTone_agree h3 .space x).andThen fun _ _ sp h4 =>
      syncTick_agree h4 le sy ma sp

theorem pipeSample_agree (x : F64) (hw : 0 < b.fir.l → b.fir.w < b.fir.l) :
    Agree (pipeSample x b) (pipeSample x b') := by
  unfold pipeSample sampleStep
  rw [sameValid_configured h, sameValid_clipLevel h]
  exact .ite (fun _ => .error _) fun _ => .requireFinite _
    ((stageFir_agree (stageClip_agree h x) _ hw).andThen fun _ _ x2 h1 => (stageAgc_agree h1 x2).andThen
      fun _ _ x3 h2 => stageTones_agree h2 x3)

/-! ## Every command -/

theorem effect_agree (i : Instr) (hw : 0 < b.fir.l → b.fir.w < b.fir.l) : Agree (effect i b) (effect i b') := by
  cases i with
  | argSet imm v => exact .withImm _ fun i => .ok _ (sameValid_withArg h i v)
  | obClear => exact .ok _ (sameValid_withOb h nofun)
  | obPush v => exact obPush_agree h v
  | obRead imm => exact obRead_agree h imm
  | regRead imm => exact regRead_agree h imm
  | firDesign imm tapCount => exact firDesign_agree h imm tapCount
  | iirDesign imm => exact iirDesign_agree h imm
  | firCreate => exact firCreate_agree h
  | firProc x => exact firProc_agree h x hw
  | resSetfreq u =>
    simp only [effect, resSetfreq, sameValid_argReg h]
    exact .withUnit _ fun t => resTune_agree h t _ _ _
  | resProc u x => exact .withUnit _ fun t => resStep_agree h t x
  | bqLoad u => exact .withUnit _ fun t => bqBind_agree h t
  | bqProc u x => exact .withUnit _ fun t => bqStep_agree h t x
  | agcConfig window =>
    simp only [effect, agcConfig, sameValid_argReg h]
    exact agcSetup_agree h _ _ _
  | agcTrack x => exact agcTrack_agree h x
  | agcUpdate => exact agcUpdate_agree h
  | agcApply x => exact agcApply_agree h x
  | syncPreset imm =>
    simp only [effect, syncPreset, sameValid_sync h]
    exact .withImm _ fun p => .ok _ (sameValid_withSync h _)
  | syncTiming imm ticks => exact syncTiming_agree h imm ticks
  | syncStep =>
    simp only [effect, syncStep, sameValid_argReg h]
    exact syncTick_agree h _ _ _ _
  | syncReset =>
    simp only [effect, syncReset, sameValid_sync h]
    exact .ok _ (sameValid_withSync h _)
  | pipeSampleI16 imm => exact pipeSample_agree h _ hw
  | pipeSampleF64 x => exact pipeSample_agree h x hw
  | pipeReset =>
    simp only [effect, sameValid_params h]
    exact .ok _ (sameValid_refl _)

end

/-- Two results that agree complete with the same answer. -/
theorem Agree.complete {s s' t t' : State} {r r' : Result} (h : Agree r r') (hs : SameValid s.block s'.block)
    (ht : s.complete r = .next t) (ht' : s'.complete r' = .next t') :
    t'.status = t.status ∧ t'.rdata = t.rdata ∧ SameValid t.block t'.block := by
  cases h with
  | ok w hb => cases ht; cases ht'; exact ⟨rfl, rfl, hb⟩
  | error f => cases ht; cases ht'; exact ⟨rfl, rfl, hs⟩

/-- Settles O59: the two runs of a command agree, so their answers and the blocks they leave do. -/
theorem readsStayInTheirSpaces : Obligations.ReadsStayInTheirSpaces := by
  unfold Obligations.ReadsStayInTheirSpaces
  intro i s s' t t' hs hw ht ht'
  rw [exec_eq_complete] at ht ht'
  exact (effect_agree hs i hw).complete hs ht ht'

end Sys2Proof.Proofs
end

section
/-!
PROOF. The encoding of the commands (30_encoding.md R81 to R95): each opcode has one format, the format says which fields
must be zero, and what decodes is what the encoder writes. The proofs go through the fields of a word, not through its bits.
-/

namespace Sys2Proof.Proofs

-- One theorem is elaborated at a time, as in the tests: each further thread takes its own share of the memory limit.
set_option Elab.async false

open Sys2Proof Sys2Proof.Machine Sys2Proof.Safety

/-! ## The fields of a word -/

/-- 30_encoding.md R81: with `RSV` 0, the other three fields are the whole word. -/
theorem packCw_fields {cw : BitVec 32} (h : fieldRsv cw = 0#4) : packCw (fieldOp cw) (fieldU cw) (fieldImm cw) = cw := by
  have hrsv : cw.toNat / 2 ^ 12 % 2 ^ 4 = 0 := by
    have := congrArg BitVec.toNat h
    rwa [fieldRsv, BitVec.extractLsb'_toNat, Nat.shiftRight_eq_div_pow] at this
  apply BitVec.eq_of_toNat_eq
  simp only [Laws.toNat_packCw, fieldOp, fieldU, fieldImm, BitVec.extractLsb'_toNat, Nat.shiftRight_eq_div_pow]
  have := cw.isLt
  omega

section
variable {t : Transaction}

theorem decode_of_rsv_zero (h : fieldRsv t.cw = 0#4) :
    decode t = decodeFields (fieldOp t.cw) (fieldU t.cw) (fieldImm t.cw) t.wdata := if_pos h

/-- R91 (1): `RSV` is looked at before the opcode. -/
theorem decode_of_rsv_ne_zero (h : fieldRsv t.cw ≠ 0#4) : decode t = .error .illegalCommand := if_neg h

theorem rsv_zero_of_decode {i : Instr} (h : decode t = .ok i) : fieldRsv t.cw = 0#4 := by
  by_contra hrsv
  rw [decode_of_rsv_ne_zero hrsv] at h
  cases h

end

/-! ## The three formats (R82) -/

section
variable {u : BitVec 4} {imm : BitVec 16} {i j : Instr}

theorem formatN_eq_ok_iff : formatN u imm i = .ok j ↔ (u = 0#4 ∧ imm = 0#16) ∧ i = j := by
  unfold formatN
  split <;> simp_all

theorem formatU_eq_ok_iff : formatU imm i = .ok j ↔ imm = 0#16 ∧ i = j := by
  unfold formatU
  split <;> simp_all

theorem formatI_eq_ok_iff : formatI u i = .ok j ↔ u = 0#4 ∧ i = j := by
  unfold formatI
  split <;> simp_all

theorem formatN_of_not_zero (h : u ≠ 0#4 ∨ imm ≠ 0#16) : formatN u imm i = .error .illegalCommand :=
  if_neg (not_and_or.2 h)

theorem formatU_of_not_zero (h : imm ≠ 0#16) : formatU imm i = .error .illegalCommand := if_neg h

theorem formatI_of_not_zero (h : u ≠ 0#4) : formatI u i = .error .illegalCommand := if_neg h

end

/-! ## The opcode map (R85) -/

/-- The opcodes of format N. -/
def opcodesN : List (BitVec 8) :=
  [0x02#8, 0x03#8, 0x20#8, 0x21#8, 0x50#8, 0x51#8, 0x52#8, 0x53#8, 0x62#8, 0x63#8, 0x71#8, 0x7F#8]

/-- The opcodes of format U. -/
def opcodesU : List (BitVec 8) := [0x30#8, 0x31#8, 0x40#8, 0x41#8]

/-- The opcodes of format I. -/
def opcodesI : List (BitVec 8) := [0x01#8, 0x04#8, 0x05#8, 0x10#8, 0x11#8, 0x60#8, 0x61#8, 0x70#8]

section
variable {op : BitVec 8} (u : BitVec 4) (imm : BitVec 16) (w : Word)

/-- A row of format N: the command, and the word the encoder writes for it. -/
theorem decodeFields_of_mem_opcodesN (h : op ∈ opcodesN) : ∃ i, decodeFields op u imm w = formatN u imm i ∧
    encode i = ⟨packCw op 0#4 0#16, if readsWdata i then w else 0#64⟩ := by
  fin_cases h <;> exact ⟨_, rfl, rfl⟩

/-- A row of format U: the command, its encoding, and the check of the unit before all else (R91 (4)). -/
theorem decodeFields_of_mem_opcodesU (h : op ∈ opcodesU) : ∃ i, decodeFields op u imm w = formatU imm i ∧
    encode i = ⟨packCw op u 0#16, if readsWdata i then w else 0#64⟩ ∧ ∀ b, ∃ k, effect i b = withUnit u k := by
  fin_cases h <;> exact ⟨_, rfl, rfl, fun _ => ⟨_, rfl⟩⟩

/-- A row of format I: the command, and the word the encoder writes for it. -/
theorem decodeFields_of_mem_opcodesI (h : op ∈ opcodesI) : ∃ i, decodeFields op u imm w = formatI u i ∧
    encode i = ⟨packCw op 0#4 imm, if readsWdata i then w else 0#64⟩ := by
  fin_cases h <;> exact ⟨_, rfl, rfl⟩

/-- R86: every other opcode is reserved. -/
theorem decodeFields_of_reserved (hN : op ∉ opcodesN) (hU : op ∉ opcodesU) (hI : op ∉ opcodesI) :
    decodeFields op u imm w = .error .illegalCommand := by
  unfold decodeFields
  split
  case h_25 => rfl
  case h_1 | h_4 | h_5 | h_6 | h_7 | h_18 | h_19 | h_22 => exact absurd (by decide) hI
  case h_10 | h_11 | h_12 | h_13 => exact absurd (by decide) hU
  all_goals exact absurd (by decide) hN

end

/-! ## Encoding and decoding -/

/-- Settles O5: a packed word gives back its fields, and each command's fields are zero where its format wants it. -/
theorem decodeOfEncode : Obligations.DecodeOfEncode := by
  unfold Obligations.DecodeOfEncode
  intro i
  cases i with
  | obClear | obPush | firCreate | firProc | agcConfig | agcTrack | agcUpdate | agcApply | syncStep | syncReset
  | pipeSampleF64 | pipeReset => exact (decode_packCw _ _ _ _).trans (formatN_eq_ok_iff.2 ⟨⟨rfl, rfl⟩, rfl⟩)
  | resSetfreq u | resProc u x | bqLoad u | bqProc u x =>
    exact (decode_packCw _ _ _ _).trans (formatU_eq_ok_iff.2 ⟨rfl, rfl⟩)
  | argSet imm | obRead imm | regRead imm | firDesign imm | iirDesign imm | syncPreset imm | syncTiming imm
  | pipeSampleI16 imm => exact (decode_packCw _ _ _ _).trans (formatI_eq_ok_iff.2 ⟨rfl, rfl⟩)

/-- The fields that decode to a command are those of its encoding. -/
theorem encode_of_decodeFields {op : BitVec 8} {u : BitVec 4} {imm : BitVec 16} {w : Word} {i : Instr}
    (h : decodeFields op u imm w = .ok i) :
    encode i = ⟨packCw op u imm, if readsWdata i then w else 0#64⟩ := by
  by_cases hN : op ∈ opcodesN
  · obtain ⟨i', hdec, henc⟩ := decodeFields_of_mem_opcodesN u imm w hN
    obtain ⟨⟨rfl, rfl⟩, rfl⟩ := formatN_eq_ok_iff.1 (hdec.symm.trans h)
    exact henc
  by_cases hU : op ∈ opcodesU
  · obtain ⟨i', hdec, henc, -⟩ := decodeFields_of_mem_opcodesU u imm w hU
    obtain ⟨rfl, rfl⟩ := formatU_eq_ok_iff.1 (hdec.symm.trans h)
    exact henc
  by_cases hI : op ∈ opcodesI
  · obtain ⟨i', hdec, henc⟩ := decodeFields_of_mem_opcodesI u imm w hI
    obtain ⟨rfl, rfl⟩ := formatI_eq_ok_iff.1 (hdec.symm.trans h)
    exact henc
  · rw [decodeFields_of_reserved u imm w hN hU hI] at h
    cases h

/-- Settles O6: a word with `RSV` 0 is packed from its fields, and those are its command's. -/
theorem encodeOfDecode : Obligations.EncodeOfDecode := by
  unfold Obligations.EncodeOfDecode
  intro t i h
  have hrsv := rsv_zero_of_decode h
  rw [decode_of_rsv_zero hrsv] at h
  rw [encode_of_decodeFields h, packCw_fields hrsv]

/-! ## The step -/

section
variable {s : State} {t : Transaction} {rest : List Transaction}

theorem step_of_decode_ok {i : Instr} (hp : s.pending = t :: rest) (h : decode t = .ok i) : step s = exec i s := by
  simp only [step, hp, h]

theorem step_of_decode_error {f : FaultCode} (hp : s.pending = t :: rest) (h : decode t = .error f) :
    step s = .next (s.takeFault f) := by
  simp only [step, hp, h]

/-- 60_exceptions.md R266: a fault on the first pending transaction, field by field. -/
theorem takeFault_of_pending (hp : s.pending = t :: rest) (f : FaultCode) :
    s.takeFault f = { s with pending := rest, status := statusCode f, rdata := 0#64 } := by
  rw [State.takeFault, hp, List.tail_cons]

/-- 30_encoding.md R80: every command completes, and takes its transaction off the list. -/
theorem exec_next_pending (i : Instr) (s : State) : ∃ s', exec i s = .next s' ∧ s'.pending = s.pending.tail := by
  obtain ⟨s', hs'⟩ := s.complete_next (effect i s.block)
  refine ⟨s', (exec_eq_complete i s).trans hs', ?_⟩
  rcases State.complete_eq_next hs' with ⟨b, w, -, rfl⟩ | ⟨f, -, rfl⟩
  · exact State.answer_pending s b w
  · exact State.takeFault_pending s f

end

/-- Settles O1: a step runs what the transaction decodes to, and every command ends by taking it off the list. -/
theorem stepRunsTheDecodedCommand : Obligations.StepRunsTheDecodedCommand := by
  unfold Obligations.StepRunsTheDecodedCommand
  refine ⟨fun s t rest i hp hdec => ⟨step_of_decode_ok hp hdec, ?_⟩, fun s hp => ?_⟩
  · obtain ⟨s', hexec, hpending⟩ := exec_next_pending i s
    exact ⟨s', hexec, by rw [hpending, hp, List.tail_cons]⟩
  · simp only [step, hp]

/-! ## Refused words -/

/-- 30_encoding.md R86: no block has a unit 4..15. -/
theorem unitOf_of_ge {u : BitVec 4} (h : 4 ≤ u.toNat) : unitOf u = none := by
  have hnone := mt (unitOf_isSome_iff u).1 (by omega)
  rwa [Option.not_isSome_iff_eq_none] at hnone

theorem withUnit_of_ge {u : BitVec 4} (h : 4 ≤ u.toNat) (k : ToneUnit → Result) : withUnit u k = .error .badUnit := by
  rw [withUnit, unitOf_of_ge h]

/-- R86: the fields that make a word illegal. -/
def IllegalFields (op : BitVec 8) (u rsv : BitVec 4) (imm : BitVec 16) : Prop :=
  rsv ≠ 0#4 ∨ (op ∉ opcodesN ∧ op ∉ opcodesU ∧ op ∉ opcodesI) ∨ (op ∈ opcodesN ∧ (u ≠ 0#4 ∨ imm ≠ 0#16)) ∨
    (op ∈ opcodesU ∧ imm ≠ 0#16) ∨ (op ∈ opcodesI ∧ u ≠ 0#4)

/-- What a word has that is not illegal: `RSV` is 0, the opcode has a row, and the row's other fields are 0. -/
theorem not_illegalFields_iff {op : BitVec 8} {u rsv : BitVec 4} {imm : BitVec 16} : ¬ IllegalFields op u rsv imm ↔
    rsv = 0#4 ∧ (op ∈ opcodesN ∨ op ∈ opcodesU ∨ op ∈ opcodesI) ∧ (op ∈ opcodesN → u = 0#4 ∧ imm = 0#16) ∧
      (op ∈ opcodesU → imm = 0#16) ∧ (op ∈ opcodesI → u = 0#4) := by
  unfold IllegalFields
  tauto

section
variable {t : Transaction}

/-- R86, R91: each way to be illegal is found by the check of `RSV`, of the opcode or of its format. -/
theorem decode_of_illegalFields (h : IllegalFields (fieldOp t.cw) (fieldU t.cw) (fieldRsv t.cw) (fieldImm t.cw)) :
    decode t = .error .illegalCommand := by
  by_cases hrsv : fieldRsv t.cw = 0#4
  · rw [decode_of_rsv_zero hrsv]
    rcases h with hne | ⟨hN, hU, hI⟩ | ⟨hN, hbad⟩ | ⟨hU, hbad⟩ | ⟨hI, hbad⟩
    · exact absurd hrsv hne
    · exact decodeFields_of_reserved _ _ _ hN hU hI
    · obtain ⟨i, hdec, -⟩ := decodeFields_of_mem_opcodesN (fieldU t.cw) (fieldImm t.cw) t.wdata hN
      rw [hdec, formatN_of_not_zero hbad]
    · obtain ⟨i, hdec, -⟩ := decodeFields_of_mem_opcodesU (fieldU t.cw) (fieldImm t.cw) t.wdata hU
      rw [hdec, formatU_of_not_zero hbad]
    · obtain ⟨i, hdec, -⟩ := decodeFields_of_mem_opcodesI (fieldU t.cw) (fieldImm t.cw) t.wdata hI
      rw [hdec, formatI_of_not_zero hbad]
  · exact decode_of_rsv_ne_zero hrsv

/-- A word that is not illegal is a command; of format U, it is one whose unit is checked before all else. -/
theorem decode_of_not_illegalFields
    (h : ¬ IllegalFields (fieldOp t.cw) (fieldU t.cw) (fieldRsv t.cw) (fieldImm t.cw)) :
    ∃ i, decode t = .ok i ∧ (fieldOp t.cw ∈ opcodesU → ∀ b, ∃ k, effect i b = withUnit (fieldU t.cw) k) := by
  obtain ⟨hrsv, hrow, hN0, hU0, hI0⟩ := not_illegalFields_iff.1 h
  rw [decode_of_rsv_zero hrsv]
  by_cases hU : fieldOp t.cw ∈ opcodesU
  · obtain ⟨i, hdec, -, hunit⟩ := decodeFields_of_mem_opcodesU (fieldU t.cw) (fieldImm t.cw) t.wdata hU
    exact ⟨i, hdec.trans (formatU_eq_ok_iff.2 ⟨hU0 hU, rfl⟩), fun _ => hunit⟩
  rcases hrow with hN | hU' | hI
  · obtain ⟨i, hdec, -⟩ := decodeFields_of_mem_opcodesN (fieldU t.cw) (fieldImm t.cw) t.wdata hN
    exact ⟨i, hdec.trans (formatN_eq_ok_iff.2 ⟨hN0 hN, rfl⟩), fun hU' => absurd hU' hU⟩
  · exact absurd hU' hU
  · obtain ⟨i, hdec, -⟩ := decodeFields_of_mem_opcodesI (fieldU t.cw) (fieldImm t.cw) t.wdata hI
    exact ⟨i, hdec.trans (formatI_eq_ok_iff.2 ⟨hI0 hI, rfl⟩), fun hU' => absurd hU' hU⟩

end

/-- Settles O3: an illegal word is refused by the decoder, any other is a command, which finds no unit 4..15. -/
theorem illegalWordsAreRefused : Obligations.IllegalWordsAreRefused := by
  unfold Obligations.IllegalWordsAreRefused
  intro cw w s rest hp op u rsv imm formatN formatU formatI illegal
  have hiff : illegal ↔ IllegalFields op u rsv imm := Iff.rfl
  rw [hiff]
  refine ⟨fun hillegal => ?_, fun hlegal => ?_, fun hlegal hU hu => ?_⟩
  · rw [step_of_decode_error hp (decode_of_illegalFields hillegal), takeFault_of_pending hp]
    rfl
  · obtain ⟨i, hdec, -⟩ := decode_of_not_illegalFields (t := ⟨cw, w⟩) hlegal
    exact ⟨i, hdec⟩
  · obtain ⟨i, hdec, hunit⟩ := decode_of_not_illegalFields (t := ⟨cw, w⟩) hlegal
    obtain ⟨k, hk⟩ := hunit hU s.block
    rw [step_of_decode_ok hp hdec, exec_of_fault (hk.trans (withUnit_of_ge hu k)), takeFault_of_pending hp]
    rfl

/-- Settles O4: each word is packed from the fields its row of the table names; one has a non-zero `RSV`. -/
theorem workedEncodingsDecode : Obligations.WorkedEncodingsDecode := by
  unfold Obligations.WorkedEncodingsDecode
  have hrsv : fieldRsv 0x00001021#32 ≠ 0#4 := by decide
  exact ⟨decode_packCw 0x01#8 0#4 1#16 _, decode_packCw 0x31#8 2#4 0#16 _, decode_packCw 0x10#8 0#4 2#16 _, rfl,
    decode_packCw 0x61#8 0#4 3#16 _, rfl, rfl, fun w =>
    ⟨decode_packCw 0x11#8 0#4 2#16 w, rfl, decode_packCw 0x11#8 0#4 0x103#16 w, rfl,
      decode_packCw 0x70#8 0#4 0xFB50#16 w, decode_packCw 0x05#8 0#4 1#16 w, decode_packCw 0x7F#8 0#4 0#16 w,
      decode_of_rsv_ne_zero hrsv, decode_packCw 0x00#8 0#4 0#16 w,
      decode_packCw 0x31#8 4#4 0#16 w,
      fun s => exec_of_fault (i := .resProc 4#4 w) (withUnit_of_ge (u := 4#4) (by decide) (resStep · w s.block))⟩⟩

end Sys2Proof.Proofs
end

section
/-!
PROOF. The step status word (30_encoding.md R92). What it is: every command that ticks the decoder answers with the word
of the tag before the command and the block after it, since no stage of the sample step before the tick touches the
decoder. How it is laid out: bit by bit, from the places of its fields.
-/

namespace Sys2Proof.Proofs

-- One theorem is elaborated at a time, as in the tests: each further thread takes its own share of the memory limit.
set_option Elab.async false

open Sys2Proof Sys2Proof.Machine Sys2Proof.Safety

/-! ## The answer of a stepping command -/

section
variable {x : F64} {b b' : Block} {w : Word}

/-- 45_sync_decoder.md R204: the answer of a tick. -/
theorem syncTick_statusWord {le sy ma sp : F64} (h : syncTick le sy ma sp b = .ok (b', w)) :
    w = statusWord b.sync.tag b' := by
  obtain ⟨-, -, -, ⟨⟩⟩ := syncTick_ok.1 h
  rfl

/-! The stages before the tick leave the decoder as it was (46_pipeline_and_host.md R246). -/

theorem stageFir_sync (h : stageFir x b = .ok (b', w)) : b'.sync = b.sync := by
  obtain ⟨b1, y, hproc, ⟨⟩⟩ := stageFir_ok.1 h
  obtain ⟨-, -, -, ⟨⟩⟩ := firProc_ok.1 hproc
  rfl

theorem agcUpdate_sync (h : agcUpdate b = .ok (b', w)) : b'.sync = b.sync := by
  obtain ⟨-, ⟨⟩⟩ := agcUpdate_ok.1 h
  rfl

theorem stageAgc_sync (h : stageAgc x b = .ok (b', w)) : b'.sync = b.sync := by
  obtain ⟨b1, w1, b2, w2, b3, y, htrack, hwindow, happly, ⟨⟩⟩ := stageAgc_ok.1 h
  obtain ⟨-, -, ⟨⟩⟩ := agcTrack_ok.1 htrack
  obtain ⟨-, -, -, ⟨⟩⟩ := agcApply_ok.1 happly
  split at hwindow
  · exact (agcUpdate_sync hwindow :)
  · cases hwindow
    rfl

theorem stageTone_sync {u : ToneUnit} (h : stageTone u x b = .ok (b', w)) : b'.sync = b.sync := by
  obtain ⟨b1, r, b2, e, hres, hbq, ⟨⟩⟩ := stageTone_ok.1 h
  obtain ⟨-, -, -, ⟨⟩⟩ := resStep_ok.1 hres
  obtain ⟨-, -, -, -, ⟨⟩⟩ := bqStep_ok.1 hbq
  rfl

theorem stageTones_statusWord (h : stageTones x b = .ok (b', w)) : w = statusWord b.sync.tag b' := by
  obtain ⟨b1, le, b2, sy, b3, ma, b4, sp, hle, hsy, hma, hsp, htick⟩ := stageTones_ok.1 h
  rw [syncTick_statusWord htick, stageTone_sync hsp, stageTone_sync hma, stageTone_sync hsy, stageTone_sync hle]

/-- R246: the answer of a sample command is that of its tick. -/
theorem pipeSample_statusWord (h : pipeSample x b = .ok (b', w)) : w = statusWord b.sync.tag b' := by
  obtain ⟨-, -, b1, x2, b2, x3, hfir, hagc, htones⟩ := pipeSample_ok.1 h
  rw [stageTones_statusWord htones, stageAgc_sync hagc, stageFir_sync hfir]
  rfl

end

/-- 30_encoding.md R92: the answer of each of the three stepping commands. -/
theorem rdata_of_stepping {i : Instr} {s t : State}
    (hi : i = .syncStep ∨ (∃ imm, i = .pipeSampleI16 imm) ∨ ∃ x, i = .pipeSampleF64 x)
    (h : exec i s = .next t) (h0 : t.status = 0#8) : t.rdata = statusWord s.block.sync.tag t.block := by
  rw [exec_eq_complete] at h
  rcases State.complete_eq_next h with ⟨b, w, hok, rfl⟩ | ⟨f, -, rfl⟩
  · rcases hi with rfl | ⟨imm, rfl⟩ | ⟨x, rfl⟩
    · exact syncTick_statusWord hok
    · exact pipeSample_statusWord hok
    · exact pipeSample_statusWord hok
  · exact absurd h0 (statusCode_ne_zero f)

/-! ## The layout of the word -/

/-- 10_state.md R33: three bits hold the number of a tag. -/
theorem tagCode_lt (tag : SyncTag) : tagCode tag < 2 ^ 3 := by cases tag <;> decide

theorem testBit_tagCode_of_ge (tag : SyncTag) {i : Nat} (hi : 3 ≤ i) : (tagCode tag).testBit i = false :=
  Nat.testBit_lt_two_pow ((tagCode_lt tag).trans_le (Nat.pow_le_pow_right (by decide) hi))

/-- The tag stands in the word from bit 9 on. -/
theorem getLsbD_tagField (tag : SyncTag) (i : Nat) : (BitVec.ofNat 64 (tagCode tag * 2 ^ 9)).getLsbD i =
    (decide (9 ≤ i) && (tagCode tag).testBit (i - 9)) := by
  rw [BitVec.getLsbD_ofNat, Nat.testBit_mul_two_pow]
  by_cases hi : i < 64
  · simp [hi]
  · simp [hi, testBit_tagCode_of_ge tag (i := i - 9) (by omega)]

/-- R92: every bit of the word, by the places of its fields. -/
theorem getLsbD_statusWord (before : SyncTag) (b : Block) (i : Nat) : (statusWord before b).getLsbD i =
    ((decide (i < 8) && b.sync.visByte.getLsbD i) || (b.sync.visValid && decide (i = 8)) ||
      (decide (9 ≤ i) && (tagCode b.sync.tag).testBit (i - 9)) ||
      (decide (before = .visDecoding ∧ b.sync.tag = .dataWait) && decide (i = 12)) ||
      (decide (before = .visDecoding ∧ b.sync.tag = .idle) && decide (i = 13)) || (b.ovf && decide (i = 14))) := by
  have hbyte : (decide (i < 64) && b.sync.visByte.getLsbD i) = (decide (i < 8) && b.sync.visByte.getLsbD i) := by
    by_cases hi : i < 8
    · simp [hi, show i < 64 by omega]
    · simp [BitVec.getLsbD_of_ge _ i (Nat.le_of_not_lt hi)]
  simp only [statusWord, Sync.visWord, BitVec.getLsbD_or, BitVec.getLsbD_setWidth, hbyte, getLsbD_tagField,
    getLsbD_flagAt, Nat.reduceLT]

section
variable (before : SyncTag) (b : Block)

/-- R92: from bit 12 on the word holds its three flags alone. -/
theorem getLsbD_statusWord_of_ge {i : Nat} (hi : 12 ≤ i) : (statusWord before b).getLsbD i =
    ((decide (before = .visDecoding ∧ b.sync.tag = .dataWait) && decide (i = 12)) ||
      (decide (before = .visDecoding ∧ b.sync.tag = .idle) && decide (i = 13)) || (b.ovf && decide (i = 14))) := by
  have hplace : ¬ i < 8 ∧ i ≠ 8 := by omega
  rw [getLsbD_statusWord, testBit_tagCode_of_ge b.sync.tag (by omega)]
  simp [hplace]

theorem extract_visByte_statusWord : (statusWord before b).extractLsb' 0 8 = b.sync.visByte := by
  apply BitVec.eq_of_getLsbD_eq
  intro i hi
  have h9 : ¬ 9 ≤ i := by omega
  have hplace : i ≠ 8 ∧ i ≠ 12 ∧ i ≠ 13 ∧ i ≠ 14 := by omega
  simp [getLsbD_statusWord, hi, h9, hplace]

theorem extract_tag_statusWord : (statusWord before b).extractLsb' 9 3 = BitVec.ofNat 3 (tagCode b.sync.tag) := by
  apply BitVec.eq_of_getLsbD_eq
  intro i hi
  have hplace : 9 + i ≠ 8 ∧ 9 + i ≠ 12 ∧ 9 + i ≠ 13 ∧ 9 + i ≠ 14 := by omega
  have h8 : ¬ 9 + i < 8 := by omega
  rw [BitVec.getLsbD_ofNat]
  simp [getLsbD_statusWord, hi, h8, hplace]

end

/-- Settles O18: the answer is the status word, and each part of it stands at its place. -/
theorem statusWordLayout : Obligations.StatusWordLayout := by
  unfold Obligations.StatusWordLayout
  intro i s t hi h h0
  rw [rdata_of_stepping hi h h0]
  refine ⟨extract_visByte_statusWord _ _, ?_, ?_, ?_, ?_, ?_, fun j hj => ?_⟩
  · rw [getLsbD_statusWord]
    simp
  · rw [extract_tag_statusWord]
    cases t.block.sync.tag <;> rfl
  · rw [getLsbD_statusWord_of_ge _ _ (by decide)]
    simp
  · rw [getLsbD_statusWord_of_ge _ _ (by decide)]
    simp
  · rw [getLsbD_statusWord_of_ge _ _ (by decide)]
    simp
  · have hplace : j ≠ 12 ∧ j ≠ 13 ∧ j ≠ 14 := by omega
    rw [getLsbD_statusWord_of_ge _ _ (by omega)]
    simp [hplace]

end Sys2Proof.Proofs
end

section
/-!
PROOF. The operand checks of `FIR.DESIGN` and `IIR.DESIGN` (40_filter_designer.md R112, R127): which operands each check
accepts, what it answers to the others, and the command that ends there.
-/

namespace Sys2Proof.Proofs

-- One theorem is elaborated at a time, as in the tests: each further thread takes its own share of the memory limit.
set_option Elab.async false

open Sys2Proof Sys2Proof.Machine Sys2Proof.Safety

/-! ## The check of FIR.DESIGN -/

section
variable {p : Config.Params} {kind : FilterKind} {n : Nat} {fs fLow fHigh a g : F64}

/-- R112: the kinds that have a second cutoff. -/
def IsBand (kind : FilterKind) : Prop := kind = .bandPass ∨ kind = .bandStop

/-- R112, the first check: every operand the kind reads is finite. -/
def FirOperandsFinite (kind : FilterKind) (fs fLow fHigh a g : F64) : Prop :=
  fIsFinite fs = true ∧ fIsFinite fLow = true ∧ fIsFinite a = true ∧ fIsFinite g = true ∧
    (IsBand kind → fIsFinite fHigh = true)

/-- R112, the checks after it: the tap count, the cutoffs and the attenuation are in range. -/
def FirSpecLegal (p : Config.Params) (kind : FilterKind) (n : Nat) (fs fLow fHigh a : F64) : Prop :=
  (n < 2 ^ 32 ∧ 1 ≤ n) ∧ (n % 2 = 0 ∧ n + 1 ≤ p.lMax ∧ n + 1 ≤ p.obMax) ∧
    (fLt 0#64 fLow = true ∧ fLt fLow (fDiv fs Config.two) = true) ∧
    (IsBand kind → fLt 0#64 fHigh = true ∧ fLt fHigh (fDiv fs Config.two) = true ∧ fLt fLow fHigh = true) ∧
    fLe 0#64 a = true

/-- The check of the model on the flag it computes from the kind. -/
theorem firOperandsFinite_iff : FirOperandsFinite kind fs fLow fHigh a g ↔
    fIsFinite fs ∧ fIsFinite fLow ∧ fIsFinite a ∧ fIsFinite g ∧
      (decide (kind = .bandPass ∨ kind = .bandStop) = true → fIsFinite fHigh) := by
  rw [decide_eq_true_iff]
  exact Iff.rfl

theorem firSpecCheck_of_not_finite (h : ¬ FirOperandsFinite kind fs fLow fHigh a g) :
    firSpecCheck p kind n fs fLow fHigh a g = some .nonFinite :=
  if_pos (firOperandsFinite_iff.not.1 h)

theorem firSpecCheck_of_legal (hfin : FirOperandsFinite kind fs fLow fHigh a g)
    (hlegal : FirSpecLegal p kind n fs fLow fHigh a) : firSpecCheck p kind n fs fLow fHigh a g = none := by
  obtain ⟨hcount, hsize, hlow, hband, ha⟩ := hlegal
  rw [firSpecCheck, if_neg (not_not.2 (firOperandsFinite_iff.1 hfin)), if_neg (not_not.2 hcount), if_neg (not_not.2 hsize),
    if_neg (not_not.2 hlow), if_neg fun h => h.2 (hband (of_decide_eq_true h.1 :)), if_neg (not_not.2 ha)]

/-- Past the first check every refusal is `InvalidSpec`: a specification that no test refuses is legal. -/
theorem firSpecCheck_of_not_legal (hfin : FirOperandsFinite kind fs fLow fHigh a g)
    (hlegal : ¬ FirSpecLegal p kind n fs fLow fHigh a) :
    firSpecCheck p kind n fs fLow fHigh a g = some .invalidSpec := by
  rw [firSpecCheck, if_neg (not_not.2 (firOperandsFinite_iff.1 hfin))]
  split_ifs with hcount hsize hlow hband ha
  · rfl
  · have hhigh : IsBand kind → fLt 0#64 fHigh = true ∧ fLt fHigh (fDiv fs Config.two) = true ∧ fLt fLow fHigh = true :=
      fun hkind => not_not.1 fun hbad => hband ⟨decide_eq_true hkind, hbad⟩
    exact absurd ⟨hcount, hsize, hlow, hhigh, ha⟩ hlegal
  all_goals rfl

/-- R111: a refused specification gives no taps. -/
theorem firTaps_of_refused {nm : Config.Numerics} {f : FaultCode} (h : firSpecCheck p kind n fs fLow fHigh a g = some f) :
    firTaps nm p kind n fs fLow fHigh a g = .error f := by
  rw [firTaps, h]

end

/-! ## The check of IIR.DESIGN -/

section
variable {p : Config.Params} {n : Nat} {cheb : Bool} {fc fs r : F64}

theorem iirSpecCheck_of_bad_order (h : ¬ (1 ≤ n ∧ n ≤ p.orderMax)) :
    iirSpecCheck p n cheb fc fs r = some .invalidOrder := by
  unfold iirSpecCheck
  by_cases hpos : n < 1
  · rw [if_pos hpos]
  · rw [if_neg hpos, if_pos (by omega)]

theorem iirSpecCheck_of_not_finite (horder : 1 ≤ n ∧ n ≤ p.orderMax)
    (h : ¬ (fIsFinite fc = true ∧ fIsFinite fs = true ∧ (cheb = true → fIsFinite r = true))) :
    iirSpecCheck p n cheb fc fs r = some .nonFinite := by
  rw [iirSpecCheck, if_neg (by omega), if_neg (by omega), if_pos h]

theorem iirSpecCheck_of_not_legal (horder : 1 ≤ n ∧ n ≤ p.orderMax)
    (hfin : fIsFinite fc = true ∧ fIsFinite fs = true ∧ (cheb = true → fIsFinite r = true))
    (h : ¬ (fLt 0#64 fs = true ∧ (fLt 0#64 fc = true ∧ fLt fc (fDiv fs Config.two) = true) ∧
      (cheb = true → fLt 0#64 r = true))) :
    iirSpecCheck p n cheb fc fs r = some .invalidSpec := by
  rw [iirSpecCheck, if_neg (by omega), if_neg (by omega), if_neg (not_not.2 hfin)]
  by_cases hrate : fLt 0#64 fs = true ∧ fLt 0#64 fc = true ∧ fLt fc (fDiv fs Config.two) = true
  · obtain ⟨hfs, hfc⟩ := hrate
    have hripple : ¬ (cheb = true → fLt 0#64 r = true) := fun hr => h ⟨hfs, hfc, hr⟩
    rw [if_neg (not_not.2 ⟨hfs, hfc⟩), if_pos (Classical.not_imp.1 hripple)]
  · rw [if_pos hrate]

end

/-! ## The commands -/

/-- 30_encoding.md R88: `IMM[15:2]` of `FIR.DESIGN` must be 0. -/
theorem filterKindOf_of_ge {imm : BitVec 16} (h : 4 ≤ imm.toNat) : filterKindOf imm = none := by
  unfold filterKindOf
  split
  case h_5 => rfl
  all_goals omega

/-- 30_encoding.md R88: `IMM[15:9]` of `IIR.DESIGN` must be 0. -/
theorem iirFieldsOf_of_ge {imm : BitVec 16} (h : 512 ≤ imm.toNat) : iirFieldsOf imm = none :=
  if_neg (Nat.not_lt.2 h)

section
variable {imm : BitVec 16} {tapCount : Word} {s : State}

theorem exec_firDesign_of_reserved (h : filterKindOf imm = none) :
    exec (.firDesign imm tapCount) s = .next (s.takeFault .badIndex) := by
  rw [exec, execFirDesign, firDesign, h]
  rfl

/-- R111: a fault in the computation of the taps ends the command. -/
theorem exec_firDesign_of_error {kind : FilterKind} {f : FaultCode} (hkind : filterKindOf imm = some kind)
    (h : firTaps numerics s.block.params kind tapCount.toNat s.block.arg[0] s.block.arg[1] s.block.arg[2]
      s.block.arg[3] s.block.arg[4] = .error f) :
    exec (.firDesign imm tapCount) s = .next (s.takeFault f) := by
  change firTaps numerics s.block.params kind tapCount.toNat (s.block.argReg 0) (s.block.argReg 1) (s.block.argReg 2)
    (s.block.argReg 3) (s.block.argReg 4) = .error f at h
  rw [exec, execFirDesign, firDesign, hkind, withImm, h]
  rfl

/-- R122: the taps are stored. -/
theorem exec_firDesign_of_ok {kind : FilterKind} {taps : List F64} (hkind : filterKindOf imm = some kind)
    (h : firTaps numerics s.block.params kind tapCount.toNat s.block.arg[0] s.block.arg[1] s.block.arg[2]
      s.block.arg[3] s.block.arg[4] = .ok taps) :
    exec (.firDesign imm tapCount) s = s.complete (storeDesign taps s.block) := by
  change firTaps numerics s.block.params kind tapCount.toNat (s.block.argReg 0) (s.block.argReg 1) (s.block.argReg 2)
    (s.block.argReg 3) (s.block.argReg 4) = .ok taps at h
  rw [exec, execFirDesign, firDesign, hkind, withImm, h]

theorem exec_iirDesign_of_reserved (h : iirFieldsOf imm = none) :
    exec (.iirDesign imm) s = .next (s.takeFault .badIndex) := by
  rw [exec, execIirDesign, iirDesign, h]
  rfl

theorem exec_iirDesign_of_refused {n : Nat} {cheb : Bool} {f : FaultCode} (hfields : iirFieldsOf imm = some (n, cheb))
    (h : iirSpecCheck s.block.params n cheb s.block.arg[0] s.block.arg[1] s.block.arg[2] = some f) :
    exec (.iirDesign imm) s = .next (s.takeFault f) := by
  change iirSpecCheck s.block.params n cheb (s.block.argReg 0) (s.block.argReg 1) (s.block.argReg 2) = some f at h
  rw [exec, execIirDesign, iirDesign, hfields, withImm]
  dsimp only
  rw [h]
  rfl

end

/-! ## The refusals -/

/-- Settles O21: a reserved kind, then the two outcomes of the checks. -/
theorem firDesignRefusals : Obligations.FirDesignRefusals := by
  unfold Obligations.FirDesignRefusals
  refine ⟨fun imm tapCount s h => exec_firDesign_of_reserved (filterKindOf_of_ge h), fun kind imm tapCount s hkind => ?_⟩
  exact ⟨fun hfin => exec_firDesign_of_error hkind (firTaps_of_refused (firSpecCheck_of_not_finite hfin)),
    fun hfin hlegal => exec_firDesign_of_error hkind (firTaps_of_refused (firSpecCheck_of_not_legal hfin hlegal))⟩

/-- Settles O24: a reserved immediate, then the three outcomes of the checks. -/
theorem iirDesignRefusals : Obligations.IirDesignRefusals := by
  unfold Obligations.IirDesignRefusals
  refine ⟨fun imm s h => exec_iirDesign_of_reserved (iirFieldsOf_of_ge h), fun imm s himm => ?_⟩
  have hfields := iirFieldsOf_of_lt himm
  exact ⟨fun horder => exec_iirDesign_of_refused hfields (iirSpecCheck_of_bad_order horder),
    fun horder hfin => exec_iirDesign_of_refused hfields (iirSpecCheck_of_not_finite horder hfin),
    fun horder hfin hlegal => exec_iirDesign_of_refused hfields (iirSpecCheck_of_not_legal horder hfin hlegal)⟩

end Sys2Proof.Proofs
end

section
/-!
PROOF. The taps of `FIR.DESIGN` as a list (40_filter_designer.md R111, R117 to R121): the half array by distance from the
centre, the sum that normalises it, and where each value stands in the mirrored array.
-/

namespace Sys2Proof.Proofs

-- One theorem is elaborated at a time, as in the tests: each further thread takes its own share of the memory limit.
set_option Elab.async false

open Sys2Proof Sys2Proof.Machine Sys2Proof.Safety

/-! ## The mirrored array (R121) -/

/-- A mirrored array reads the same from both ends. -/
theorem reverse_mirror (h : List F64) : (mirror h).reverse = mirror h := by
  cases h with
  | nil => rfl
  | cons c rest => simp [mirror]

theorem mem_mirror {h : List F64} {x : F64} : x ∈ mirror h ↔ x ∈ h := by
  rw [mirror, List.mem_append, List.mem_reverse]
  exact ⟨fun hx => hx.elim List.mem_of_mem_tail id, Or.inr⟩

/-- Past the left half stands the half array itself. -/
theorem getElem?_mirror (h : List F64) (j : Nat) : (mirror h)[h.length - 1 + j]? = h[j]? := by
  rw [mirror, List.getElem?_append_right (by simp), List.length_reverse, List.length_tail, Nat.add_sub_cancel_left]

section
variable (tap : Nat → F64) {m : Nat}

/-- The array whose element at distance `j` from the centre is `tap j`, for the distances 0 to `m`. -/
def mirroredTaps (m : Nat) : List F64 := mirror ((List.range (m + 1)).map tap)

theorem length_mirroredTaps : (mirroredTaps tap m).length = 2 * m + 1 := by
  rw [mirroredTaps, length_mirror, List.length_map, List.length_range]
  omega

theorem forall_mirroredTaps {P : F64 → Prop} : (∀ x ∈ mirroredTaps tap m, P x) ↔ ∀ j ≤ m, P (tap j) := by
  simp only [mirroredTaps, mem_mirror, List.forall_mem_map, List.mem_range, Nat.lt_succ_iff]

theorem mirroredTaps_right {j : Nat} (hj : j ≤ m) : (mirroredTaps tap m)[m + j]? = some (tap j) := by
  have h := getElem?_mirror ((List.range (m + 1)).map tap) j
  rw [List.length_map, List.length_range, Nat.add_sub_cancel] at h
  rw [mirroredTaps, h, List.getElem?_map, List.getElem?_range (Nat.lt_succ_of_le hj), Option.map_some]

theorem mirroredTaps_left {j : Nat} (hj : j ≤ m) : (mirroredTaps tap m)[m - j]? = some (tap j) := by
  have hlen := length_mirroredTaps tap (m := m)
  rw [mirroredTaps, ← reverse_mirror, ← mirroredTaps, List.getElem?_reverse (by omega), hlen,
    show 2 * m + 1 - 1 - (m - j) = m + j by omega, mirroredTaps_right tap hj]

end

/-! ## The half array -/

/-- R118: the sum of a half array given by distance. -/
theorem mirroredSum_map_range (h : Nat → F64) (m : Nat) : mirroredSum ((List.range (m + 1)).map h) =
    (List.range m).foldl (fun acc j => fAdd acc (fMul Config.two (h (j + 1)))) (h 0) := by
  rw [List.range_succ_eq_map, List.map_cons, mirroredSum, List.map_map, List.foldl_map]
  rfl

section
variable (nm : Config.Numerics) (kind : FilterKind) (n : Nat) (fs fLow fHigh a g : F64)

/-- R113 to R117: the windowed ideal response of the prototype at distance `j`. -/
def prototypeTap : Nat → F64 := idealTap nm fs (prototypeCutoff kind fs fLow fHigh) (kaiserAlpha nm a) n

/-- R118: the sum that normalises the design. -/
def prototypeSum : F64 :=
  (List.range (n / 2)).foldl
    (fun acc j => fAdd acc (fMul Config.two (prototypeTap nm kind n fs fLow fHigh a (j + 1))))
    (prototypeTap nm kind n fs fLow fHigh a 0)

/-- R118 to R120: the tap at distance `j`: normalised, scaled by the gain, transformed to the band. -/
def designedTap (j : Nat) : F64 :=
  bandTap nm kind (fDiv (fMul Config.pi (fAdd fLow fHigh)) fs) j
    (fMul (fDiv (prototypeTap nm kind n fs fLow fHigh a j) (prototypeSum nm kind n fs fLow fHigh a)) g)

/-- The half array of a design is its taps by distance. -/
theorem bandTransform_normalised : bandTransform nm kind fs fLow fHigh
      ((((List.range (n / 2 + 1)).map (prototypeTap nm kind n fs fLow fHigh a)).map
        (fDiv · (prototypeSum nm kind n fs fLow fHigh a))).map (fMul · g)) =
    (List.range (n / 2 + 1)).map (designedTap nm kind n fs fLow fHigh a g) := by
  apply List.ext_getElem
  · simp only [bandTransform, List.length_mapIdx, List.length_map]
  · intro j hj hj'
    simp only [bandTransform, List.getElem_mapIdx, List.getElem_map, List.getElem_range, designedTap]

variable {nm kind n fs fLow fHigh a g} {p : Config.Params}

/-- R111: the taps of an accepted specification. -/
theorem firTaps_of_accepted (h : firSpecCheck p kind n fs fLow fHigh a g = none) :
    firTaps nm p kind n fs fLow fHigh a g =
      if fLt 0#64 (prototypeSum nm kind n fs fLow fHigh a) then
        .ok (mirroredTaps (designedTap nm kind n fs fLow fHigh a g) (n / 2))
      else .error .invalidSpec := by
  rw [mirroredTaps, ← bandTransform_normalised, prototypeSum, ← mirroredSum_map_range, firTaps, h]
  rfl

/-- R111, read backwards: every list of taps is such an array. -/
theorem firTaps_ok {taps : List F64} (h : firTaps nm p kind n fs fLow fHigh a g = .ok taps) :
    taps = mirroredTaps (designedTap nm kind n fs fLow fHigh a g) (n / 2) := by
  cases hcheck : firSpecCheck p kind n fs fLow fHigh a g with
  | some f => rw [firTaps_of_refused hcheck] at h; cases h
  | none =>
    rw [firTaps_of_accepted hcheck] at h
    split at h
    · exact (Except.ok.inj h).symm
    · cases h

end

/-! ## Symmetry (R123) -/

/-- In a list that is its own reversal, cells at equal distances from the two ends are equal. -/
theorem getElem_symm_of_reverse_eq {l : List F64} (h : l.reverse = l) {i : Nat} (hi : i < l.length) :
    l[i] = l[l.length - 1 - i] := by
  have hget := List.getElem_reverse (l := l) (i := i) (by rwa [List.length_reverse])
  rwa [List.getElem_of_eq h] at hget

/-- Settles O22: an executed design left a mirrored array in `OB`. -/
theorem firDesignTapsAreSymmetric : Obligations.FirDesignTapsAreSymmetric := by
  unfold Obligations.FirDesignTapsAreSymmetric
  intro imm tapCount s t hexec hstatus i hi
  obtain ⟨kind, taps, -, htaps, hob⟩ := ob_of_firDesign_executed hexec hstatus
  have hlen := length_firTaps htaps
  have hsymm : taps.reverse = taps := by rw [firTaps_ok htaps, mirroredTaps, reverse_mirror]
  have hleft : i < taps.length := by omega
  have hright : tapCount.toNat - i < taps.length := by omega
  rw [hob, hob, List.getD_eq_getElem _ _ hleft, List.getD_eq_getElem _ _ hright, getElem_symm_of_reverse_eq hsymm hleft]
  simp only [hlen, Nat.add_sub_cancel]

end Sys2Proof.Proofs
end

section
/-!
PROOF. `FIR.DESIGN` on a legal specification (40_filter_designer.md R113 to R122): the model's `I0` is the loop of R115, the
Kaiser parameter is finite, the corners of the window, and what the command does with the taps.
-/

namespace Sys2Proof.Proofs

-- One theorem is elaborated at a time, as in the tests: each further thread takes its own share of the memory limit.
set_option Elab.async false

open Sys2Proof Sys2Proof.Machine Sys2Proof.Safety

/-! ## I0 (R115) -/

section
variable {x : F64} {fuel j : Nat}

/-- A pass whose test holds ends the loop. -/
theorem besselLoop_of_stops (h : besselStops x (j + 1)) :
    besselLoop (fDiv x Config.two) (fuel + 1) (j + 1) (besselTerm x j) (besselSum x j) = some (besselSum x (j + 1)) :=
  if_pos h

/-- A pass whose test fails goes on to the next. -/
theorem besselLoop_of_not_stops (h : ¬ besselStops x (j + 1)) :
    besselLoop (fDiv x Config.two) (fuel + 1) (j + 1) (besselTerm x j) (besselSum x j) =
      besselLoop (fDiv x Config.two) fuel (j + 1 + 1) (besselTerm x (j + 1)) (besselSum x (j + 1)) :=
  if_neg h

end

/-- The loop entered at pass `j + 1` stops at the first pass, of those its fuel allows, whose test holds. -/
theorem besselLoop_eq_some {x : F64} {k : Nat} (hstop : besselStops x k) (fuel : Nat) : ∀ j, j < k → k ≤ j + fuel →
    (∀ i, j < i → i < k → ¬ besselStops x i) →
    besselLoop (fDiv x Config.two) fuel (j + 1) (besselTerm x j) (besselSum x j) = some (besselSum x k) := by
  induction fuel with
  | zero => omega
  | succ fuel ih =>
    intro j hj hfuel hfirst
    rcases Nat.lt_or_ge (j + 1) k with hlt | hge
    · rw [besselLoop_of_not_stops (hfirst (j + 1) (Nat.lt_succ_self j) hlt)]
      exact ih (j + 1) hlt (by omega) fun i hi => hfirst i (by omega)
    · obtain rfl : k = j + 1 := by omega
      exact besselLoop_of_stops hstop

theorem isBessel_besselI0 : IsBessel besselI0 := by
  intro x k hk hmax hstop hfirst
  have hloop := besselLoop_eq_some hstop besselPasses 0 hk (by rw [besselPasses]; omega) fun i hi => hfirst i hi
  exact congrArg (Option.getD · (Config.besselOpen x)) hloop

/-- The series is 1 at both zeros. -/
theorem besselI0_of_fMag_zero {x : F64} (h : fMag x = 0) : besselI0 x = Config.one := by
  rcases zero_of_fMag h with rfl | rfl <;> decide +kernel

/-! ## Differences, quotients, products with a zero -/

section
variable {x y : F64}

/-- A value not below a positive one is positive and of no smaller magnitude. -/
theorem nonneg_of_not_fLt (hx : fIsFinite x = true) (hy : fIsFinite y = true) (hsign : fSign y = false) (hpos : fMag y ≠ 0)
    (h : ¬ fLt x y = true) : fSign x = false ∧ fMag y ≤ fMag x := by
  rw [fLt_iff hx hy, fKey_of_pos hsign, not_lt] at h
  have hx' := pos_of_fKey_pos (x := x) (by omega)
  rw [fKey_of_pos hx'.1] at h
  exact ⟨hx'.1, by omega⟩

/-- A difference `x - y` with `0 <= y <= x` is between 0 and `x`. -/
theorem fSub_of_le (hx : fIsFinite x = true) (hsx : fSign x = false) (hsy : fSign y = false) (h : fMag y ≤ fMag x) :
    fSign (fSub x y) = false ∧ fMag (fSub x y) ≤ fMag x := by
  have hy : fIsFinite (fNeg y) = true := by rw [fIsFinite_fNeg]; exact finite_of_mag_le h hx
  have hunits := fUnits_mono h
  have hint : fInt x + fInt (fNeg y) = (fUnits x : Int) - fUnits y := by
    rw [fInt_fNeg, fInt_of_pos hsx, fInt_of_pos hsy, sub_eq_add_neg]
  constructor
  · rw [fSub, fAdd_finite_eq hx hy, hint]
    split
    · rw [fSign_fPack, hsx, Bool.false_and]
    · rw [fSign_fPack, decide_eq_false_iff_not]
      omega
  · refine fMag_fAdd_le hx hy ?_
    rw [hint]
    change _ ≤ fUnits x
    omega

/-- Such a difference is a finite operand that is not below 0. -/
theorem fSub_nonneg (hx : fIsFinite x = true) (hsx : fSign x = false) (hsy : fSign y = false) (h : fMag y ≤ fMag x) :
    fIsFinite (fSub x y) = true ∧ fLe 0#64 (fSub x y) = true := by
  obtain ⟨hsign, hmag⟩ := fSub_of_le hx hsx hsy h
  have hfin := finite_of_mag_le hmag hx
  rw [fLe_iff (by decide) hfin, fKey_zero, fKey_nonneg_iff]
  exact ⟨hfin, .inl hsign⟩

theorem fDiv_self (hx : fIsFinite x = true) (h0 : fMag x ≠ 0) : fDiv x x = Config.one := by
  rw [fDiv_finite_eq hx hx h0, bne_self_eq_false, Nat.mul_comm, ← magUnits_one, roundMag_magUnits _ (fUnits_pos h0)]
  decide

/-- A quotient of values `0 <= x <= y` is between 0 and 1. -/
theorem fDiv_of_le (hy : fIsFinite y = true) (hsx : fSign x = false) (hsy : fSign y = false) (h0 : fMag y ≠ 0)
    (h : fMag x ≤ fMag y) : fSign (fDiv x y) = false ∧ fMag (fDiv x y) ≤ fMag Config.one := by
  have hx := finite_of_mag_le h hy
  constructor
  · rw [fDiv_finite_eq hx hy h0, fSign_fPack, hsx, hsy, bne_self_eq_false]
  · refine fMag_fDiv_le hx hy h0 ?_
    rw [magUnits_one, Nat.mul_comm]
    exact Nat.mul_le_mul_left _ (fUnits_mono h)

theorem fMag_fMul_of_zero (hx : fIsFinite x = true) (hy : fIsFinite y = true) (h : fMag x = 0 ∨ fMag y = 0) :
    fMag (fMul x y) = 0 := by
  have hunits : fUnits x * fUnits y = 0 :=
    Nat.mul_eq_zero.2 (h.imp (magUnits_eq_zero.2 ·) (magUnits_eq_zero.2 ·))
  rw [fMul_finite_eq hx hy, hunits, roundMag_zero, fMag_fPack, Nat.zero_min]

end

/-! ## Whole numbers (00_scope.md R14) -/

@[simp] theorem fSign_fOfNat (n : Nat) : fSign (fOfNat n) = false := fSign_fPack _ _

theorem fMag_fOfNat_mono {m n : Nat} (h : m ≤ n) : fMag (fOfNat m) ≤ fMag (fOfNat n) := by
  rw [fOfNat, fOfNat, fMag_fPack, fMag_fPack]
  exact min_le_min_right _ (roundMag_mono one_pos one_pos
    (Nat.mul_le_mul_right _ (Nat.mul_le_mul_right _ h)))

theorem fIsFinite_fOfNat {n : Nat} (h : n < 2 ^ 32) : fIsFinite (fOfNat n) = true :=
  finite_of_mag_le (fMag_fOfNat_mono h.le) (by decide +kernel)

theorem fMag_fOfNat_ne_zero {n : Nat} (h : 1 ≤ n) : fMag (fOfNat n) ≠ 0 :=
  (lt_of_lt_of_le (by decide +kernel) (fMag_fOfNat_mono h)).ne'

/-! ## The Kaiser parameter (R114) -/

/-- The largest finite value. -/
def largestFinite : F64 := 0x7FEFFFFFFFFFFFFF#64

theorem fMag_le_largestFinite {x : F64} (h : fIsFinite x = true) : fMag x ≤ fMag largestFinite := by
  rw [fIsFinite_iff] at h
  exact Nat.le_of_lt_succ (lt_of_lt_of_le h (by decide))

/-- The scale of each piece is below 1, so no finite attenuation and no finite power makes the parameter overflow. -/
theorem kaiserAlpha_finite {a : F64} (ha : fIsFinite a = true) : fIsFinite (kaiserAlpha numerics a) = true := by
  rw [kaiserAlpha]
  split_ifs with h21 h50
  · decide
  · obtain ⟨hsign, hge⟩ := nonneg_of_not_fLt ha (by decide) (by decide) (by decide) h21
    obtain ⟨hfin, hnonneg⟩ := fSub_nonneg ha hsign (y := Config.kaiser21) (by decide) hge
    have hpow : fIsFinite (numerics.pow (fSub a Config.kaiser21) Config.kaiserPowExp) = true := by
      have hrule : isRulePower (fSub a Config.kaiser21) Config.kaiserPowExp = true := by
        simp only [isRulePower, hfin, hnonneg, decide_true, Bool.true_or, Bool.and_true]
        decide
      exact (Bool.and_eq_true_iff.1 (numerics_pow_spec hrule)).1
    have hmag : fMag (fSub a Config.kaiser21) ≤ fMag Config.kaiser50 := by
      rw [fLt_iff ha (by decide), fKey_of_pos hsign, fKey_of_pos (by decide)] at h50
      exact le_trans (fSub_of_le ha hsign (by decide) hge).2 (by omega)
    refine finite_of_mag_le (fMag_fAdd_mono
      (fMag_fMul_mono (a := Config.kaiserPowScale) le_rfl (fMag_le_largestFinite hpow) (by decide) (by decide))
      (fMag_fMul_mono (a := Config.kaiserMidScale) le_rfl hmag (by decide) (by decide)) ?_ ?_ ?_ ?_) ?_ <;>
    decide +kernel
  · obtain ⟨hsign, hge⟩ := nonneg_of_not_fLt ha (by decide) (by decide) (by decide) h50
    have hmag := (fSub_of_le ha hsign (y := Config.kaiserHighOffset) (by decide) (le_trans (by decide) hge)).2
    refine finite_of_mag_le (fMag_fMul_mono (a := Config.kaiserHighScale) le_rfl
      (le_trans hmag (fMag_le_largestFinite ha)) (by decide) (by decide)) ?_
    decide +kernel

/-- The two middle terms are zeros where the pieces meet. -/
theorem kaiserAlpha_at_21 : kaiserAlpha numerics Config.kaiser21 = 0#64 := by
  have hbase : fSub Config.kaiser21 Config.kaiser21 = 0#64 := by decide +kernel
  rw [kaiserAlpha, if_neg (by decide), if_pos (by decide), hbase]
  rcases zero_of_fMag (numerics_pow_zero (x := 0#64) rfl) with h | h <;> rw [h] <;> decide +kernel

/-! ## The window (R116) -/

section
variable {n : Nat} (hpos : 1 ≤ n) (hlt : n < 2 ^ 32)
include hpos hlt

/-- The operand of the square root is finite and not below 0 at every distance up to `n/2`. -/
theorem windowRadicand_nonneg {j : Nat} (hj : 2 * j ≤ n) :
    let r := fDiv (fOfNat (2 * j)) (fOfNat n)
    fIsFinite (fSub Config.one (fMul r r)) = true ∧ fLe 0#64 (fSub Config.one (fMul r r)) = true := by
  intro r
  obtain ⟨-, hr⟩ := fDiv_of_le (fIsFinite_fOfNat hlt) (fSign_fOfNat (2 * j)) (fSign_fOfNat n) (fMag_fOfNat_ne_zero hpos)
    (fMag_fOfNat_mono hj)
  have hfin : fIsFinite r = true := finite_of_mag_le hr (by decide)
  have hsq : fSign (fMul r r) = false := by rw [fMul_finite_eq hfin hfin, fSign_fPack, bne_self_eq_false]
  have hmag : fMag (fMul r r) ≤ fMag Config.one :=
    le_trans (fMag_fMul_mono hr hr (by decide) (by decide)) (by decide +kernel)
  exact fSub_nonneg (by decide) (by decide) hsq hmag

/-- For parameter 0 the window is 1 everywhere. -/
theorem kaiserWindow_of_alpha_zero {j : Nat} (hj : 2 * j ≤ n) : kaiserWindow numerics 0#64 n j = Config.one := by
  obtain ⟨hfin, hnonneg⟩ := windowRadicand_nonneg hpos hlt hj
  rw [kaiserWindow, besselI0_of_fMag_zero (x := 0#64) (by decide)]
  rw [besselI0_of_fMag_zero (fMag_fMul_of_zero (by decide) (numerics_sqrt_finite hfin hnonneg) (.inl (by decide)))]
  decide +kernel

/-- At its end the window is `1/I0(alpha)`. -/
theorem kaiserWindow_at_end {alpha : F64} (halpha : fIsFinite alpha = true) (heven : n % 2 = 0) :
    kaiserWindow numerics alpha n (n / 2) = fDiv Config.one (besselI0 alpha) := by
  have hratio : fDiv (fOfNat (2 * (n / 2))) (fOfNat n) = Config.one := by
    rw [show 2 * (n / 2) = n by omega, fDiv_self (fIsFinite_fOfNat hlt) (fMag_fOfNat_ne_zero hpos)]
  have hradicand : fSub Config.one (fMul Config.one Config.one) = 0#64 := by decide +kernel
  have hroot : fMag (numerics.sqrt 0#64) = 0 := numerics_sqrt_zero (by decide)
  have hprod : fMag (fMul alpha (numerics.sqrt 0#64)) = 0 :=
    fMag_fMul_of_zero halpha (numerics_sqrt_finite (by decide) (by decide)) (.inr hroot)
  rw [kaiserWindow, hratio]
  rw [hradicand, besselI0_of_fMag_zero hprod]

end

/-! ## The command -/

/-- 30_encoding.md R85: the word of `FIR.DESIGN`. -/
theorem decode_firDesign (imm : BitVec 16) (tapCount : Word) :
    decode ⟨imm ++ 0x0010#16, tapCount⟩ = .ok (.firDesign imm tapCount) :=
  decode_packCw 0x10#8 0#4 imm tapCount

/-- 30_encoding.md R88: the four kinds. -/
theorem filterKindOf_of_mem {kind : FilterKind} {imm : BitVec 16}
    (h : (imm, kind) ∈ [(0#16, FilterKind.lowPass), (1#16, .highPass), (2#16, .bandPass), (3#16, .bandStop)]) :
    filterKindOf imm = some kind := by
  fin_cases h <;> rfl

section
variable (m : Memory) (tap : Nat → F64) {n j : Nat}

/-! What the buffer reads as when the taps of order `2n` were written to it from index 0 (R121, R122). -/

theorem read_mirroredTaps_right (hj : j ≤ n) : (m.writeFrom 0 (mirroredTaps tap n)).read (n + j) = tap j := by
  rw [read_writeFrom_zero, List.getD_eq_getElem?_getD, mirroredTaps_right tap hj, Option.getD_some]

theorem read_mirroredTaps_left (hj : j ≤ n) : (m.writeFrom 0 (mirroredTaps tap n)).read (n - j) = tap j := by
  rw [read_writeFrom_zero, List.getD_eq_getElem?_getD, mirroredTaps_left tap hj, Option.getD_some]

theorem read_mirroredTaps_past {i : Nat} (hi : 2 * n < i) :
    (m.writeFrom 0 (mirroredTaps tap n)).read i = m.read i := by
  rw [read_writeFrom_zero, List.getD_eq_default _ _ (by rw [length_mirroredTaps]; omega)]

end

/-- Settles O20: the values of the design are the model's, the corners of the window hold, and `OB` holds each tap at its
two places. -/
theorem firDesignWritesTheTaps : Obligations.FirDesignWritesTheTaps := by
  unfold Obligations.FirDesignWritesTheTaps
  refine ⟨besselI0, isBessel_besselI0, fun kind imm tapCount s hmem => ⟨decode_firDesign imm tapCount, ?_⟩⟩
  intro n fs fLow fHigh a g half fc a21 alpha win h sum w0 tap ⟨hfs, hfLow, ha, hg⟩ ⟨heven, hpos, hlMax, hobMax, hlt⟩
    ⟨hlow, hlowHalf, hatt⟩ hband
  have hkind := filterKindOf_of_mem hmem
  have hcheck : firSpecCheck s.block.params kind n fs fLow fHigh a g = none :=
    firSpecCheck_of_legal ⟨hfs, hfLow, ha, hg, fun hb => (hband hb).1⟩
      ⟨⟨hlt, hpos⟩, ⟨heven, hlMax, hobMax⟩, ⟨hlow, hlowHalf⟩, fun hb => (hband hb).2, hatt⟩
  have halpha : alpha = kaiserAlpha numerics a := rfl
  have hsum : sum = prototypeSum numerics kind n fs fLow fHigh a := by cases kind <;> rfl
  have htap : tap = designedTap numerics kind n fs fLow fHigh a g := by cases kind <;> rfl
  have htaps := firTaps_of_accepted (nm := numerics) hcheck
  rw [← hsum, ← htap] at htaps
  refine ⟨fun h21 => ?_, fun h0 j hj => ?_, ?_, fun hnot => ?_, fun hsumPos ⟨j, hj, hbad⟩ => ?_, fun hsumPos hfin => ?_⟩
  · rw [halpha, h21]
    exact kaiserAlpha_at_21
  · change kaiserWindow numerics alpha n j = Config.one
    rw [h0]
    exact kaiserWindow_of_alpha_zero hpos hlt (by omega)
  · exact kaiserWindow_at_end hpos hlt (halpha ▸ kaiserAlpha_finite ha) heven
  · exact exec_firDesign_of_error hkind (by rw [htaps, hnot]; rfl)
  · rw [if_pos hsumPos] at htaps
    rw [exec_firDesign_of_ok hkind htaps]
    refine complete_storeDesign_of_not_finite s fun hall => ?_
    rw [(forall_mirroredTaps tap).1 hall j hj] at hbad
    cases hbad
  · rw [if_pos hsumPos] at htaps
    have hlen : (mirroredTaps tap (n / 2)).length = n + 1 := by rw [length_mirroredTaps]; omega
    refine ⟨s.block.ob.writeFrom 0 (mirroredTaps tap (n / 2)), ?_, fun j hj =>
      ⟨read_mirroredTaps_right _ tap hj, read_mirroredTaps_left _ tap hj⟩,
      fun i hi => read_mirroredTaps_past _ tap (by omega)⟩
    rw [exec_firDesign_of_ok hkind htaps, complete_storeDesign_of_finite s ((forall_mirroredTaps tap).2 hfin), hlen]
    rfl

end Sys2Proof.Proofs
end

section
/-!
PROOF. The recursive filters hold flushed values only (41_tone_resonator.md R147): the flush gives such a value, a step of a
resonator or of a section stores a flush or shifts a value it held, and no other command writes a delay but with `+0.0`.
-/

namespace Sys2Proof.Proofs

-- One theorem is elaborated at a time, as in the tests: each further thread takes its own share of the memory limit.
set_option Elab.async false

open Sys2Proof Sys2Proof.Machine Sys2Proof.Safety

/-! ## The flush -/

theorem flushed_zero : Flushed 0#64 := .inl rfl

/-- R15, R147: what the flush leaves is `+0.0`, or was not below the threshold. -/
theorem flushed_fFlush (v : F64) : Flushed (fFlush v) := by
  unfold fFlush
  split
  next => exact flushed_zero
  next hnot => exact .inr (Bool.eq_false_iff.2 hnot)

/-! ## One resonator, one cascade -/

/-- R143, R147: the two delays of a resonator are flushed. -/
def ResFlushed (r : Resonator) : Prop := Flushed r.z1 ∧ Flushed r.z2

/-- 42_biquad_cascade.md R157, R158: the state cells of a cascade that its order makes valid are flushed. -/
def BqFlushed (q : Biquad) : Prop := ∀ i < q.stateCells, Flushed (q.z.read i)

theorem delaysFlushed_iff {b : Block} :
    DelaysFlushed b ↔ (∀ u, ResFlushed (b.res.get u)) ∧ ∀ u, BqFlushed (b.bq.get u) :=
  ⟨fun h => ⟨fun u => ⟨(h u).1, (h u).2.1⟩, fun u => (h u).2.2⟩,
    fun ⟨hres, hbq⟩ u => ⟨(hres u).1, (hres u).2, hbq u⟩⟩

/-- A flushed value written anywhere leaves the cells below an index flushed. -/
theorem flushed_read_write {z : Memory} {n : Nat} (hz : ∀ i < n, Flushed (z.read i)) (k : Nat) {v : F64}
    (hv : Flushed v) : ∀ i < n, Flushed ((z.write k v).read i) := fun i hi => by
  rw [Memory.read_write]
  split
  next => exact hv
  next => exact hz i hi

section
variable {q : Biquad} {z : Memory} {n : Nat}

/-- R157: a section stores the flush of `wv` and shifts the cell it stored before. -/
theorem section2_flushed (coef : Memory) {j : Nat} (hj : 2 * j < n) (d : F64) (hz : ∀ i < n, Flushed (z.read i)) :
    ∀ i < n, Flushed ((section2 coef z j d).1.read i) :=
  flushed_read_write (flushed_read_write hz _ (hz _ hj)) _ (flushed_fFlush _)

/-- R159: the second-order sections one after another. -/
theorem sectionsFrom_flushed (coef : Memory) (m : Nat) : ∀ (j : Nat) (zd : Memory × F64), 2 * (j + m) ≤ n →
    (∀ i < n, Flushed (zd.1.read i)) → ∀ i < n, Flushed ((sectionsFrom coef m j zd).1.read i) := by
  induction m with
  | zero => exact fun _ _ _ hz => hz
  | succ m ih =>
    exact fun j zd hle hz => ih (j + 1) _ (by omega) (section2_flushed coef (by omega) zd.2 hz)

/-- R159: the whole cascade. -/
theorem run_flushed (hq : BqFlushed q) (x : F64) : BqFlushed { q with z := (q.run x).1 } := by
  have hpairs := sectionsFrom_flushed q.coef q.sections 0 (q.z, x)
    (by unfold Biquad.sections Biquad.stateCells; omega) hq
  show ∀ i < q.stateCells, Flushed ((q.run x).1.read i)
  unfold Biquad.run
  split
  · exact flushed_read_write hpairs _ (flushed_fFlush _)
  · exact hpairs

end

/-! ## The commands that write a delay -/

section
variable {b b' : Block} {w : Word}

theorem delaysFlushed_of_same (hres : b'.res = b.res) (hbq : b'.bq = b.bq) (hb : DelaysFlushed b) :
    DelaysFlushed b' := by
  unfold DelaysFlushed
  rwa [hres, hbq]

theorem delaysFlushed_withRes {u : ToneUnit} {r : Resonator} (hr : ResFlushed r) (hb : DelaysFlushed b) :
    DelaysFlushed (b.withRes u r) := by
  rw [delaysFlushed_iff] at *
  exact ⟨forall_get_set (P := fun _ => ResFlushed) hr hb.1, hb.2⟩

theorem delaysFlushed_withBq {u : ToneUnit} {q : Biquad} (hq : BqFlushed q) (hb : DelaysFlushed b) :
    DelaysFlushed (b.withBq u q) := by
  rw [delaysFlushed_iff] at *
  exact ⟨hb.1, forall_get_set (P := fun _ => BqFlushed) hq hb.2⟩

/-- R146: a retuned unit has the delays `+0.0`. -/
theorem resTune_delaysFlushed {u : ToneUnit} {f fs bw : F64} (h : resTune numerics u f fs bw b = .ok (b', w))
    (hb : DelaysFlushed b) : DelaysFlushed b' := by
  obtain ⟨-, -, -, ⟨⟩⟩ := resTune_ok.1 h
  exact delaysFlushed_withRes ⟨flushed_zero, flushed_zero⟩ hb

/-- R143: the output is flushed before it is stored, and the other delay is the one that was stored before. -/
theorem resStep_delaysFlushed {u : ToneUnit} {x : F64} (h : resStep u x b = .ok (b', w)) (hb : DelaysFlushed b) :
    DelaysFlushed b' := by
  obtain ⟨-, -, -, ⟨⟩⟩ := resStep_ok.1 h
  exact delaysFlushed_withRes ⟨flushed_fFlush _, (hb u).1⟩ hb

/-- 42_biquad_cascade.md R156: a loaded cascade has the state cells `+0.0`. -/
theorem bqBind_delaysFlushed {u : ToneUnit} (h : bqBind u b = .ok (b', w)) (hb : DelaysFlushed b) :
    DelaysFlushed b' := by
  obtain ⟨-, -, -, ⟨⟩⟩ := bqBind_ok.1 h
  refine delaysFlushed_withBq (fun i hi => ?_) hb
  have hlt : i < 2 * (b.obLen / 4) + b.obLen % 4 / 2 := by
    simp only [Biquad.stateCells] at hi
    omega
  rw [read_writeFrom_zero, List.getD_eq_getElem _ _ (by rwa [List.length_replicate]), List.getElem_replicate]
  exact flushed_zero

theorem bqStep_delaysFlushed {u : ToneUnit} {x : F64} (h : bqStep u x b = .ok (b', w)) (hb : DelaysFlushed b) :
    DelaysFlushed b' := by
  obtain ⟨-, -, -, -, ⟨⟩⟩ := bqStep_ok.1 h
  exact delaysFlushed_withBq (run_flushed (hb u).2.2 x) hb

/-! ## The sample step -/

theorem stageFir_delaysFlushed {x : F64} (h : stageFir x b = .ok (b', w)) (hb : DelaysFlushed b) :
    DelaysFlushed b' := by
  obtain ⟨b1, y, hproc, ⟨⟩⟩ := stageFir_ok.1 h
  obtain ⟨-, -, -, ⟨⟩⟩ := firProc_ok.1 hproc
  exact delaysFlushed_of_same rfl rfl hb

theorem stageAgc_delaysFlushed {x : F64} (h : stageAgc x b = .ok (b', w)) (hb : DelaysFlushed b) :
    DelaysFlushed b' := by
  obtain ⟨b1, w1, b2, w2, b3, y, htrack, hwindow, happly, ⟨⟩⟩ := stageAgc_ok.1 h
  obtain ⟨-, -, ⟨⟩⟩ := agcTrack_ok.1 htrack
  obtain ⟨-, -, -, ⟨⟩⟩ := agcApply_ok.1 happly
  split at hwindow
  · obtain ⟨-, ⟨⟩⟩ := agcUpdate_ok.1 hwindow
    exact delaysFlushed_of_same rfl rfl hb
  · cases hwindow
    exact delaysFlushed_of_same rfl rfl hb

theorem stageTone_delaysFlushed {u : ToneUnit} {x : F64} (h : stageTone u x b = .ok (b', w)) (hb : DelaysFlushed b) :
    DelaysFlushed b' := by
  obtain ⟨b1, r, b2, e, hres, hbq, ⟨⟩⟩ := stageTone_ok.1 h
  exact delaysFlushed_of_same (b := b2) rfl rfl (bqStep_delaysFlushed hbq (resStep_delaysFlushed hres hb))

/-- 46_pipeline_and_host.md R246: of the stages the four resonator and envelope pairs alone write a delay. -/
theorem pipeSample_delaysFlushed {x : F64} (h : pipeSample x b = .ok (b', w)) (hb : DelaysFlushed b) :
    DelaysFlushed b' := by
  obtain ⟨-, -, b1, x2, b2, x3, hfir, hagc, htones⟩ := pipeSample_ok.1 h
  obtain ⟨b3, le, b4, sy, b5, ma, b6, sp, hle, hsy, hma, hsp, htick⟩ := stageTones_ok.1 htones
  have hclip : DelaysFlushed (stageClip x b) := delaysFlushed_of_same rfl rfl hb
  have hfilters := stageAgc_delaysFlushed hagc (stageFir_delaysFlushed hfir hclip)
  have hpairs := stageTone_delaysFlushed hsp (stageTone_delaysFlushed hma
    (stageTone_delaysFlushed hsy (stageTone_delaysFlushed hle hfilters)))
  obtain ⟨-, -, -, ⟨⟩⟩ := syncTick_ok.1 htick
  exact delaysFlushed_of_same rfl rfl hpairs

/-! ## Every step -/

/-- Each executed command: the ones outside the recursive filters keep every delay by their write sets. -/
theorem delaysFlushed_of_effect {i : Instr} (h : effect i b = .ok (b', w)) (hb : DelaysFlushed b) :
    DelaysFlushed b' := by
  have hwrites := writeSet_of_effect h
  cases i with
  | argSet | obClear | obPush | firDesign | iirDesign | firCreate | firProc | agcTrack | agcUpdate | syncPreset |
    syncTiming | syncStep | syncReset =>
    rw [hwrites.1]
    exact delaysFlushed_of_same rfl rfl hb
  | obRead | regRead | agcApply | agcConfig =>
    rw [show b' = _ from hwrites]
    exact delaysFlushed_of_same rfl rfl hb
  | resSetfreq u => obtain ⟨t, -, htune⟩ := withUnit_ok.1 h; exact resTune_delaysFlushed htune hb
  | resProc u x => obtain ⟨t, -, hstep⟩ := withUnit_ok.1 h; exact resStep_delaysFlushed hstep hb
  | bqLoad u => obtain ⟨t, -, hbind⟩ := withUnit_ok.1 h; exact bqBind_delaysFlushed hbind hb
  | bqProc u x => obtain ⟨t, -, hstep⟩ := withUnit_ok.1 h; exact bqStep_delaysFlushed hstep hb
  | pipeSampleI16 imm => exact pipeSample_delaysFlushed h hb
  | pipeSampleF64 x => exact pipeSample_delaysFlushed h hb
  | pipeReset => cases h; exact delaysFlushed_resetWith b.params

end

/-- Settles O33: a step that executes a command keeps the delays flushed, and every other step keeps the block. -/
theorem delaysStayFlushed : Obligations.DelaysStayFlushed := by
  unfold Obligations.DelaysStayFlushed
  intro s t hs h
  rcases block_of_step h with hkept | ⟨i, w, hok⟩
  · rwa [hkept]
  · exact delaysFlushed_of_effect hok hs

end Sys2Proof.Proofs
end

section
/-!
PROOF. `RES.SETFREQ` and `RES.PROC`, command by command (41_tone_resonator.md R141 to R143, R146): the answer of each check in
its order, the corner of a zero bandwidth, and that a tuning in the audio range has finite coefficients.
-/

namespace Sys2Proof.Proofs

-- One theorem is elaborated at a time, as in the tests: each further thread takes its own share of the memory limit.
set_option Elab.async false

open Sys2Proof Sys2Proof.Machine Sys2Proof.Safety

/-! ## The two commands as words -/

theorem decode_resSetfreq (v : BitVec 4) (w : Word) :
    decode ⟨0#16 ++ (0#4 ++ (v ++ 0x30#8)), w⟩ = .ok (.resSetfreq v) := decode_packCw 0x30#8 v 0#16 w

theorem decode_resProc (v : BitVec 4) (x : F64) :
    decode ⟨0#16 ++ (0#4 ++ (v ++ 0x31#8)), x⟩ = .ok (.resProc v x) := decode_packCw 0x31#8 v 0#16 x

/-- 30_encoding.md R81, R143: the unit of the four that the command names takes the sample. -/
theorem exec_resProc_unitCode (u : ToneUnit) (x : F64) (s : State) :
    exec (.resProc (unitCode u) x) s = s.complete (resStep u x s.block) := by
  rw [exec_eq_complete, effect, resProc, withUnit_unitCode]

/-! ## The checks of RES.SETFREQ (R142, and R279 on its results) -/

/-- 60_exceptions.md R279: one operand or result that is not finite is enough. -/
theorem requireFinite_of_not_all {xs : List F64} (k : Result) (h : ¬ ∀ x ∈ xs, fIsFinite x = true) :
    requireFinite xs k = .error .nonFinite := if_neg fun hall => h (List.all_eq_true.1 hall)

theorem finite_triple_iff {x y z : F64} : (∀ v ∈ [x, y, z], fIsFinite v = true) ↔
    fIsFinite x = true ∧ fIsFinite y = true ∧ fIsFinite z = true := by
  simp

section
variable {nm : Config.Numerics} {u : ToneUnit} {f fs bw : F64} {b : Block}

theorem resTune_of_not_finite (h : ¬ (fIsFinite f = true ∧ fIsFinite fs = true ∧ fIsFinite bw = true)) :
    resTune nm u f fs bw b = .error .nonFinite :=
  requireFinite_of_not_all _ fun hall => h (finite_triple_iff.1 hall)

variable (hfinite : fIsFinite f = true ∧ fIsFinite fs = true ∧ fIsFinite bw = true)
include hfinite

theorem resTune_of_not_legal (h : ¬ (fLt 0#64 fs = true ∧ fLe 0#64 bw = true ∧ fLe 0#64 f = true)) :
    resTune nm u f fs bw b = .error .badConfig := by
  rw [resTune, requireFinite_of_finite _ (finite_triple_iff.2 hfinite), if_pos h]

theorem resTune_of_not_bounded (hlegal : fLt 0#64 fs = true ∧ fLe 0#64 bw = true ∧ fLe 0#64 f = true)
    (h : ¬ (fIsFinite (resA0 nm f fs bw) = true ∧ fIsFinite (resB1 nm f fs bw) = true ∧
      fIsFinite (resB2 nm fs bw) = true)) : resTune nm u f fs bw b = .error .nonFinite := by
  rw [resTune, requireFinite_of_finite _ (finite_triple_iff.2 hfinite), if_neg (not_not_intro hlegal)]
  exact requireFinite_of_not_all _ fun hall => h (finite_triple_iff.1 hall)

end

/-! ## A zero frequency, a zero bandwidth (R141; 70_reset_and_hazards.md R301) -/

theorem fMag_zero_of_fEq_zero {x : F64} (h : fEq x 0#64 = true) : fMag x = 0 := by
  simp only [fEq, fKey_zero, Bool.and_eq_true, decide_eq_true_eq] at h
  have hkey := h.2
  unfold fKey at hkey
  split at hkey <;> omega

theorem fMag_ne_zero_of_pos {x : F64} (hx : fIsFinite x = true) (h : fLt 0#64 x = true) : fMag x ≠ 0 := by
  rw [fLt_iff fIsFinite_zero hx, fKey_zero] at h
  exact (pos_of_fKey_pos h).2.ne'

theorem fMag_fDiv_of_zero {x y : F64} (hx : fMag x = 0) (hy : fIsFinite y = true) (h0 : fMag y ≠ 0) :
    fMag (fDiv x y) = 0 := by
  have hunits : fUnits x = 0 := magUnits_eq_zero.2 hx
  have hxf : fIsFinite x = true := by rw [fIsFinite_iff, hx]; decide
  exact Nat.le_zero.1 (fMag_fDiv_le hxf hy h0 (by rw [hunits, Nat.zero_mul]; exact Nat.zero_le _))

/-- A zero operand makes the angle and both exponents of R141 a zero. -/
theorem fMag_scaled_of_zero {c x fs : F64} (hc : fIsFinite c = true) (hx : fMag x = 0) (hfs : fIsFinite fs = true)
    (hpos : fLt 0#64 fs = true) : fMag (fDiv (fMul c x) fs) = 0 := by
  have hxf : fIsFinite x = true := by rw [fIsFinite_iff, hx]; decide
  exact fMag_fDiv_of_zero (fMag_fMul_of_zero hc hxf (.inr hx)) hfs (fMag_ne_zero_of_pos hfs hpos)

/-- R301: without damping the exponential is 1. -/
theorem exp_decay_of_zero {c x fs : F64} (hc : fIsFinite c = true) (hx : fMag x = 0) (hfs : fIsFinite fs = true)
    (hpos : fLt 0#64 fs = true) : numerics.exp (fNeg (fDiv (fMul c x) fs)) = Config.one :=
  numerics_exp_zero (by rw [fMag_fNeg, fMag_scaled_of_zero hc hx hfs hpos])

theorem fIsFinite_two_pi : fIsFinite (fMul Config.two Config.pi) = true := by decide +kernel

/-- Settles O30: each clause is one end of the tuning, and the corners follow from the exponential and the sine of a zero. -/
theorem resSetfreqTunesTheUnit : Obligations.ResSetfreqTunesTheUnit := by
  unfold Obligations.ResSetfreqTunesTheUnit
  refine ⟨decode_resSetfreq, fun v s hv => exec_of_fault (withUnit_of_ge hv _), fun u s => ?_⟩
  intro f fs bw finite legal wc b1 b2 a0 bounded
  refine ⟨fun hfin hlegal hbounded => exec_resSetfreq_tunes hfin hlegal hbounded.1 hbounded.2.1 hbounded.2.2,
    fun hfin hlegal hnot => ?_, fun hfin hlegal hzero => ?_, fun hnot => ?_, fun hfin hnot => ?_⟩
  · rw [exec_resSetfreq_unitCode, resTune_of_not_bounded hfin hlegal hnot, State.complete_error]
  · obtain ⟨hf, hfs, hbw⟩ := hfin
    have hbw0 := fMag_zero_of_fEq_zero hzero
    have ha0 : a0 = numerics.sin wc := if_pos hzero
    refine ⟨ha0, ?_, ?_, fun hf0 => ?_⟩
    · show fMul (fMul Config.two (numerics.exp _)) (numerics.cos wc) = _
      rw [exp_decay_of_zero (by decide) hbw0 hfs hlegal.1, fMul_one_right (by decide)]
    · show fNeg (numerics.exp _) = _
      rw [exp_decay_of_zero fIsFinite_two_pi hbw0 hfs hlegal.1]
      decide
    · rw [ha0]
      exact numerics_sin_zero (fMag_scaled_of_zero fIsFinite_two_pi (fMag_zero_of_fEq_zero hf0) hfs hlegal.1)
  · rw [exec_resSetfreq_unitCode, resTune_of_not_finite hnot, State.complete_error]
  · rw [exec_resSetfreq_unitCode, resTune_of_not_legal hfin hnot, State.complete_error]

/-! ## The checks of RES.PROC (R143) -/

section
variable {u : ToneUnit} {x : F64} {b : Block}

theorem resStep_of_not_tuned (h : (b.res.get u).tuned = false) : resStep u x b = .error .notConfigured := if_pos h

variable (htuned : (b.res.get u).tuned = true)
include htuned

theorem resStep_of_not_finite (h : fIsFinite x = false) : resStep u x b = .error .nonFinite := by
  rw [resStep, if_neg (by rw [htuned]; decide)]
  exact requireFinite_of_not _ (List.mem_singleton_self x) h

theorem resStep_of_not_finite_output (hx : fIsFinite x = true)
    (h : fIsFinite (fFlush ((b.res.get u).raw x)) = false) : resStep u x b = .error .nonFinite := by
  rw [resStep, if_neg (by rw [htuned]; decide), requireFinite_of_finite _ (by simpa using hx)]
  exact requireFinite_of_not _ (List.mem_singleton_self _) h

end

/-- Settles O32: each clause is one end of the step. -/
theorem resProcFiltersOneSample : Obligations.ResProcFiltersOneSample := by
  unfold Obligations.ResProcFiltersOneSample
  refine ⟨decode_resProc, fun v x s hv => exec_of_fault (withUnit_of_ge hv _), fun u x s => ?_⟩
  intro r v y
  refine ⟨fun htuned hx hy => ?_, fun htuned => ?_, fun htuned hx => ?_, fun htuned hx hy => ?_⟩ <;>
    rw [exec_resProc_unitCode]
  · rw [resStep_ok.2 ⟨htuned, hx, hy, rfl⟩]
    rfl
  · rw [resStep_of_not_tuned htuned, State.complete_error]
  · rw [resStep_of_not_finite htuned hx, State.complete_error]
  · rw [resStep_of_not_finite_output htuned hx hy, State.complete_error]

/-! ## A tuning in the audio range -/

/-- An operand between 0 and a finite value is finite and no larger in magnitude. -/
theorem bounded_of_fLe {x y : F64} (hy : fIsFinite y = true) (h0 : fLe 0#64 x = true) (h : fLe x y = true) :
    fIsFinite x = true ∧ fMag x ≤ fMag y ∧ (fSign x = false ∨ fMag x = 0) := by
  simp only [fLe, Bool.and_eq_true, decide_eq_true_eq] at h0 h
  have hsign := (fKey_nonneg_iff x).1 (by simpa using h0.2)
  have hmag : fMag x ≤ fMag y := by
    rcases hsign with hs | hm
    · have hkey := h.2
      rw [fKey_of_pos hs, fKey] at hkey
      split at hkey <;> omega
    · omega
  exact ⟨finite_of_mag_le hmag hy, hmag, hsign⟩

/-- A quotient by a magnitude no smaller than a given one is finite where the quotient by that one is; an infinite divisor
gives a zero. -/
theorem fDiv_finite_of_ge {x y a c : F64} (hx : fMag x ≤ fMag a) (ha : fIsFinite a = true) (hy : fIsNaN y = false)
    (hc : fMag c ≤ fMag y) (hc0 : fMag c ≠ 0) (hq : fIsFinite (fDiv a c) = true) : fIsFinite (fDiv x y) = true := by
  have hxf := finite_of_mag_le hx ha
  by_cases hyf : fIsFinite y = true
  · exact finite_of_mag_le (fMag_fDiv_mono hx hc ha hyf hc0) hq
  · have hinf : fIsInf y = true := by
      simp only [fIsNaN, decide_eq_false_iff_not, fIsFinite_iff] at hy hyf
      simp only [fIsInf, decide_eq_true_eq]
      omega
    have hzero : fDiv x y = fPack (fSign x != fSign y) 0 := by
      simp [fDiv, not_nan_of_finite hxf, not_inf_of_finite hxf, hy, hinf]
    rw [hzero, fIsFinite_fPack]
    decide

/-- The largest sample rate of the audio range, 2^20. -/
def maxRate : F64 := 0x4130000000000000#64

/-- A sample rate from 1 to the largest one, in magnitudes. -/
structure AudioRate (fs : F64) : Prop where
  finite : fIsFinite fs = true
  positive : fSign fs = false
  lower : fMag Config.one ≤ fMag fs
  upper : fMag fs ≤ fMag maxRate

/-- A frequency or a bandwidth from 0, of either sign, to the largest rate. -/
structure AudioOperand (x : F64) : Prop where
  finite : fIsFinite x = true
  upper : fMag x ≤ fMag maxRate
  nonneg : fSign x = false ∨ fMag x = 0

theorem audioRate_of_fLe {fs : F64} (h1 : fLe Config.one fs = true) (h2 : fLe fs maxRate = true) : AudioRate fs := by
  have hone : fKey Config.one = fMag Config.one := fKey_of_pos (by decide)
  have hkey : fKey Config.one ≤ fKey fs := by
    simp only [fLe, Bool.and_eq_true, decide_eq_true_eq] at h1
    exact h1.2
  have hmag : 0 < fMag Config.one := by decide
  obtain ⟨hsign, -⟩ := pos_of_fKey_pos (x := fs) (by omega)
  have h0 : fLe 0#64 fs = true := by
    simp only [fLe, Bool.and_eq_true, decide_eq_true_eq] at h1 ⊢
    exact ⟨⟨by decide, h1.1.2⟩, by rw [fKey_zero]; omega⟩
  obtain ⟨hfin, hupper, -⟩ := bounded_of_fLe (by decide) h0 h2
  rw [hone, fKey_of_pos hsign] at hkey
  exact ⟨hfin, hsign, by omega, hupper⟩

theorem audioOperand_of_fLe {x fs : F64} (hfs : AudioRate fs) (h0 : fLe 0#64 x = true) (h : fLe x fs = true) :
    AudioOperand x := by
  obtain ⟨hfin, hmag, hsign⟩ := bounded_of_fLe hfs.finite h0 h
  exact ⟨hfin, hmag.trans hfs.upper, hsign⟩

section
variable {f fs bw : F64} (hfs : AudioRate fs)
include hfs

theorem AudioRate.mag_ne_zero : fMag fs ≠ 0 := by
  have hlower := hfs.lower
  have hone : fMag Config.one ≠ 0 := by decide
  omega

/-- The angle and the exponents of R141: a factor of at most `2*PI`, an operand of the range, over the rate. -/
theorem scaled_finite {c x : F64} (hc : fMag c ≤ fMag (fMul Config.two Config.pi)) (hx : AudioOperand x) :
    fIsFinite (fDiv (fMul c x) fs) = true :=
  finite_of_mag_le (fMag_fDiv_mono (fMag_fMul_mono hc hx.upper fIsFinite_two_pi (by decide)) hfs.lower
    (by decide +kernel) hfs.finite (by decide)) (by decide +kernel)

/-- The exponent of a decay is not above 0. -/
theorem decay_not_positive {c x : F64} (hc : fMag c ≤ fMag (fMul Config.two Config.pi)) (hsign : fSign c = false)
    (hx : AudioOperand x) : fLe (fNeg (fDiv (fMul c x) fs)) 0#64 = true := by
  have hfin := scaled_finite hfs hc hx
  have hcf := finite_of_mag_le hc fIsFinite_two_pi
  have hmulf : fIsFinite (fMul c x) = true :=
    finite_of_mag_le (fMag_fMul_mono hc hx.upper fIsFinite_two_pi (by decide)) (by decide +kernel)
  have hnonneg : fSign (fDiv (fMul c x) fs) = false ∨ fMag (fDiv (fMul c x) fs) = 0 := by
    rcases hx.nonneg with hpos | hzero
    · left
      rw [fDiv_finite_eq hmulf hfs.finite hfs.mag_ne_zero, fSign_fPack, fMul_finite_eq hcf hx.finite, fSign_fPack,
        hsign, hpos, hfs.positive]
      rfl
    · exact .inr (fMag_fDiv_of_zero (fMag_fMul_of_zero hcf hx.finite (.inr hzero)) hfs.finite hfs.mag_ne_zero)
  rw [fLe_iff (by rwa [fIsFinite_fNeg]) fIsFinite_zero, fKey_zero, fKey, fSign_fNeg, fMag_fNeg]
  rcases hnonneg with hpos | hzero
  · rw [hpos]
    simp
  · rw [hzero]
    simp

theorem exp_decay_bounded {c x : F64} (hc : fMag c ≤ fMag (fMul Config.two Config.pi)) (hsign : fSign c = false)
    (hx : AudioOperand x) : fMag (numerics.exp (fNeg (fDiv (fMul c x) fs))) ≤ fMag unitBound :=
  numerics_exp_bounded (by rw [fIsFinite_fNeg]; exact scaled_finite hfs hc hx) (decay_not_positive hfs hc hsign hx)

theorem resA0_finite (hf : AudioOperand f) (hbw : AudioOperand bw) : fIsFinite (resA0 numerics f fs bw) = true := by
  have hsin := numerics_sin_bounded (scaled_finite hfs le_rfl hf)
  unfold resA0
  dsimp only
  split
  next => exact finite_of_mag_le hsin (by decide)
  next hnz =>
    have hbw0 : fMag bw ≠ 0 := fun h0 => hnz (by
      rcases zero_of_fMag h0 with rfl | rfl <;> decide)
    have hsixth : fIsFinite (fDiv fs Config.six) = true := finite_of_mag_le
      (fMag_fDiv_mono hfs.upper le_rfl (by decide) (by decide) (by decide)) (by decide +kernel)
    have hlower : fMag (fDiv Config.one Config.six) ≤ fMag (fDiv fs Config.six) :=
      fMag_fDiv_mono hfs.lower le_rfl hfs.finite (by decide) (by decide)
    have hquot : fDiv (fDiv fs Config.six) bw = fPack _ _ := fDiv_finite_eq hsixth hbw.finite hbw0
    have hinf : fMag (fDiv (fDiv fs Config.six) bw) ≤ infMag := by
      rw [hquot, fMag_fPack]
      exact min_le_right _ _
    have hden : fMag (fDiv (fDiv Config.one Config.six) maxRate) ≤ fMag (fDiv (fDiv fs Config.six) bw) :=
      fMag_fDiv_mono hlower hbw.upper hsixth (by decide) hbw0
    exact fDiv_finite_of_ge hsin (by decide) (by simpa [fIsNaN] using hinf) hden (by decide +kernel)
      (by decide +kernel)

theorem resB1_finite (hf : AudioOperand f) (hbw : AudioOperand bw) : fIsFinite (resB1 numerics f fs bw) = true := by
  have hexp := exp_decay_bounded hfs (by decide +kernel : fMag Config.pi ≤ _) (by decide) hbw
  have hcos := numerics_cos_bounded (scaled_finite hfs le_rfl hf)
  have hdouble := fMag_fMul_mono (le_refl (fMag Config.two)) hexp (by decide) (by decide)
  exact finite_of_mag_le (fMag_fMul_mono hdouble hcos (by decide +kernel) (by decide)) (by decide +kernel)

theorem resB2_finite (hbw : AudioOperand bw) : fIsFinite (resB2 numerics fs bw) = true := by
  rw [resB2, fIsFinite_fNeg]
  exact finite_of_mag_le (exp_decay_bounded hfs le_rfl (by decide +kernel) hbw) (by decide)

end

theorem AudioRate.pos {fs : F64} (h : AudioRate fs) : fLt 0#64 fs = true := by
  have hmag := h.mag_ne_zero
  rw [fLt_iff fIsFinite_zero h.finite, fKey_zero, fKey_of_pos h.positive]
  omega

/-- Settles O31: in the range every coefficient is finite, so the tuning ends as R141 says. -/
theorem audioTuningsComplete : Obligations.AudioTuningsComplete := by
  unfold Obligations.AudioTuningsComplete
  intro u s f fs bw h1 h2 hf0 hf hbw0 hbw
  have hrate : AudioRate fs := audioRate_of_fLe h1 h2
  have hfreq : AudioOperand f := audioOperand_of_fLe hrate hf0 hf
  have hband : AudioOperand bw := audioOperand_of_fLe hrate hbw0 hbw
  refine ⟨_, exec_resSetfreq_tunes ⟨hfreq.finite, hrate.finite, hband.finite⟩ ⟨hrate.pos, hbw0, hf0⟩
    (resA0_finite hrate hfreq hband) (resB1_finite hrate hfreq hband) (resB2_finite hrate hband), rfl, ?_⟩
  rw [State.answer_block, Block.withRes_res, Quad.get_set_same]

end Sys2Proof.Proofs
end

section
/-!
PROOF. The arithmetic in real values (00_scope.md R15): a sum or a product of finite values is finite and within a fixed
error of the exact one where the exact one is moderate, and so is one output of a resonator (41_tone_resonator.md R143).
-/

namespace Sys2Proof.Proofs

-- One theorem is elaborated at a time, as in the tests: each further thread takes its own share of the memory limit.
set_option Elab.async false

open Sys2Proof Sys2Proof.Machine Sys2Proof.Safety

/-! ## One rounding -/

/-- A rounded magnitude is a whole number of the binary places it was rounded at. -/
theorem magUnits_roundMag (n d : Nat) : magUnits (roundMag n d) =
    divNearest n (d * 2 ^ roundShift (n / d)) * 2 ^ roundShift (n / d) := by
  have hp := Nat.two_pow_pos (roundShift (n / d))
  have hupper : divNearest n (d * 2 ^ roundShift (n / d)) ≤ 2 ^ 53 := by
    refine (divNearest_le_succ _ _).trans (Nat.succ_le_of_lt ?_)
    rw [← Nat.div_div_eq_div_mul]
    exact Nat.div_lt_of_lt_mul (by rw [Nat.mul_comm]; exact lt_of_roundShift _)
  rcases Nat.lt_or_ge (divNearest n (d * 2 ^ roundShift (n / d))) (2 ^ 52) with hsmall | hlarge
  · have hzero : roundShift (n / d) = 0 := by
      by_contra hpos
      have hq := (Nat.le_div_iff_mul_le hp).2 (le_of_roundShift_pos (Nat.pos_of_ne_zero hpos))
      rw [Nat.div_div_eq_div_mul] at hq
      exact absurd (hq.trans (le_divNearest _ _)) (Nat.not_le.2 hsmall)
    rw [hzero, pow_zero, Nat.mul_one] at hsmall
    rw [roundMag, hzero, pow_zero, Nat.mul_one, Nat.mul_one, Nat.zero_mul, Nat.zero_add]
    exact if_pos hsmall
  · exact magUnits_shift hlarge hupper

/-- One rounding is off by at most one part in 2^53, or by half a unit. -/
theorem roundMag_value (n : Nat) {d : Nat} (hd : 0 < d) :
    |(magUnits (roundMag n d) : ℚ) - n / d| ≤ n / d / 2 ^ 53 + 1 / 2 := by
  have hp := Nat.two_pow_pos (roundShift (n / d))
  obtain ⟨hhigh, hlow⟩ := divNearest_error n (Nat.mul_pos hd hp)
  have hscale : (2 ^ roundShift (n / d) : ℚ) / 2 ≤ n / d / 2 ^ 53 + 1 / 2 := by
    have hnonneg : (0 : ℚ) ≤ n / d := by positivity
    rcases Nat.eq_zero_or_pos (roundShift (n / d)) with hzero | hpos
    · rw [hzero, pow_zero]
      linarith
    · have hle : 2 ^ 52 * 2 ^ roundShift (n / d) * d ≤ n :=
        (Nat.mul_le_mul_right d (le_of_roundShift_pos hpos)).trans (Nat.div_mul_le_self n d)
      have hcast : (2 ^ 52 * 2 ^ roundShift (n / d) : ℚ) ≤ n / d :=
        (le_div_iff₀ (by positivity)).2 (by exact_mod_cast hle)
      linarith
  have hd' : (0 : ℚ) < d := by exact_mod_cast hd
  rw [magUnits_roundMag]
  generalize divNearest n (d * 2 ^ roundShift (n / d)) = k at *
  generalize roundShift (n / d) = e at *
  have hdiff : |(k * 2 ^ e : ℚ) * d - n| ≤ d * 2 ^ e / 2 := by
    have hhigh' : (2 * (k * (d * 2 ^ e)) : ℚ) ≤ 2 * n + d * 2 ^ e := by exact_mod_cast hhigh
    have hlow' : (2 * n : ℚ) ≤ 2 * (k * (d * 2 ^ e)) + d * 2 ^ e := by exact_mod_cast hlow
    rw [abs_le]
    constructor <;> linarith
  have hcast : (((k * 2 ^ e : Nat) : ℚ) - n / d) = ((k * 2 ^ e : ℚ) * d - n) / d := by
    push_cast
    field_simp
  rw [hcast, abs_div, abs_of_pos hd', div_le_iff₀ hd']
  calc |(k * 2 ^ e : ℚ) * d - n| ≤ d * 2 ^ e / 2 := hdiff
    _ = 2 ^ e / 2 * d := by ring
    _ ≤ (n / d / 2 ^ 53 + 1 / 2) * d := mul_le_mul_of_nonneg_right hscale hd'.le

/-! ## Real values -/

/-- The units of 2^-1074 in 1.0, as a rational number. -/
theorem unitsPerOne_cast_pos : (0 : ℚ) < unitsPerOne := by exact_mod_cast unitsPerOne_pos

theorem valueOf_eq (x : F64) : valueOf x = (if fSign x then -1 else 1) * (fUnits x / unitsPerOne) := by
  unfold valueOf fInt
  cases fSign x
  · rw [if_neg (by decide), if_neg (by decide), one_mul, Int.cast_natCast]
  · rw [if_pos rfl, if_pos rfl, Int.cast_neg, Int.cast_natCast, neg_div, neg_one_mul]

theorem abs_sign_factor (neg : Bool) : |(if neg then -1 else 1 : ℚ)| = 1 := by cases neg <;> norm_num

theorem abs_valueOf (x : F64) : |valueOf x| = fUnits x / unitsPerOne := by
  have hpos : (0 : ℚ) ≤ fUnits x / unitsPerOne := div_nonneg (Nat.cast_nonneg _) unitsPerOne_cast_pos.le
  rw [valueOf_eq, abs_mul, abs_of_nonneg hpos, abs_sign_factor, one_mul]

@[simp] theorem valueOf_zero : valueOf 0#64 = 0 := by
  rw [valueOf, show fInt 0#64 = 0 by decide, Int.cast_zero, zero_div]

theorem valueOf_fNeg (x : F64) : valueOf (fNeg x) = -valueOf x := by
  rw [valueOf, fInt_fNeg, Int.cast_neg, neg_div, valueOf]

/-- The magnitude that bounds the exact results below, 64.0. -/
def exactBound : F64 := 0x4050000000000000#64

/-- Packing a rounded quotient that is at most 64: the value is finite and within 1e-14 of the exact one. -/
theorem fPack_roundMag_value (neg : Bool) {n d : Nat} (hd : 0 < d) (h : (n : ℚ) / d ≤ 64 * unitsPerOne) :
    fIsFinite (fPack neg (roundMag n d)) = true ∧
      |valueOf (fPack neg (roundMag n d)) - (if neg then -1 else 1) * (n / d / unitsPerOne)| ≤ 1e-14 := by
  have hU := unitsPerOne_cast_pos
  have hunits : magUnits (fMag exactBound) = 64 * unitsPerOne := by decide +kernel
  have hle : roundMag n d ≤ fMag exactBound := by
    refine roundMag_le hd ?_
    rw [hunits]
    rw [div_le_iff₀ (by exact_mod_cast hd)] at h
    exact_mod_cast h
  have hlt : roundMag n d < infMag := hle.trans_lt (by decide)
  refine ⟨(fIsFinite_fPack _ _).2 hlt, ?_⟩
  have hround := roundMag_value n hd
  have hhalf : (1 / 2 : ℚ) ≤ 1e-15 * unitsPerOne := by
    have : (10 ^ 15 : ℚ) ≤ 2 * unitsPerOne := by
      exact_mod_cast (by decide +kernel : 10 ^ 15 ≤ 2 * unitsPerOne)
    linarith
  have hvalue : valueOf (fPack neg (roundMag n d)) - (if neg then -1 else 1) * (n / d / unitsPerOne) =
      (if neg then -1 else 1) * ((magUnits (roundMag n d) - n / d) / unitsPerOne) := by
    rw [valueOf_eq, fSign_fPack, fUnits, fMag_fPack, min_eq_left hlt.le]
    ring
  rw [hvalue, abs_mul, abs_sign_factor, one_mul, abs_div, abs_of_pos hU, div_le_iff₀ hU]
  linarith

section
variable {x y : F64} (hx : fIsFinite x = true) (hy : fIsFinite y = true)
include hx hy

theorem fMul_value (h : |valueOf x * valueOf y| ≤ 64) :
    fIsFinite (fMul x y) = true ∧ |valueOf (fMul x y) - valueOf x * valueOf y| ≤ 1e-14 := by
  have hU := unitsPerOne_cast_pos
  have hexact : (if fSign x != fSign y then -1 else 1 : ℚ) *
      ((fUnits x * fUnits y : Nat) / unitsPerOne / unitsPerOne) = valueOf x * valueOf y := by
    rw [valueOf_eq x, valueOf_eq y, Nat.cast_mul]
    generalize (unitsPerOne : ℚ) = U
    cases fSign x <;> cases fSign y <;> simp <;> ring
  rw [abs_mul, abs_valueOf, abs_valueOf] at h
  rw [fMul_finite_eq hx hy, ← hexact]
  refine fPack_roundMag_value _ unitsPerOne_pos ?_
  have hsplit : ((fUnits x * fUnits y : Nat) : ℚ) / unitsPerOne =
      fUnits x / unitsPerOne * (fUnits y / unitsPerOne) * unitsPerOne := by
    rw [Nat.cast_mul]
    field_simp
  rw [hsplit]
  exact mul_le_mul_of_nonneg_right h hU.le

theorem fAdd_value (h : |valueOf x + valueOf y| ≤ 64) :
    fIsFinite (fAdd x y) = true ∧ |valueOf (fAdd x y) - (valueOf x + valueOf y)| ≤ 1e-14 := by
  have hU := unitsPerOne_cast_pos
  have hsum : valueOf x + valueOf y = ((fInt x + fInt y : Int) : ℚ) / unitsPerOne := by
    rw [valueOf, valueOf, Int.cast_add, add_div]
  rw [hsum] at h ⊢
  rw [fAdd_finite_eq hx hy]
  generalize fInt x + fInt y = z at *
  split
  next hzero =>
    have hval : valueOf (fPack (fSign x && fSign y) 0) = 0 := by
      rw [valueOf_eq, fUnits, fMag_fPack, Nat.zero_min, magUnits_eq_zero.2 rfl, Nat.cast_zero, zero_div, mul_zero]
    rw [hval, hzero, Int.cast_zero, zero_div, sub_zero]
    exact ⟨(fIsFinite_fPack _ _).2 (by decide), by norm_num⟩
  next hne =>
    have hexact : (if decide (z < 0) then -1 else 1 : ℚ) * ((z.natAbs : Nat) / (1 : Nat) / unitsPerOne) =
        (z : ℚ) / unitsPerOne := by
      rw [Nat.cast_natAbs, Nat.cast_one, div_one]
      generalize (unitsPerOne : ℚ) = U
      rcases lt_or_ge z 0 with hneg | hnonneg
      · simp [hneg, abs_of_neg hneg, neg_div]
      · simp [not_lt.2 hnonneg, abs_of_nonneg hnonneg]
    rw [← hexact]
    refine fPack_roundMag_value _ one_pos ?_
    rw [Nat.cast_one, div_one, Nat.cast_natAbs, Int.cast_abs, ← div_le_iff₀ hU]
    rwa [abs_div, abs_of_pos hU] at h

end

/-- R147: the flush moves a value by less than the threshold. -/
theorem fFlush_value {v : F64} (hv : fIsFinite v = true) :
    fIsFinite (fFlush v) = true ∧ |valueOf (fFlush v) - valueOf v| ≤ 1e-14 := by
  unfold fFlush
  split
  next hsmall =>
    have hU := unitsPerOne_cast_pos
    have heps : fKey Config.flushEps = fMag Config.flushEps := fKey_of_pos (by decide)
    have hfin : fIsFinite (fAbs v) = true := (fIsFinite_fAbs v).trans hv
    rw [fLt_iff hfin (by decide), fKey_of_pos (fSign_fAbs v), heps, fMag_fAbs] at hsmall
    have hmag : fMag v ≤ fMag Config.flushEps := Nat.le_of_lt (Int.ofNat_lt.1 hsmall)
    have hthreshold : 10 ^ 14 * fUnits Config.flushEps ≤ unitsPerOne := by decide +kernel
    have hunits : 10 ^ 14 * fUnits v ≤ unitsPerOne := (Nat.mul_le_mul_left _ (fUnits_mono hmag)).trans hthreshold
    have hle : (10 ^ 14 : ℚ) * fUnits v ≤ unitsPerOne := by exact_mod_cast hunits
    refine ⟨by decide, ?_⟩
    rw [valueOf_zero, zero_sub, abs_neg, abs_valueOf, div_le_iff₀ hU]
    linarith
  next => exact ⟨hv, by norm_num⟩

/-! ## One output of a resonator (R143) -/

/-- The fields of a resonator that a sample is computed from are finite and moderate. -/
structure Moderate (r : Resonator) : Prop where
  finite : fIsFinite r.a0 = true ∧ fIsFinite r.b1 = true ∧ fIsFinite r.b2 = true ∧
    fIsFinite r.z1 = true ∧ fIsFinite r.z2 = true
  coefs : |valueOf r.a0| ≤ 1 ∧ |valueOf r.b1| ≤ 2 ∧ |valueOf r.b2| ≤ 1
  delays : |valueOf r.z1| ≤ 8 ∧ |valueOf r.z2| ≤ 8

/-- R143: the flushed output is finite and follows the exact recursion. -/
theorem Moderate.output_value {r : Resonator} (hr : Moderate r) {x : F64} (hx : fIsFinite x = true)
    (hx2 : |valueOf x| ≤ 2) : fIsFinite (fFlush (r.raw x)) = true ∧ |valueOf (fFlush (r.raw x)) -
      (valueOf r.a0 * valueOf x + valueOf r.b1 * valueOf r.z1 + valueOf r.b2 * valueOf r.z2)| ≤ 1e-12 := by
  obtain ⟨ha0, hb1, hb2, hz1, hz2⟩ := hr.finite
  obtain ⟨la0, lb1, lb2⟩ := hr.coefs
  obtain ⟨lz1, lz2⟩ := hr.delays
  have hp : |valueOf r.a0 * valueOf x| ≤ 2 := by
    rw [abs_mul]
    exact (mul_le_mul la0 hx2 (abs_nonneg _) one_pos.le).trans (by norm_num)
  have hq : |valueOf r.b1 * valueOf r.z1| ≤ 16 := by
    rw [abs_mul]
    exact (mul_le_mul lb1 lz1 (abs_nonneg _) two_pos.le).trans (by norm_num)
  have hs : |valueOf r.b2 * valueOf r.z2| ≤ 8 := by
    rw [abs_mul]
    exact (mul_le_mul lb2 lz2 (abs_nonneg _) one_pos.le).trans (by norm_num)
  obtain ⟨fp, ep⟩ := fMul_value ha0 hx (hp.trans (by norm_num))
  obtain ⟨fq, eq⟩ := fMul_value hb1 hz1 (hq.trans (by norm_num))
  obtain ⟨fs, es⟩ := fMul_value hb2 hz2 (hs.trans (by norm_num))
  rw [abs_le] at hp hq hs ep eq es
  obtain ⟨fpq, epq⟩ := fAdd_value fp fq (abs_le.2 (by constructor <;> linarith))
  rw [abs_le] at epq
  obtain ⟨fsum, esum⟩ := fAdd_value fpq fs (abs_le.2 (by constructor <;> linarith))
  obtain ⟨fflush, eflush⟩ := fFlush_value fsum
  rw [abs_le] at esum eflush
  refine ⟨fflush, ?_⟩
  rw [abs_le]
  unfold Resonator.raw
  constructor <;> linarith

end Sys2Proof.Proofs
end

section
/-!
PROOF. The resonator over the reals (41_tone_resonator.md R148): the steady answer of the recursion of R143 to a tone, its
energy over a stretch of samples, and how a disturbed recursion that starts at rest settles to it. The distance of two
consecutive outputs from the steady ones is measured along the pole, where one step is one multiplication by its conjugate.
-/

namespace Sys2Proof.Proofs

-- One theorem is elaborated at a time, as in the tests: each further thread takes its own share of the memory limit.
set_option Elab.async false

/-- R148: the coefficients of `y[t] = a0*x[t] + b1*y[t-1] + b2*y[t-2]`. -/
structure Recursion where
  a0 : ℝ
  b1 : ℝ
  b2 : ℝ

namespace Recursion

variable (k : Recursion) (w θ : ℝ)

/-! ## The steady answer to a tone -/

/-- R148: the real part of the denominator of `H` at `e^(iw)`, times `e^(iw)`. -/
noncomputable def denRe : ℝ := (1 - k.b2) * Real.cos w - k.b1

/-- R148: its imaginary part. -/
noncomputable def denIm : ℝ := (1 + k.b2) * Real.sin w

/-- R148: `|1/H|^2 * a0^2` at `e^(iw)`. -/
noncomputable def denSq : ℝ := k.denRe w ^ 2 + k.denIm w ^ 2

/-- The steady answer one sample after the tone `sin` had the angle `θ - w`. -/
noncomputable def steady : ℝ := k.a0 / k.denSq w * (k.denRe w * Real.sin θ - k.denIm w * Real.cos θ)

/-- R148: the squared amplitude of the steady answer, `|H|^2`. -/
noncomputable def gainSq : ℝ := k.a0 ^ 2 / k.denSq w

variable {k w}

theorem denSq_nonneg : 0 ≤ k.denSq w := add_nonneg (sq_nonneg _) (sq_nonneg _)

theorem gainSq_nonneg : 0 ≤ k.gainSq w := div_nonneg (sq_nonneg _) denSq_nonneg

/-- R143, R148: the steady answer solves the recursion driven by the tone. -/
theorem steady_step (h : k.denSq w ≠ 0) :
    k.steady w (θ + w) = k.a0 * Real.sin θ + k.b1 * k.steady w θ + k.b2 * k.steady w (θ - w) := by
  have hden : k.denSq w = ((1 - k.b2) * Real.cos w - k.b1) ^ 2 + ((1 + k.b2) * Real.sin w) ^ 2 := rfl
  have hscale : k.a0 * Real.sin θ = k.a0 / k.denSq w * (k.denSq w * Real.sin θ) := by field_simp
  rw [hscale]
  unfold steady
  rw [Real.sin_add, Real.cos_add, Real.sin_sub, Real.cos_sub]
  nth_rewrite 3 [hden]
  unfold denRe denIm
  ring

/-- The steady answer and the one a quarter of a turn later have the squared amplitude as their sum of squares. -/
theorem steady_sq_add (h : k.denSq w ≠ 0) : k.steady w θ ^ 2 +
    (k.a0 / k.denSq w * (k.denRe w * Real.cos θ + k.denIm w * Real.sin θ)) ^ 2 = k.gainSq w := by
  have hcircle := Real.sin_sq_add_cos_sq θ
  have hgain : k.gainSq w = (k.a0 / k.denSq w) ^ 2 * (k.denRe w ^ 2 + k.denIm w ^ 2) := by
    change k.gainSq w = (k.a0 / k.denSq w) ^ 2 * k.denSq w
    unfold gainSq
    field_simp
  rw [hgain]
  unfold steady
  linear_combination (k.a0 / k.denSq w) ^ 2 * (k.denRe w ^ 2 + k.denIm w ^ 2) * hcircle

theorem steady_sq_le (h : k.denSq w ≠ 0) : k.steady w θ ^ 2 ≤ k.gainSq w := by
  rw [← steady_sq_add θ h]
  exact le_add_of_nonneg_right (sq_nonneg _)

/-- One square of the steady answer is its mean and a difference that telescopes along the samples. -/
theorem steady_sq_telescopes (h : k.denSq w ≠ 0) : 4 * Real.sin w ^ 2 * k.steady w θ ^ 2 =
    2 * Real.sin w ^ 2 * k.gainSq w +
      ((k.steady w θ ^ 2 - k.steady w (θ + w) ^ 2) - (k.steady w (θ - w) ^ 2 - k.steady w θ ^ 2)) := by
  have hcircle := Real.sin_sq_add_cos_sq w
  rw [← steady_sq_add θ h]
  unfold steady
  rw [Real.sin_add, Real.cos_add, Real.sin_sub, Real.cos_sub]
  linear_combination 2 * (k.a0 / k.denSq w) ^ 2 *
    (k.denRe w * Real.sin θ - k.denIm w * Real.cos θ) ^ 2 * hcircle

/-- The energy of the steady answer over `n` samples is `n` times its mean, but for two squared amplitudes. -/
theorem steady_energy (h : k.denSq w ≠ 0) (hsin : 1 / 4 ≤ Real.sin w ^ 2) (n : ℕ) :
    |∑ j ∈ Finset.range n, k.steady w (θ + w * j) ^ 2 - n / 2 * k.gainSq w| ≤ 2 * k.gainSq w := by
  have hterm : ∀ j ∈ Finset.range n, 4 * Real.sin w ^ 2 * k.steady w (θ + w * j) ^ 2 =
      2 * Real.sin w ^ 2 * k.gainSq w +
        ((k.steady w (θ + w * (j + 1 : ℕ) - w) ^ 2 - k.steady w (θ + w * (j + 1 : ℕ)) ^ 2) -
          (k.steady w (θ + w * j - w) ^ 2 - k.steady w (θ + w * j) ^ 2)) := fun j _ => by
    rw [steady_sq_telescopes (θ + w * j) h, show θ + w * (j + 1 : ℕ) = θ + w * j + w by push_cast; ring,
      add_sub_cancel_right]
  have hsum := Finset.sum_congr rfl hterm
  rw [← Finset.mul_sum, Finset.sum_add_distrib, Finset.sum_const, Finset.card_range, nsmul_eq_mul,
    Finset.sum_range_sub (fun j : ℕ => k.steady w (θ + w * j - w) ^ 2 - k.steady w (θ + w * j) ^ 2)] at hsum
  have hb : ∀ φ, 0 ≤ k.steady w φ ^ 2 ∧ k.steady w φ ^ 2 ≤ k.gainSq w := fun φ => ⟨sq_nonneg _, steady_sq_le φ h⟩
  obtain ⟨l1, u1⟩ := hb (θ + w * n - w)
  obtain ⟨l2, u2⟩ := hb (θ + w * n)
  obtain ⟨l3, u3⟩ := hb (θ + w * (0 : ℕ) - w)
  obtain ⟨l4, u4⟩ := hb (θ + w * (0 : ℕ))
  have hgain : 0 ≤ k.gainSq w := gainSq_nonneg
  have hscaled : |4 * Real.sin w ^ 2 * (∑ j ∈ Finset.range n, k.steady w (θ + w * j) ^ 2 - n / 2 * k.gainSq w)| ≤
      2 * k.gainSq w := by
    rw [abs_le]
    constructor <;> linarith
  rw [abs_mul, abs_of_nonneg (by positivity)] at hscaled
  exact (le_mul_of_one_le_left (abs_nonneg _) (by linarith)).trans hscaled

/-! ## The pole -/

variable (k) in
/-- R148: the pole above the real axis. -/
noncomputable def pole : ℂ := ⟨k.b1 / 2, √(-k.b2 - k.b1 ^ 2 / 4)⟩

variable (k) in
/-- R148: the radius of the poles, `r`. -/
noncomputable def radius : ℝ := √(-k.b2)

/-- A resonator of the bandwidth of 95_test_vectors.md V-RS3: coefficients of moderate size, complex poles away from the
real axis and inside the unit circle. -/
structure Damped (k : Recursion) : Prop where
  a0 : |k.a0| ≤ 1
  b1 : |k.b1| ≤ 2
  b2 : 0 ≤ -k.b2 ∧ -k.b2 ≤ 0.956
  complex : 1 / 4 ≤ -k.b2 - k.b1 ^ 2 / 4

variable (k) in
/-- How far two consecutive values are from rest, measured along the pole. -/
noncomputable def distance (e d : ℝ) : ℝ := ‖(e : ℂ) - k.pole * d‖

section
variable (hk : k.Damped)
include hk

theorem Damped.normSq_pole : Complex.normSq k.pole = -k.b2 := by
  have hnonneg : 0 ≤ -k.b2 - k.b1 ^ 2 / 4 := le_trans (by norm_num) hk.complex
  rw [pole, Complex.normSq_mk, Real.mul_self_sqrt hnonneg]
  ring

theorem Damped.norm_pole : ‖k.pole‖ = k.radius := by
  rw [radius, ← hk.normSq_pole, Complex.normSq_eq_norm_sq, Real.sqrt_sq (norm_nonneg _)]

theorem Damped.half_le_pole_im : 1 / 2 ≤ k.pole.im := Real.le_sqrt_of_sq_le (by linarith [hk.complex])

theorem Damped.radius_sq : k.radius ^ 2 = -k.b2 := Real.sq_sqrt hk.b2.1

theorem Damped.radius_le : k.radius ≤ 0.9778 := Real.sqrt_le_iff.2 ⟨by norm_num, by linarith [hk.b2.2]⟩

/-- One step of the recursion shrinks the distance by the radius, and adds the disturbance. -/
theorem Damped.distance_step (e d ε : ℝ) :
    k.distance (k.b1 * e + k.b2 * d + ε) e ≤ k.radius * k.distance e d + |ε| := by
  have hsum : k.pole + (starRingEnd ℂ) k.pole = (k.b1 : ℂ) := by
    rw [Complex.add_conj, pole]
    push_cast
    ring
  have hproduct : k.pole * (starRingEnd ℂ) k.pole = -(k.b2 : ℂ) := by
    rw [Complex.mul_conj, hk.normSq_pole]
    push_cast
    rfl
  have hstep : ((k.b1 * e + k.b2 * d + ε : ℝ) : ℂ) - k.pole * e =
      (starRingEnd ℂ) k.pole * ((e : ℂ) - k.pole * d) + ε := by
    push_cast
    linear_combination (-(e : ℂ)) * hsum + d * hproduct
  unfold distance
  rw [hstep]
  refine (norm_add_le _ _).trans (le_of_eq ?_)
  rw [norm_mul, RCLike.norm_conj, hk.norm_pole, Complex.norm_real, Real.norm_eq_abs]

/-- Each of the two values is at most twice the distance. -/
theorem Damped.abs_le_distance (e d : ℝ) : |e| ≤ 2 * k.distance e d ∧ |d| ≤ 2 * k.distance e d := by
  have him := hk.half_le_pole_im
  have hbound : ∀ (x : ℝ) (z : ℂ), |k.pole.im * x| = |z.im| → ‖z‖ ≤ k.distance e d → |x| ≤ 2 * k.distance e d :=
    fun x z hz hle => by
      have hx : |x| / 2 ≤ |z.im| := by
        rw [← hz, abs_mul, abs_of_nonneg (show 0 ≤ k.pole.im by linarith)]
        nlinarith [abs_nonneg x]
      linarith [Complex.abs_im_le_norm z]
  have hradius : k.radius ≤ 1 := hk.radius_le.trans (by norm_num)
  constructor
  · refine hbound e ((starRingEnd ℂ) k.pole * ((e : ℂ) - k.pole * d)) ?_ ?_
    · rw [← abs_neg]
      congr 1
      simp
      ring
    · rw [norm_mul, RCLike.norm_conj, hk.norm_pole]
      exact mul_le_of_le_one_left (norm_nonneg _) hradius
  · refine hbound d ((e : ℂ) - k.pole * d) ?_ le_rfl
    rw [← abs_neg]
    congr 1
    simp

/-- At rest the distance from the steady answer is at most two amplitudes. -/
theorem Damped.distance_at_rest (h : k.denSq w ≠ 0) :
    k.distance (0 - k.steady w θ) (0 - k.steady w (θ - w)) ≤ 2 * √(k.gainSq w) := by
  have hamp : ∀ φ, |k.steady w φ| ≤ √(k.gainSq w) := fun φ => Real.abs_le_sqrt (steady_sq_le φ h)
  have hradius : k.radius ≤ 1 := hk.radius_le.trans (by norm_num)
  refine (norm_sub_le _ _).trans ?_
  rw [norm_mul, hk.norm_pole, Complex.norm_real, Complex.norm_real, Real.norm_eq_abs, Real.norm_eq_abs, zero_sub,
    zero_sub, abs_neg, abs_neg]
  have hscaled := mul_le_mul hradius (hamp (θ - w)) (abs_nonneg _) one_pos.le
  linarith [hamp θ]

end

/-! ## The energy after settling -/

/-- What is left of the start after `n` samples, and the disturbances. -/
noncomputable def remainder (k : Recursion) (w : ℝ) (n : ℕ) : ℝ := 4 * √(k.gainSq w) * k.radius ^ n + 2e-4

/-- The sum of the squares of what is left over the 1103 samples after 133. -/
theorem Damped.sum_remainder_sq (hk : k.Damped) {d : ℕ → ℝ} (hd : ∀ j < 1103, |d j| ≤ k.remainder w (133 + j)) :
    ∑ j ∈ Finset.range 1103, d j ^ 2 ≤ 2 * k.gainSq w + 1e-4 := by
  obtain ⟨hnonneg, hupper⟩ := hk.b2
  have hgain : 0 ≤ k.gainSq w := gainSq_nonneg
  have hterm : ∀ j ∈ Finset.range 1103, d j ^ 2 ≤ 32 * k.gainSq w * (-k.b2) ^ 133 * (-k.b2) ^ j + 8e-8 := by
    intro j hj
    have hsq : (4 * √(k.gainSq w) * k.radius ^ (133 + j)) ^ 2 = 16 * k.gainSq w * ((-k.b2) ^ 133 * (-k.b2) ^ j) := by
      rw [← pow_add, ← hk.radius_sq, mul_pow, mul_pow, Real.sq_sqrt hgain, ← pow_mul, ← pow_mul, Nat.mul_comm]
      ring
    have hle : d j ^ 2 ≤ k.remainder w (133 + j) ^ 2 := sq_le_sq' (abs_le.1 (hd j (Finset.mem_range.1 hj))).1
      (abs_le.1 (hd j (Finset.mem_range.1 hj))).2
    unfold remainder at hle
    nlinarith [sq_nonneg (4 * √(k.gainSq w) * k.radius ^ (133 + j) - 2e-4)]
  have hgeom : (1 - -k.b2) * ∑ j ∈ Finset.range 1103, (-k.b2) ^ j ≤ 1 := by
    rw [mul_neg_geom_sum]
    linarith [pow_nonneg hnonneg 1103]
  have hsum : ∑ j ∈ Finset.range 1103, (-k.b2) ^ j ≤ 1 / 0.044 := by
    rw [le_div_iff₀ (by norm_num), mul_comm]
    refine le_trans (mul_le_mul_of_nonneg_right (by linarith) (Finset.sum_nonneg fun j _ => pow_nonneg hnonneg j)) hgeom
  have hpow : (-k.b2) ^ 133 ≤ 0.00253 := (pow_le_pow_left₀ hnonneg hupper 133).trans (by norm_num)
  calc ∑ j ∈ Finset.range 1103, d j ^ 2
      ≤ ∑ j ∈ Finset.range 1103, (32 * k.gainSq w * (-k.b2) ^ 133 * (-k.b2) ^ j + 8e-8) := Finset.sum_le_sum hterm
    _ = 32 * k.gainSq w * ((-k.b2) ^ 133 * ∑ j ∈ Finset.range 1103, (-k.b2) ^ j) + 1103 * 8e-8 := by
      rw [Finset.sum_add_distrib, ← Finset.mul_sum, Finset.sum_const, Finset.card_range, nsmul_eq_mul]
      push_cast
      ring
    _ ≤ 32 * k.gainSq w * (0.00253 * (1 / 0.044)) + 1103 * 8e-8 := by
      have hprod := mul_le_mul hpow hsum (Finset.sum_nonneg fun j _ => pow_nonneg hnonneg j) (by norm_num)
      linarith [mul_le_mul_of_nonneg_left hprod (by positivity : (0 : ℝ) ≤ 32 * k.gainSq w)]
    _ ≤ 2 * k.gainSq w + 1e-4 := by linarith

/-- The energy of an output that has settled, from below and from above. -/
theorem Damped.output_energy (hk : k.Damped) (h : k.denSq w ≠ 0) (hsin : 1 / 4 ≤ Real.sin w ^ 2) {y : ℕ → ℝ}
    (hy : ∀ j < 1103, |y j - k.steady w (θ + w * j)| ≤ k.remainder w (133 + j)) :
    470 * k.gainSq w - 1e-2 ≤ ∑ j ∈ Finset.range 1103, y j ^ 2 ∧
      ∑ j ∈ Finset.range 1103, y j ^ 2 ≤ 640 * k.gainSq w + 1e-2 := by
  have hgain : 0 ≤ k.gainSq w := gainSq_nonneg
  have hrest := hk.sum_remainder_sq hy
  have hsteady := abs_le.1 (steady_energy θ h hsin 1103)
  obtain ⟨hslow, hshigh⟩ := hsteady
  have hlow : ∑ j ∈ Finset.range 1103, (0.9 * k.steady w (θ + w * j) ^ 2 - 9 * (y j - k.steady w (θ + w * j)) ^ 2) ≤
      ∑ j ∈ Finset.range 1103, y j ^ 2 := Finset.sum_le_sum fun j _ => by
    nlinarith [sq_nonneg (k.steady w (θ + w * j) + 10 * (y j - k.steady w (θ + w * j)))]
  have hhigh : ∑ j ∈ Finset.range 1103, y j ^ 2 ≤ ∑ j ∈ Finset.range 1103,
      (1.1 * k.steady w (θ + w * j) ^ 2 + 11 * (y j - k.steady w (θ + w * j)) ^ 2) := Finset.sum_le_sum fun j _ => by
    nlinarith [sq_nonneg (k.steady w (θ + w * j) - 10 * (y j - k.steady w (θ + w * j)))]
  rw [Finset.sum_sub_distrib, ← Finset.mul_sum, ← Finset.mul_sum] at hlow
  rw [Finset.sum_add_distrib, ← Finset.mul_sum, ← Finset.mul_sum] at hhigh
  push_cast at hslow hshigh
  constructor <;> linarith

end Recursion

end Sys2Proof.Proofs
end

section
/-!
PROOF. A resonator driven by a tone follows the steady answer of its recursion (41_tone_resonator.md R143, R148): every output
is finite, and within what is left of the start and the rounding.
-/

namespace Sys2Proof.Proofs

-- One theorem is elaborated at a time, as in the tests: each further thread takes its own share of the memory limit.
set_option Elab.async false

open Sys2Proof Sys2Proof.Machine Sys2Proof.Safety

/-- R148: the recursion over the reals with the coefficients a resonator holds. -/
noncomputable def recursionOf (r : Resonator) : Recursion := ⟨valueOf r.a0, valueOf r.b1, valueOf r.b2⟩

/-- R143: the resonator after one sample. -/
def filtered (r : Resonator) (x : F64) : Resonator := { r with z1 := fFlush (r.raw x), z2 := r.z1 }

theorem recursionOf_filtered (r : Resonator) (x : F64) : recursionOf (filtered r x) = recursionOf r := by
  simp only [recursionOf, filtered]

/-- R143: the resonator after the first `n` samples. -/
def filteredBy (r : Resonator) (x : ℕ → F64) : ℕ → Resonator
  | 0 => r
  | n + 1 => filtered (filteredBy r x n) (x n)

theorem recursionOf_filteredBy (r : Resonator) (x : ℕ → F64) (n : ℕ) :
    recursionOf (filteredBy r x n) = recursionOf r := by
  induction n with
  | zero => rfl
  | succ n ih => rw [filteredBy, recursionOf_filtered, ih]

theorem tuned_filteredBy (r : Resonator) (x : ℕ → F64) (n : ℕ) : (filteredBy r x n).tuned = r.tuned := by
  induction n with
  | zero => rfl
  | succ n ih => rw [filteredBy, filtered, ih]

/-- A recursion that settles to its steady answer to the tone `w`, without an answer above the tone. -/
structure Settles (k : Recursion) (w : ℝ) : Prop where
  damped : k.Damped
  den : k.denSq w ≠ 0
  gain : k.gainSq w ≤ 1

/-- After `n` samples of a tone: the fields are finite, the delays near the steady answer. -/
structure Tracks (w : ℝ) (n : ℕ) (r : Resonator) : Prop where
  finite : fIsFinite r.a0 = true ∧ fIsFinite r.b1 = true ∧ fIsFinite r.b2 = true ∧
    fIsFinite r.z1 = true ∧ fIsFinite r.z2 = true
  near : (recursionOf r).distance (valueOf r.z1 - (recursionOf r).steady w (w * n))
      (valueOf r.z2 - (recursionOf r).steady w (w * n - w)) ≤
    2 * √((recursionOf r).gainSq w) * (recursionOf r).radius ^ n + 1e-4

section
variable {w : ℝ} {n : ℕ} {r : Resonator}

/-- R146: after a retune the delays are zero. -/
theorem tracks_of_rest (hk : Settles (recursionOf r) w) (hz1 : r.z1 = 0#64) (hz2 : r.z2 = 0#64)
    (hfin : fIsFinite r.a0 = true ∧ fIsFinite r.b1 = true ∧ fIsFinite r.b2 = true) : Tracks w 0 r where
  finite := by
    rw [hz1, hz2]
    exact ⟨hfin.1, hfin.2.1, hfin.2.2, by decide, by decide⟩
  near := by
    have hrest := hk.damped.distance_at_rest (w * (0 : ℕ)) hk.den
    rw [hz1, hz2, valueOf_zero, Rat.cast_zero, pow_zero, mul_one]
    exact hrest.trans (le_add_of_nonneg_right (by norm_num))

variable (hk : Settles (recursionOf r) w) (h : Tracks w n r)
include hk h

theorem Tracks.delay_near : |valueOf r.z1 - (recursionOf r).steady w (w * n)| ≤ (recursionOf r).remainder w n ∧
    |valueOf r.z2 - (recursionOf r).steady w (w * n - w)| ≤ (recursionOf r).remainder w n := by
  have hnear := h.near
  obtain ⟨h1, h2⟩ := hk.damped.abs_le_distance (valueOf r.z1 - (recursionOf r).steady w (w * n))
    (valueOf r.z2 - (recursionOf r).steady w (w * n - w))
  unfold Recursion.remainder
  constructor <;> linarith

theorem Tracks.moderate : Moderate r := by
  obtain ⟨d1, d2⟩ := h.delay_near hk
  have hgain : √((recursionOf r).gainSq w) ≤ 1 := Real.sqrt_le_one.2 hk.gain
  have hradius : (recursionOf r).radius ^ n ≤ 1 :=
    pow_le_one₀ (Real.sqrt_nonneg _) (hk.damped.radius_le.trans (by norm_num))
  have hremainder : (recursionOf r).remainder w n ≤ 5 := by
    have hprod := mul_le_mul hgain hradius (pow_nonneg (Real.sqrt_nonneg _) n) one_pos.le
    unfold Recursion.remainder
    linarith
  have hsteady : ∀ φ, |(recursionOf r).steady w φ| ≤ 1 := fun φ =>
    (Real.abs_le_sqrt (Recursion.steady_sq_le φ hk.den)).trans hgain
  have hdelay : ∀ {z : ℚ} {φ : ℝ}, |(z : ℝ) - (recursionOf r).steady w φ| ≤ (recursionOf r).remainder w n → |z| ≤ 8 :=
    fun {z φ} hz => by
      have hreal : |(z : ℝ)| ≤ 8 := by
        have := abs_sub_abs_le_abs_sub (z : ℝ) ((recursionOf r).steady w φ)
        linarith [hsteady φ]
      exact_mod_cast hreal
  have ha0 : |(valueOf r.a0 : ℝ)| ≤ 1 := hk.damped.a0
  have hb1 : |(valueOf r.b1 : ℝ)| ≤ 2 := hk.damped.b1
  have hb2 : |(valueOf r.b2 : ℝ)| ≤ 1 := by
    obtain ⟨hneg, hle⟩ := hk.damped.b2
    change |(recursionOf r).b2| ≤ 1
    exact abs_le.2 ⟨by linarith, by linarith⟩
  exact ⟨h.finite, ⟨by exact_mod_cast ha0, by exact_mod_cast hb1, by exact_mod_cast hb2⟩, hdelay d1, hdelay d2⟩

/-- R143: one sample of the tone, within 1e-6. -/
theorem Tracks.step {x : F64} (hx : fIsFinite x = true) (htone : |(valueOf x : ℝ) - Real.sin (w * n)| ≤ 1e-6) :
    Tracks w (n + 1) (filtered r x) := by
  have hmoderate := h.moderate hk
  have hx2 : |(valueOf x : ℝ)| ≤ 2 := by
    have := abs_sub_abs_le_abs_sub (valueOf x : ℝ) (Real.sin (w * n))
    linarith [Real.abs_sin_le_one (w * n)]
  obtain ⟨hfin, hvalue⟩ := hmoderate.output_value hx (by exact_mod_cast hx2)
  obtain ⟨ha0, hb1, hb2, hz1, -⟩ := h.finite
  refine ⟨⟨ha0, hb1, hb2, hfin, hz1⟩, ?_⟩
  rw [recursionOf_filtered]
  set k := recursionOf r with hkdef
  have hangle : w * ((n + 1 : ℕ) : ℝ) = w * n + w := by push_cast; ring
  have hround : |(valueOf (fFlush (r.raw x)) : ℝ) -
      (k.a0 * valueOf x + k.b1 * valueOf r.z1 + k.b2 * valueOf r.z2)| ≤ 1e-12 := by
    have hreal : ((|valueOf (fFlush (r.raw x)) - (valueOf r.a0 * valueOf x + valueOf r.b1 * valueOf r.z1 +
      valueOf r.b2 * valueOf r.z2)| : ℚ) : ℝ) ≤ ((1e-12 : ℚ) : ℝ) := Rat.cast_le.2 hvalue
    push_cast at hreal
    exact hreal
  have hinput : |k.a0 * (valueOf x - Real.sin (w * n))| ≤ 1e-6 := by
    rw [abs_mul]
    exact (mul_le_of_le_one_left (abs_nonneg _) hk.damped.a0).trans htone
  have hstep := hk.damped.distance_step (valueOf r.z1 - k.steady w (w * n)) (valueOf r.z2 - k.steady w (w * n - w))
    (valueOf (fFlush (r.raw x)) - (k.a0 * valueOf x + k.b1 * valueOf r.z1 + k.b2 * valueOf r.z2) +
      k.a0 * (valueOf x - Real.sin (w * n)))
  have hdisturbance := abs_add_le (valueOf (fFlush (r.raw x)) -
    (k.a0 * valueOf x + k.b1 * valueOf r.z1 + k.b2 * valueOf r.z2)) (k.a0 * (valueOf x - Real.sin (w * n)))
  rw [hangle, add_sub_cancel_right, Recursion.steady_step (w * n) hk.den, pow_succ]
  refine le_trans (le_of_eq ?_) (hstep.trans ?_)
  · show k.distance ((valueOf (fFlush (r.raw x)) : ℝ) - _) (valueOf r.z1 - _) = _
    congr 1
    ring
  · have hradius := hk.damped.radius_le
    have hnear := mul_le_mul_of_nonneg_left h.near (show 0 ≤ k.radius from Real.sqrt_nonneg _)
    rw [← hkdef] at hnear
    linarith

end

section
variable {w : ℝ} {r : Resonator} {x : ℕ → F64} {N : ℕ} (hk : Settles (recursionOf r) w) (hrest : Tracks w 0 r)
  (htone : ∀ n < N, fIsFinite (x n) = true ∧ |(valueOf (x n) : ℝ) - Real.sin (w * n)| ≤ 1e-6)
include hk hrest htone

/-- A resonator that starts at rest follows the steady answer for as long as the tone lasts. -/
theorem tracks_filteredBy {n : ℕ} (hn : n ≤ N) : Tracks w n (filteredBy r x n) := by
  induction n with
  | zero => exact hrest
  | succ n ih =>
    obtain ⟨hfin, hnear⟩ := htone n hn
    exact (ih (Nat.le_of_succ_le hn)).step (by rwa [recursionOf_filteredBy]) hfin hnear

/-- The energy of the 1103 outputs after 132, the last of them that of sample 1234. -/
theorem filteredBy_energy (hN : 1235 ≤ N) (hsin : 1 / 4 ≤ Real.sin w ^ 2) :
    470 * (recursionOf r).gainSq w - 1e-2 ≤ ∑ j ∈ Finset.range 1103, (valueOf (filteredBy r x (133 + j)).z1 : ℝ) ^ 2 ∧
      ∑ j ∈ Finset.range 1103, (valueOf (filteredBy r x (133 + j)).z1 : ℝ) ^ 2 ≤
        640 * (recursionOf r).gainSq w + 1e-2 := by
  refine hk.damped.output_energy (w * 133) hk.den hsin fun j hj => ?_
  have htracks := tracks_filteredBy hk hrest htone (n := 133 + j) (by omega)
  have hnear := (htracks.delay_near (by rwa [recursionOf_filteredBy])).1
  rw [recursionOf_filteredBy, Nat.cast_add, mul_add] at hnear
  exact_mod_cast hnear

end

end Sys2Proof.Proofs
end

section
/-!
PROOF. Runs of executed commands (30_encoding.md R80, R94): what the host reads, and the run of 41_tone_resonator.md R149, two
units tuned and then given the same samples.
-/

namespace Sys2Proof.Proofs

-- One theorem is elaborated at a time, as in the tests: each further thread takes its own share of the memory limit.
set_option Elab.async false

open Sys2Proof Sys2Proof.Machine Sys2Proof.Safety

/-! ## Runs of executed commands -/

/-- The commands are executed one after another from the first block to the last, with these data words. -/
inductive Executes : Block → List Instr → List Word → Block → Prop where
  | nil (b : Block) : Executes b [] [] b
  | cons {b b' b'' : Block} {i : Instr} {is : List Instr} {w : Word} {ws : List Word} :
      effect i b = .ok (b', w) → Executes b' is ws b'' → Executes b (i :: is) (w :: ws) b''

theorem Executes.append {b b' b'' : Block} {is is' : List Instr} {ws ws' : List Word} (h : Executes b is ws b')
    (h' : Executes b' is' ws' b'') : Executes b (is ++ is') (ws ++ ws') b'' := by
  induction h with
  | nil => exact h'
  | cons heffect _ ih => exact .cons heffect (ih h')

/-- R80: the host reads `STATUS` 0 and the data word of each command. -/
theorem Executes.answers {b b' : Block} {is : List Instr} {ws : List Word} (h : Executes b is ws b') :
    ∀ {s : State}, s.block = b → s.pending = is.map encode → answers is.length s = ws.map fun w => (0#8, w) := by
  induction h with
  | nil => exact fun _ _ => rfl
  | @cons b b' b'' i is w ws heffect _ ih =>
    intro s hblock hpending
    have hstep : step s = .next (s.answer b' w) := by
      rw [step_of_decode_ok hpending (decodeOfEncode i), exec_eq_complete, hblock, heffect, State.complete_ok]
    rw [List.length_cons, Safety.answers, hstep, List.map_cons]
    exact congrArg _ (ih rfl (by rw [State.answer_pending, hpending]; rfl))

/-! ## The tuning (R141) -/

/-- R94: the commands of `RES.TUNE`. -/
def tuneInstrs (u : ToneUnit) (f fs bw : F64) : List Instr :=
  [.argSet 0#16 f, .argSet 1#16 fs, .argSet 2#16 bw, .resSetfreq (unitCode u)]

theorem tuneUnit_eq (u : ToneUnit) (f fs bw : F64) : tuneUnit u f fs bw = (tuneInstrs u f fs bw).map encode := rfl

/-- R141, R146: a unit right after its tuning. -/
def tunedTo (f fs bw : F64) : Resonator where
  centerFreq := f
  bandwidth := bw
  a0 := resA0 numerics f fs bw
  b1 := resB1 numerics f fs bw
  b2 := resB2 numerics fs bw
  z1 := 0#64
  z2 := 0#64
  tuned := true

theorem argSet_effect {imm : BitVec 16} {i : Fin 8} (h : imm.toNat = i) (v : Word) (b : Block) :
    effect (.argSet imm v) b = .ok (b.withArg i v, 0#64) :=
  argSet_ok.2 ⟨i, argIndexOf_eq_some_iff.2 h, rfl⟩

section
variable {f fs bw : F64}
  (hfin : fIsFinite f = true ∧ fIsFinite fs = true ∧ fIsFinite bw = true)
  (hlegal : fLt 0#64 fs = true ∧ fLe 0#64 bw = true ∧ fLe 0#64 f = true)
  (hbounded : fIsFinite (resA0 numerics f fs bw) = true ∧ fIsFinite (resB1 numerics f fs bw) = true ∧
    fIsFinite (resB2 numerics fs bw) = true)
include hfin hlegal hbounded

/-- R141: the tuning writes the unit from its three operands, and no other unit. -/
theorem executes_tuneInstrs (u : ToneUnit) (b : Block) : ∃ b',
    Executes b (tuneInstrs u f fs bw) [0#64, 0#64, 0#64, 0#64] b' ∧ b'.res = b.res.set u (tunedTo f fs bw) := by
  have hf : (((b.withArg 0 f).withArg 1 fs).withArg 2 bw).argReg 0 = f := by simp [Block.argReg]
  have hfs : (((b.withArg 0 f).withArg 1 fs).withArg 2 bw).argReg 1 = fs := by simp [Block.argReg]
  have hbw : (((b.withArg 0 f).withArg 1 fs).withArg 2 bw).argReg 2 = bw := by simp [Block.argReg]
  have htune : effect (.resSetfreq (unitCode u)) (((b.withArg 0 f).withArg 1 fs).withArg 2 bw) =
      .ok ((((b.withArg 0 f).withArg 1 fs).withArg 2 bw).withRes u (tunedTo f fs bw), 0#64) := by
    rw [effect, resSetfreq, withUnit_unitCode, hf, hfs, hbw]
    exact resTune_ok.2 ⟨hfin, hlegal, hbounded, rfl⟩
  exact ⟨_, .cons (argSet_effect (i := 0) (by decide) f b) (.cons (argSet_effect (i := 1) (by decide) fs _)
    (.cons (argSet_effect (i := 2) (by decide) bw _) (.cons htune (.nil _)))), rfl⟩

end

/-! ## The samples (R143) -/

/-- The first `n` samples, each given to two units. -/
def driveInstrs (u v : ToneUnit) (x : ℕ → F64) (n : ℕ) : List Instr :=
  (List.range n).flatMap fun j => [.resProc (unitCode u) (x j), .resProc (unitCode v) (x j)]

/-- Their data words: the outputs of the two units in turn. -/
def driveOutputs (r q : Resonator) (x : ℕ → F64) (n : ℕ) : List Word :=
  (List.range n).flatMap fun j => [(filteredBy r x (j + 1)).z1, (filteredBy q x (j + 1)).z1]

theorem driveBoth_eq (u v : ToneUnit) (xs : List F64) :
    driveBoth u v xs = (driveInstrs u v (fun j => xs.getD j 0#64) xs.length).map encode := by
  have hlist : (List.range xs.length).map (fun j => xs.getD j 0#64) = xs :=
    List.ext_getElem (by simp) fun j hj hj' => by
      rw [List.getElem_map, List.getElem_range, List.getD_eq_getElem _ _ hj']
  conv_lhs => rw [← hlist]
  simp [driveBoth, driveInstrs, List.flatMap_map, List.map_flatMap]

/-- R143: sample `n` through one unit that took the samples before it. -/
theorem resProc_effect {u : ToneUnit} {b : Block} {r : Resonator} {x : ℕ → F64} {n : ℕ}
    (hu : b.res.get u = filteredBy r x n) (hr : r.tuned = true) (hx : fIsFinite (x n) = true)
    (hy : fIsFinite (filteredBy r x (n + 1)).z1 = true) : effect (.resProc (unitCode u) (x n)) b =
      .ok (b.withRes u (filteredBy r x (n + 1)), (filteredBy r x (n + 1)).z1) := by
  rw [effect, resProc, withUnit_unitCode]
  rw [filteredBy, ← hu] at hy ⊢
  exact resStep_ok.2 ⟨by rw [hu, tuned_filteredBy, hr], hx, hy, rfl⟩

/-- R143: the two units take every sample, each on its own delays. -/
theorem executes_driveInstrs {u v : ToneUnit} (huv : u ≠ v) {x : ℕ → F64} {b : Block} {r q : Resonator}
    (hu : b.res.get u = r) (hv : b.res.get v = q) (hr : r.tuned = true) (hq : q.tuned = true) :
    ∀ n, (∀ j < n, fIsFinite (x j) = true ∧ fIsFinite (filteredBy r x (j + 1)).z1 = true ∧
        fIsFinite (filteredBy q x (j + 1)).z1 = true) →
      ∃ b', Executes b (driveInstrs u v x n) (driveOutputs r q x n) b' ∧
        b'.res.get u = filteredBy r x n ∧ b'.res.get v = filteredBy q x n := by
  intro n
  induction n with
  | zero => exact fun _ => ⟨b, .nil b, hu, hv⟩
  | succ n ih =>
    intro hfin
    obtain ⟨b', hrun, hu', hv'⟩ := ih fun j hj => hfin j (hj.trans (Nat.lt_succ_self n))
    obtain ⟨hx, hyu, hyv⟩ := hfin n (Nat.lt_succ_self n)
    have hother : (b'.withRes u (filteredBy r x (n + 1))).res.get v = filteredBy q x n := by
      rw [Block.withRes_res, Quad.get_set_ne _ _ _ huv.symm, hv']
    have hlast := hrun.append (.cons (resProc_effect hu' hr hx hyu) (.cons (resProc_effect hother hq hx hyv) (.nil _)))
    refine ⟨(b'.withRes u (filteredBy r x (n + 1))).withRes v (filteredBy q x (n + 1)), ?_, ?_, ?_⟩
    · simpa only [driveInstrs, driveOutputs, List.range_succ, List.flatMap_append, List.flatMap_singleton] using hlast
    · rw [Block.withRes_res, Quad.get_set_ne _ _ _ huv, Block.withRes_res, Quad.get_set_same]
    · rw [Block.withRes_res, Quad.get_set_same]

theorem length_driveInstrs (u v : ToneUnit) (x : ℕ → F64) (n : ℕ) : (driveInstrs u v x n).length = 2 * n := by
  simp [driveInstrs, List.length_flatMap, Nat.mul_comm]

theorem length_driveOutputs (r q : Resonator) (x : ℕ → F64) (n : ℕ) : (driveOutputs r q x n).length = 2 * n := by
  simp [driveOutputs, List.length_flatMap, Nat.mul_comm]

/-- The outputs of the two units stand in turn. -/
theorem getD_driveOutputs (r q : Resonator) (x : ℕ → F64) {n j : ℕ} (hj : j < n) (d : Word) :
    (driveOutputs r q x n).getD (2 * j) d = (filteredBy r x (j + 1)).z1 ∧
      (driveOutputs r q x n).getD (2 * j + 1) d = (filteredBy q x (j + 1)).z1 := by
  induction n with
  | zero => exact absurd hj (Nat.not_lt_zero j)
  | succ n ih =>
    have hlen := length_driveOutputs r q x n
    have hsnoc : driveOutputs r q x (n + 1) = driveOutputs r q x n ++
        [(filteredBy r x (n + 1)).z1, (filteredBy q x (n + 1)).z1] := by
      simp only [driveOutputs, List.range_succ, List.flatMap_append, List.flatMap_singleton]
    rw [hsnoc]
    rcases Nat.lt_succ_iff_lt_or_eq.1 hj with hlt | rfl
    · rw [List.getD_append _ _ _ _ (by omega), List.getD_append _ _ _ _ (by omega)]
      exact ih hlt
    · rw [List.getD_append_right _ _ _ _ (by omega), List.getD_append_right _ _ _ _ (by omega), hlen, Nat.sub_self,
        Nat.add_sub_cancel_left]
      exact ⟨rfl, rfl⟩

end Sys2Proof.Proofs
end

section
/-!
PROOF. The discrimination of 41_tone_resonator.md R149 on the pair of 95_test_vectors.md V-RS3: the coefficients of the two
tunings and the tone's angles in figures, the gain of each tuning at each tone, and the energies that follow.
-/

namespace Sys2Proof.Proofs

-- One theorem is elaborated at a time, as in the tests: each further thread takes its own share of the memory limit.
set_option Elab.async false

open Sys2Proof Sys2Proof.Machine Sys2Proof.Safety

/-! ## The operands (V-RS3) -/

/-- 1080.0, 1320.0, 11025.0 and 80.0. -/
def lowTone : F64 := 0x4090E00000000000#64
def highTone : F64 := 0x4094A00000000000#64
def pairRate : F64 := 0x40C5888000000000#64
def pairBand : F64 := 0x4054000000000000#64

theorem valueOf_of_fInt {x : F64} {n : ℤ} (h : fInt x = n * unitsPerOne) : valueOf x = n := by
  rw [valueOf, h, Int.cast_mul, Int.cast_natCast, mul_div_assoc, div_self unitsPerOne_cast_pos.ne', mul_one]

theorem valueOf_lowTone : valueOf lowTone = 1080 := valueOf_of_fInt (n := 1080) (by decide +kernel)
theorem valueOf_highTone : valueOf highTone = 1320 := valueOf_of_fInt (n := 1320) (by decide +kernel)
theorem valueOf_pairRate : valueOf pairRate = 11025 := valueOf_of_fInt (n := 11025) (by decide +kernel)

/-! ## The coefficients of the two tunings -/

/-- Where the accuracy of R145 is imposed on the exponential. -/
theorem numerics_exp_near {x : F64} (h : fIsFinite x = true) (h0 : fLe x 0#64 = true)
    (hx : isMagBetween 0#64 0x4030000000000000#64 x = true) : isNear (numerics.exp x) (expRef x * refUnit) = true := by
  have hs := numerics_exp_spec h h0
  rw [isExpOf, hx, Bool.and_eq_true, Bool.not_true, Bool.false_or] at hs
  exact hs.2

/-- A positive value between two others, in hundred-thousandths. -/
theorem valueOf_of_within {lo hi v : F64} (h : Within lo hi v) {m n : ℕ} (hlo : m * unitsPerOne ≤ 10 ^ 5 * fUnits lo)
    (hhi : 10 ^ 5 * fUnits hi ≤ n * unitsPerOne) : m ≤ 10 ^ 5 * valueOf v ∧ 10 ^ 5 * valueOf v ≤ n := by
  have hU := unitsPerOne_cast_pos
  have hlow : ((m * unitsPerOne : ℕ) : ℚ) ≤ (10 ^ 5 * fUnits v : ℕ) :=
    Nat.cast_le.2 (hlo.trans (Nat.mul_le_mul_left _ (fUnits_mono h.lower)))
  have hhigh : ((10 ^ 5 * fUnits v : ℕ) : ℚ) ≤ (n * unitsPerOne : ℕ) :=
    Nat.cast_le.2 ((Nat.mul_le_mul_left _ (fUnits_mono h.upper)).trans hhi)
  rw [Nat.cast_mul, Nat.cast_mul, Nat.cast_pow, Nat.cast_ofNat] at hlow hhigh
  rw [valueOf_eq, h.sign, if_neg (by decide), one_mul, ← mul_div_assoc, le_div_iff₀ hU, div_le_iff₀ hU]
  exact ⟨hlow, hhigh⟩

/-- The figures of a tuning of V-RS3, in hundred-thousandths: `a0` from `a` to `a + 2`, `b1` from `b` to `b + 2`, `b2` that
of the bandwidth of 80. -/
structure Figures (k : Recursion) (a b : ℝ) : Prop where
  a0 : a ≤ 10 ^ 5 * k.a0 ∧ 10 ^ 5 * k.a0 ≤ a + 2
  b1 : b ≤ 10 ^ 5 * k.b1 ∧ 10 ^ 5 * k.b1 ≤ b + 2
  b2 : -95544 ≤ 10 ^ 5 * k.b2 ∧ 10 ^ 5 * k.b2 ≤ -95543

/-- The angle of R141. -/
def pairAngle (f : F64) : F64 := fDiv (fMul (fMul Config.two Config.pi) f) pairRate

theorem pairAngle_lowTone : pairAngle lowTone = 0x3FE3B2240BB3DC49#64 := by decide +kernel
theorem pairAngle_highTone : pairAngle highTone = 0x3FE8129DD56A0D3C#64 := by decide +kernel

/-- R141: the decay of one sample, `e^(-pi*80/11025)`. -/
theorem decay_within : Within 0x3FEF475DA0000000#64 0x3FEF475E00000000#64
    (numerics.exp (fNeg (fDiv (fMul Config.pi pairBand) pairRate))) := by
  have harg : fNeg (fDiv (fMul Config.pi pairBand) pairRate) = 0xBF9757DEDE765A6A#64 := by decide +kernel
  rw [harg]
  exact Within.of_near (numerics_exp_near (by decide) (by decide) (by decide)) (by decide +kernel) (by decide +kernel)

/-- R141: its square, `e^(-2*pi*80/11025)`. -/
theorem decaySq_within : Within 0x3FEE92E4C0000000#64 0x3FEE92E520000000#64
    (numerics.exp (fNeg (fDiv (fMul (fMul Config.two Config.pi) pairBand) pairRate))) := by
  have harg : fNeg (fDiv (fMul (fMul Config.two Config.pi) pairBand) pairRate) = 0xBFA757DEDE765A6A#64 := by
    decide +kernel
  rw [harg]
  exact Within.of_near (numerics_exp_near (by decide) (by decide) (by decide)) (by decide +kernel) (by decide +kernel)

/-- The sine and the cosine of the angle of 1080 Hz. -/
theorem lowTone_within : Within 0x3FE279C280000000#64 0x3FE279C2E0000000#64 (numerics.sin (pairAngle lowTone)) ∧
    Within 0x3FEA20A9E0000000#64 0x3FEA20AA40000000#64 (numerics.cos (pairAngle lowTone)) := by
  rw [pairAngle_lowTone]
  exact ⟨Within.of_near (numerics_sin_near (by decide) (by decide +kernel)) (by decide +kernel) (by decide +kernel),
    Within.of_near (numerics_cos_near (by decide) (by decide +kernel)) (by decide +kernel) (by decide +kernel)⟩

/-- The sine and the cosine of the angle of 1320 Hz. -/
theorem highTone_within : Within 0x3FE5DD9760000000#64 0x3FE5DD97C0000000#64 (numerics.sin (pairAngle highTone)) ∧
    Within 0x3FE75D4A00000000#64 0x3FE75D4A60000000#64 (numerics.cos (pairAngle highTone)) := by
  rw [pairAngle_highTone]
  exact ⟨Within.of_near (numerics_sin_near (by decide) (by decide +kernel)) (by decide +kernel) (by decide +kernel),
    Within.of_near (numerics_cos_near (by decide) (by decide +kernel)) (by decide +kernel) (by decide +kernel)⟩

theorem resA0_within {f lo hi : F64} (hsin : Within lo hi (numerics.sin (pairAngle f))) (hhi : fIsFinite hi = true) :
    Within (fDiv lo (fDiv (fDiv pairRate Config.six) pairBand)) (fDiv hi (fDiv (fDiv pairRate Config.six) pairBand))
      (resA0 numerics f pairRate pairBand) := by
  have hband : ¬ fEq pairBand 0#64 = true := by decide
  rw [resA0, if_neg hband]
  exact hsin.div (Within.refl (by decide +kernel)) hhi (by decide +kernel) (by decide +kernel)

theorem resB1_within {f lo hi : F64} (hcos : Within lo hi (numerics.cos (pairAngle f))) (hhi : fIsFinite hi = true) :
    Within (fMul (fMul Config.two 0x3FEF475DA0000000#64) lo) (fMul (fMul Config.two 0x3FEF475E00000000#64) hi)
      (resB1 numerics f pairRate pairBand) :=
  ((Within.refl (v := Config.two) (by decide)).mul decay_within (by decide) (by decide)).mul hcos (by decide +kernel) hhi

theorem valueOf_resB2 : -95544 ≤ 10 ^ 5 * valueOf (resB2 numerics pairRate pairBand) ∧
    10 ^ 5 * valueOf (resB2 numerics pairRate pairBand) ≤ -95543 := by
  obtain ⟨hlow, hhigh⟩ :=
    valueOf_of_within decaySq_within (m := 95543) (n := 95544) (by decide +kernel) (by decide +kernel)
  rw [resB2, valueOf_fNeg]
  push_cast at hlow hhigh
  constructor <;> linarith

theorem recursionOf_tunedTo (f fs bw : F64) : recursionOf (tunedTo f fs bw) =
    ⟨valueOf (resA0 numerics f fs bw), valueOf (resB1 numerics f fs bw), valueOf (resB2 numerics fs bw)⟩ := by
  simp only [recursionOf, tunedTo]

/-- The tuning to a tone is executed, and its coefficients have the figures. -/
structure TunedWith (f : F64) (a b : ℝ) : Prop where
  finite : fIsFinite (resA0 numerics f pairRate pairBand) = true ∧ fIsFinite (resB1 numerics f pairRate pairBand) = true ∧
    fIsFinite (resB2 numerics pairRate pairBand) = true
  figures : Figures (recursionOf (tunedTo f pairRate pairBand)) a b

theorem tunedWith_of_within {f alo ahi blo bhi : F64} {a b : ℕ}
    (ha : Within alo ahi (resA0 numerics f pairRate pairBand)) (hb : Within blo bhi (resB1 numerics f pairRate pairBand))
    (hfin : fIsFinite ahi = true ∧ fIsFinite bhi = true)
    (halo : a * unitsPerOne ≤ 10 ^ 5 * fUnits alo) (hahi : 10 ^ 5 * fUnits ahi ≤ (a + 2) * unitsPerOne)
    (hblo : b * unitsPerOne ≤ 10 ^ 5 * fUnits blo) (hbhi : 10 ^ 5 * fUnits bhi ≤ (b + 2) * unitsPerOne) :
    TunedWith f a b where
  finite := ⟨ha.finite hfin.1, hb.finite hfin.2, (fIsFinite_fNeg _).trans (decaySq_within.finite (by decide))⟩
  figures := by
    have hvalueA := valueOf_of_within ha halo hahi
    have hvalueB := valueOf_of_within hb hblo hbhi
    have hvalueC := valueOf_resB2
    rw [recursionOf_tunedTo]
    generalize valueOf (resA0 numerics f pairRate pairBand) = p at *
    generalize valueOf (resB1 numerics f pairRate pairBand) = q at *
    generalize valueOf (resB2 numerics pairRate pairBand) = r at *
    constructor <;> dsimp only
    · exact_mod_cast hvalueA
    · exact_mod_cast hvalueB
    · exact_mod_cast hvalueC

/-- V-RS3: the tuning to 1080 Hz. -/
theorem tunedWith_lowTone : TunedWith lowTone (2513 : ℕ) (159616 : ℕ) :=
  tunedWith_of_within (resA0_within lowTone_within.1 (by decide)) (resB1_within lowTone_within.2 (by decide))
    (by decide +kernel) (by decide +kernel) (by decide +kernel) (by decide +kernel) (by decide +kernel)

/-- V-RS3: the tuning to 1320 Hz. -/
theorem tunedWith_highTone : TunedWith highTone (2974 : ℕ) (142735 : ℕ) :=
  tunedWith_of_within (resA0_within highTone_within.1 (by decide)) (resB1_within highTone_within.2 (by decide))
    (by decide +kernel) (by decide +kernel) (by decide +kernel) (by decide +kernel) (by decide +kernel)

/-! ## The angles of the tones -/

/-- The angle of one sample of a tone. -/
noncomputable def toneAngle (f : F64) : ℝ := 2 * Real.pi * valueOf f / valueOf pairRate

/-- The cosine of an angle below 1 from the sine series at its half. -/
theorem cos_between {w lo hi : ℝ} (h0 : 0 ≤ lo) (hlo : 2 * lo ≤ w) (hhi : w ≤ 2 * hi) (h1 : hi ≤ 1 / 2) {c d : ℝ}
    (hc : c ≤ 1 - 2 * (hi - lo ^ 3 / 6 + hi ^ 5 / 100) ^ 2) (hd : 1 - 2 * (lo - hi ^ 3 / 6 - hi ^ 5 / 100) ^ 2 ≤ d)
    (hpos : 0 ≤ lo - hi ^ 3 / 6 - hi ^ 5 / 100) : c ≤ Real.cos w ∧ Real.cos w ≤ d := by
  have hhalf : 0 ≤ w / 2 := by linarith
  have hseries := Real.sin_bound (x := w / 2) (abs_le.2 ⟨by linarith, by linarith⟩)
  rw [abs_of_nonneg hhalf, abs_le] at hseries
  have hcube : lo ^ 3 ≤ (w / 2) ^ 3 := pow_le_pow_left₀ h0 (by linarith) 3
  have hcube' : (w / 2) ^ 3 ≤ hi ^ 3 := pow_le_pow_left₀ hhalf (by linarith) 3
  have hfifth : (w / 2) ^ 5 ≤ hi ^ 5 := pow_le_pow_left₀ hhalf (by linarith) 5
  have hlow : lo - hi ^ 3 / 6 - hi ^ 5 / 100 ≤ Real.sin (w / 2) := by linarith
  have hhigh : Real.sin (w / 2) ≤ hi - lo ^ 3 / 6 + hi ^ 5 / 100 := by linarith
  have hsq : (lo - hi ^ 3 / 6 - hi ^ 5 / 100) ^ 2 ≤ Real.sin (w / 2) ^ 2 := pow_le_pow_left₀ hpos hlow 2
  have hsq' : Real.sin (w / 2) ^ 2 ≤ (hi - lo ^ 3 / 6 + hi ^ 5 / 100) ^ 2 :=
    pow_le_pow_left₀ (hpos.trans hlow) hhigh 2
  have hdouble : Real.cos w = 1 - 2 * Real.sin (w / 2) ^ 2 := by
    rw [show w = 2 * (w / 2) by ring, Real.cos_two_mul, Real.cos_sq', show 2 * (w / 2) / 2 = w / 2 by ring]
    ring
  rw [hdouble]
  constructor <;> linarith

theorem cos_toneAngle_low : 0.8160 ≤ Real.cos (toneAngle lowTone) ∧ Real.cos (toneAngle lowTone) ≤ 0.8170 := by
  have hlo := Real.pi_gt_d4
  have hhi := Real.pi_lt_d4
  refine cos_between (lo := 0.3077) (hi := 0.3078) (by norm_num) ?_ ?_ (by norm_num) (by norm_num) (by norm_num)
    (by norm_num) <;>
  · rw [toneAngle, valueOf_lowTone, valueOf_pairRate]
    push_cast
    linarith

theorem cos_toneAngle_high : 0.7295 ≤ Real.cos (toneAngle highTone) ∧ Real.cos (toneAngle highTone) ≤ 0.7310 := by
  have hlo := Real.pi_gt_d4
  have hhi := Real.pi_lt_d4
  refine cos_between (lo := 0.3761) (hi := 0.3762) (by norm_num) ?_ ?_ (by norm_num) (by norm_num) (by norm_num)
    (by norm_num) <;>
  · rw [toneAngle, valueOf_highTone, valueOf_pairRate]
    push_cast
    linarith

/-! ## The gain of a tuning at a tone (R148) -/

/-- The coefficients of V-RS3 are damped. -/
theorem Figures.damped {k : Recursion} {a b : ℝ} (h : Figures k a b) (ha : 0 ≤ a ∧ a ≤ 3000)
    (hb : 140000 ≤ b ∧ b ≤ 160000) : k.Damped := by
  obtain ⟨a1, a2⟩ := h.a0
  obtain ⟨b1, b2⟩ := h.b1
  obtain ⟨c1, c2⟩ := h.b2
  refine ⟨abs_le.2 ⟨by linarith, by linarith⟩, abs_le.2 ⟨by linarith, by linarith⟩, ⟨by linarith, by linarith⟩, ?_⟩
  have hsq : k.b1 ^ 2 ≤ 1.60002 ^ 2 := pow_le_pow_left₀ (by linarith) (by linarith) 2
  linarith

section
variable {k : Recursion} {w a b c d : ℝ} (h : Figures k a b) (hcos : c ≤ Real.cos w ∧ Real.cos w ≤ d) (hc : 0 ≤ c)
include h hcos hc

/-- The two parts of the denominator between the figures' bounds. -/
theorem Figures.denRe_between : 1.95543 * c - (b + 2) / 10 ^ 5 ≤ k.denRe w ∧ k.denRe w ≤ 1.95544 * d - b / 10 ^ 5 := by
  obtain ⟨b1, b2⟩ := h.b1
  obtain ⟨c1, c2⟩ := h.b2
  have hlow : 1.95543 * c ≤ (1 - k.b2) * Real.cos w := mul_le_mul (by linarith) hcos.1 hc (by linarith)
  have hhigh : (1 - k.b2) * Real.cos w ≤ 1.95544 * d :=
    mul_le_mul (by linarith) hcos.2 (hc.trans hcos.1) (by norm_num)
  unfold Recursion.denRe
  constructor <;> linarith

theorem Figures.denIm_sq_between (hd : d ≤ 1) : 0.04456 ^ 2 * (1 - d ^ 2) ≤ k.denIm w ^ 2 ∧
    k.denIm w ^ 2 ≤ 0.04457 ^ 2 * (1 - c ^ 2) := by
  obtain ⟨c1, c2⟩ := h.b2
  have hcircle := Real.sin_sq_add_cos_sq w
  have hcosSq : c ^ 2 ≤ Real.cos w ^ 2 ∧ Real.cos w ^ 2 ≤ d ^ 2 :=
    ⟨pow_le_pow_left₀ hc hcos.1 2, pow_le_pow_left₀ (hc.trans hcos.1) hcos.2 2⟩
  have hfactor : 0.04456 ^ 2 ≤ (1 + k.b2) ^ 2 ∧ (1 + k.b2) ^ 2 ≤ 0.04457 ^ 2 :=
    ⟨pow_le_pow_left₀ (by norm_num) (by linarith) 2, pow_le_pow_left₀ (by linarith) (by linarith) 2⟩
  have hdSq : d ^ 2 ≤ 1 := pow_le_one₀ (hc.trans (hcos.1.trans hcos.2)) hd
  rw [Recursion.denIm, mul_pow]
  exact ⟨mul_le_mul hfactor.1 (by linarith) (by linarith) (sq_nonneg _),
    mul_le_mul hfactor.2 (by linarith) (sq_nonneg _) (by norm_num)⟩

/-- A tuning at its own tone: the gain is nearly 1. -/
theorem Figures.gain_at_tone (hd : d ≤ 1) (hre : |k.denRe w| ≤ 0.003)
    (hlow : 0.8 * (0.003 ^ 2 + 0.04457 ^ 2 * (1 - c ^ 2)) ≤ (a / 10 ^ 5) ^ 2)
    (hhigh : ((a + 2) / 10 ^ 5) ^ 2 ≤ 0.04456 ^ 2 * (1 - d ^ 2)) (hpos : 0 < a) :
    k.denSq w ≠ 0 ∧ 0.8 ≤ k.gainSq w ∧ k.gainSq w ≤ 1 := by
  obtain ⟨a1, a2⟩ := h.a0
  obtain ⟨i1, i2⟩ := h.denIm_sq_between hcos hc hd
  have hreSq : k.denRe w ^ 2 ≤ 0.003 ^ 2 := sq_le_sq' (abs_le.1 hre).1 (abs_le.1 hre).2
  have ha0 : (a / 10 ^ 5) ^ 2 ≤ k.a0 ^ 2 ∧ k.a0 ^ 2 ≤ ((a + 2) / 10 ^ 5) ^ 2 :=
    ⟨pow_le_pow_left₀ (by positivity) (by linarith) 2, pow_le_pow_left₀ (by linarith) (by linarith) 2⟩
  have hden : 0 < k.denSq w := by
    have : 0 < ((a + 2) / 10 ^ 5) ^ 2 := by positivity
    unfold Recursion.denSq
    linarith [sq_nonneg (k.denRe w)]
  refine ⟨hden.ne', (le_div_iff₀ hden).2 ?_, (div_le_one hden).2 ?_⟩ <;>
  · unfold Recursion.denSq
    linarith [sq_nonneg (k.denRe w)]

end

/-- A tuning 240 Hz off the tone: the squared gain is at most a twentieth. -/
theorem Figures.gain_off_tone {k : Recursion} {w a b : ℝ} (h : Figures k a b) (ha : 0 ≤ a ∧ a ≤ 2974)
    (hre : 0.16 ≤ |k.denRe w|) : k.denSq w ≠ 0 ∧ k.gainSq w ≤ 0.05 := by
  obtain ⟨a1, a2⟩ := h.a0
  have hreSq : 0.16 ^ 2 ≤ k.denRe w ^ 2 := by
    rw [← sq_abs (k.denRe w)]
    exact pow_le_pow_left₀ (by norm_num) hre 2
  have ha0 : k.a0 ^ 2 ≤ 0.02976 ^ 2 := pow_le_pow_left₀ (by linarith) (by linarith) 2
  have hden : 0.16 ^ 2 ≤ k.denSq w := hreSq.trans (le_add_of_nonneg_right (sq_nonneg _))
  have hpos : 0 < k.denSq w := lt_of_lt_of_le (by norm_num) hden
  exact ⟨hpos.ne', (div_le_iff₀ hpos).2 (by linarith)⟩

/-- The pair of R149: the two tunings settle to the tone, one of them with nearly all of it, the other with little. -/
structure Separates (k q : Recursion) (w : ℝ) : Prop where
  sin : 1 / 4 ≤ Real.sin w ^ 2
  own : Settles k w
  other : Settles q w
  ownGain : 0.8 ≤ k.gainSq w
  otherGain : q.gainSq w ≤ 0.05

theorem sin_sq_ge {w c d : ℝ} (hcos : c ≤ Real.cos w ∧ Real.cos w ≤ d) (hc : 0 ≤ c) (hd : d ^ 2 ≤ 3 / 4) :
    1 / 4 ≤ Real.sin w ^ 2 := by
  have hcosSq : Real.cos w ^ 2 ≤ d ^ 2 := pow_le_pow_left₀ (hc.trans hcos.1) hcos.2 2
  linarith [Real.sin_sq_add_cos_sq w]

/-- V-RS3: a tone of 1080 Hz. -/
theorem separates_low : Separates (recursionOf (tunedTo lowTone pairRate pairBand))
    (recursionOf (tunedTo highTone pairRate pairBand)) (toneAngle lowTone) := by
  have hlow := tunedWith_lowTone.figures
  have hhigh := tunedWith_highTone.figures
  have hcos := cos_toneAngle_low
  push_cast at hlow hhigh
  obtain ⟨l1, l2⟩ := hlow.denRe_between hcos (by norm_num)
  obtain ⟨h1, -⟩ := hhigh.denRe_between hcos (by norm_num)
  obtain ⟨hden, hgain, hone⟩ := hlow.gain_at_tone hcos (by norm_num) (by norm_num)
    (abs_le.2 ⟨by linarith, by linarith⟩) (by norm_num) (by norm_num) (by norm_num)
  obtain ⟨hden', hgain'⟩ := hhigh.gain_off_tone (w := toneAngle lowTone) (by norm_num)
    (le_trans (by linarith) (le_abs_self _))
  exact ⟨sin_sq_ge hcos (by norm_num) (by norm_num), ⟨hlow.damped (by norm_num) (by norm_num), hden, hone⟩,
    ⟨hhigh.damped (by norm_num) (by norm_num), hden', by linarith⟩, hgain, hgain'⟩

/-- V-RS3 with the tone at the other center frequency, 1320 Hz. -/
theorem separates_high : Separates (recursionOf (tunedTo highTone pairRate pairBand))
    (recursionOf (tunedTo lowTone pairRate pairBand)) (toneAngle highTone) := by
  have hlow := tunedWith_lowTone.figures
  have hhigh := tunedWith_highTone.figures
  have hcos := cos_toneAngle_high
  push_cast at hlow hhigh
  obtain ⟨h1, h2⟩ := hhigh.denRe_between hcos (by norm_num)
  obtain ⟨-, l2⟩ := hlow.denRe_between hcos (by norm_num)
  obtain ⟨hden, hgain, hone⟩ := hhigh.gain_at_tone hcos (by norm_num) (by norm_num)
    (abs_le.2 ⟨by linarith, by linarith⟩) (by norm_num) (by norm_num) (by norm_num)
  obtain ⟨hden', hgain'⟩ := hlow.gain_off_tone (w := toneAngle highTone) (by norm_num)
    (le_trans (by linarith) (neg_le_abs _))
  exact ⟨sin_sq_ge hcos (by norm_num) (by norm_num), ⟨hhigh.damped (by norm_num) (by norm_num), hden, hone⟩,
    ⟨hlow.damped (by norm_num) (by norm_num), hden', by linarith⟩, hgain, hgain'⟩

/-! ## The run (R149) -/

/-- A frequency that the tuning accepts. -/
structure Tunable (f : F64) : Prop where
  finite : fIsFinite f = true
  nonneg : fLe 0#64 f = true
  coefs : fIsFinite (resA0 numerics f pairRate pairBand) = true ∧ fIsFinite (resB1 numerics f pairRate pairBand) = true ∧
    fIsFinite (resB2 numerics pairRate pairBand) = true

theorem tunable_lowTone : Tunable lowTone := ⟨by decide, by decide, tunedWith_lowTone.finite⟩
theorem tunable_highTone : Tunable highTone := ⟨by decide, by decide, tunedWith_highTone.finite⟩

/-- R146: right after its tuning a unit is at rest. -/
theorem Tunable.tracks_zero {f : F64} (hf : Tunable f) {w : ℝ}
    (hk : Settles (recursionOf (tunedTo f pairRate pairBand)) w) : Tracks w 0 (tunedTo f pairRate pairBand) := by
  refine tracks_of_rest hk rfl rfl ?_
  simpa only [tunedTo] using hf.coefs

/-- The two units of a run, the tone at the first one's frequency. -/
structure Pair (f g : F64) : Prop where
  own : Tunable f
  other : Tunable g
  separates : Separates (recursionOf (tunedTo f pairRate pairBand)) (recursionOf (tunedTo g pairRate pairBand))
    (toneAngle f)

theorem pair_of_mem {f g : F64} (h : (f, g) ∈ [(lowTone, highTone), (highTone, lowTone)]) : Pair f g := by
  rcases List.mem_cons.1 h with heq | hmem
  · obtain ⟨rfl, rfl⟩ := Prod.mk.inj heq
    exact ⟨tunable_lowTone, tunable_highTone, separates_low⟩
  · obtain ⟨rfl, rfl⟩ := Prod.mk.inj (List.mem_singleton.1 hmem)
    exact ⟨tunable_highTone, tunable_lowTone, separates_high⟩

/-- The samples of the tone, as the recursion takes them. -/
theorem tone_getD {f : F64} {xs : List F64} (htone : IsTone xs f pairRate) {n : ℕ} (hn : n < xs.length) :
    fIsFinite (xs.getD n 0#64) = true ∧ |(valueOf (xs.getD n 0#64) : ℝ) - Real.sin (toneAngle f * n)| ≤ 1e-6 := by
  obtain ⟨hfin, hnear⟩ := htone n hn
  have hangle : toneAngle f * n = 2 * Real.pi * valueOf f * n / valueOf pairRate := by
    unfold toneAngle
    ring
  rw [List.getD_eq_getElem _ _ hn, hangle]
  exact ⟨hfin, hnear⟩

section
variable {f g : F64} (hpair : Pair f g) {x : ℕ → F64}
  (hx : ∀ n < 132 + 1103, fIsFinite (x n) = true ∧ |(valueOf (x n) : ℝ) - Real.sin (toneAngle f * n)| ≤ 1e-6)
include hpair hx

/-- Each of the two units follows its steady answer for as long as the tone lasts. -/
theorem Pair.tracks {n : ℕ} (hn : n ≤ 132 + 1103) :
    Tracks (toneAngle f) n (filteredBy (tunedTo f pairRate pairBand) x n) ∧
      Tracks (toneAngle f) n (filteredBy (tunedTo g pairRate pairBand) x n) :=
  ⟨tracks_filteredBy hpair.separates.own (hpair.own.tracks_zero hpair.separates.own) hx hn,
    tracks_filteredBy hpair.separates.other (hpair.other.tracks_zero hpair.separates.other) hx hn⟩

/-- The two tunings and all the samples are executed. -/
theorem Pair.executes {u v : ToneUnit} (huv : u ≠ v) (b : Block) : ∃ b', Executes b
    (tuneInstrs u f pairRate pairBand ++ (tuneInstrs v g pairRate pairBand ++ driveInstrs u v x (132 + 1103)))
    (List.replicate 4 0#64 ++ (List.replicate 4 0#64 ++
      driveOutputs (tunedTo f pairRate pairBand) (tunedTo g pairRate pairBand) x (132 + 1103))) b' := by
  have hrate : fIsFinite pairRate = true ∧ fIsFinite pairBand = true ∧ fLt 0#64 pairRate = true ∧
      fLe 0#64 pairBand = true := by decide +kernel
  obtain ⟨hrateFin, hbandFin, hratePos, hbandNonneg⟩ := hrate
  have htune : ∀ {y : F64}, Tunable y → ∀ (t : ToneUnit) (b : Block), ∃ b',
      Executes b (tuneInstrs t y pairRate pairBand) (List.replicate 4 0#64) b' ∧
        b'.res = b.res.set t (tunedTo y pairRate pairBand) := fun hy =>
    executes_tuneInstrs ⟨hy.finite, hrateFin, hbandFin⟩ ⟨hratePos, hbandNonneg, hy.nonneg⟩ hy.coefs
  obtain ⟨b1, hfirst, hres1⟩ := htune hpair.own u b
  obtain ⟨b2, hsecond, hres2⟩ := htune hpair.other v b1
  have hu : b2.res.get u = tunedTo f pairRate pairBand := by
    rw [hres2, Quad.get_set_ne _ _ _ huv, hres1, Quad.get_set_same]
  have hv : b2.res.get v = tunedTo g pairRate pairBand := by rw [hres2, Quad.get_set_same]
  obtain ⟨b3, hdrive, -⟩ := executes_driveInstrs huv hu hv rfl rfl (132 + 1103) fun j hj =>
    ⟨(hx j hj).1, (hpair.tracks hx hj).1.finite.2.2.2.1, (hpair.tracks hx hj).2.finite.2.2.2.1⟩
  exact ⟨b3, hfirst.append (hsecond.append hdrive)⟩

/-- The energies of the two units over the samples after the settling. -/
theorem Pair.energies :
    10 * ∑ j ∈ Finset.range 1103, valueOf (filteredBy (tunedTo g pairRate pairBand) x (133 + j)).z1 ^ 2 <
      ∑ j ∈ Finset.range 1103, valueOf (filteredBy (tunedTo f pairRate pairBand) x (133 + j)).z1 ^ 2 := by
  obtain ⟨hrestF, hrestG⟩ := hpair.tracks hx (Nat.zero_le _)
  have hown := (filteredBy_energy hpair.separates.own hrestF hx le_rfl hpair.separates.sin).1
  have hother := (filteredBy_energy hpair.separates.other hrestG hx le_rfl hpair.separates.sin).2
  have hgain := hpair.separates.ownGain
  have hgain' := hpair.separates.otherGain
  have hreal : 10 * ∑ j ∈ Finset.range 1103,
        (valueOf (filteredBy (tunedTo g pairRate pairBand) x (133 + j)).z1 : ℝ) ^ 2 <
      ∑ j ∈ Finset.range 1103, (valueOf (filteredBy (tunedTo f pairRate pairBand) x (133 + j)).z1 : ℝ) ^ 2 := by
    linarith
  exact_mod_cast hreal

end

/-- What the host adds up: after the eight answers of the tunings the outputs of the two units in turn. -/
theorem outputEnergy_drive (r q : Resonator) (x : ℕ → F64) :
    let ys := (List.replicate 4 0#64 ++ (List.replicate 4 0#64 ++ driveOutputs r q x (132 + 1103))).map
      fun w => ((0#8 : BitVec 8), w)
    outputEnergy ys (8 + 2 * 132) 1103 = ∑ j ∈ Finset.range 1103, valueOf (filteredBy r x (133 + j)).z1 ^ 2 ∧
      outputEnergy ys (8 + 2 * 132 + 1) 1103 = ∑ j ∈ Finset.range 1103, valueOf (filteredBy q x (133 + j)).z1 ^ 2 := by
  intro ys
  have hshift : ∀ m, (ys.getD (8 + m) (0#8, 0#64)).2 = (driveOutputs r q x (132 + 1103)).getD m 0#64 := fun m => by
    rw [show ((0#8 : BitVec 8), 0#64) = (fun w : Word => ((0#8 : BitVec 8), w)) 0#64 from rfl, List.getD_map,
      List.getD_append_right _ _ _ _ (by simp; omega), List.getD_append_right _ _ _ _ (by simp; omega)]
    simp only [List.length_replicate]
    congr 1
    omega
  have hget : ∀ j ∈ Finset.range 1103,
      (driveOutputs r q x (132 + 1103)).getD (2 * (132 + j)) 0#64 = (filteredBy r x (133 + j)).z1 ∧
        (driveOutputs r q x (132 + 1103)).getD (2 * (132 + j) + 1) 0#64 = (filteredBy q x (133 + j)).z1 := fun j hj => by
    rw [show 133 + j = 132 + j + 1 by omega]
    exact getD_driveOutputs r q x (Nat.add_lt_add_left (Finset.mem_range.1 hj) 132) 0#64
  constructor
  · refine Finset.sum_congr rfl fun j hj => ?_
    rw [show 8 + 2 * 132 + 2 * j = 8 + 2 * (132 + j) by omega, hshift, (hget j hj).1]
  · refine Finset.sum_congr rfl fun j hj => ?_
    rw [show 8 + 2 * 132 + 1 + 2 * j = 8 + (2 * (132 + j) + 1) by omega, hshift, (hget j hj).2]

/-- The commands of the run of R149. -/
def pairRun (u v : ToneUnit) (f g : F64) (xs : List F64) : List Instr :=
  tuneInstrs u f pairRate pairBand ++ (tuneInstrs v g pairRate pairBand ++
    driveInstrs u v (fun n => xs.getD n 0#64) xs.length)

theorem encode_pairRun (u v : ToneUnit) (f g : F64) (xs : List F64) : tuneUnit u f pairRate pairBand ++
    tuneUnit v g pairRate pairBand ++ driveBoth u v xs = (pairRun u v f g xs).map encode := by
  rw [pairRun, tuneUnit_eq, tuneUnit_eq, driveBoth_eq, List.map_append, List.map_append, List.append_assoc]

theorem length_pairRun (u v : ToneUnit) (f g : F64) (xs : List F64) :
    (pairRun u v f g xs).length = 8 + 2 * xs.length := by
  rw [pairRun, List.length_append, List.length_append, length_driveInstrs, tuneInstrs, tuneInstrs]
  simp only [List.length_cons, List.length_nil]
  omega

/-- Settles O7: the run is executed, each unit follows its steady answer, and the gains of the two are far enough apart. -/
theorem resonatorsDiscriminate : Obligations.ResonatorsDiscriminate := by
  unfold Obligations.ResonatorsDiscriminate
  intro s u v f g xs huv hmem hlen htone
  have hpair : Pair f g := pair_of_mem hmem
  have hx := fun n (hn : n < 132 + 1103) => tone_getD htone (hn.trans_eq hlen.symm)
  obtain ⟨b', hrun⟩ := hpair.executes hx huv s.block
  rw [← hlen] at hrun
  have hanswers := Executes.answers (is := pairRun u v f g xs) hrun
    (s := { s with pending := (pairRun u v f g xs).map encode }) rfl rfl
  rw [length_pairRun, ← encode_pairRun, hlen] at hanswers
  obtain ⟨hown, hother⟩ := outputEnergy_drive (tunedTo f pairRate pairBand) (tunedTo g pairRate pairBand)
    fun n => xs.getD n 0#64
  unfold Discriminates
  intro ys
  have hys : ys = _ := hanswers
  rw [hys]
  refine ⟨?_, fun y hy => ?_, ?_⟩
  · simp only [List.length_map, List.length_append, List.length_replicate, length_driveOutputs]
  · obtain ⟨w, -, rfl⟩ := List.mem_map.1 hy
    rfl
  · rw [hown, hother]
    exact hpair.energies hx

end Sys2Proof.Proofs
end

section
/-!
PROOF. `BQ.LOAD` and `BQ.PROC`, command by command (42_biquad_cascade.md R156 to R159): the answer of each check in its order,
and that a run through the memories, section by section, gives the values of the formulas, which read the state before it.
-/

namespace Sys2Proof.Proofs

-- One theorem is elaborated at a time, as in the tests: each further thread takes its own share of the memory limit.
set_option Elab.async false

open Sys2Proof Sys2Proof.Machine Sys2Proof.Safety

/-! ## The two commands as words -/

theorem decode_bqLoad (v : BitVec 4) (w : Word) :
    decode ⟨0#16 ++ (0#4 ++ (v ++ 0x40#8)), w⟩ = .ok (.bqLoad v) := decode_packCw 0x40#8 v 0#16 w

theorem decode_bqProc (v : BitVec 4) (x : F64) :
    decode ⟨0#16 ++ (0#4 ++ (v ++ 0x41#8)), x⟩ = .ok (.bqProc v x) := decode_packCw 0x41#8 v 0#16 x

/-- 30_encoding.md R81, R156: the cascade of the four that the command names is loaded. -/
theorem exec_bqLoad_unitCode (u : ToneUnit) (s : State) :
    exec (.bqLoad (unitCode u)) s = s.complete (bqBind u s.block) := by
  rw [exec_eq_complete, effect, bqLoad, withUnit_unitCode]

/-- 30_encoding.md R81, R159: the cascade of the four that the command names takes the sample. -/
theorem exec_bqProc_unitCode (u : ToneUnit) (x : F64) (s : State) :
    exec (.bqProc (unitCode u) x) s = s.complete (bqStep u x s.block) := by
  rw [exec_eq_complete, effect, bqProc, withUnit_unitCode]

/-! ## The checks of BQ.LOAD (R156) -/

/-- The order `2m + odd` that a coefficient list of a length has: four cells for each pair, two for a trailing section. -/
def orderOfLength (len : Nat) : Nat := 2 * (len / 4) + len % 4 / 2

/-- R156: a length that some order gives, and that order within the limit. -/
def LegalCoefs (b : Block) : Prop :=
  2 ≤ b.obLen ∧ b.obLen % 4 ≠ 1 ∧ b.obLen % 4 ≠ 3 ∧ orderOfLength b.obLen ≤ b.params.orderMax

theorem forall_mem_obCells {b : Block} {P : F64 → Prop} :
    (∀ v ∈ b.obCells, P v) ↔ ∀ i < b.obLen, P (b.ob.read i) := by
  simp only [Block.obCells, Memory.mem_cells, forall_exists_index, and_imp]
  exact ⟨fun h i hi => h _ i hi rfl, fun h _ i hi hv => hv ▸ h i hi⟩

section
variable {u : ToneUnit} {b : Block}

/-- The cascade that a legal list gives. -/
def loadedCascade (u : ToneUnit) (b : Block) : Biquad where
  order := orderOfLength b.obLen
  coef := (b.bq.get u).coef.writeFrom 0 b.obCells
  z := (b.bq.get u).z.writeFrom 0 (List.replicate (orderOfLength b.obLen) 0#64)

theorem bqBind_of_legal (hlegal : LegalCoefs b) (hfin : ∀ i < b.obLen, fIsFinite (b.ob.read i) = true) :
    bqBind u b = .ok (b.withBq u (loadedCascade u b), 0#64) := by
  obtain ⟨htwo, hone, hthree, horder⟩ := hlegal
  exact bqBind_ok.2 ⟨⟨htwo, hone, hthree⟩, horder, forall_mem_obCells.2 hfin, rfl⟩

/-- The length is looked at before the limit on the order; both answers are the same. -/
theorem bqBind_of_not_legal (h : ¬ LegalCoefs b) : bqBind u b = .error .badLength := by
  by_cases hlen : b.obLen < 2 ∨ b.obLen % 4 = 1 ∨ b.obLen % 4 = 3
  · exact if_pos hlen
  · have horder : b.params.orderMax < 2 * (b.obLen / 4) + b.obLen % 4 / 2 := by
      unfold LegalCoefs orderOfLength at h
      omega
    rw [bqBind, if_neg hlen, if_pos horder]

theorem bqBind_of_not_finite (hlegal : LegalCoefs b) (h : ¬ ∀ i < b.obLen, fIsFinite (b.ob.read i) = true) :
    bqBind u b = .error .nonFinite := by
  obtain ⟨htwo, hone, hthree, horder⟩ := hlegal
  rw [orderOfLength] at horder
  rw [bqBind, if_neg (by omega), if_neg (Nat.not_lt.2 horder)]
  exact requireFinite_of_not_all _ fun hall => h (forall_mem_obCells.1 hall)

/-! ## The cells of a loaded cascade -/

theorem coef_loadedCascade {i : Nat} (hi : i < b.obLen) : (loadedCascade u b).coef.read i = b.ob.read i := by
  have hlt : i < b.obCells.length := by rwa [Block.obCells, Memory.length_cells]
  rw [loadedCascade, read_writeFrom_zero, List.getD_eq_getElem _ _ hlt]
  exact Memory.getElem_cells _ _ _ hlt

theorem z_loadedCascade {i : Nat} (hi : i < orderOfLength b.obLen) : (loadedCascade u b).z.read i = 0#64 := by
  rw [loadedCascade, read_writeFrom_zero, List.getD_eq_getElem _ _ (by rwa [List.length_replicate]),
    List.getElem_replicate]

theorem coef_loadedCascade_sameCellsFrom :
    SameCellsFrom (b.bq.get u).coef (loadedCascade u b).coef b.obLen :=
  sameCellsFrom_writeFrom _ (by rw [Block.obCells, Memory.length_cells])

theorem z_loadedCascade_sameCellsFrom :
    SameCellsFrom (b.bq.get u).z (loadedCascade u b).z (orderOfLength b.obLen) :=
  sameCellsFrom_writeFrom _ (by rw [List.length_replicate])

end

/-- Settles O34: each clause is one end of the load, and the cells are those of `loadedCascade`. -/
theorem bqLoadBindsTheSections : Obligations.BqLoadBindsTheSections := by
  unfold Obligations.BqLoadBindsTheSections
  refine ⟨decode_bqLoad, fun v s hv => exec_of_fault (withUnit_of_ge hv _), fun u s => ?_⟩
  intro len order q legal finite
  refine ⟨fun hlegal hfin => ⟨(loadedCascade u s.block).coef, (loadedCascade u s.block).z, ?_, ?_⟩,
    fun hnot => ?_, fun hlegal hnot => ?_⟩
  · rw [exec_bqLoad_unitCode, bqBind_of_legal hlegal hfin]
    rfl
  · exact ⟨fun i hi => coef_loadedCascade hi, fun i hi => z_loadedCascade hi,
      coef_loadedCascade_sameCellsFrom, z_loadedCascade_sameCellsFrom⟩
  · rw [exec_bqLoad_unitCode, bqBind_of_not_legal hnot, State.complete_error]
  · rw [exec_bqLoad_unitCode, bqBind_of_not_finite hlegal hnot, State.complete_error]

/-! ## One section (R157, R158)

A section finds in its own cells the state before the command, as no other section writes there. -/

section
variable {q : Biquad} {x d : F64} {z : Memory} {j : Nat}

theorem section2_snd (h1 : z.read (2 * j) = q.z.read (2 * j)) (h2 : z.read (2 * j + 1) = q.z.read (2 * j + 1)) :
    (section2 q.coef z j d).2 = section2Out q j d := by
  simp only [section2, section2Out, section2Mid, h1, h2]

theorem section2_read_even (h1 : z.read (2 * j) = q.z.read (2 * j))
    (h2 : z.read (2 * j + 1) = q.z.read (2 * j + 1)) :
    (section2 q.coef z j d).1.read (2 * j) = fFlush (section2Mid q j d) := by
  simp only [section2, section2Mid, h1, h2, Memory.read_write_same]

/-- The second cell takes what the first one held. -/
theorem section2_read_odd (coef : Memory) : (section2 coef z j d).1.read (2 * j + 1) = z.read (2 * j) := by
  rw [section2, Memory.read_write_ne (by omega), Memory.read_write_same]

theorem section2_read_other (coef : Memory) {i : Nat} (h1 : i ≠ 2 * j) (h2 : i ≠ 2 * j + 1) :
    (section2 coef z j d).1.read i = z.read i := by
  rw [section2, Memory.read_write_ne h1, Memory.read_write_ne h2]

theorem section1_snd (h : z.read (2 * (q.order / 2)) = q.z.read (2 * (q.order / 2))) :
    (section1 q.coef z (q.order / 2) d).2 = section1Out q d := by
  simp only [section1, section1Out, section1Mid, h]

theorem section1_read_same (h : z.read (2 * (q.order / 2)) = q.z.read (2 * (q.order / 2))) :
    (section1 q.coef z (q.order / 2) d).1.read (2 * (q.order / 2)) = fFlush (section1Mid q d) := by
  simp only [section1, section1Mid, h, Memory.read_write_same]

theorem section1_read_other (coef : Memory) {i : Nat} (h : i ≠ 2 * j) :
    (section1 coef z j d).1.read i = z.read i := by
  rw [section1, Memory.read_write_ne h]

/-! ## The formula of the new state, cell by cell -/

theorem cascadeState_even (hj : j < q.order / 2) :
    cascadeState q x (2 * j) = fFlush (section2Mid q j (cascadeInput q x j)) := by
  rw [cascadeState, if_neg (by omega), if_pos (by omega), Nat.mul_div_cancel_left j (by decide)]

theorem cascadeState_odd (q : Biquad) (x : F64) (j : Nat) : cascadeState q x (2 * j + 1) = q.z.read (2 * j) := by
  rw [cascadeState, if_neg (by omega), if_neg (by omega), Nat.add_sub_cancel]

theorem cascadeState_trailing (q : Biquad) (x : F64) :
    cascadeState q x (2 * (q.order / 2)) = fFlush (section1Mid q (cascadeInput q x (q.order / 2))) := if_pos rfl

end

/-! ## The whole cascade (R159) -/

/-- Where the cascade stands before section `j`: the value handed on, the cells of the sections before with their new
state, the others with the state before the command. -/
structure RanTo (q : Biquad) (x : F64) (j : Nat) (zd : Memory × F64) : Prop where
  value : zd.2 = cascadeInput q x j
  done : ∀ i < 2 * j, zd.1.read i = cascadeState q x i
  rest : SameCellsFrom q.z zd.1 (2 * j)

section
variable {q : Biquad} {x : F64}

theorem ranTo_zero (q : Biquad) (x : F64) : RanTo q x 0 (q.z, x) where
  value := rfl
  done := nofun
  rest := sameCellsFrom_refl q.z _

theorem RanTo.after_section2 {j : Nat} {zd : Memory × F64} (h : RanTo q x j zd) (hj : j < q.order / 2) :
    RanTo q x (j + 1) (section2 q.coef zd.1 j zd.2) := by
  have heven := h.rest (2 * j) le_rfl
  have hodd := h.rest (2 * j + 1) (Nat.le_succ _)
  refine ⟨?_, fun i hi => ?_, fun i hi => ?_⟩
  · rw [section2_snd heven hodd, h.value, cascadeInput]
  · obtain hbefore | rfl | rfl : i < 2 * j ∨ i = 2 * j ∨ i = 2 * j + 1 := by omega
    · rw [section2_read_other _ (by omega) (by omega), h.done i hbefore]
    · rw [section2_read_even heven hodd, h.value, cascadeState_even hj]
    · rw [section2_read_odd, heven, cascadeState_odd]
  · rw [section2_read_other _ (by omega) (by omega), h.rest i (by omega)]

theorem RanTo.after_sectionsFrom (n : Nat) : ∀ {j : Nat} {zd : Memory × F64}, RanTo q x j zd → j + n ≤ q.order / 2 →
    RanTo q x (j + n) (sectionsFrom q.coef n j zd) := by
  induction n with
  | zero => exact fun h _ => h
  | succ n ih =>
    intro j zd h hle
    have hrest := ih (h.after_section2 (by omega)) (by omega)
    rwa [Nat.add_assoc, Nat.add_comm 1 n] at hrest

/-- The second-order sections of a cascade, all of them. -/
theorem ranTo_sections (q : Biquad) (x : F64) :
    RanTo q x (q.order / 2) (sectionsFrom q.coef q.sections 0 (q.z, x)) := by
  have h := (ranTo_zero q x).after_sectionsFrom (q.order / 2) (by omega)
  rwa [Nat.zero_add] at h

theorem stateCells_eq_order (q : Biquad) : q.stateCells = q.order := Nat.div_add_mod q.order 2

theorem run_snd (q : Biquad) (x : F64) : (q.run x).2 = cascadeOut q x := by
  have h := ranTo_sections q x
  rw [Biquad.run, cascadeOut]
  split
  · exact (section1_snd (h.rest _ le_rfl)).trans (by rw [h.value])
  · exact h.value

theorem run_read {i : Nat} (hi : i < q.stateCells) : (q.run x).1.read i = cascadeState q x i := by
  have h := ranTo_sections q x
  rw [stateCells_eq_order] at hi
  rw [Biquad.run]
  split
  case isTrue hodd =>
    obtain hpair | rfl : i < 2 * (q.order / 2) ∨ i = 2 * (q.order / 2) := by omega
    · exact (section1_read_other _ hpair.ne).trans (h.done i hpair)
    · exact (section1_read_same (h.rest _ le_rfl)).trans (by rw [h.value, cascadeState_trailing])
  case isFalse heven => exact h.done i (by omega)

theorem run_read_of_ge {i : Nat} (hi : q.stateCells ≤ i) : (q.run x).1.read i = q.z.read i :=
  run_sameCellsFrom q x i (stateCells_eq_order q ▸ hi)

/-- R159: what is checked before the state is committed, in values of the formulas. -/
def CascadeFinite (q : Biquad) (x : F64) : Prop :=
  fIsFinite (cascadeOut q x) = true ∧ ∀ i < q.stateCells, fIsFinite (cascadeState q x i) = true

theorem run_finite_iff : (∀ v ∈ (q.run x).2 :: (q.run x).1.cells q.stateCells, fIsFinite v = true) ↔
    CascadeFinite q x := by
  have hcells : (∀ v ∈ (q.run x).1.cells q.stateCells, fIsFinite v = true) ↔
      ∀ i < q.stateCells, fIsFinite (cascadeState q x i) = true := by
    simp only [Memory.mem_cells, forall_exists_index, and_imp]
    exact ⟨fun h i hi => run_read hi ▸ h _ i hi rfl, fun h v i hi hv => hv ▸ run_read hi ▸ h i hi⟩
  rw [List.forall_mem_cons, hcells, run_snd, CascadeFinite]

end

/-! ## The checks of BQ.PROC (R159) -/

section
variable {u : ToneUnit} {x : F64} {b : Block} (hloaded : (b.bq.get u).order ≠ 0)
include hloaded

theorem bqStep_of_not_finite (h : fIsFinite x = false) : bqStep u x b = .error .nonFinite := by
  rw [bqStep, if_neg hloaded]
  exact requireFinite_of_not _ (List.mem_singleton_self x) h

variable (hx : fIsFinite x = true)
include hx

theorem bqStep_of_finite (h : CascadeFinite (b.bq.get u) x) : bqStep u x b =
    .ok (b.withBq u { b.bq.get u with z := ((b.bq.get u).run x).1 }, cascadeOut (b.bq.get u) x) := by
  obtain ⟨hout, hstate⟩ := List.forall_mem_cons.1 (run_finite_iff.2 h)
  rw [bqStep_ok.2 ⟨hloaded, hx, hout, hstate, rfl⟩, run_snd]

theorem bqStep_of_not_cascadeFinite (h : ¬ CascadeFinite (b.bq.get u) x) : bqStep u x b = .error .nonFinite := by
  rw [bqStep, if_neg hloaded, requireFinite_of_finite _ (by simpa using hx)]
  exact requireFinite_of_not_all _ fun hall => h (run_finite_iff.1 hall)

end

/-- Settles O35: each clause is one end of the step, and the cells are those of the run. -/
theorem bqProcRunsTheCascade : Obligations.BqProcRunsTheCascade := by
  unfold Obligations.BqProcRunsTheCascade
  refine ⟨decode_bqProc, fun v x s hv => exec_of_fault (withUnit_of_ge hv _), fun u x s => ?_⟩
  intro q cells finite
  refine ⟨fun hloaded hx hfin => ⟨(q.run x).1, ?_, fun i hi => run_read hi, fun i hi => run_read_of_ge hi⟩,
    fun hunloaded => ?_, fun hloaded hx => ?_, fun hloaded hx hnot => ?_⟩ <;> rw [exec_bqProc_unitCode]
  · rw [bqStep_of_finite hloaded hx hfin]
    rfl
  · rw [bqStep_of_unloaded hunloaded, State.complete_error]
  · rw [bqStep_of_not_finite hloaded hx, State.complete_error]
  · rw [bqStep_of_not_cascadeFinite hloaded hx hnot, State.complete_error]

end Sys2Proof.Proofs
end

section
/-!
PROOF. `FIR.CREATE` and `FIR.PROC`, command by command (43_circular_fir.md R171, R172): the answer of each check in its
order and the cells each command leaves; and the invariants of the filter (R173), kept by whatever a step does to it.
-/

namespace Sys2Proof.Proofs

-- One theorem is elaborated at a time, as in the tests: each further thread takes its own share of the memory limit.
set_option Elab.async false

open Sys2Proof Sys2Proof.Machine Sys2Proof.Safety

/-- 60_exceptions.md R266: a command whose effect is executed is answered. -/
theorem exec_of_ok {i : Instr} {s : State} {b : Block} {w : Word} (h : effect i s.block = .ok (b, w)) :
    exec i s = .next (s.answer b w) := by
  rw [exec_eq_complete, h, State.complete_ok]

/-! ## A new filter (R171) -/

/-- The filter that the operand buffer gives. -/
def createdFir (b : Block) : Fir where
  tap := b.fir.tap.writeFrom 0 b.obCells
  l := b.obLen
  ring := b.fir.ring.writeFrom 0 (List.replicate (2 * b.obLen) 0#64)
  w := 0

/-- R171: a length within the limit. -/
def LegalTaps (b : Block) : Prop := 1 ≤ b.obLen ∧ b.obLen ≤ b.params.lMax

section
variable {b : Block}

theorem firCreate_of_legal (hlegal : LegalTaps b) (hfin : ∀ i < b.obLen, fIsFinite (b.ob.read i) = true) :
    firCreate b = .ok (b.withFir (createdFir b), 0#64) :=
  firCreate_ok.2 ⟨hlegal, forall_mem_obCells.2 hfin, rfl⟩

theorem firCreate_of_not_legal (h : ¬ LegalTaps b) : firCreate b = .error .badLength :=
  if_pos (by unfold LegalTaps at h; omega)

theorem firCreate_of_not_finite (hlegal : LegalTaps b) (h : ¬ ∀ i < b.obLen, fIsFinite (b.ob.read i) = true) :
    firCreate b = .error .nonFinite := by
  obtain ⟨hone, hmax⟩ := hlegal
  rw [firCreate, if_neg (by omega)]
  exact requireFinite_of_not_all _ fun hall => h (forall_mem_obCells.1 hall)

theorem tap_createdFir {i : Nat} (hi : i < b.obLen) : (createdFir b).tap.read i = b.ob.read i := by
  have hlt : i < b.obCells.length := by rwa [Block.obCells, Memory.length_cells]
  rw [createdFir, read_writeFrom_zero, List.getD_eq_getElem _ _ hlt]
  exact Memory.getElem_cells _ _ _ hlt

theorem ring_createdFir {i : Nat} (hi : i < 2 * b.obLen) : (createdFir b).ring.read i = 0#64 := by
  rw [createdFir, read_writeFrom_zero, List.getD_eq_getElem _ _ (by rwa [List.length_replicate]),
    List.getElem_replicate]

theorem tap_createdFir_sameCellsFrom : SameCellsFrom b.fir.tap (createdFir b).tap b.obLen :=
  sameCellsFrom_writeFrom _ (by rw [Block.obCells, Memory.length_cells])

theorem ring_createdFir_sameCellsFrom : SameCellsFrom b.fir.ring (createdFir b).ring (2 * b.obLen) :=
  sameCellsFrom_writeFrom _ (by rw [List.length_replicate])

end

theorem decode_firCreate (w : Word) : decode ⟨0x00000020#32, w⟩ = .ok .firCreate := decode_packCw 0x20#8 0#4 0#16 w

/-! ## One sample (R172) -/

/-- The filter after it took a sample. -/
def firAfter (f : Fir) (x : F64) : Fir := { f with ring := f.record x, w := (f.w + 1) % f.l }

section
variable (f : Fir) (x : F64)

@[simp] theorem firAfter_tap : (firAfter f x).tap = f.tap := rfl
@[simp] theorem firAfter_l : (firAfter f x).l = f.l := rfl
@[simp] theorem firAfter_ring : (firAfter f x).ring = f.record x := rfl
@[simp] theorem firAfter_w : (firAfter f x).w = (f.w + 1) % f.l := rfl

/-- R172: the sample stands in two cells, every other cell reads as before. -/
theorem record_read (j : Nat) : (f.record x).read j = if j = f.w ∨ j = f.w + f.l then x else f.ring.read j := by
  rw [Fir.record, Memory.read_write, Memory.read_write]
  by_cases hhigh : j = f.w + f.l
  · rw [if_pos hhigh, if_pos (.inr hhigh)]
  · simp only [hhigh, if_false, or_false]

/-- R172: the sum reads the ring as the sample leaves it. -/
theorem output_eq : f.output x = (List.range f.l).foldl (fun acc k => fAdd acc (fMul (f.tap.read k)
    (if f.w + f.l - k = f.w ∨ f.w + f.l - k = f.w + f.l then x else f.ring.read (f.w + f.l - k)))) 0#64 := by
  simp only [Fir.output, convolve, record_read]

end

section
variable {x : F64} {b : Block} (hbound : b.fir.l ≠ 0)
include hbound

theorem firProc_of_not_finite (hx : fIsFinite x = false) : firProc x b = .error .nonFinite := by
  rw [firProc, if_neg hbound]
  exact requireFinite_of_not _ (List.mem_singleton_self x) hx

variable (hx : fIsFinite x = true)
include hx

theorem firProc_of_finite (hout : fIsFinite (b.fir.output x) = true) :
    firProc x b = .ok (b.withFir (firAfter b.fir x), b.fir.output x) := firProc_ok.2 ⟨hbound, hx, hout, rfl⟩

theorem firProc_of_output_not_finite (hout : fIsFinite (b.fir.output x) = false) : firProc x b = .error .nonFinite := by
  rw [firProc, if_neg hbound, requireFinite_of_finite _ (by simpa using hx)]
  exact requireFinite_of_not _ (List.mem_singleton_self _) hout

end

theorem decode_firProc (x : F64) : decode ⟨0x00000021#32, x⟩ = .ok (.firProc x) := decode_packCw 0x21#8 0#4 0#16 x

/-! ## The invariants (R173) -/

/-- R173 (b) and (c) of a new filter: every ring cell is zero. -/
theorem firOk_createdFir (b : Block) : FirOk (createdFir b) := by
  have hzero : ∀ i < 2 * b.obLen, (createdFir b).ring.read i = 0#64 := fun i hi => ring_createdFir hi
  refine ⟨id, fun i hi => ?_⟩
  rw [show (createdFir b).l = b.obLen from rfl] at hi ⊢
  rw [hzero i (by omega), hzero (i + b.obLen) (by omega)]

/-- R173 (b) and (c) after a sample: `w` is reduced modulo `L`, and both halves of the ring take the sample at `w`. -/
theorem firOk_firAfter {f : Fir} (hf : FirOk f) (hbound : 0 < f.l) (x : F64) : FirOk (firAfter f x) := by
  obtain ⟨hw, hmirror⟩ := hf
  have hlt := hw hbound
  refine ⟨fun _ => Nat.mod_lt _ hbound, fun i hi => ?_⟩
  have hil : i < f.l := hi
  rw [firAfter_ring, firAfter_l, record_read, record_read]
  by_cases hiw : i = f.w
  · rw [if_pos (.inl hiw), if_pos (.inr (by rw [hiw]))]
  · rw [if_neg (by omega), if_neg (by omega), hmirror i hil]

/-- What a command can do to the filter (10_state.md R42). -/
inductive FirChange (b : Block) : Fir → Prop where
  | kept : FirChange b b.fir
  | reset : FirChange b ⟨[], 0, [], 0⟩
  | created : FirChange b (createdFir b)
  | sampled (x : F64) (hbound : 0 < b.fir.l) : FirChange b (firAfter b.fir x)

/-- R246: of the stages of the sample step the first writes the filter, as `FIR.PROC` does. -/
theorem pipeSample_firChange {x : F64} {b b' : Block} {w : Word} (h : pipeSample x b = .ok (b', w)) :
    FirChange b b'.fir := by
  obtain ⟨-, -, b1, x2, b2, x3, hfir, hagc, htones⟩ := pipeSample_ok.1 h
  obtain ⟨hbound, hfir1, -⟩ := stageFir_effect hfir
  rw [((stageAgc_effect hagc).trans (stageTones_effect htones)).fir, hfir1]
  exact .sampled (b := b) (clip b.clipLevel x) hbound

/-- Each executed command makes one of the four changes. -/
theorem firChange_of_effect {i : Instr} {b b' : Block} {w : Word} (h : effect i b = .ok (b', w)) :
    FirChange b b'.fir := by
  have hwrites := writeSet_of_effect h
  cases i with
  | argSet | obClear | obPush | firDesign | iirDesign | agcTrack | agcUpdate | syncPreset | syncTiming | syncStep
  | syncReset =>
    rw [hwrites.1]
    exact .kept
  | obRead | regRead | agcApply | agcConfig =>
    rw [show b' = _ from hwrites]
    exact .kept
  | resSetfreq =>
    obtain ⟨t, -, hpart⟩ := hwrites
    rw [hpart]
    exact .kept
  | resProc | bqLoad | bqProc =>
    obtain ⟨t, -, hpart, -⟩ := hwrites
    rw [hpart]
    exact .kept
  | firCreate =>
    obtain ⟨-, -, ⟨⟩⟩ := firCreate_ok.1 h
    exact .created
  | firProc x =>
    obtain ⟨hbound, -, -, ⟨⟩⟩ := firProc_ok.1 h
    exact .sampled x (Nat.pos_of_ne_zero hbound)
  | pipeSampleI16 imm => exact pipeSample_firChange h
  | pipeSampleF64 x => exact pipeSample_firChange h
  | pipeReset => cases h; exact .reset

theorem FirChange.firOk {b : Block} {f : Fir} (h : FirChange b f) (hb : FirOk b.fir) : FirOk f := by
  cases h with
  | kept => exact hb
  | reset => exact ⟨nofun, nofun⟩
  | created => exact firOk_createdFir b
  | sampled x hbound => exact firOk_firAfter hb hbound x

theorem firOk_of_step {s t : State} (hs : FirOk s.block.fir) (h : step s = .next t) : FirOk t.block.fir := by
  rcases block_of_step h with hkept | ⟨i, w, hok⟩
  · rwa [hkept]
  · exact (firChange_of_effect hok).firOk hs

/-- R173 (a): executed or not, `FIR.PROC` keeps the length. -/
theorem firProc_keeps_l {x : F64} {s t : State} (h : exec (.firProc x) s = .next t) :
    t.block.fir.l = s.block.fir.l := by
  rcases exec_cases h with ⟨-, w, hok⟩ | ⟨-, hkept⟩
  · exact (congrArg Fir.l (firProc_keeps hok).fir :)
  · rw [hkept]

/-- R173 (d). -/
theorem ring_index_bounds {f : Fir} (hf : FirOk f) (hbound : 0 < f.l) :
    f.w ≤ 2 * f.l - 1 ∧ f.w + f.l ≤ 2 * f.l - 1 ∧ ∀ k < f.l, 1 ≤ f.w + f.l - k ∧ f.w + f.l - k ≤ 2 * f.l - 1 := by
  have hw := hf.1 hbound
  exact ⟨by omega, by omega, fun k hk => ⟨by omega, by omega⟩⟩

/-- Settles O27: a step makes one of four changes to the filter, and each keeps `w` below `L` and the halves alike. -/
theorem firInvariantsAreKept : Obligations.FirInvariantsAreKept := by
  unfold Obligations.FirInvariantsAreKept
  exact ⟨firOk_resetWith, fun s t => firOk_of_step, fun x s t => firProc_keeps_l, fun f => ring_index_bounds⟩

/-- Settles O25: each clause is one end of the command, and the cells are those of `createdFir`. -/
theorem firCreateBindsTheTaps : Obligations.FirCreateBindsTheTaps := by
  unfold Obligations.FirCreateBindsTheTaps
  refine ⟨decode_firCreate, fun s => ?_⟩
  intro len legal finite
  exact ⟨fun hlegal hfin => ⟨(createdFir s.block).tap, (createdFir s.block).ring,
      exec_of_ok (firCreate_of_legal hlegal hfin), fun i hi => tap_createdFir hi, fun i hi => ring_createdFir hi,
      tap_createdFir_sameCellsFrom, ring_createdFir_sameCellsFrom⟩,
    fun hnot => exec_of_fault (firCreate_of_not_legal hnot),
    fun hlegal hnot => exec_of_fault (firCreate_of_not_finite hlegal hnot)⟩

/-- Settles O26: each clause is one end of the command, and the sum is the filter's output. -/
theorem firProcFiltersOneSample : Obligations.FirProcFiltersOneSample := by
  unfold Obligations.FirProcFiltersOneSample
  intro x s f ring' acc
  have hacc : acc = s.block.fir.output x := (output_eq f x).symm
  refine ⟨decode_firProc x, fun hbound hx hfin => ⟨f.record x, ?_, record_read f x⟩,
    fun hunbound => exec_of_fault (firProc_of_unbound hunbound x),
    fun hbound hx => exec_of_fault (firProc_of_not_finite hbound hx),
    fun hbound hx hnot => exec_of_fault (firProc_of_output_not_finite hbound hx (hacc ▸ hnot))⟩
  rw [hacc]
  exact exec_of_ok (firProc_of_finite hbound hx (hacc ▸ hfin))

end Sys2Proof.Proofs
end

section
/-!
PROOF. A stream of samples through the FIR filter (43_circular_fir.md R174): behind the sample that arrived last the ring
holds the ones before it, so that each output is the convolution of the taps with the samples so far.
-/

namespace Sys2Proof.Proofs

-- One theorem is elaborated at a time, as in the tests: each further thread takes its own share of the memory limit.
set_option Elab.async false

open Sys2Proof Sys2Proof.Machine Sys2Proof.Safety

/-! ## A run and its last answer -/

theorem run_succ_of_step {s s' : State} (h : step s = .next s') (k : Nat) :
    Sys2Proof.core.run (k + 1) s = Sys2Proof.core.run k s' := by
  simp only [Host.Core.run, show Sys2Proof.core.step s = .next s' from h]

/-- 30_encoding.md R80: a run of executed commands leaves their last block, and the answer of the last of them. -/
theorem Executes.run {b b' : Block} {is : List Instr} {ws : List Word} (h : Executes b is ws b')
    (rest : List Transaction) : ∀ {s : State}, s.block = b → s.pending = is.map encode ++ rest →
      ∃ s' : State, Sys2Proof.core.run is.length s = .next s' ∧ s'.pending = rest ∧ s'.block = b' ∧
        (s'.status, s'.rdata) = (ws.map fun w => (0#8, w)).getLastD (s.status, s.rdata) := by
  induction h with
  | nil b => exact fun {s} hblock hpending => ⟨s, rfl, hpending, hblock, rfl⟩
  | @cons b b' b'' i is w ws heffect _ ih =>
    intro s hblock hpending
    have hstep : step s = .next (s.answer b' w) :=
      (step_of_decode_ok hpending (decodeOfEncode i)).trans (exec_of_ok (hblock ▸ heffect))
    obtain ⟨s', hrun, hrest⟩ := ih (s := s.answer b' w) rfl (by rw [State.answer_pending, hpending]; rfl)
    rw [List.map_cons, List.getLastD_cons]
    exact ⟨s', (run_succ_of_step hstep _).trans hrun, hrest⟩

/-! ## The delay line -/

/-- R174: the ring read backward from the upper cell of the sample that arrived last, the one before `w`. -/
def Recent (f : Fir) (newestFirst : List F64) : Prop :=
  ∀ k < f.l, f.ring.read ((f.w + f.l - 1) % f.l + f.l - k) = newestFirst.getD k 0#64

/-- The cell before the advanced index is the one just written. -/
theorem pred_succ_mod {w l : Nat} (hw : w < l) : ((w + 1) % l + l - 1) % l = w := by
  rcases Nat.lt_or_ge (w + 1) l with hlt | hge
  · rw [Nat.mod_eq_of_lt hlt, show w + 1 + l - 1 = w + l by omega, Nat.add_mod_right, Nat.mod_eq_of_lt hw]
  · rw [show w + 1 = l by omega, Nat.mod_self, Nat.zero_add, Nat.mod_eq_of_lt (by omega)]
    omega

section
variable {f : Fir} {newestFirst : List F64} (hf : FirOk f) (hbound : 0 < f.l)
include hf hbound

/-- Seen from `w`, where the mirror (R173 c) stands in for the upper half when `w` is 0. -/
theorem Recent.read_behind (h : Recent f newestFirst) {k : Nat} (hk : k < f.l) :
    f.ring.read (f.w + f.l - 1 - k) = newestFirst.getD k 0#64 := by
  obtain ⟨hw, hmirror⟩ := hf
  have hlt := hw hbound
  rw [← h k hk]
  rcases Nat.eq_zero_or_pos f.w with hzero | hpos
  · rw [hzero, Nat.mod_eq_of_lt (by omega), hmirror _ (by omega)]
    congr 1
    omega
  · rw [show f.w + f.l - 1 = (f.w - 1) + f.l by omega, Nat.add_mod_right, Nat.mod_eq_of_lt (by omega)]

/-- R174: after its two writes a sample stands in front of the older ones. -/
theorem Recent.read_record (h : Recent f newestFirst) (x : F64) {k : Nat} (hk : k < f.l) :
    (f.record x).read (f.w + f.l - k) = (x :: newestFirst).getD k 0#64 := by
  rw [record_read]
  cases k with
  | zero => exact if_pos (.inr rfl)
  | succ k =>
    rw [if_neg (by omega), List.getD_cons_succ, ← h.read_behind hf hbound (by omega)]
    congr 1
    omega

theorem Recent.firAfter (h : Recent f newestFirst) (x : F64) : Recent (firAfter f x) (x :: newestFirst) := by
  intro k hk
  rw [firAfter_w, firAfter_l, firAfter_ring, pred_succ_mod (hf.1 hbound)]
  exact h.read_record hf hbound x hk

/-- R174: the output for a sample is the convolution. -/
theorem Recent.output (h : Recent f newestFirst) (x : F64) :
    f.output x = convolution f.tap.read f.l (x :: newestFirst) :=
  List.foldl_ext _ _ _ fun acc k hk => by rw [h.read_record hf hbound x (List.mem_range.1 hk)]

end

/-! ## A stream -/

/-- The filter after it took a list of samples, the oldest first. -/
def firFed (f : Fir) (xs : List F64) : Fir := xs.foldl firAfter f

theorem firFed_concat (f : Fir) (xs : List F64) (x : F64) : firFed f (xs ++ [x]) = firAfter (firFed f xs) x :=
  List.foldl_concat ..

section
variable (f : Fir) (xs : List F64)

@[simp] theorem firFed_tap : (firFed f xs).tap = f.tap := by
  induction xs using List.reverseRecOn with
  | nil => rfl
  | append_singleton xs x ih => rw [firFed_concat, firAfter_tap, ih]

@[simp] theorem firFed_l : (firFed f xs).l = f.l := by
  induction xs using List.reverseRecOn with
  | nil => rfl
  | append_singleton xs x ih => rw [firFed_concat, firAfter_l, ih]

/-- R174: `w` counts the samples modulo `L`. -/
theorem firFed_w (hw : f.w = 0) : (firFed f xs).w = xs.length % f.l := by
  induction xs using List.reverseRecOn with
  | nil => exact hw.trans (Nat.zero_mod _).symm
  | append_singleton xs x ih =>
    rw [firFed_concat, firAfter_w, ih, firFed_l, List.length_append, List.length_singleton, Nat.mod_add_mod]

end

/-- R171: a filter right after its creation. -/
structure FreshFir (f : Fir) : Prop where
  bound : 0 < f.l
  w : f.w = 0
  ring : ∀ i < 2 * f.l, f.ring.read i = 0#64

section
variable {f : Fir} (hf : FreshFir f)
include hf

theorem FreshFir.firOk : FirOk f :=
  ⟨fun hbound => by rwa [hf.w], fun i hi => by rw [hf.ring i (by omega), hf.ring (i + f.l) (by omega)]⟩

/-- R174: a sample that has not arrived is `+0.0`. -/
theorem FreshFir.recent : Recent f [] := by
  intro k hk
  rw [hf.w, Nat.zero_add, Nat.mod_eq_of_lt (by omega)]
  exact hf.ring _ (by omega)

theorem firOk_firFed (xs : List F64) : FirOk (firFed f xs) := by
  induction xs using List.reverseRecOn with
  | nil => exact hf.firOk
  | append_singleton xs x ih =>
    rw [firFed_concat]
    exact firOk_firAfter ih (by rw [firFed_l]; exact hf.bound) x

theorem recent_firFed (xs : List F64) : Recent (firFed f xs) xs.reverse := by
  induction xs using List.reverseRecOn with
  | nil => exact hf.recent
  | append_singleton xs x ih =>
    rw [firFed_concat, List.reverse_concat]
    exact ih.firAfter (firOk_firFed hf xs) (by rw [firFed_l]; exact hf.bound) x

/-- R174: the output for the sample after a list of samples. -/
theorem output_firFed (xs : List F64) (x : F64) :
    (firFed f xs).output x = firOutput f.tap.read f.l (xs ++ [x]) xs.length := by
  rw [(recent_firFed hf xs).output (firOk_firFed hf xs) (by rw [firFed_l]; exact hf.bound), firFed_tap, firFed_l,
    firOutput, List.take_of_length_le (by simp), List.reverse_concat]

end

/-- The output for a sample does not look at the later ones. -/
theorem firOutput_append (tap : Nat → F64) (l : Nat) {xs : List F64} {t : Nat} (ht : t < xs.length) (ys : List F64) :
    firOutput tap l (xs ++ ys) t = firOutput tap l xs t := by
  rw [firOutput, List.take_append_of_le_length ht, firOutput]

/-- R174: every sample of a stream with finite outputs is executed, and answered with its output. -/
theorem executes_stream {b : Block} (hb : FreshFir b.fir) (xs : List F64) (hx : ∀ x ∈ xs, fIsFinite x = true)
    (hout : ∀ t < xs.length, fIsFinite (firOutput b.fir.tap.read b.fir.l xs t) = true) :
    Executes b (xs.map Instr.firProc) ((List.range xs.length).map (firOutput b.fir.tap.read b.fir.l xs))
      (b.withFir (firFed b.fir xs)) := by
  induction xs using List.reverseRecOn with
  | nil => exact .nil b
  | append_singleton xs x ih =>
    have hearlier : ∀ t < xs.length, firOutput b.fir.tap.read b.fir.l (xs ++ [x]) t =
        firOutput b.fir.tap.read b.fir.l xs t := fun t ht => firOutput_append _ _ ht _
    rw [List.length_append, List.length_singleton] at hout
    rw [List.forall_mem_append] at hx
    have hbefore := ih hx.1 fun t ht => hearlier t ht ▸ hout t (by omega)
    have hlast : effect (.firProc x) (b.withFir (firFed b.fir xs)) = .ok (b.withFir (firFed b.fir (xs ++ [x])),
        firOutput b.fir.tap.read b.fir.l (xs ++ [x]) xs.length) := by
      rw [firFed_concat, ← output_firFed hb]
      refine firProc_of_finite (b := b.withFir (firFed b.fir xs)) ?_ (hx.2 x (List.mem_singleton_self x)) ?_
      · rw [Block.withFir_fir, firFed_l]
        exact hb.bound.ne'
      · rw [Block.withFir_fir, output_firFed hb]
        exact hout _ (Nat.lt_succ_self _)
    rw [List.map_append, List.length_append, List.length_singleton, List.range_succ, List.map_append,
      List.map_congr_left fun t ht => hearlier t (List.mem_range.1 ht)]
    exact hbefore.append (.cons hlast (.nil _))

/-- Settles O28: the stream is executed, and the filter it leaves holds the samples in the order of their age. -/
theorem firComputesTheConvolution : Obligations.FirComputesTheConvolution := by
  unfold Obligations.FirComputesTheConvolution
  intro s xs rest f hbound hw hring hpending hx hout
  have hfresh : FreshFir f := ⟨hbound, hw, hring⟩
  obtain ⟨s', hrun, hrest, hblock, hanswer⟩ := (executes_stream hfresh xs hx hout).run rest rfl
    (by rw [hpending, List.map_map]; rfl)
  rw [List.length_map] at hrun
  refine ⟨s', hrun, hrest, by rw [hblock]; rfl, ?_⟩
  rw [hblock, Block.withFir_fir, firFed_w f xs hw]
  refine ⟨firFed_tap f xs, firFed_l f xs, rfl, fun k hk => ?_, fun n hn => ?_⟩
  · rw [← recent_firFed hfresh xs k (by rwa [firFed_l]), firFed_w f xs hw, firFed_l, Nat.add_sub_assoc hbound,
      Nat.add_sub_assoc hbound, Nat.mod_add_mod]
  · rw [hn, List.range_succ, List.map_append, List.map_append] at hanswer
    exact Prod.mk.inj (hanswer.trans (List.getLastD_concat ..))

end Sys2Proof.Proofs
end

section
/-!
PROOF. The one-tap filters and the moving average (43_circular_fir.md R176): what the product with 1.0 or 0.5 and the sum
with `+0.0` make of a finite sample, and the stream of ones through two taps of 0.5.
-/

namespace Sys2Proof.Proofs

-- One theorem is elaborated at a time, as in the tests: each further thread takes its own share of the memory limit.
set_option Elab.async false

open Sys2Proof Sys2Proof.Machine Sys2Proof.Safety

/-! ## The sum with `+0.0` -/

section
variable {x : F64} (hx : fIsFinite x = true)
include hx

/-- The start value of the sum turns `-0.0` into `+0.0` and keeps every other value. -/
theorem fAdd_zero_eq : fAdd 0#64 x = if x = 0x8000000000000000#64 then 0#64 else x := by
  by_cases h0 : fMag x = 0
  · rcases zero_of_fMag h0 with rfl | rfl <;> decide
  · rw [fAdd_zero_left hx h0, if_neg fun h => h0 (by rw [h]; decide)]

theorem fIsFinite_fAdd_zero : fIsFinite (fAdd 0#64 x) = true := by
  rw [fAdd_zero_eq hx]
  split
  · decide
  · exact hx

theorem fInt_fAdd_zero : fInt (fAdd 0#64 x) = fInt x := by
  rw [fAdd_zero_eq hx]
  split
  next h => rw [h]; decide
  next => rfl

end

/-! ## The product with 0.5 -/

/-- 0.5 -/
def halfValue : F64 := 0x3FE0000000000000#64

theorem two_mul_fUnits_halfValue : 2 * fUnits halfValue = unitsPerOne := by decide +kernel

/-- R176: a magnitude of at least 2^-1021 has a half one exponent lower, a smaller one where its last bit is 0. -/
theorem exists_half_magUnits {m : Nat} (h : 2 ^ 53 ≤ m ∨ m % 2 = 0) : ∃ k ≤ m, 2 * magUnits k = magUnits m := by
  rcases Nat.lt_or_ge m (2 ^ 53) with hlt | hge
  · have hunits : magUnits m = m := by
      rcases Nat.lt_or_ge m (2 ^ 52) with hsub | hnormal
      · exact if_pos hsub
      · simpa using magUnits_shift (k := m) (s := 0) hnormal hlt.le
    refine ⟨m / 2, by omega, ?_⟩
    rw [hunits, magUnits, if_pos (by omega)]
    omega
  · refine ⟨m - 2 ^ 52, by omega, ?_⟩
    obtain ⟨e, he⟩ : ∃ e, m / 2 ^ 52 = e + 2 := ⟨m / 2 ^ 52 - 2, by omega⟩
    unfold magUnits
    rw [if_neg (by omega), if_neg (by omega), show (m - 2 ^ 52) % 2 ^ 52 = m % 2 ^ 52 by omega,
      show (m - 2 ^ 52) / 2 ^ 52 - 1 = e by omega, show m / 2 ^ 52 - 1 = e + 1 by omega, pow_succ]
    ring

section
variable {x : F64} (hx : fIsFinite x = true)
include hx

theorem fIsFinite_fMul_halfValue : fIsFinite (fMul halfValue x) = true := by
  refine finite_of_mag_le (fMag_fMul_le (by decide) hx ?_) hx
  have hhalf := two_mul_fUnits_halfValue
  rw [Nat.mul_comm]
  exact Nat.mul_le_mul_left _ (by omega)

/-- R176: the product is exactly half where half is representable. -/
theorem fInt_fMul_halfValue (h : 2 ^ 53 ≤ fMag x ∨ fMag x % 2 = 0) : 2 * fInt (fMul halfValue x) = fInt x := by
  obtain ⟨k, hk, hhalf⟩ := exists_half_magUnits h
  have hfinite := (fIsFinite_iff x).1 hx
  have hproduct : fUnits halfValue * fUnits x = magUnits k * unitsPerOne := by
    rw [show fUnits x = 2 * magUnits k from hhalf.symm, ← two_mul_fUnits_halfValue]
    ring
  rw [fMul_finite_eq (by decide) hx, hproduct, roundMag_magUnits _ unitsPerOne_pos,
    show fSign halfValue = false by decide, Bool.false_bne, fInt, fInt, fSign_fPack, fUnits, fMag_fPack,
    min_eq_left (by omega), fUnits, ← hhalf]
  cases fSign x <;> simp

end

/-- The last bit of a value is that of its magnitude. -/
theorem fMag_even_of_getLsbD {x : F64} (h : x.getLsbD 0 = false) : fMag x % 2 = 0 := by
  rw [BitVec.getLsbD, Nat.testBit_zero, decide_eq_false_iff_not] at h
  unfold fMag
  omega

/-! ## One tap -/

section
variable {x : F64} {s : State} (hl : s.block.fir.l = 1) (hw : s.block.fir.w = 0)
include hl hw

/-- R172: a filter of one tap reads `RING[1]` alone, the sample itself. -/
theorem output_of_one_tap : s.block.fir.output x = fAdd 0#64 (fMul (s.block.fir.tap.read 0) x) := by
  simp [output_eq, hl, hw]

/-- R172: such a filter answers with the one product, added to the start value of the sum. -/
theorem exec_of_one_tap (hx : fIsFinite x = true) (hproduct : fIsFinite (fMul (s.block.fir.tap.read 0) x) = true) :
    ∃ t, exec (.firProc x) s = .next t ∧ t.status = 0#8 ∧
      t.rdata = fAdd 0#64 (fMul (s.block.fir.tap.read 0) x) := by
  have hout := output_of_one_tap hl hw (x := x)
  have hfinite : fIsFinite (s.block.fir.output x) = true := hout ▸ fIsFinite_fAdd_zero hproduct
  exact ⟨_, exec_of_ok (firProc_of_finite (by omega) hx hfinite), rfl, hout⟩

end

/-! ## The moving average -/

/-- R176: the step sequence through the taps `[0.5, 0.5]`. -/
theorem firOutput_movingAverage {tap : Nat → F64} (h0 : tap 0 = halfValue) (h1 : tap 1 = halfValue) {n t : Nat}
    (ht : t ≤ n) :
    firOutput tap 2 (List.replicate (n + 1) Config.one) t = if t = 0 then halfValue else Config.one := by
  rw [firOutput, List.take_replicate, min_eq_left (by omega), List.reverse_replicate]
  simp only [convolution, List.range_succ, List.range_zero, List.nil_append, List.cons_append, List.foldl_cons,
    List.foldl_nil, h0, h1]
  cases t with
  | zero => decide +kernel
  | succ t =>
    rw [if_neg (Nat.succ_ne_zero t), List.replicate_succ, List.replicate_succ, List.getD_cons_zero, List.getD_cons_succ,
      List.getD_cons_zero]
    decide +kernel

/-- Settles O29: one tap gives one product and the sum with `+0.0`, two taps of 0.5 the convolution with ones. -/
theorem firOneTapFilters : Obligations.FirOneTapFilters := by
  unfold Obligations.FirOneTapFilters
  refine ⟨fun x s hl hw hx => ⟨fun hone => ?_, fun hhalf => ?_⟩, fun n s rest hl hw hring h0 h1 hpending => ?_⟩
  · have hproduct : fMul (s.block.fir.tap.read 0) x = x := hone ▸ fMul_one_left hx
    obtain ⟨t, hexec, hstatus, hdata⟩ := exec_of_one_tap hl hw hx (hproduct.symm ▸ hx)
    exact ⟨t, hexec, hstatus, by rw [hdata, hproduct, fAdd_zero_eq hx]⟩
  · have hfinite := fIsFinite_fMul_halfValue hx
    rw [← show s.block.fir.tap.read 0 = halfValue from hhalf] at hfinite
    obtain ⟨t, hexec, hstatus, hdata⟩ := exec_of_one_tap hl hw hx hfinite
    refine ⟨t, hexec, hstatus, hhalf ▸ hdata, fun hexact => ?_⟩
    rw [hdata, fInt_fAdd_zero hfinite, hhalf]
    exact fInt_fMul_halfValue hx (hexact.imp id fMag_even_of_getLsbD)
  · have houtput : ∀ t ≤ n, firOutput s.block.fir.tap.read s.block.fir.l (List.replicate (n + 1) Config.one) t =
        if t = 0 then halfValue else Config.one := fun t ht => hl ▸ firOutput_movingAverage h0 h1 ht
    have hfinite : ∀ t < (List.replicate (n + 1) Config.one).length, fIsFinite
        (firOutput s.block.fir.tap.read s.block.fir.l (List.replicate (n + 1) Config.one) t) = true := fun t ht => by
      rw [List.length_replicate] at ht
      rw [houtput t (by omega)]
      split <;> decide
    obtain ⟨t, hrun, -, -, -, -, -, -, hlast⟩ := firComputesTheConvolution s (List.replicate (n + 1) Config.one)
      rest (by omega) hw (by rwa [hl]) (by rw [hpending, List.map_replicate]; rfl)
      (fun x hx => by rw [List.eq_of_mem_replicate hx]; decide) hfinite
    rw [List.length_replicate] at hrun hlast
    obtain ⟨hstatus, hdata⟩ := hlast n rfl
    exact ⟨t, hrun, hstatus, hdata.trans (houtput n le_rfl)⟩

end Sys2Proof.Proofs
end

section
/-!
PROOF. The four AGC commands, command by command (44_level_agc.md R186 to R189): the answer of each check in its order and
the settings each command leaves.
-/

namespace Sys2Proof.Proofs

-- One theorem is elaborated at a time, as in the tests: each further thread takes its own share of the memory limit.
set_option Elab.async false

open Sys2Proof Sys2Proof.Machine Sys2Proof.Safety

/-! ## The four commands as words -/

theorem decode_agcConfig (window : Word) : decode ⟨0x00000050#32, window⟩ = .ok (.agcConfig window) :=
  decode_packCw 0x50#8 0#4 0#16 window

theorem decode_agcTrack (x : F64) : decode ⟨0x00000051#32, x⟩ = .ok (.agcTrack x) := decode_packCw 0x51#8 0#4 0#16 x

theorem decode_agcUpdate (w : Word) : decode ⟨0x00000052#32, w⟩ = .ok .agcUpdate := decode_packCw 0x52#8 0#4 0#16 w

theorem decode_agcApply (x : F64) : decode ⟨0x00000053#32, x⟩ = .ok (.agcApply x) := decode_packCw 0x53#8 0#4 0#16 x

/-! ## Counters (30_encoding.md R83; 00_scope.md R13) -/

/-- R83: a window or a tick count within its range. -/
def LegalCount (w : Word) : Prop := 1 ≤ w.toNat ∧ w.toNat < 2 ^ 32

theorem countOf_of_legal {w : Word} (h : LegalCount w) : countOf w = some (BitVec.ofNat 32 w.toNat) := if_pos h

theorem countOf_of_not_legal {w : Word} (h : ¬ LegalCount w) : countOf w = none := if_neg h

/-- R13: one more, or the largest count again. -/
theorem toNat_sat32Inc (c : BitVec 32) : (sat32Inc c).toNat = min (c.toNat + 1) (2 ^ 32 - 1) := by
  unfold sat32Inc
  split
  next hfull =>
    rw [hfull]
    decide
  next hroom =>
    have hne : c.toNat ≠ 2 ^ 32 - 1 := fun h => hroom (BitVec.eq_of_toNat_eq (h.trans (by decide)))
    have hlt := c.isLt
    rw [BitVec.toNat_add, show (1#32).toNat = 1 from rfl]
    omega

/-! ## The checks of AGC.CONFIG (R186) -/

theorem finite_pair_iff {x y : F64} : (∀ v ∈ [x, y], fIsFinite v = true) ↔ fIsFinite x = true ∧ fIsFinite y = true := by
  simp

/-- R186: a target that is not negative, a positive threshold. -/
def LegalLevels (target thr : F64) : Prop := fLe 0#64 target = true ∧ fLt 0#64 thr = true

/-- R186: the AGC that legal settings give, at the start of its first window. -/
def startedAgc (target thr : F64) (window : Word) (gain : F64) : Agc where
  targetLevel := target
  windowSamples := BitVec.ofNat 32 window.toNat
  threshold := thr
  sampleCounter := 0#32
  currentPeak := 0#64
  peakHistory := 0#64
  gain := gain
  cfg := true

section
variable {target thr : F64} {window : Word} {b : Block}

theorem agcSetup_of_not_finite (h : ¬ (fIsFinite target = true ∧ fIsFinite thr = true)) :
    agcSetup target thr window b = .error .nonFinite := requireFinite_of_not_all _ fun hall => h (finite_pair_iff.1 hall)

variable (hfinite : fIsFinite target = true ∧ fIsFinite thr = true)
include hfinite

theorem agcSetup_of_legal (hwindow : LegalCount window) (hlevels : LegalLevels target thr)
    (hratio : fIsFinite (fDiv target thr) = true) : agcSetup target thr window b =
      .ok (b.withAgc (startedAgc target thr window b.params.agcGainInit), 0#64) :=
  agcSetup_ok.2 ⟨hfinite, hlevels.1, hlevels.2, hratio, _, countOf_of_legal hwindow, rfl⟩

/-- The window is looked at first, then the levels, then their ratio; the answer is the same. -/
theorem agcSetup_of_not_legal
    (h : ¬ (LegalCount window ∧ LegalLevels target thr ∧ fIsFinite (fDiv target thr) = true)) :
    agcSetup target thr window b = .error .badConfig := by
  rw [agcSetup, requireFinite_of_finite _ (finite_pair_iff.2 hfinite)]
  by_cases hwindow : LegalCount window
  · simp only [countOf_of_legal hwindow]
    by_cases hlevels : LegalLevels target thr
    · have hratio : ¬ fIsFinite (fDiv target thr) = true := fun hratio => h ⟨hwindow, hlevels, hratio⟩
      exact (if_neg (not_not_intro hlevels)).trans (if_pos hratio)
    · exact if_pos hlevels
  · simp only [countOf_of_not_legal hwindow]

end

/-! ## The checks of the other three (R187 to R189) -/

section
variable {b : Block}

/-- R187: the AGC is not configured. -/
theorem agcTrack_of_unconfigured (h : b.agc.cfg = false) (x : F64) : agcTrack x b = .error .notConfigured := if_pos h

/-- R188: the AGC is not configured. -/
theorem agcUpdate_of_unconfigured (h : b.agc.cfg = false) : agcUpdate b = .error .notConfigured := if_pos h

/-- R189: the AGC is not configured. -/
theorem agcApply_of_unconfigured (h : b.agc.cfg = false) (x : F64) : agcApply x b = .error .notConfigured := if_pos h

variable (hcfg : b.agc.cfg = true) {x : F64}
include hcfg

theorem agcTrack_of_not_finite (hx : fIsFinite x = false) : agcTrack x b = .error .nonFinite := by
  rw [agcTrack, if_neg (by rw [hcfg]; decide)]
  exact requireFinite_of_not _ (List.mem_singleton_self x) hx

theorem agcApply_of_not_finite (hx : fIsFinite x = false) : agcApply x b = .error .nonFinite := by
  rw [agcApply, if_neg (by rw [hcfg]; decide)]
  exact requireFinite_of_not _ (List.mem_singleton_self x) hx

theorem agcApply_of_not_finite_product (hx : fIsFinite x = true) (hproduct : fIsFinite (fMul x b.agc.gain) = false) :
    agcApply x b = .error .nonFinite := by
  rw [agcApply, if_neg (by rw [hcfg]; decide), requireFinite_of_finite _ (by simpa using hx)]
  exact requireFinite_of_not _ (List.mem_singleton_self _) hproduct

end

/-- Settles O36: each clause is one end of the command. -/
theorem agcConfigStartsAWindow : Obligations.AgcConfigStartsAWindow := by
  unfold Obligations.AgcConfigStartsAWindow
  intro window s target thr win finite legal
  exact ⟨decode_agcConfig window,
    fun hfinite ⟨hwindow, hlevels, hratio⟩ => exec_of_ok (agcSetup_of_legal hfinite hwindow hlevels hratio),
    fun hnot => exec_of_fault (agcSetup_of_not_finite hnot),
    fun hfinite hnot => exec_of_fault (agcSetup_of_not_legal hfinite hnot)⟩

/-- Settles O37: each clause is one end of the command, and the counter is `sat32Inc`'s. -/
theorem agcTrackFollowsThePeak : Obligations.AgcTrackFollowsThePeak := by
  unfold Obligations.AgcTrackFollowsThePeak
  intro x s a
  exact ⟨decode_agcTrack x,
    fun hcfg hx => ⟨sat32Inc a.sampleCounter, toNat_sat32Inc _, exec_of_ok (agcTrack_ok.2 ⟨hcfg, hx, rfl⟩)⟩,
    fun hcfg => exec_of_fault (agcTrack_of_unconfigured hcfg x),
    fun hcfg hx => exec_of_fault (agcTrack_of_not_finite hcfg hx)⟩

/-- Settles O38: the gain is `nextGain`'s, whose branches are the rule's. -/
theorem agcUpdateSetsTheGain : Obligations.AgcUpdateSetsTheGain := by
  unfold Obligations.AgcUpdateSetsTheGain
  refine ⟨decode_agcUpdate, fun s => ?_⟩
  intro a
  exact ⟨fun hcfg => exec_of_ok (agcUpdate_ok.2 ⟨hcfg, rfl⟩),
    fun hcfg => exec_of_fault (agcUpdate_of_unconfigured hcfg)⟩

/-- Settles O39: each clause is one end of the command, and the block is the one before it. -/
theorem agcApplyScales : Obligations.AgcApplyScales := by
  unfold Obligations.AgcApplyScales
  intro x s a
  exact ⟨decode_agcApply x,
    fun hcfg hx hproduct => exec_of_ok (agcApply_ok.2 ⟨hcfg, hx, hproduct, rfl⟩),
    fun hcfg => exec_of_fault (agcApply_of_unconfigured hcfg x),
    fun hcfg hx => exec_of_fault (agcApply_of_not_finite hcfg hx),
    fun hcfg hx hproduct => exec_of_fault (agcApply_of_not_finite_product hcfg hx hproduct)⟩

end Sys2Proof.Proofs
end

section
/-!
PROOF. The convergence of the AGC (44_level_agc.md R192): above the threshold the gain is one rounded quotient, and the
product of it with the peak one rounded product; where neither underflows each is off by at most one part in 2^51.
-/

namespace Sys2Proof.Proofs

-- One theorem is elaborated at a time, as in the tests: each further thread takes its own share of the memory limit.
set_option Elab.async false

open Sys2Proof Sys2Proof.Machine Sys2Proof.Safety

/-! ## The relative error of one rounding -/

/-- The magnitude of the smallest normal number. -/
def minNormalMag : Nat := 0x0010000000000000

theorem le_fUnits_of_normal {x : F64} (h : minNormalMag ≤ fMag x) : 2 ^ 52 ≤ fUnits x :=
  (by decide : 2 ^ 52 = magUnits minNormalMag) ▸ magUnits_mono h

/-- A magnitude rounds to a normal number only from at least half the smallest one. -/
theorem le_div_of_normal {n d : Nat} (hd : 0 < d) (h : minNormalMag ≤ roundMag n d) : (2 ^ 51 : ℚ) ≤ n / d := by
  by_contra hsmall
  rw [not_le, div_lt_iff₀ (by exact_mod_cast hd)] at hsmall
  have hle : n ≤ magUnits (2 ^ 51) * d := by
    rw [show magUnits (2 ^ 51) = 2 ^ 51 by decide]
    exact_mod_cast hsmall.le
  exact absurd (h.trans (roundMag_le hd hle)) (by decide)

/-- From there on the half unit of `roundMag_value` is a relative error too. -/
theorem roundMag_relative {n d : Nat} (hd : 0 < d) (h : (2 ^ 51 : ℚ) ≤ n / d) :
    |(magUnits (roundMag n d) : ℚ) - n / d| ≤ n / d / 2 ^ 51 := by
  have hround := roundMag_value n hd
  linarith

/-- A quotient known up to a relative error, multiplied by its divisor. -/
theorem rescaled_near {g a p u : ℚ} (hp : 0 < p) (hu : 0 < u) (h : |g - a * u / p| ≤ a * u / p / 2 ^ 51) :
    |g * p / u - a| ≤ a / 2 ^ 51 := by
  have hdiff : g * p / u - a = (g - a * u / p) * (p / u) := by field_simp
  rw [hdiff, abs_mul, abs_of_pos (div_pos hp hu)]
  calc |g - a * u / p| * (p / u) ≤ a * u / p / 2 ^ 51 * (p / u) :=
        mul_le_mul_of_nonneg_right h (div_pos hp hu).le
    _ = a / 2 ^ 51 := by field_simp

/-! ## A quotient and a product in units -/

/-- A product is finite only where both factors are: an infinite one gives an infinity or a NaN. -/
theorem finite_of_finite_fMul {x y : F64} (h : fIsFinite (fMul x y) = true) :
    fIsFinite x = true ∧ fIsFinite y = true := by
  unfold fMul at h
  split at h
  next => exact absurd h (by decide)
  next hnan =>
    split at h
    next hinf =>
      split at h
      next => exact absurd h (by decide)
      next => exact absurd ((fIsFinite_fPack _ _).1 h) (lt_irrefl _)
    next hinf =>
      simp only [fIsNaN, fIsInf, decide_eq_true_eq, fIsFinite_iff] at hnan hinf ⊢
      omega

section
variable {x y : F64} (hx : fIsFinite x = true) (hy : fIsFinite y = true)
include hx hy

theorem fUnits_fDiv_relative (hpos : fMag y ≠ 0) (hfinite : fIsFinite (fDiv x y) = true)
    (hnormal : minNormalMag ≤ fMag (fDiv x y)) :
    |(fUnits (fDiv x y) : ℚ) - fUnits x * unitsPerOne / fUnits y| ≤ fUnits x * unitsPerOne / fUnits y / 2 ^ 51 := by
  rw [fDiv_finite_eq hx hy hpos] at hfinite hnormal ⊢
  rw [fIsFinite_fPack] at hfinite
  rw [fMag_fPack, min_eq_left hfinite.le] at hnormal
  rw [fUnits, fMag_fPack, min_eq_left hfinite.le, ← Nat.cast_mul]
  exact roundMag_relative (fUnits_pos hpos) (le_div_of_normal (fUnits_pos hpos) hnormal)

theorem fUnits_fMul_relative (hfinite : fIsFinite (fMul x y) = true)
    (hlarge : (2 ^ 51 : ℚ) ≤ fUnits x * fUnits y / unitsPerOne) :
    |(fUnits (fMul x y) : ℚ) - fUnits x * fUnits y / unitsPerOne| ≤ fUnits x * fUnits y / unitsPerOne / 2 ^ 51 := by
  rw [fMul_finite_eq hx hy] at hfinite ⊢
  rw [fIsFinite_fPack] at hfinite
  rw [← Nat.cast_mul] at hlarge
  rw [fUnits, fMag_fPack, min_eq_left hfinite.le, ← Nat.cast_mul]
  exact roundMag_relative unitsPerOne_pos hlarge

/-- R192: a normal quotient times its divisor is the dividend again but for the two roundings. -/
theorem fUnits_fMul_fDiv_relative (hpos : fMag y ≠ 0) (hdividend : minNormalMag ≤ fMag x)
    (hquotient : minNormalMag ≤ fMag (fDiv x y)) (hproduct : fIsFinite (fMul (fDiv x y) y) = true) :
    |(fUnits (fMul (fDiv x y) y) : ℚ) - fUnits x| ≤ fUnits x / 2 ^ 49 := by
  obtain ⟨hfinite, -⟩ := finite_of_finite_fMul hproduct
  have hU := unitsPerOne_cast_pos
  have hy' : (0 : ℚ) < fUnits y := by exact_mod_cast fUnits_pos hpos
  have hx' : (2 ^ 52 : ℚ) ≤ fUnits x := by exact_mod_cast le_fUnits_of_normal hdividend
  obtain ⟨hlow, hhigh⟩ := abs_le.1 (rescaled_near hy' hU (fUnits_fDiv_relative hx hy hpos hfinite hquotient))
  obtain ⟨hlow', hhigh'⟩ := abs_le.1 (fUnits_fMul_relative hfinite hy hproduct (by linarith))
  rw [abs_le]
  constructor <;> linarith

/-- The two signs of the divisor cancel. -/
theorem fSign_fMul_fDiv (hpos : fMag y ≠ 0) (hquotient : fIsFinite (fDiv x y) = true) :
    fSign (fMul (fDiv x y) y) = fSign x := by
  rw [fMul_finite_eq hquotient hy, fSign_fPack, fDiv_finite_eq hx hy hpos, fSign_fPack]
  cases fSign x <;> cases fSign y <;> rfl

end

/-! ## The command -/

/-- One part in 2^49 is less than one percent. -/
theorem within_one_percent {m n : Nat} (h : |(m : ℚ) - n| ≤ n / 2 ^ 49) : 100 * ((m : Int) - n).natAbs ≤ n := by
  have hn : (0 : ℚ) ≤ n := n.cast_nonneg
  have hpercent : (100 : ℚ) * |(m : ℚ) - n| ≤ n := by linarith
  have hcast : ((((m : Int) - n).natAbs : Nat) : ℚ) = |(m : ℚ) - n| := by
    rw [Nat.cast_natAbs, Int.cast_abs, Int.cast_sub, Int.cast_natCast, Int.cast_natCast]
  rw [← hcast] at hpercent
  exact_mod_cast hpercent

/-- R188: the gain that an update above the threshold leaves. -/
theorem gain_of_agcUpdate {s t : State} (hcfg : s.block.agc.cfg = true)
    (habove : fLt s.block.agc.threshold s.block.agc.currentPeak = true) (h : exec .agcUpdate s = .next t) :
    t.block.agc.gain = fDiv s.block.agc.targetLevel s.block.agc.currentPeak := by
  have hupdate := h.symm.trans (exec_of_ok (agcUpdate_ok.2 ⟨hcfg, rfl⟩))
  cases hupdate
  exact if_pos habove

/-- R192: what is above a positive threshold is positive. -/
theorem fKey_pos_of_above {thr peak : F64} (hthr : fIsFinite thr = true) (hpeak : fIsFinite peak = true)
    (hpos : fLt 0#64 thr = true) (habove : fLt thr peak = true) : 0 < fKey peak := by
  rw [fLt_iff fIsFinite_zero hthr, fKey_zero] at hpos
  rw [fLt_iff hthr hpeak] at habove
  exact hpos.trans habove

/-- Settles O40: the product is within one part in 2^49 of the target, and has its sign. -/
theorem agcConvergesToTheTarget : Obligations.AgcConvergesToTheTarget := by
  unfold Obligations.AgcConvergesToTheTarget
  intro s t a hcfg htarget hthr hpeak hpos habove hsign hnormal hexec hgain hproduct
  obtain ⟨-, hmag⟩ := pos_of_fKey_pos (fKey_pos_of_above hthr hpeak hpos habove)
  rw [gain_of_agcUpdate hcfg habove hexec] at hgain hproduct ⊢
  have hnear := fUnits_fMul_fDiv_relative htarget hpeak hmag.ne' hnormal hgain hproduct
  have hsame := fSign_fMul_fDiv htarget hpeak hmag.ne' (finite_of_finite_fMul hproduct).1
  rw [fInt_of_pos (hsame.trans hsign), fInt_of_pos hsign, Int.natAbs_natCast]
  exact within_one_percent hnear

end Sys2Proof.Proofs
end

section
/-!
PROOF. One tick of the SyncDecoder (45_sync_decoder.md R204 to R213): what each state rule makes of the decoder, clause
by clause. The later proofs go through these equations.
-/

namespace Sys2Proof.Proofs

-- One theorem is elaborated at a time, as in the tests: each further thread takes its own share of the memory limit.
set_option Elab.async false

open Sys2Proof Sys2Proof.Machine Sys2Proof.Safety

/-! ## The countdown (60_exceptions.md R285) -/

section
variable {t : BitVec 32}

theorem countdown_of_pos (h : 1 ≤ t.toNat) : countdown t = t - 1#32 := if_neg fun h0 => by simp [h0] at h

theorem toNat_countdown (t : BitVec 32) : (countdown t).toNat = t.toNat - 1 := by
  unfold countdown
  split
  next h0 => simp [h0]
  next hne => bv_omega

theorem countdown_eq_zero (h : t.toNat = 1) : countdown t = 0#32 := BitVec.eq_of_toNat_eq (by simp [toNat_countdown, h])

theorem countdown_ne_zero (h : 1 < t.toNat) : countdown t ≠ 0#32 := fun h0 => by
  have hdown := toNat_countdown t
  rw [h0, BitVec.toNat_ofNat] at hdown
  omega

end

/-! ## The rule that runs (R204) -/

section
variable (le sy ma sp : F64) {y : Sync}

theorem tick_of_idle (h : y.tag = .idle) : tick le sy ma sp y = tickIdle le y := by rw [tick, h]

theorem tick_of_leaderDetect (h : y.tag = .leaderDetect) : tick le sy ma sp y = tickLeader le y := by rw [tick, h]

theorem tick_of_startBitValidate (h : y.tag = .startBitValidate) : tick le sy ma sp y = tickStart y := by rw [tick, h]

theorem tick_of_visDecoding (h : y.tag = .visDecoding) : tick le sy ma sp y = tickVis le sy ma sp y := by rw [tick, h]

/-- R213. -/
theorem tick_of_dataWait (h : y.tag = .dataWait) : tick le sy ma sp y = y := by rw [tick, h]

end

/-! ## The leader (R205, R206) -/

section
variable {le : F64} {y : Sync}

/-- R205: the leader count after a tick in Idle. -/
def idleCount (le : F64) (y : Sync) : BitVec 32 := if fLt y.sLvl le then sat32Inc y.leadCnt else 0#32

theorem toNat_idleCount (le : F64) (y : Sync) : (idleCount le y).toNat =
    if fLt y.sLvl le then min (y.leadCnt.toNat + 1) (2 ^ 32 - 1) else 0 := by
  unfold idleCount
  split
  · exact toNat_sat32Inc y.leadCnt
  · rfl

theorem tickIdle_eq (le : F64) (y : Sync) : tickIdle le y = { y with
    leadCnt := idleCount le y, tag := if y.tLMin.toNat ≤ (idleCount le y).toNat then .leaderDetect else .idle } := rfl

theorem tickLeader_of_above (h : fLt y.sLvl le = true) : tickLeader le y = { y with leadCnt := sat32Inc y.leadCnt } :=
  if_pos h

theorem tickLeader_of_long (h : fLt y.sLvl le = false) (hlong : y.tLValid.toNat ≤ y.leadCnt.toNat) :
    tickLeader le y = { y with tag := .startBitValidate, timer := y.tStart, leadCnt := 0#32 } :=
  (if_neg (Bool.eq_false_iff.1 h)).trans (if_pos hlong)

theorem tickLeader_of_short (h : fLt y.sLvl le = false) (hshort : y.leadCnt.toNat < y.tLValid.toNat) :
    tickLeader le y = { y with leadCnt := 0#32 } :=
  (if_neg (Bool.eq_false_iff.1 h)).trans (if_neg (Nat.not_le.2 hshort))

/-! ## The start bit (R207) -/

theorem tickStart_of_expired (h : y.timer.toNat = 1) :
    tickStart y = { y with tag := .visDecoding, acc := VisAcc.cleared, timer := y.tBit } := if_pos (countdown_eq_zero h)

theorem tickStart_of_running (h : 1 < y.timer.toNat) : tickStart y = { y with timer := y.timer - 1#32 } := by
  rw [tickStart, if_neg (countdown_ne_zero h), countdown_of_pos h.le]

end

/-! ## A bit (R208 to R211) -/

section
variable {le sy ma sp : F64} {y : Sync}

theorem tickVis_of_expired (h : y.timer.toNat = 1) : tickVis le sy ma sp y = decideBit le sy ma sp y :=
  if_pos (countdown_eq_zero h)

theorem tickVis_of_running (h : 1 < y.timer.toNat) : tickVis le sy ma sp y = { y with timer := y.timer - 1#32 } := by
  rw [tickVis, if_neg (countdown_ne_zero h), countdown_of_pos h.le]

/-- R210: the discrimination reads the latched envelopes. -/
theorem discriminationFails_latch (a : VisAcc) (threshold : F64) :
    discriminationFails (a.latch le sy ma sp) threshold = !separable ⟨le, sy, ma, sp⟩ threshold := by
  simp [discriminationFails, separable, VisAcc.latch, Bool.not_and]

theorem decideBit_of_not_separable (h : separable ⟨le, sy, ma, sp⟩ y.sLvl2 = false) :
    decideBit le sy ma sp y = y.rejected := if_pos (by rw [discriminationFails_latch, h]; rfl)

/-- The accumulator with the latched envelopes and their bit (R209, R211). -/
def withBit (a : VisAcc) (le sy ma sp : F64) : VisAcc := (a.latch le sy ma sp).append

theorem withBit_eq (a : VisAcc) (le sy ma sp : F64) : withBit a le sy ma sp =
    ⟨a.bitsReceived + 1#4, a.dataByte ||| ((if fLt sp ma then 1#8 else 0#8) <<< a.bitsReceived.toNat),
      le, ma, sp, sy⟩ := rfl

theorem toNat_bitsReceived_withBit {a : VisAcc} (h : a.bitsReceived.toNat ≤ 7) :
    (withBit a le sy ma sp).bitsReceived.toNat = a.bitsReceived.toNat + 1 := by
  rw [withBit_eq]
  bv_omega

/-- R211: the bit stands above the ones before it. -/
theorem toNat_dataByte_withBit {a : VisAcc} (hcount : a.bitsReceived.toNat ≤ 7)
    (hbyte : a.dataByte.toNat < 2 ^ a.bitsReceived.toNat) : (withBit a le sy ma sp).dataByte.toNat =
      2 ^ a.bitsReceived.toNat * (fLt sp ma).toNat + a.dataByte.toNat := by
  have hshift : ((if fLt sp ma then 1#8 else 0#8) <<< a.bitsReceived.toNat : BitVec 8).toNat =
      2 ^ a.bitsReceived.toNat * (fLt sp ma).toNat := by
    have hpow : 2 ^ a.bitsReceived.toNat < 2 ^ 8 := Nat.pow_lt_pow_right (by decide) (by omega)
    cases fLt sp ma
    · simp
    · simpa [BitVec.toNat_shiftLeft, Nat.shiftLeft_eq] using hpow
  rw [withBit_eq, BitVec.toNat_or, hshift, Nat.or_comm, Nat.two_pow_add_eq_or_of_lt hbyte]

variable (h : separable ⟨le, sy, ma, sp⟩ y.sLvl2 = true)
include h

/-- R210: on separable tones the decision goes on to the count of the bits. -/
theorem decideBit_of_separable : decideBit le sy ma sp y =
    if (withBit y.acc le sy ma sp).bitsReceived = 8#4 then finishByte (withBit y.acc le sy ma sp) y
    else { y with acc := withBit y.acc le sy ma sp, timer := y.tBit } :=
  if_neg (by rw [discriminationFails_latch, h]; decide)

theorem decideBit_of_more (hcount : y.acc.bitsReceived.toNat < 7) :
    decideBit le sy ma sp y = { y with acc := withBit y.acc le sy ma sp, timer := y.tBit } := by
  rw [decideBit_of_separable h, if_neg]
  intro h8
  have hnext := toNat_bitsReceived_withBit (le := le) (sy := sy) (ma := ma) (sp := sp) hcount.le
  rw [h8, BitVec.toNat_ofNat] at hnext
  omega

theorem decideBit_of_last (hcount : y.acc.bitsReceived.toNat = 7) :
    decideBit le sy ma sp y = finishByte (withBit y.acc le sy ma sp) y := by
  rw [decideBit_of_separable h, if_pos]
  apply BitVec.eq_of_toNat_eq
  rw [toNat_bitsReceived_withBit hcount.le, hcount]
  rfl

end

/-! ## The byte (R212) -/

/-- R212: the decoder with a byte of right parity. -/
def decodedWith (v : BitVec 8) (y : Sync) : Sync :=
  { y with visByte := v, visValid := true, tag := .dataWait, timer := 0#32, leadCnt := 0#32, acc := VisAcc.cleared }

section
variable {a : VisAcc} (y : Sync)

theorem finishByte_of_parity (h : dataParity a.dataByte = a.dataByte.getLsbD 7) :
    finishByte a y = decodedWith a.dataByte y := if_pos h

theorem finishByte_of_not_parity (h : dataParity a.dataByte ≠ a.dataByte.getLsbD 7) : finishByte a y = y.rejected :=
  if_neg h

end

/-! ## The configuration of the decoder (R204) -/

/-- 10_state.md R32. -/
theorem timingOk_iff {y : Sync} : y.timingOk = true ↔
    1 ≤ y.tLMin.toNat ∧ 1 ≤ y.tLValid.toNat ∧ 1 ≤ y.tStart.toNat ∧ 1 ≤ y.tBit.toNat := by
  rw [timingOk_eq, decide_eq_true_iff]

/-- The configuration that a tick needs (R204). -/
def TickReady (y : Sync) : Prop := y.senseSet = true ∧ y.timingOk = true

end Sys2Proof.Proofs
end

section
/-!
PROOF. The invariants of the SyncDecoder (45_sync_decoder.md R215). A command does one of three things to the decoder:
it keeps the dynamic fields, it resets them, or it ticks once; a tick keeps the invariants in every state.
-/

namespace Sys2Proof.Proofs

-- One theorem is elaborated at a time, as in the tests: each further thread takes its own share of the memory limit.
set_option Elab.async false

open Sys2Proof Sys2Proof.Machine Sys2Proof.Safety

/-! ## What a command does to the decoder -/

/-- The fields of 10_state.md R33 to R36 are as before. -/
structure DynamicKept (y y' : Sync) : Prop where
  tag : y'.tag = y.tag
  leadCnt : y'.leadCnt = y.leadCnt
  timer : y'.timer = y.timer
  acc : y'.acc = y.acc
  visByte : y'.visByte = y.visByte
  visValid : y'.visValid = y.visValid

theorem dynamicKept_refl (y : Sync) : DynamicKept y y := ⟨rfl, rfl, rfl, rfl, rfl, rfl⟩

/-- R203: a timing register is no dynamic field. -/
theorem dynamicKept_withTiming (y : Sync) (r : TimingReg) (t : BitVec 32) : DynamicKept y (y.withTiming r t) := by
  cases r <;> exact ⟨rfl, rfl, rfl, rfl, rfl, rfl⟩

/-- The decoder after a command: only the two resets clear it (R213), and a tick needs its timing registers (R204). -/
inductive SyncChange (i : Instr) (y : Sync) : Sync → Prop where
  | kept {y' : Sync} (h : DynamicKept y y') : SyncChange i y y'
  | cleared {y' : Sync} (hi : i = .syncReset ∨ i = .pipeReset) (h : DynamicKept Sync.reset y') : SyncChange i y y'
  | ticked (le sy ma sp : F64) (htiming : y.timingOk = true) : SyncChange i y (tick le sy ma sp y)

theorem syncTick_syncChange {i : Instr} {le sy ma sp : F64} {b b' : Block} {w : Word}
    (h : syncTick le sy ma sp b = .ok (b', w)) : SyncChange i b.sync b'.sync := by
  obtain ⟨-, htiming, -, ⟨⟩⟩ := syncTick_ok.1 h
  exact .ticked le sy ma sp htiming

/-- 46_pipeline_and_host.md R246: of the stages of the sample step the last one ticks the decoder. -/
theorem pipeSample_syncChange {i : Instr} {x : F64} {b b' : Block} {w : Word} (h : pipeSample x b = .ok (b', w)) :
    SyncChange i b.sync b'.sync := by
  obtain ⟨-, -, b1, x2, b2, x3, hfir, hagc, htones⟩ := pipeSample_ok.1 h
  obtain ⟨b3, le, b4, sy, b5, ma, b6, sp, hle, hsy, hma, hsp, htick⟩ := stageTones_ok.1 htones
  have hsync : b6.sync = b.sync := by
    rw [stageTone_sync hsp, stageTone_sync hma, stageTone_sync hsy, stageTone_sync hle, stageAgc_sync hagc,
      stageFir_sync hfir]
    rfl
  exact hsync ▸ syncTick_syncChange htick

/-- Each executed command makes one of the three changes. -/
theorem syncChange_of_effect {i : Instr} {b b' : Block} {w : Word} (h : effect i b = .ok (b', w)) :
    SyncChange i b.sync b'.sync := by
  have hwrites := writeSet_of_effect h
  cases i with
  | argSet | obClear | obPush | firDesign | iirDesign | firCreate | firProc | agcTrack | agcUpdate =>
    rw [hwrites.1]
    exact .kept (dynamicKept_refl _)
  | obRead | regRead | agcApply | agcConfig =>
    rw [show b' = _ from hwrites]
    exact .kept (dynamicKept_refl _)
  | resSetfreq =>
    obtain ⟨t, -, hpart⟩ := hwrites
    rw [hpart]
    exact .kept (dynamicKept_refl _)
  | resProc | bqLoad | bqProc =>
    obtain ⟨t, -, hpart, -⟩ := hwrites
    rw [hpart]
    exact .kept (dynamicKept_refl _)
  | syncPreset imm =>
    obtain ⟨p, -, ⟨⟩⟩ := syncPreset_ok.1 h
    exact .kept ⟨rfl, rfl, rfl, rfl, rfl, rfl⟩
  | syncTiming imm ticks =>
    obtain ⟨r, t, -, -, ⟨⟩⟩ := syncTiming_ok.1 h
    exact .kept (dynamicKept_withTiming b.sync r t)
  | syncStep => exact syncTick_syncChange h
  | syncReset => cases h; exact .cleared (.inl rfl) ⟨rfl, rfl, rfl, rfl, rfl, rfl⟩
  | pipeSampleI16 imm => exact pipeSample_syncChange h
  | pipeSampleF64 x => exact pipeSample_syncChange h
  | pipeReset => cases h; exact .cleared (.inr rfl) (dynamicKept_refl _)

/-! ## The invariants, state by state -/

/-- R215, R221: no byte is shown. -/
def NoByte (y : Sync) : Prop := y.visValid = false ∧ y.visByte = 0#8

/-- R215: the bits received so far fit their count, and the byte is not complete. -/
def BitsOk (a : VisAcc) : Prop := a.bitsReceived.toNat ≤ 7 ∧ a.dataByte.toNat < 2 ^ a.bitsReceived.toNat

/-- R215 for a decoder in a given state. -/
def OkInTag (y : Sync) : SyncTag → Prop
  | .idle => y.timer.toNat = 0 ∧ y.acc = VisAcc.cleared ∧ NoByte y
  | .leaderDetect => y.timer.toNat = 0 ∧ y.acc = VisAcc.cleared ∧ NoByte y
  | .startBitValidate => y.leadCnt = 0#32 ∧ 1 ≤ y.timer.toNat ∧ y.acc = VisAcc.cleared ∧ NoByte y
  | .visDecoding => y.leadCnt = 0#32 ∧ 1 ≤ y.timer.toNat ∧ BitsOk y.acc ∧ NoByte y
  | .dataWait => y.leadCnt = 0#32 ∧ y.timer.toNat = 0 ∧ y.acc = VisAcc.cleared ∧ y.visValid = true ∧
      dataParity y.visByte = y.visByte.getLsbD 7

/-- R215: the eight bits of a byte xor to 0 when the parity of seven is the eighth. -/
theorem dataParity_eq_iff (v : BitVec 8) : dataParity v = v.getLsbD 7 ↔
    (v.getLsbD 0 ^^ v.getLsbD 1 ^^ v.getLsbD 2 ^^ v.getLsbD 3 ^^ v.getLsbD 4 ^^ v.getLsbD 5 ^^ v.getLsbD 6 ^^
      v.getLsbD 7) = false := by
  rw [← bne_eq_false_iff_eq]
  rfl

theorem syncOk_iff {y : Sync} : SyncOk y ↔ OkInTag y y.tag := by
  constructor
  · rintro ⟨hlead, htimer, hacc, hbits, hvalid, hparity, hbyte⟩
    have hparity' := fun h => (dataParity_eq_iff y.visByte).2 (hparity h)
    clear hparity
    cases htag : y.tag <;> simp_all [OkInTag, NoByte, BitsOk]
  · intro h
    refine ⟨?_, ?_, ?_, ?_, ?_, fun htag => (dataParity_eq_iff y.visByte).1 ?_, ?_⟩ <;>
      cases htag : y.tag <;> simp_all [OkInTag, NoByte, BitsOk]

/-! ## A tick keeps them -/

section
variable {y : Sync}

theorem bitsOk_cleared : BitsOk VisAcc.cleared := by unfold BitsOk; decide

/-- R211: one more bit than before. -/
theorem bitsOk_withBit {a : VisAcc} (h : BitsOk a) (hmore : a.bitsReceived.toNat < 7) (le sy ma sp : F64) :
    BitsOk (withBit a le sy ma sp) := by
  obtain ⟨hcount, hbyte⟩ := h
  unfold BitsOk
  rw [toNat_bitsReceived_withBit hcount, toNat_dataByte_withBit hcount hbyte, Nat.pow_succ]
  refine ⟨hmore, ?_⟩
  cases fLt sp ma
  · rw [Bool.toNat_false]
    omega
  · rw [Bool.toNat_true]
    omega

/-- R205: the timer and the accumulator stay clear while the machine waits for a leader. -/
theorem syncOk_tickIdle (h : OkInTag y .idle) (le : F64) : SyncOk (tickIdle le y) := by
  rw [syncOk_iff, tickIdle_eq]
  dsimp only
  split
  · exact h
  · exact h

/-- R206: the timer runs from `T_START`, which is at least 1, and the leader count is cleared. -/
theorem syncOk_tickLeader (htag : y.tag = .leaderDetect) (h : OkInTag y .leaderDetect) (hstart : 1 ≤ y.tStart.toNat)
    (le : F64) : SyncOk (tickLeader le y) := by
  obtain ⟨htimer, hacc, hbyte⟩ := h
  rw [syncOk_iff]
  cases habove : fLt y.sLvl le with
  | true =>
    rw [tickLeader_of_above habove]
    dsimp only
    rw [htag]
    exact ⟨htimer, hacc, hbyte⟩
  | false =>
    rcases Nat.lt_or_ge y.leadCnt.toNat y.tLValid.toNat with hshort | hlong
    · rw [tickLeader_of_short habove hshort]
      dsimp only
      rw [htag]
      exact ⟨htimer, hacc, hbyte⟩
    · rw [tickLeader_of_long habove hlong]
      exact ⟨rfl, hstart, hacc, hbyte⟩

/-- R207: the bit timer runs from `T_BIT`, which is at least 1, and no bit has been received. -/
theorem syncOk_tickStart (htag : y.tag = .startBitValidate) (h : OkInTag y .startBitValidate)
    (hbit : 1 ≤ y.tBit.toNat) : SyncOk (tickStart y) := by
  obtain ⟨hlead, htimer, hacc, hbyte⟩ := h
  rw [syncOk_iff]
  rcases Nat.lt_or_eq_of_le htimer with hrunning | hexpired
  · rw [tickStart_of_running hrunning]
    dsimp only
    rw [htag]
    exact ⟨hlead, by bv_omega, hacc, hbyte⟩
  · rw [tickStart_of_expired hexpired.symm]
    exact ⟨hlead, hbit, bitsOk_cleared, hbyte⟩

/-- R210, R212: back in Idle everything is cleared. -/
theorem syncOk_rejected (h : NoByte y) : SyncOk y.rejected := syncOk_iff.2 ⟨rfl, rfl, h⟩

/-- R212: a byte is shown if its parity is right. -/
theorem syncOk_finishByte (h : NoByte y) (a : VisAcc) : SyncOk (finishByte a y) := by
  by_cases hparity : dataParity a.dataByte = a.dataByte.getLsbD 7
  · rw [finishByte_of_parity y hparity]
    exact syncOk_iff.2 ⟨rfl, rfl, rfl, rfl, hparity⟩
  · rw [finishByte_of_not_parity y hparity]
    exact syncOk_rejected h

theorem syncOk_decideBit (htag : y.tag = .visDecoding) (h : OkInTag y .visDecoding) (hbit : 1 ≤ y.tBit.toNat)
    (le sy ma sp : F64) : SyncOk (decideBit le sy ma sp y) := by
  obtain ⟨hlead, -, hbits, hbyte⟩ := h
  cases hclear : separable ⟨le, sy, ma, sp⟩ y.sLvl2 with
  | false =>
    rw [decideBit_of_not_separable hclear]
    exact syncOk_rejected hbyte
  | true =>
    rcases Nat.lt_or_eq_of_le hbits.1 with hmore | hlast
    · rw [decideBit_of_more hclear hmore, syncOk_iff]
      dsimp only
      rw [htag]
      exact ⟨hlead, hbit, bitsOk_withBit hbits hmore le sy ma sp, hbyte⟩
    · rw [decideBit_of_last hclear hlast]
      exact syncOk_finishByte hbyte _

/-- R208: the timer is at least 1 on every tick, so it expires or runs on. -/
theorem syncOk_tickVis (htag : y.tag = .visDecoding) (h : OkInTag y .visDecoding) (hbit : 1 ≤ y.tBit.toNat)
    (le sy ma sp : F64) : SyncOk (tickVis le sy ma sp y) := by
  have hdecide := syncOk_decideBit htag h hbit le sy ma sp
  obtain ⟨hlead, htimer, hbits, hbyte⟩ := h
  rcases Nat.lt_or_eq_of_le htimer with hrunning | hexpired
  · rw [tickVis_of_running hrunning, syncOk_iff]
    dsimp only
    rw [htag]
    exact ⟨hlead, by bv_omega, hbits, hbyte⟩
  · rwa [tickVis_of_expired hexpired.symm]

theorem syncOk_tick (h : SyncOk y) (htiming : y.timingOk = true) (le sy ma sp : F64) : SyncOk (tick le sy ma sp y) := by
  obtain ⟨-, -, hstart, hbit⟩ := timingOk_iff.1 htiming
  have hok := syncOk_iff.1 h
  generalize htag : y.tag = tag at hok
  cases tag with
  | idle => rw [tick_of_idle _ _ _ _ htag]; exact syncOk_tickIdle hok le
  | leaderDetect => rw [tick_of_leaderDetect _ _ _ _ htag]; exact syncOk_tickLeader htag hok hstart le
  | startBitValidate => rw [tick_of_startBitValidate _ _ _ _ htag]; exact syncOk_tickStart htag hok hbit
  | visDecoding => rw [tick_of_visDecoding _ _ _ _ htag]; exact syncOk_tickVis htag hok hbit le sy ma sp
  | dataWait => rwa [tick_of_dataWait _ _ _ _ htag]

end

/-! ## Every step -/

theorem DynamicKept.okInTag_iff {y y' : Sync} (h : DynamicKept y y') (tag : SyncTag) :
    OkInTag y' tag ↔ OkInTag y tag := by
  cases tag <;> simp only [OkInTag, NoByte, h.leadCnt, h.timer, h.acc, h.visByte, h.visValid]

theorem DynamicKept.syncOk {y y' : Sync} (h : DynamicKept y y') (hy : SyncOk y) : SyncOk y' := by
  rw [syncOk_iff, h.tag, h.okInTag_iff]
  exact syncOk_iff.1 hy

theorem SyncChange.syncOk {i : Instr} {y y' : Sync} (h : SyncChange i y y') (hy : SyncOk y) : SyncOk y' := by
  cases h with
  | kept h => exact h.syncOk hy
  | cleared _ h => exact h.syncOk syncOk_reset
  | ticked le sy ma sp htiming => exact syncOk_tick hy htiming le sy ma sp

/-- Settles O50: a step changes the decoder in one of three ways, and each keeps the invariants. -/
theorem syncInvariantsAreKept : Obligations.SyncInvariantsAreKept := by
  unfold Obligations.SyncInvariantsAreKept
  refine ⟨fun _ => syncOk_reset, fun s t hs h => ?_⟩
  rcases block_of_step h with hkept | ⟨i, w, hok⟩
  · rwa [hkept]
  · exact (syncChange_of_effect hok).syncOk hs

end Sys2Proof.Proofs
end

section
/-!
PROOF. The four SyncDecoder commands (45_sync_decoder.md R201 to R214): the answer of each check in its order, and a tick
of `SYNC.STEP` in each of the five states.
-/

namespace Sys2Proof.Proofs

-- One theorem is elaborated at a time, as in the tests: each further thread takes its own share of the memory limit.
set_option Elab.async false

open Sys2Proof Sys2Proof.Machine Sys2Proof.Safety

/-! ## The four commands as words -/

theorem decode_syncPreset (imm : BitVec 16) (w : Word) : decode ⟨imm ++ 0x0060#16, w⟩ = .ok (.syncPreset imm) :=
  decode_packCw 0x60#8 0#4 imm w

theorem decode_syncTiming (imm : BitVec 16) (ticks : Word) :
    decode ⟨imm ++ 0x0061#16, ticks⟩ = .ok (.syncTiming imm ticks) := decode_packCw 0x61#8 0#4 imm ticks

theorem decode_syncStep (w : Word) : decode ⟨0x00000062#32, w⟩ = .ok .syncStep := decode_packCw 0x62#8 0#4 0#16 w

theorem decode_syncReset (w : Word) : decode ⟨0x00000063#32, w⟩ = .ok .syncReset := decode_packCw 0x63#8 0#4 0#16 w

/-! ## The presets (R201) -/

theorem preset_finiteNonneg (p c : Nat) : FiniteNonneg (preset p c) :=
  (isFiniteNonneg_iff _).1 (presetComponent_finite Config.presetRaw c p)

theorem fLe_self {x : F64} (h : fIsFinite x = true) : fLe x x = true := (fLe_iff h h).2 le_rfl

/-- A raw value that is not in order is replaced by the one before it. -/
theorem preset_le_succ (p c : Nat) : fLe (preset p c) (preset (p + 1) c) = true := by
  change fLe _ (withProperty _ (preset p c) _) = true
  unfold withProperty
  split
  next hraw => exact (Bool.and_eq_true_iff.1 hraw).2
  next => exact fLe_self (preset_finite p c)

/-! ## The checks of SYNC.PRESET and SYNC.TIMING (30_encoding.md R88, R83) -/

section
variable {imm : BitVec 16} {b : Block}

/-- R201: the index of a legal immediate is its number. -/
theorem syncPreset_of_lt (table : Nat → Nat → F64) (h : imm.toNat < 4) : syncPreset table imm b =
    .ok (b.withSync { b.sync with
      sLvl := table imm.toNat 0, sLvl2 := table imm.toNat 1, sLvl3 := table imm.toNat 2,
      sense := BitVec.ofNat 2 imm.toNat, senseSet := true }, 0#64) := by
  have hnumber : (BitVec.ofNat 2 imm.toNat).toNat = imm.toNat := by rw [BitVec.toNat_ofNat, Nat.mod_eq_of_lt h]
  exact syncPreset_ok.2 ⟨BitVec.ofNat 2 imm.toNat, if_pos h, by rw [hnumber]⟩

theorem syncPreset_of_ge (table : Nat → Nat → F64) (h : 4 ≤ imm.toNat) :
    syncPreset table imm b = .error .badIndex := by
  rw [syncPreset, presetIndexOf, if_neg (Nat.not_lt.2 h), withImm]

@[simp] theorem timingRegOf_timingNumber (r : TimingReg) : timingRegOf (timingNumber r) = some r := by cases r <;> rfl

theorem exists_timingNumber_of_lt (h : imm.toNat < 4) : ∃ r, imm = timingNumber r := by
  have hcases : imm = 0#16 ∨ imm = 1#16 ∨ imm = 2#16 ∨ imm = 3#16 := by bv_omega
  rcases hcases with rfl | rfl | rfl | rfl
  · exact ⟨.lMin, rfl⟩
  · exact ⟨.lValid, rfl⟩
  · exact ⟨.start, rfl⟩
  · exact ⟨.bit, rfl⟩

theorem timingNumber_lt (r : TimingReg) : (timingNumber r).toNat < 4 := by cases r <;> decide

variable {ticks : Word}

theorem syncTiming_of_legal (h : LegalCount ticks) (r : TimingReg) : syncTiming (timingNumber r) ticks b =
    .ok (b.withSync (b.sync.withTiming r (BitVec.ofNat 32 ticks.toNat)), 0#64) :=
  syncTiming_ok.2 ⟨r, _, timingRegOf_timingNumber r, countOf_of_legal h, rfl⟩

theorem syncTiming_of_not_legal (h : ¬ LegalCount ticks) (r : TimingReg) :
    syncTiming (timingNumber r) ticks b = .error .badConfig := by
  simp only [syncTiming, timingRegOf_timingNumber, withImm, countOf_of_not_legal h]

/-- The register is looked at before the ticks. -/
theorem syncTiming_of_ge (h : 4 ≤ imm.toNat) : syncTiming imm ticks b = .error .badIndex := by
  have hnone : timingRegOf imm = none := by
    cases hreg : timingRegOf imm with
    | none => rfl
    | some r => exact absurd (timingNumber_lt r) (eq_timingNumber_of_timingRegOf hreg ▸ Nat.not_lt.2 h)
  rw [syncTiming, hnone, withImm]

end

/-- Settles O41: each clause is one end of the command, and the table is in order. -/
theorem syncPresetSetsTheThresholds : Obligations.SyncPresetSetsTheThresholds := by
  unfold Obligations.SyncPresetSetsTheThresholds
  exact ⟨decode_syncPreset, fun imm s h => exec_of_ok (syncPreset_of_lt preset h),
    fun imm s h => exec_of_fault (syncPreset_of_ge preset h), fun p c => ⟨preset_finiteNonneg p c, preset_le_succ p c⟩⟩

/-- Settles O42: one clause for each register, and the two checks. -/
theorem syncTimingSetsOneRegister : Obligations.SyncTimingSetsOneRegister := by
  unfold Obligations.SyncTimingSetsOneRegister
  intro imm ticks s y v legal
  refine ⟨decode_syncTiming imm ticks, fun h => ⟨?_, ?_, ?_, ?_⟩, fun h => exec_of_fault (syncTiming_of_ge h),
    fun himm hnot => ?_⟩
  · exact fun himm => himm ▸ exec_of_ok (syncTiming_of_legal h .lMin)
  · exact fun himm => himm ▸ exec_of_ok (syncTiming_of_legal h .lValid)
  · exact fun himm => himm ▸ exec_of_ok (syncTiming_of_legal h .start)
  · exact fun himm => himm ▸ exec_of_ok (syncTiming_of_legal h .bit)
  · obtain ⟨r, rfl⟩ := exists_timingNumber_of_lt himm
    exact exec_of_fault (syncTiming_of_not_legal hnot r)

/-- Settles O49: the command has one end. -/
theorem syncResetClearsTheDecoder : Obligations.SyncResetClearsTheDecoder := by
  unfold Obligations.SyncResetClearsTheDecoder
  exact ⟨decode_syncReset, fun s => exec_of_ok (i := .syncReset) rfl⟩

/-! ## The checks of SYNC.STEP (R204) -/

section
variable {le sy ma sp : F64} {b : Block}

theorem not_tickReady_iff {y : Sync} : ¬ TickReady y ↔ y.senseSet = false ∨ y.timingOk = false := by
  rw [TickReady, Decidable.not_and_iff_or_not, Bool.not_eq_true, Bool.not_eq_true]

theorem syncTick_of_not_ready (h : ¬ TickReady b.sync) : syncTick le sy ma sp b = .error .notConfigured :=
  if_pos (not_tickReady_iff.1 h)

theorem syncTick_of_not_finite (hready : TickReady b.sync) {x : F64} (hx : x ∈ [le, sy, ma, sp])
    (h : fIsFinite x = false) : syncTick le sy ma sp b = .error .nonFinite := by
  rw [syncTick, if_neg fun hnot => not_tickReady_iff.2 hnot hready]
  exact requireFinite_of_not _ hx h

end

theorem mem_envelopes {b : Block} {k : Nat} (h : k < 4) :
    b.arg[k] ∈ [b.argReg 0, b.argReg 1, b.argReg 2, b.argReg 3] := by
  interval_cases k <;> simp [Block.argReg]

/-- Settles O43: the configuration is looked at before the envelopes. -/
theorem syncStepRefusals : Obligations.SyncStepRefusals := by
  unfold Obligations.SyncStepRefusals
  refine ⟨decode_syncStep, fun s => ?_⟩
  intro y ready
  have hready : ready ↔ TickReady y := and_congr_right fun _ => timingOk_iff.symm
  rw [hready]
  exact ⟨fun h => exec_of_fault (syncTick_of_not_ready h),
    fun htick ⟨k, hk, h⟩ => exec_of_fault (syncTick_of_not_finite htick (mem_envelopes hk) h)⟩

/-! ## A tick of SYNC.STEP (R204) -/

/-- The decoder after one tick on the envelopes in `ARG`. -/
def stepped (b : Block) : Sync := tick b.arg[0] b.arg[1] b.arg[2] b.arg[3] b.sync

/-- R204: a tick that is not refused runs one state rule and answers the status word. -/
theorem exec_syncStep_of_ready {s : State} {y : Sync} (h : ReadyToTick s) (hy : stepped s.block = y) :
    exec .syncStep s = .next (s.answer { s.block with sync := y }
      (statusWord s.block.sync.tag { s.block with sync := y })) := by
  obtain ⟨hsense, htiming, hfinite⟩ := h
  subst hy
  exact exec_of_ok (i := .syncStep) (syncTick_ok.2 ⟨hsense, timingOk_iff.2 htiming, hfinite, rfl⟩)

/-- Settles O44: the tick is `tickIdle`, whose count is `idleCount`. -/
theorem syncTickInIdle : Obligations.SyncTickInIdle := by
  unfold Obligations.SyncTickInIdle
  intro s hready htag y le
  exact ⟨_, idleCount le y, toNat_idleCount le y, exec_syncStep_of_ready hready (tick_of_idle _ _ _ _ htag)⟩

/-- Settles O45: the three clauses of `tickLeader`. -/
theorem syncTickInLeaderDetect : Obligations.SyncTickInLeaderDetect := by
  unfold Obligations.SyncTickInLeaderDetect
  intro s hready htag y le
  exact ⟨_, tickLeader le y, exec_syncStep_of_ready hready (tick_of_leaderDetect _ _ _ _ htag),
    fun habove => ⟨sat32Inc y.leadCnt, toNat_sat32Inc _, tickLeader_of_above habove⟩,
    tickLeader_of_long, tickLeader_of_short⟩

/-- Settles O46: the two clauses of `tickStart`. -/
theorem syncTickInStartBitValidate : Obligations.SyncTickInStartBitValidate := by
  unfold Obligations.SyncTickInStartBitValidate
  intro s hready htag htimer y
  exact ⟨_, tickStart y, exec_syncStep_of_ready hready (tick_of_startBitValidate _ _ _ _ htag), tickStart_of_expired,
    tickStart_of_running⟩

/-! ## A tick in VisDecoding (R208 to R212) -/

/-- 30_encoding.md R92: the two events of a tick in VisDecoding. -/
theorem getLsbD_events (b : Block) : (statusWord .visDecoding b).getLsbD 12 = decide (b.sync.tag = .dataWait) ∧
    (statusWord .visDecoding b).getLsbD 13 = decide (b.sync.tag = .idle) := by
  constructor
  · rw [getLsbD_statusWord_of_ge _ _ (by decide)]
    simp
  · rw [getLsbD_statusWord_of_ge _ _ (by decide)]
    simp

/-- R210: the rule's condition. -/
theorem not_separable_iff {le sy ma sp threshold : F64} : separable ⟨le, sy, ma, sp⟩ threshold = false ↔
    (fLt ma le = true ∧ fLt sp le = true) ∨ fLt (fAbs (fSub ma sp)) threshold = true := by
  rw [← Bool.not_eq_true', ← discriminationFails_latch VisAcc.cleared]
  simp [discriminationFails, VisAcc.latch]

/-- Settles O47: the clauses of `tickVis`, of the bit decision and of the parity. -/
theorem syncTickInVisDecoding : Obligations.SyncTickInVisDecoding := by
  unfold Obligations.SyncTickInVisDecoding
  intro s hready htag htimer hcount y le sy ma sp cleared rejected fails byte parity
  have hfails : fails ↔ ¬ separable ⟨le, sy, ma, sp⟩ y.sLvl2 = true := by rw [Bool.not_eq_true, not_separable_iff]
  obtain ⟨hdecoded, hreject⟩ := getLsbD_events { s.block with sync := tickVis le sy ma sp y }
  have hexpired : y.timer.toNat = 1 → tickVis le sy ma sp y = decideBit le sy ma sp y := tickVis_of_expired
  rw [hfails, not_not]
  refine ⟨_, tickVis le sy ma sp y, exec_syncStep_of_ready hready (tick_of_visDecoding _ _ _ _ htag), ?_, ?_,
    tickVis_of_running, fun ht hnot => ?_, fun ht hclear hmore => ?_, fun ht hclear hlast hparity => ?_,
    fun ht hclear hlast hparity => ?_⟩
  · rwa [htag]
  · rwa [htag]
  · exact (hexpired ht).trans (decideBit_of_not_separable (Bool.eq_false_iff.2 hnot))
  · exact (hexpired ht).trans (decideBit_of_more hclear hmore)
  · exact ((hexpired ht).trans (decideBit_of_last hclear hlast)).trans (finishByte_of_parity y hparity)
  · exact ((hexpired ht).trans (decideBit_of_last hclear hlast)).trans (finishByte_of_not_parity y hparity)

/-! ## DataWait (R213) -/

/-- In DataWait neither a tick nor a command that keeps the dynamic fields changes them. -/
theorem SyncChange.dynamicKept {i : Instr} {y y' : Sync} (h : SyncChange i y y') (htag : y.tag = .dataWait)
    (hi : ¬ (i = .syncReset ∨ i = .pipeReset)) : DynamicKept y y' := by
  cases h with
  | kept h => exact h
  | cleared hreset _ => exact absurd hreset hi
  | ticked le sy ma sp _ => rw [tick_of_dataWait _ _ _ _ htag]; exact dynamicKept_refl y

/-- Settles O48: of the three changes only the resets' leaves DataWait. -/
theorem syncDataWaitIsTerminal : Obligations.SyncDataWaitIsTerminal := by
  unfold Obligations.SyncDataWaitIsTerminal
  refine ⟨fun s hready htag => ⟨_, exec_syncStep_of_ready hready (tick_of_dataWait _ _ _ _ htag)⟩,
    fun i s t htag h => or_iff_not_imp_left.2 fun hi => ?_⟩
  have hkept : DynamicKept s.block.sync t.block.sync := by
    rcases exec_cases h with ⟨-, w, hok⟩ | ⟨-, hsame⟩
    · exact (syncChange_of_effect hok).dynamicKept htag hi
    · rw [hsame]
      exact dynamicKept_refl _
  exact ⟨hkept.tag.trans htag, hkept.visByte, hkept.visValid, hkept.leadCnt, hkept.timer⟩

end Sys2Proof.Proofs
end

section
/-!
PROOF. The decode lemma (45_sync_decoder.md R220). A run of ticks is the state rules one after another; a bit period of
ticks is one bit decision, whose envelopes are those of its last tick; and eight decisions on separable tones give the
byte.
-/

namespace Sys2Proof.Proofs

-- One theorem is elaborated at a time, as in the tests: each further thread takes its own share of the memory limit.
set_option Elab.async false

open Sys2Proof Sys2Proof.Machine Sys2Proof.Safety

/-! ## A run of ticks (30_encoding.md R94) -/

/-- The decoder after a tick on these envelopes. -/
def tickOn (e : Envelopes) (y : Sync) : Sync := tick e.le e.sy e.ma e.sp y

/-- The decoder after `n` ticks; tick `k`, counted from 1, has the envelopes `env k`. -/
def tickedBy (env : Nat → Envelopes) (y : Sync) : Nat → Sync
  | 0 => y
  | n + 1 => tickOn (env (n + 1)) (tickedBy env y n)

/-- R94: the commands of one `SYNC.FEED`. -/
def feedInstrs (e : Envelopes) : List Instr :=
  [.argSet 0#16 e.le, .argSet 1#16 e.sy, .argSet 2#16 e.ma, .argSet 3#16 e.sp, .syncStep]

/-- The commands of `n` ticks. -/
def runInstrs (env : Nat → Envelopes) : Nat → List Instr
  | 0 => []
  | n + 1 => runInstrs env n ++ feedInstrs (env (n + 1))

theorem feedTicks_eq (env : Nat → Envelopes) (n : Nat) : feedTicks env n = (runInstrs env n).map encode := by
  induction n with
  | zero => rfl
  | succ n ih =>
    rw [feedTicks, runInstrs, List.map_append, ih]
    rfl

theorem length_runInstrs (env : Nat → Envelopes) (n : Nat) : (runInstrs env n).length = 5 * n := by
  induction n with
  | zero => rfl
  | succ n ih => rw [runInstrs, List.length_append, ih]; rfl

theorem sameButDynamic_trans {y y' y'' : Sync} (h : SameButDynamic y y') (h' : SameButDynamic y' y'') :
    SameButDynamic y y'' := Eq.trans h' (by rw [show y' = _ from h])

/-- R204: no tick writes the configuration. -/
theorem tickedBy_dynamic (env : Nat → Envelopes) (y : Sync) (n : Nat) : SameButDynamic y (tickedBy env y n) := by
  induction n with
  | zero => rfl
  | succ n ih => exact sameButDynamic_trans ih (tick_dynamic _ _ _ _ _)

theorem tickedBy_add (env : Nat → Envelopes) (y : Sync) (m n : Nat) :
    tickedBy env y (m + n) = tickedBy (fun k => env (m + k)) (tickedBy env y m) n := by
  induction n with
  | zero => rfl
  | succ n ih => exact congrArg (tickOn (env (m + n + 1))) ih

theorem finite_iff {e : Envelopes} : e.finite = true ↔
    fIsFinite e.le = true ∧ fIsFinite e.sy = true ∧ fIsFinite e.ma = true ∧ fIsFinite e.sp = true := by
  simp [Envelopes.finite, and_assoc]

theorem TickReady.of_sameButDynamic {y y' : Sync} (h : TickReady y) (hsame : SameButDynamic y y') : TickReady y' := by
  rw [show y' = _ from hsame]
  exact h

/-- The block with the four envelopes in `ARG` (R204). -/
def withEnvelopes (e : Envelopes) (b : Block) : Block :=
  (((b.withArg 0 e.le).withArg 1 e.sy).withArg 2 e.ma).withArg 3 e.sp

theorem syncStep_withEnvelopes (e : Envelopes) (b : Block) :
    syncStep (withEnvelopes e b) = syncTick e.le e.sy e.ma e.sp (withEnvelopes e b) := by
  simp [syncStep, withEnvelopes, Block.argReg]

/-- R94, R204: a `SYNC.FEED` of finite envelopes ticks the decoder on them. -/
theorem executes_feedInstrs {b : Block} {e : Envelopes} (hready : TickReady b.sync) (he : e.finite = true) :
    ∃ ws b', Executes b (feedInstrs e) ws b' ∧ b'.sync = tickOn e b.sync := by
  have htick : effect .syncStep (withEnvelopes e b) = .ok ((withEnvelopes e b).withSync (tickOn e b.sync),
      statusWord b.sync.tag ((withEnvelopes e b).withSync (tickOn e b.sync))) :=
    (syncStep_withEnvelopes e b).trans (syncTick_ok.2 ⟨hready.1, hready.2, finite_iff.1 he, rfl⟩)
  exact ⟨_, _, .cons (argSet_effect (i := 0) (by decide) e.le b) (.cons (argSet_effect (i := 1) (by decide) e.sy _)
    (.cons (argSet_effect (i := 2) (by decide) e.ma _) (.cons (argSet_effect (i := 3) (by decide) e.sp _)
      (.cons htick (.nil _))))), rfl⟩

theorem executes_runInstrs {b : Block} {env : Nat → Envelopes} (hready : TickReady b.sync) (n : Nat)
    (hfinite : ∀ k, 1 ≤ k → k ≤ n → (env k).finite = true) :
    ∃ ws b', Executes b (runInstrs env n) ws b' ∧ b'.sync = tickedBy env b.sync n := by
  induction n with
  | zero => exact ⟨[], b, .nil b, rfl⟩
  | succ n ih =>
    obtain ⟨ws, b', hrun, hsync⟩ := ih fun k h1 hk => hfinite k h1 (Nat.le_succ_of_le hk)
    have hready' : TickReady b'.sync := hsync ▸ hready.of_sameButDynamic (tickedBy_dynamic env b.sync n)
    obtain ⟨ws', b'', hfeed, hsync'⟩ := executes_feedInstrs hready' (hfinite (n + 1) (Nat.le_add_left 1 n) le_rfl)
    exact ⟨_, b'', hrun.append hfeed, by rw [hsync', hsync, tickedBy]⟩

/-- The machine after `n` ticks. -/
theorem run_feedTicks {s : State} {env : Nat → Envelopes} {n : Nat} {rest : List Transaction}
    (hready : TickReady s.block.sync) (hfinite : ∀ k, 1 ≤ k → k ≤ n → (env k).finite = true)
    (hpending : s.pending = feedTicks env n ++ rest) : ∃ t : State, Sys2Proof.core.run (5 * n) s = .next t ∧
      t.pending = rest ∧ t.block.sync = tickedBy env s.block.sync n := by
  obtain ⟨ws, b', hexec, hsync⟩ := executes_runInstrs hready n hfinite
  obtain ⟨t, hrun, hrest, hblock, -⟩ := hexec.run rest rfl (feedTicks_eq env n ▸ hpending)
  exact ⟨t, length_runInstrs env n ▸ hrun, hrest, hblock ▸ hsync⟩

/-! ## One bit period (R208, R209) -/

/-- The decoder after a bit decision on these envelopes. -/
def decideOn (e : Envelopes) (y : Sync) : Sync := decideBit e.le e.sy e.ma e.sp y

/-- R209: the decision does not read the timer. -/
theorem decideOn_timer (e : Envelopes) (y : Sync) (t : BitVec 32) : decideOn e { y with timer := t } = decideOn e y := rfl

section
variable {y : Sync} (htag : y.tag = .visDecoding)
include htag

/-- R208: before the timer expires a tick moves the timer alone. -/
theorem tickedBy_running (env : Nat → Envelopes) {n : Nat} (hn : n < y.timer.toNat) :
    tickedBy env y n = { y with timer := y.timer - BitVec.ofNat 32 n } := by
  induction n with
  | zero => rw [tickedBy, BitVec.sub_zero]
  | succ n ih =>
    have hrunning : 1 < (y.timer - BitVec.ofNat 32 n).toNat := by bv_omega
    rw [tickedBy, ih (Nat.lt_of_succ_lt hn), tickOn, tick_of_visDecoding _ _ _ _ (by exact htag),
      tickVis_of_running (by exact hrunning)]
    congr 1
    bv_omega

/-- R209: the tick on which the timer expires decides the bit; the ticks before it leave no trace. -/
theorem tickedBy_period (env : Nat → Envelopes) (htimer : 1 ≤ y.timer.toNat) :
    tickedBy env y y.timer.toNat = decideOn (env y.timer.toNat) y := by
  obtain ⟨n, hn⟩ := Nat.exists_eq_add_of_le' htimer
  have hexpired : (y.timer - BitVec.ofNat 32 n).toNat = 1 := by bv_omega
  rw [hn, tickedBy, tickedBy_running htag env (by omega), tickOn, tick_of_visDecoding _ _ _ _ (by exact htag),
    tickVis_of_expired (by exact hexpired)]
  exact decideOn_timer _ y _

end

/-! ## The bits of a byte (R211) -/

section
variable {bit : Nat → Bool}

theorem byteOf_succ (bit : Nat → Bool) (n : Nat) :
    byteOf bit (n + 1) = 2 ^ n * (bit (n + 1)).toNat + byteOf bit n := by
  rw [byteOf, Nat.add_comm]
  cases bit (n + 1) <;> simp

theorem byteOf_lt (bit : Nat → Bool) (n : Nat) : byteOf bit n < 2 ^ n := by
  induction n with
  | zero => exact Nat.one_pos
  | succ n ih =>
    have hbit := Nat.mul_le_mul_left (2 ^ n) (Bool.toNat_le (bit (n + 1)))
    rw [byteOf_succ, Nat.pow_succ]
    omega

theorem testBit_byteOf {n i : Nat} (hi : i < n) : (byteOf bit n).testBit i = bit (i + 1) := by
  induction n with
  | zero => omega
  | succ n ih =>
    rw [byteOf_succ, Nat.testBit_two_pow_mul_add _ (byteOf_lt bit n)]
    split
    next hlt => exact ih hlt
    next hge =>
      obtain rfl : i = n := by omega
      rw [Nat.sub_self]
      cases bit (i + 1) <;> rfl

/-- R212: the parity rule in the bits as they arrived. -/
theorem dataParity_of_byteOf {v : BitVec 8} (h : v.toNat = byteOf bit 8) : dataParity v = v.getLsbD 7 ↔
    bit 8 = (bit 1 ^^ bit 2 ^^ bit 3 ^^ bit 4 ^^ bit 5 ^^ bit 6 ^^ bit 7) := by
  have hbit : ∀ i < 8, v.getLsbD i = bit (i + 1) := fun i hi => by rw [← BitVec.testBit_toNat, h, testBit_byteOf hi]
  rw [dataParity, hbit 0 (by decide), hbit 1 (by decide), hbit 2 (by decide), hbit 3 (by decide), hbit 4 (by decide),
    hbit 5 (by decide), hbit 6 (by decide), hbit 7 (by decide)]
  exact eq_comm

end

/-! ## Eight bit periods (R210 to R212) -/

/-- The decoder `z` is `y` with the first `k` bits received, at the start of a bit period. -/
structure HasBits (y : Sync) (bit : Nat → Bool) (k : Nat) (z : Sync) : Prop where
  config : SameButDynamic y z
  tag : z.tag = .visDecoding
  timer : z.timer = y.tBit
  hidden : z.visValid = false
  count : z.acc.bitsReceived.toNat = k
  byte : z.acc.dataByte.toNat = byteOf bit k

section
variable {y z : Sync} {bit : Nat → Bool} {k : Nat} (h : HasBits y bit k z)
include h

theorem HasBits.sLvl2_eq : z.sLvl2 = y.sLvl2 := (congrArg Sync.sLvl2 h.config :)

theorem HasBits.tBit_eq : z.tBit = y.tBit := (congrArg Sync.tBit h.config :)

variable {e : Envelopes}

/-- R211: the byte with one bit more. -/
theorem HasBits.byte_withBit (hk : k ≤ 7) (hbit : bit (k + 1) = bitOf e) :
    (withBit z.acc e.le e.sy e.ma e.sp).dataByte.toNat = byteOf bit (k + 1) := by
  have hlt : z.acc.dataByte.toNat < 2 ^ z.acc.bitsReceived.toNat := by
    rw [h.byte, h.count]
    exact byteOf_lt bit k
  rw [toNat_dataByte_withBit (h.count.trans_le hk) hlt, h.count, h.byte, byteOf_succ, hbit, bitOf]

theorem HasBits.succ (hk : k < 7) (hclear : separable e y.sLvl2 = true) (hbit : bit (k + 1) = bitOf e) :
    HasBits y bit (k + 1) (decideOn e z) := by
  have hmore : z.acc.bitsReceived.toNat < 7 := h.count.trans_lt hk
  have hdecide : decideOn e z = { z with acc := withBit z.acc e.le e.sy e.ma e.sp, timer := z.tBit } :=
    decideBit_of_more (h.sLvl2_eq ▸ hclear) hmore
  rw [hdecide]
  exact {
    config := sameButDynamic_trans h.config rfl
    tag := h.tag
    timer := h.tBit_eq
    hidden := h.hidden
    count := (toNat_bitsReceived_withBit hmore.le).trans (congrArg (· + 1) h.count)
    byte := h.byte_withBit hk.le hbit }

/-- R210: tones that are not separable end in Idle without a byte. -/
theorem HasBits.reject (hnot : separable e y.sLvl2 = false) :
    (decideOn e z).tag = .idle ∧ (decideOn e z).visValid = false := by
  rw [decideOn, decideBit_of_not_separable (h.sLvl2_eq ▸ hnot)]
  exact ⟨rfl, h.hidden⟩

end

/-- R212: the eighth bit ends in DataWait with the byte, or in Idle without one. -/
theorem HasBits.finish {y z : Sync} {bit : Nat → Bool} {e : Envelopes} (h : HasBits y bit 7 z)
    (hclear : separable e y.sLvl2 = true) (hbit : bit 8 = bitOf e) :
    (bit 8 = (bit 1 ^^ bit 2 ^^ bit 3 ^^ bit 4 ^^ bit 5 ^^ bit 6 ^^ bit 7) → (decideOn e z).tag = .dataWait ∧
      (decideOn e z).visValid = true ∧ (decideOn e z).visByte.toNat = byteOf bit 8) ∧
    (bit 8 ≠ (bit 1 ^^ bit 2 ^^ bit 3 ^^ bit 4 ^^ bit 5 ^^ bit 6 ^^ bit 7) →
      (decideOn e z).tag = .idle ∧ (decideOn e z).visValid = false) := by
  have hbyte := h.byte_withBit le_rfl hbit
  rw [ne_eq, ← dataParity_of_byteOf hbyte, decideOn, decideBit_of_last (h.sLvl2_eq ▸ hclear) h.count]
  refine ⟨fun hparity => ?_, fun hparity => ?_⟩
  · rw [finishByte_of_parity z hparity]
    exact ⟨rfl, rfl, hbyte⟩
  · rw [finishByte_of_not_parity z hparity]
    exact ⟨rfl, h.hidden⟩

/-- R220: the decoder right after the tick that entered VisDecoding. -/
structure EnteredVis (y : Sync) : Prop where
  tag : y.tag = .visDecoding
  acc : y.acc = VisAcc.cleared
  timer : y.timer = y.tBit
  hidden : y.visValid = false
  period : 1 ≤ y.tBit.toNat

theorem EnteredVis.hasBits {y : Sync} (h : EnteredVis y) (bit : Nat → Bool) : HasBits y bit 0 y where
  config := rfl
  tag := h.tag
  timer := h.timer
  hidden := h.hidden
  count := by rw [h.acc]; rfl
  byte := by rw [h.acc]; rfl

/-- R220: bit `k`, of the last tick of bit period `k`. -/
def bitAt (env : Nat → Envelopes) (y : Sync) (k : Nat) : Bool := bitOf (env (k * y.tBit.toNat))

section
variable {y : Sync} (h : EnteredVis y) {env : Nat → Envelopes} {k : Nat}
include h

/-- A bit period more is one decision more. -/
theorem EnteredVis.tickedBy_succ (hbits : HasBits y (bitAt env y) k (tickedBy env y (k * y.tBit.toNat))) :
    tickedBy env y ((k + 1) * y.tBit.toNat) =
      decideOn (env ((k + 1) * y.tBit.toNat)) (tickedBy env y (k * y.tBit.toNat)) := by
  have hperiod := tickedBy_period hbits.tag (fun i => env (k * y.tBit.toNat + i)) (by rw [hbits.timer]; exact h.period)
  rw [hbits.timer] at hperiod
  rw [Nat.succ_mul, tickedBy_add, hperiod]

theorem EnteredVis.hasBits_tickedBy (hk : k ≤ 7)
    (hclear : ∀ j, 1 ≤ j → j ≤ k → separable (env (j * y.tBit.toNat)) y.sLvl2 = true) :
    HasBits y (bitAt env y) k (tickedBy env y (k * y.tBit.toNat)) := by
  induction k with
  | zero =>
    rw [Nat.zero_mul]
    exact h.hasBits _
  | succ k ih =>
    have hbits := ih (by omega) fun j h1 hj => hclear j h1 (by omega)
    rw [h.tickedBy_succ hbits]
    exact hbits.succ (by omega) (hclear (k + 1) (by omega) le_rfl) rfl

end

/-- Settles O51: the run is `tickedBy`; after `k` separable periods the decoder has `k` bits, and the next decision rejects
the tones, takes the bit, or finishes the byte. -/
theorem decodeLemma : Obligations.DecodeLemma := by
  unfold Obligations.DecodeLemma
  intro s env rest y period bit clear hsense htiming htag hacc htimer hhidden hfinite
  have hready : TickReady s.block.sync := ⟨hsense, timingOk_iff.2 htiming⟩
  have hentered : EnteredVis y := ⟨htag, hacc, htimer, hhidden, htiming.2.2.2⟩
  constructor
  · intro hpending hclear
    obtain ⟨t, hrun, hrest, hsync⟩ := run_feedTicks hready hfinite hpending
    have hbits := hentered.hasBits_tickedBy (env := env) (k := 7) le_rfl fun j h1 hj => hclear j h1 (by omega)
    refine ⟨t, hrun, hrest, ?_⟩
    rw [hsync, hentered.tickedBy_succ hbits]
    exact hbits.finish (hclear 8 (by decide) le_rfl) rfl
  · intro j h1 h8 hpending hclear hnot
    have hticks : j * period ≤ 8 * period := Nat.mul_le_mul_right period h8
    obtain ⟨t, hrun, hrest, hsync⟩ := run_feedTicks hready (fun k hk1 hk => hfinite k hk1 (hk.trans hticks)) hpending
    obtain ⟨k, rfl⟩ := Nat.exists_eq_add_of_le' h1
    have hbits := hentered.hasBits_tickedBy (env := env) (k := k) (by omega) fun i hi1 hi => hclear i hi1 (by omega)
    refine ⟨t, hrun, hrest, ?_⟩
    rw [hsync, hentered.tickedBy_succ hbits]
    exact hbits.reject hnot

end Sys2Proof.Proofs
end

section
/-!
PROOF. The transport commands and `PIPE.RESET` (46_pipeline_and_host.md R236 to R240, R249): each clause is one end of a
command. The register map of `REG.READ` is the table of 10_state.md R40, read as five runs of consecutive numbers.
-/

namespace Sys2Proof.Proofs

-- One theorem is elaborated at a time, as in the tests: each further thread takes its own share of the memory limit.
set_option Elab.async false

open Sys2Proof Sys2Proof.Machine Sys2Proof.Safety

/-! ## The commands as words -/

theorem decode_argSet (imm : BitVec 16) (v : Word) : decode ⟨imm ++ 0x0001#16, v⟩ = .ok (.argSet imm v) :=
  decode_packCw 0x01#8 0#4 imm v

theorem decode_obClear (w : Word) : decode ⟨0x00000002#32, w⟩ = .ok .obClear := decode_packCw 0x02#8 0#4 0#16 w

theorem decode_obPush (v : Word) : decode ⟨0x00000003#32, v⟩ = .ok (.obPush v) := decode_packCw 0x03#8 0#4 0#16 v

theorem decode_obRead (imm : BitVec 16) (w : Word) : decode ⟨imm ++ 0x0004#16, w⟩ = .ok (.obRead imm) :=
  decode_packCw 0x04#8 0#4 imm w

theorem decode_regRead (imm : BitVec 16) (w : Word) : decode ⟨imm ++ 0x0005#16, w⟩ = .ok (.regRead imm) :=
  decode_packCw 0x05#8 0#4 imm w

theorem decode_pipeReset (w : Word) : decode ⟨0x0000007F#32, w⟩ = .ok .pipeReset := decode_packCw 0x7F#8 0#4 0#16 w

/-! ## The checks (R236, R238 to R240) -/

section
variable {imm : BitVec 16} {b : Block}

theorem argSet_of_ge (h : 8 ≤ imm.toNat) (v : Word) : argSet imm v b = .error .badIndex := by
  rw [argSet, argIndexOf, dif_neg (Nat.not_lt.2 h), withImm]

theorem obPush_of_full (h : b.obLen = b.params.obMax) (v : Word) : obPush v b = .error .obOverflow := if_pos h

theorem obRead_of_ge (h : b.obLen ≤ imm.toNat) : obRead imm b = .error .badIndex := if_pos h

theorem regRead_of_unassigned (h : registerValue b imm.toNat = none) : regRead imm b = .error .badIndex := by
  rw [regRead, h, withImm]

end

/-- Settles O12: an index below 8 is taken, any other is refused. -/
theorem argSetWritesOneRegister : Obligations.ArgSetWritesOneRegister := by
  unfold Obligations.ArgSetWritesOneRegister
  exact fun imm v s => ⟨decode_argSet imm v,
    fun hlt => exec_of_ok (argSet_effect (i := ⟨imm.toNat, hlt⟩) rfl v s.block),
    fun hge => exec_of_fault (argSet_of_ge hge v)⟩

/-- Settles O13: the buffer that is left is empty, so that no index is valid. -/
theorem obClearEmptiesTheBuffer : Obligations.ObClearEmptiesTheBuffer := by
  unfold Obligations.ObClearEmptiesTheBuffer
  refine ⟨decode_obClear, fun s => ⟨rfl, fun t imm h => ?_⟩⟩
  cases h
  exact exec_of_fault (obRead_of_empty rfl imm)

/-- Settles O14: the write puts the word in cell `OBLEN` and leaves the others. -/
theorem obPushAppends : Obligations.ObPushAppends := by
  unfold Obligations.ObPushAppends
  exact fun v s => ⟨decode_obPush v,
    fun hroom => ⟨s.block.ob.write s.block.obLen v, exec_of_ok (obPush_ok.2 ⟨hroom, rfl⟩),
      Memory.read_write_same _ _ v, fun j hj => Memory.read_write_ne hj⟩,
    fun hfull => exec_of_fault (obPush_of_full hfull v)⟩

/-- Settles O15: an index below `OBLEN` is read, any other is refused. -/
theorem obReadReturnsTheCell : Obligations.ObReadReturnsTheCell := by
  unfold Obligations.ObReadReturnsTheCell
  exact fun imm w s => ⟨decode_obRead imm w, fun hlt => exec_of_ok (obRead_ok.2 ⟨hlt, rfl⟩),
    fun hge => exec_of_fault (obRead_of_ge hge)⟩

/-! ## PIPE.RESET (R249) -/

/-- 10_state.md R41: every flag of the reset block is clear. -/
theorem flagBits_resetWith (p : Config.Params) : flagBits (Block.resetWith p) = List.replicate 13 false := rfl

theorem flags_resetWith (p : Config.Params) : (Block.resetWith p).flags = 0#64 := by
  apply BitVec.eq_of_getLsbD_eq
  intro i _
  rw [getLsbD_flags, flagBits_resetWith, BitVec.getLsbD_zero]
  rcases Nat.lt_or_ge i 13 with hi | hi
  · exact List.getD_replicate false hi
  · exact List.getD_eq_default _ _ (List.length_replicate.trans_le hi)

/-- R249, R244: of the commands only `PIPE.RESET` clears `ovf`. -/
theorem eq_pipeReset_of_ovf_cleared {i : Instr} {s t : State} (h : exec i s = .next t) (hset : s.block.ovf = true)
    (hclear : t.block.ovf = false) : i = .pipeReset := by
  rcases ovf_cases h with ⟨hreset, -⟩ | ⟨x, -, -, hovf, -⟩ | ⟨-, -, hovf⟩
  · exact hreset
  · rw [hclear, hset, Bool.true_or] at hovf
    cases hovf
  · rw [hclear, hset] at hovf
    cases hovf

/-- Settles O10: the reset block is `Block.resetWith`'s, whose flags are clear; `ovf_cases` has the other commands. -/
theorem pipeResetRestoresReset : Obligations.PipeResetRestoresReset := by
  unfold Obligations.PipeResetRestoresReset
  refine ⟨decode_pipeReset, fun s => ⟨rfl, fun t h => ?_, fun i t h => eq_pipeReset_of_ovf_cleared h⟩⟩
  refine exec_of_ok (regRead_ok.2 ⟨t.block.flags, rfl, ?_⟩)
  rw [block_of_pipeReset h, flags_resetWith]

/-! ## Fields side by side in a register (10_state.md R40) -/

/-- The upper field stands above the lower one, and zeros fill the word. -/
theorem zero_append_append_eq {n h l : Nat} (high : BitVec h) (low : BitVec l) : 0#n ++ (high ++ low) =
    low.setWidth (n + (h + l)) ||| high.setWidth (n + (h + l)) <<< l := by
  apply BitVec.eq_of_getLsbD_eq
  intro i hi
  simp only [BitVec.getLsbD_append, BitVec.getLsbD_or, BitVec.getLsbD_setWidth, BitVec.getLsbD_shiftLeft, hi]
  by_cases hl : i < l
  · simp [hl, show i < h + l by omega]
  · have hlow : low.getLsbD i = false := BitVec.getLsbD_of_ge low i (Nat.le_of_not_lt hl)
    by_cases hh : i - l < h
    · simp [hl, hlow, show i < h + l by omega, show i - l < n + (h + l) by omega]
    · simp [hl, hlow, show ¬ i < h + l by omega, BitVec.getLsbD_of_ge high (i - l) (by omega)]

/-- R40, register 1: `vis_valid` above `vis_byte`. -/
theorem visWord_eq (y : Sync) : y.visWord = 0#55 ++ (BitVec.ofBool y.visValid ++ y.visByte) := by
  have hflag : flagAt 8 y.visValid = (BitVec.ofBool y.visValid).setWidth 64 <<< 8 := by cases y.visValid <;> decide
  rw [Sync.visWord, hflag]
  exact (zero_append_append_eq (n := 55) (BitVec.ofBool y.visValid) y.visByte).symm

/-- R40, register 16: the bit count above the bits. -/
theorem accWord_eq (a : VisAcc) : a.dataByte.setWidth 64 ||| a.bitsReceived.setWidth 64 <<< 8 =
    0#52 ++ (a.bitsReceived ++ a.dataByte) := (zero_append_append_eq (n := 52) a.bitsReceived a.dataByte).symm

/-- R40, register 27: `sense_set` above the sensitivity. -/
theorem senseWord_eq (y : Sync) : y.sense.setWidth 64 ||| flagAt 2 y.senseSet =
    0#61 ++ (BitVec.ofBool y.senseSet ++ y.sense) := by
  have hflag : flagAt 2 y.senseSet = (BitVec.ofBool y.senseSet).setWidth 64 <<< 2 := by cases y.senseSet <;> decide
  rw [hflag]
  exact (zero_append_append_eq (n := 61) (BitVec.ofBool y.senseSet) y.sense).symm

/-! ## The register map (10_state.md R40) -/

/-- The rows of `count` registers with consecutive numbers from `first` on, each with its content. -/
def numberedRows (register : Nat → Option Word) (first count : Nat) : List (Nat × Word) :=
  (List.range count).map fun k => (first + k, (register k).getD 0#64)

/-- A row of the run: its number is in the run, and its content is the register's. -/
theorem mem_numberedRows {register : Nat → Option Word} {first count n : Nat} {v : Word}
    (hassigned : ∀ k, (register k).isSome = true ↔ k < count) : (n, v) ∈ numberedRows register first count ↔
      (first ≤ n ∧ n < first + count) ∧ register (n - first) = some v := by
  simp only [numberedRows, List.mem_map, List.mem_range, Prod.mk.injEq]
  constructor
  · rintro ⟨k, hk, rfl, rfl⟩
    obtain ⟨v, hv⟩ := Option.isSome_iff_exists.1 ((hassigned k).2 hk)
    exact ⟨⟨Nat.le_add_right first k, by omega⟩, by rw [Nat.add_sub_cancel_left, hv, Option.getD_some]⟩
  · rintro ⟨⟨hle, hlt⟩, hv⟩
    exact ⟨n - first, by omega, by omega, by rw [hv, Option.getD_some]⟩

theorem isSome_globalRegister (b : Block) (n : Nat) : (globalRegister b n).isSome = true ↔ n < 35 := by
  by_cases hn : n < 35
  · interval_cases n <;> simp [globalRegister]
  · obtain ⟨k, rfl⟩ := Nat.exists_eq_add_of_le' (Nat.le_of_not_lt hn)
    simp [globalRegister]

theorem isSome_unitRegister (r : Resonator) (q : Biquad) (k : Nat) : (unitRegister r q k).isSome = true ↔ k < 8 := by
  by_cases hk : k < 8
  · interval_cases k <;> simp [unitRegister]
  · obtain ⟨j, rfl⟩ := Nat.exists_eq_add_of_le' (Nat.le_of_not_lt hk)
    simp [unitRegister]

/-- R40: the table is five runs, the global registers and those of each unit. -/
theorem registerTable_eq (b : Block) : registerTable b = numberedRows (globalRegister b) 0 35 ++
    numberedRows (unitRegister b.res.leader b.bq.leader) 256 8 ++
    numberedRows (unitRegister b.res.sync b.bq.sync) 272 8 ++
    numberedRows (unitRegister b.res.mark b.bq.mark) 288 8 ++
    numberedRows (unitRegister b.res.space b.bq.space) 304 8 := by
  rw [registerTable, ← visWord_eq, ← accWord_eq, ← senseWord_eq]
  rfl

/-- R40, 20_memory.md R65: the registers that have a value are the rows of the table. -/
theorem mem_registerTable {b : Block} {n : Nat} {v : Word} :
    (n, v) ∈ registerTable b ↔ registerValue b n = some v := by
  have hglobal : globalRegister b n = some v → n < 35 := fun h => (isSome_globalRegister b n).1 (by rw [h]; rfl)
  have hunit : ∀ {r q k}, unitRegister r q k = some v → k < 8 := fun {r q k} h =>
    (isSome_unitRegister r q k).1 (by rw [h]; rfl)
  simp only [registerTable_eq, List.mem_append, mem_numberedRows (isSome_globalRegister b),
    mem_numberedRows (isSome_unitRegister _ _), Nat.sub_zero, registerValue]
  split_ifs <;> grind

/-- Settles O16: a row of the table is a register that has a value. -/
theorem regReadReturnsTheRegister : Obligations.RegReadReturnsTheRegister := by
  unfold Obligations.RegReadReturnsTheRegister
  simp only [mem_registerTable]
  exact fun imm w s => ⟨decode_regRead imm w, fun v hv => exec_of_ok (regRead_ok.2 ⟨v, hv, rfl⟩),
    fun hnone => exec_of_fault (regRead_of_unassigned (Option.eq_none_iff_forall_ne_some.2 hnone))⟩

end Sys2Proof.Proofs
end

section
/-!
PROOF. The sample commands in values (46_pipeline_and_host.md R241 to R248): on a configured block a sample command is one
finiteness check of every stage's values and, past it, one block. Each stage is such an equation of its own; a fault in
a stage is therefore NonFinite, and no state is written (60_exceptions.md R272).
-/

namespace Sys2Proof.Proofs

-- One theorem is elaborated at a time, as in the tests: each further thread takes its own share of the memory limit.
set_option Elab.async false

open Sys2Proof Sys2Proof.Machine Sys2Proof.Safety

/-! ## The commands as words -/

theorem decode_pipeSampleI16 (imm : BitVec 16) (w : Word) :
    decode ⟨imm ++ 0x0070#16, w⟩ = .ok (.pipeSampleI16 imm) := decode_packCw 0x70#8 0#4 imm w

theorem decode_pipeSampleF64 (x : F64) : decode ⟨0x00000071#32, x⟩ = .ok (.pipeSampleF64 x) :=
  decode_packCw 0x71#8 0#4 0#16 x

/-- R242: a 16-bit sample acts as the value it stands for. -/
theorem exec_pipeSampleI16 (imm : BitVec 16) (s : State) :
    exec (.pipeSampleI16 imm) s = exec (.pipeSampleF64 (fOfInt imm.toInt)) s := rfl

theorem exec_pipeSampleI16_of_eq {imm : BitVec 16} {x : F64} {s : State} {o : Host.Outcome State Fault Refusal}
    (h : exec (.pipeSampleF64 x) s = o) (hx : fOfInt imm.toInt = x) : exec (.pipeSampleI16 imm) s = o := by
  rw [exec_pipeSampleI16, hx, h]

/-! ## A 16-bit sample as a binary64 value (R242; 00_scope.md R14) -/

theorem divNearest_mul_of_dvd {n d : Nat} (hd : 0 < d) (h : d ∣ n) : divNearest n d * d = n := by
  obtain ⟨q, rfl⟩ := h
  rw [Nat.mul_comm d q, divNearest_mul q hd]

/-- A whole number of 53 bits at any binary place keeps its last bit when it is rounded. -/
theorem two_pow_roundShift_dvd {n : Nat} (hn : n < 2 ^ 53) (k : Nat) : 2 ^ roundShift (n * 2 ^ k) ∣ n * 2 ^ k := by
  refine (Nat.pow_dvd_pow 2 ?_).trans (Nat.dvd_mul_left (2 ^ k) n)
  by_contra hlarge
  have hshift := le_of_roundShift_pos (q := n * 2 ^ k) (by omega)
  have hpow : 2 ^ (k + 1) ≤ 2 ^ roundShift (n * 2 ^ k) := Nat.pow_le_pow_right (by decide) (by omega)
  have hbits : n * 2 ^ k < 2 ^ 53 * 2 ^ k := Nat.mul_lt_mul_of_pos_right hn (Nat.two_pow_pos k)
  rw [Nat.pow_succ] at hpow
  generalize 2 ^ roundShift (n * 2 ^ k) = shifted at *
  omega

theorem magUnits_roundMag_whole {n : Nat} (hn : n < 2 ^ 53) :
    magUnits (roundMag (n * unitsPerOne) 1) = n * unitsPerOne := by
  rw [magUnits_roundMag, Nat.div_one, Nat.one_mul]
  exact divNearest_mul_of_dvd (Nat.two_pow_pos _) (two_pow_roundShift_dvd hn 1074)

/-- R14: the value of an integer in range is exact. -/
theorem fInt_fOfInt {i : Int} (hi : i.natAbs < 2 ^ 32) : fInt (fOfInt i) = i * unitsPerOne := by
  have hmag : roundMag (i.natAbs * unitsPerOne) 1 < infMag := (fIsFinite_fPack _ _).1 (fIsFinite_fOfNat hi)
  have hunits : fUnits (fOfInt i) = i.natAbs * unitsPerOne := by
    rw [fUnits, fOfInt, fMag_fPack, min_eq_left hmag.le, magUnits_roundMag_whole (by omega)]
  have hsign : fSign (fOfInt i) = decide (i < 0) := fSign_fPack _ _
  rw [fInt, hunits, hsign]
  rcases lt_or_ge i 0 with hneg | hpos
  · rw [decide_eq_true hneg, if_pos rfl, Nat.cast_mul, Int.ofNat_natAbs_of_nonpos hneg.le, Int.neg_mul, Int.neg_neg]
  · rw [decide_eq_false (by omega), if_neg Bool.false_ne_true, Nat.cast_mul, Int.natAbs_of_nonneg hpos]

theorem natAbs_toInt_lt (imm : BitVec 16) : imm.toInt.natAbs < 2 ^ 32 := by
  have hlow := BitVec.le_toInt imm
  have hhigh := BitVec.toInt_lt (x := imm)
  omega

/-! ## The configured block (R245) -/

theorem forall_toneUnit {P : ToneUnit → Prop} : (∀ u, P u) ↔ P .leader ∧ P .sync ∧ P .mark ∧ P .space :=
  ⟨fun h => ⟨h _, h _, h _, h _⟩, fun ⟨_, _, _, _⟩ u => by cases u <;> assumption⟩

/-- 10_state.md R48: every unit of the block is configured. -/
structure Configured (b : Block) : Prop where
  bound : b.fir.l ≠ 0
  cfg : b.agc.cfg = true
  tuned : ∀ u, (b.res.get u).tuned = true
  loaded : ∀ u, (b.bq.get u).order ≠ 0
  ready : TickReady b.sync

/-- R245 as the rule lists it. -/
theorem configured_iff_listed {b : Block} : Configured b ↔
    0 < b.fir.l ∧ b.agc.cfg = true ∧ (∀ u, (b.res.get u).tuned = true) ∧ (∀ u, 0 < (b.bq.get u).order) ∧
      b.sync.senseSet = true ∧ 1 ≤ b.sync.tLMin.toNat ∧ 1 ≤ b.sync.tLValid.toNat ∧ 1 ≤ b.sync.tStart.toNat ∧
      1 ≤ b.sync.tBit.toNat := by
  rw [← timingOk_iff]
  simp only [Nat.pos_iff_ne_zero]
  exact ⟨fun h => ⟨h.bound, h.cfg, h.tuned, h.loaded, h.ready⟩,
    fun ⟨hbound, hcfg, htuned, hloaded, hready⟩ => ⟨hbound, hcfg, htuned, hloaded, hready⟩⟩

theorem configured_iff {b : Block} : b.configured = true ↔ Configured b := by
  rw [configured_iff_listed, forall_toneUnit, forall_toneUnit, ← timingOk_iff]
  simp only [Block.configured, Fir.bound, Biquad.loaded, Quad.get, Bool.and_eq_true, decide_eq_true_eq, and_assoc]

theorem pipeSample_of_not_configured {b : Block} (h : ¬ Configured b) (x : F64) :
    pipeSample x b = .error .notConfigured := if_pos (Bool.eq_false_iff.2 fun hc => h (configured_iff.1 hc))

theorem pipeSample_of_configured {b : Block} (h : Configured b) (x : F64) :
    pipeSample x b = requireFinite [x] (sampleStep x b) := if_neg fun hc => by rw [configured_iff.2 h] at hc; cases hc

/-! ## Checks one after another (60_exceptions.md R279) -/

theorem requireFinite_cases (xs : List F64) (r : Result) :
    requireFinite xs r = .error .nonFinite ∨ requireFinite xs r = r := by
  unfold requireFinite
  split
  · exact .inr rfl
  · exact .inl rfl

theorem requireFinite_append (xs ys : List F64) (r : Result) :
    requireFinite (xs ++ ys) r = requireFinite xs (requireFinite ys r) := by
  simp only [requireFinite, List.all_append, Bool.and_eq_true]
  split_ifs <;> simp_all

theorem requireFinite_cons (x : F64) (xs : List F64) (r : Result) :
    requireFinite (x :: xs) r = requireFinite [x] (requireFinite xs r) := requireFinite_append [x] xs r

/-- What follows a check matters only where the check passes. -/
theorem requireFinite_congr {xs : List F64} {r r' : Result} (h : (∀ x ∈ xs, fIsFinite x = true) → r = r') :
    requireFinite xs r = requireFinite xs r' := by
  unfold requireFinite
  split
  next hall => exact h (List.all_eq_true.1 hall)
  next => rfl

theorem andThen_requireFinite (xs : List F64) (r : Result) (k : Block → Word → Result) :
    (requireFinite xs r).andThen k = requireFinite xs (r.andThen k) := by
  unfold requireFinite
  split <;> rfl

theorem ok_andThen (b : Block) (w : Word) (k : Block → Word → Result) : Result.andThen (.ok (b, w)) k = k b w := rfl

/-! ## The filter (R246) -/

/-- The block after the filter took a sample. -/
def afterFir (x : F64) (b : Block) : Block :=
  (b.withFir (firAfter b.fir x)).withDiag { b.diag with tap1 := b.fir.output x }

theorem stageFir_eq {b : Block} (hbound : b.fir.l ≠ 0) (x : F64) :
    stageFir x b = requireFinite [x, b.fir.output x] (.ok (afterFir x b, b.fir.output x)) := by
  rw [stageFir, firProc, if_neg hbound, ← requireFinite_append, andThen_requireFinite]
  rfl

/-- A sum is finite only where both terms are: an infinite one gives an infinity or a NaN. -/
theorem finite_of_finite_fAdd {x y : F64} (h : fIsFinite (fAdd x y) = true) :
    fIsFinite x = true ∧ fIsFinite y = true := by
  have hinf : ∀ {v : F64}, fIsInf v = true → fIsFinite v = false := fun {v} hv => by
    simp only [fIsInf, fIsFinite, decide_eq_true_eq, decide_eq_false_iff_not] at hv ⊢
    omega
  unfold fAdd at h
  split at h
  next => exact absurd h (by decide)
  next hnan =>
    split at h
    next hx =>
      split at h
      · exact absurd h (by decide)
      · rw [hinf hx] at h
        cases h
    next hx =>
      split at h
      next hy =>
        rw [hinf hy] at h
        cases h
      next hy =>
        simp only [fIsNaN, fIsInf, decide_eq_true_eq, fIsFinite_iff] at hnan hx hy ⊢
        omega

/-- A running sum is finite only where every term is. -/
theorem finite_of_finite_sum {term : Nat → F64} (ks : List Nat) : ∀ {acc : F64},
    fIsFinite (ks.foldl (fun acc k => fAdd acc (term k)) acc) = true →
      fIsFinite acc = true ∧ ∀ k ∈ ks, fIsFinite (term k) = true := by
  induction ks with
  | nil => exact fun h => ⟨h, nofun⟩
  | cons k ks ih =>
    intro acc h
    obtain ⟨hacc, hrest⟩ := ih h
    obtain ⟨hacc, hterm⟩ := finite_of_finite_fAdd hacc
    exact ⟨hacc, List.forall_mem_cons.2 ⟨hterm, hrest⟩⟩

/-- 43_circular_fir.md R172: the sample is in the sum, so that a finite output has a finite sample. -/
theorem finite_of_finite_output {f : Fir} (hbound : f.l ≠ 0) {x : F64} (h : fIsFinite (f.output x) = true) :
    fIsFinite x = true := by
  obtain ⟨-, hterms⟩ := finite_of_finite_sum _ h
  have hnewest := (finite_of_finite_fMul (hterms 0 (List.mem_range.2 (Nat.pos_of_ne_zero hbound)))).2
  rwa [record_read, if_pos (.inr rfl)] at hnewest

/-! ## The level (R246, R193) -/

/-- R187: the AGC after it tracked a sample. -/
def trackedAgc (x : F64) (a : Agc) : Agc :=
  { a with currentPeak := fMax a.currentPeak (fAbs x), sampleCounter := sat32Inc a.sampleCounter }

/-- R188: the AGC after it closed a window. -/
def closedAgc (a : Agc) : Agc :=
  { a with gain := a.nextGain, peakHistory := a.currentPeak, currentPeak := 0#64, sampleCounter := 0#32 }

/-- R193: the AGC when a sample is scaled, its window closed when it was due. -/
def levelledAgc (x : F64) (a : Agc) : Agc :=
  if (trackedAgc x a).windowSamples ≤ (trackedAgc x a).sampleCounter then closedAgc (trackedAgc x a) else trackedAgc x a

/-- The sample after the AGC. -/
def levelOut (x : F64) (a : Agc) : F64 := fMul x (levelledAgc x a).gain

/-- The block after the AGC took a sample. -/
def afterAgc (x : F64) (b : Block) : Block :=
  (b.withAgc (levelledAgc x b.agc)).withDiag { b.diag with tap2 := levelOut x b.agc }

theorem levelledAgc_cfg (x : F64) (a : Agc) : (levelledAgc x a).cfg = a.cfg := by
  unfold levelledAgc
  split <;> rfl

/-- R193: the middle step is executed, due or not. -/
theorem window_of_tracked {b : Block} (hcfg : b.agc.cfg = true) (x : F64) : ∃ w,
    (if (trackedAgc x b.agc).windowSamples ≤ (trackedAgc x b.agc).sampleCounter
      then agcUpdate (b.withAgc (trackedAgc x b.agc)) else .ok (b.withAgc (trackedAgc x b.agc), 0#64)) =
    .ok (b.withAgc (levelledAgc x b.agc), w) := by
  refine ⟨0#64, ?_⟩
  unfold levelledAgc
  split
  · exact agcUpdate_ok.2 ⟨hcfg, rfl⟩
  · rfl

theorem stageAgc_eq {b : Block} {x : F64} (hcfg : b.agc.cfg = true) (hx : fIsFinite x = true) :
    stageAgc x b = requireFinite [levelOut x b.agc] (.ok (afterAgc x b, levelOut x b.agc)) := by
  obtain ⟨w, hwindow⟩ := window_of_tracked hcfg x
  have htrack : agcTrack x b = .ok (b.withAgc (trackedAgc x b.agc), 0#64) := agcTrack_ok.2 ⟨hcfg, hx, rfl⟩
  have happly : agcApply x (b.withAgc (levelledAgc x b.agc)) =
      requireFinite [levelOut x b.agc] (.ok (b.withAgc (levelledAgc x b.agc), levelOut x b.agc)) := by
    rw [agcApply, Block.withAgc_agc, levelledAgc_cfg, hcfg, if_neg (by decide),
      requireFinite_of_finite _ (by simpa using hx)]
    rfl
  rw [stageAgc, htrack, ok_andThen, Block.withAgc_agc, hwindow, ok_andThen, happly, andThen_requireFinite]
  rfl

/-! ## One tone (R246, R161) -/

section
variable (u : ToneUnit) (x : F64) (b : Block)

/-- R143: the output of a resonator. -/
def toneOut : F64 := fFlush ((b.res.get u).raw x)

/-- R161: the envelope of a tone. -/
def envelopeOf : F64 := cascadeOut (b.bq.get u) (fAbs (toneOut u x b))

/-- What is checked of one pair: the tone, the envelope, the new cells of the cascade. -/
def toneValues : List F64 :=
  toneOut u x b :: ((b.bq.get u).run (fAbs (toneOut u x b))).2 ::
    ((b.bq.get u).run (fAbs (toneOut u x b))).1.cells (b.bq.get u).stateCells

/-- The resonator after a sample. -/
def resAfter : Resonator := { b.res.get u with z1 := toneOut u x b, z2 := (b.res.get u).z1 }

/-- The cascade after a sample. -/
def bqAfter : Biquad := { b.bq.get u with z := ((b.bq.get u).run (fAbs (toneOut u x b))).1 }

/-- The block after one pair took a sample. -/
def afterTone : Block :=
  ((b.withRes u (resAfter u x b)).withBq u (bqAfter u x b)).withDiag
    { b.diag with env := b.diag.env.set u (envelopeOf u x b) }

end

theorem forall_toneValues {u : ToneUnit} {x : F64} {b : Block} : (∀ v ∈ toneValues u x b, fIsFinite v = true) ↔
    fIsFinite (toneOut u x b) = true ∧ CascadeFinite (b.bq.get u) (fAbs (toneOut u x b)) := by
  rw [toneValues, List.forall_mem_cons, run_finite_iff]

theorem stageTone_eq {u : ToneUnit} {b : Block} {x : F64} (htuned : (b.res.get u).tuned = true)
    (hloaded : (b.bq.get u).order ≠ 0) (hx : fIsFinite x = true) :
    stageTone u x b = requireFinite (toneValues u x b) (.ok (afterTone u x b, envelopeOf u x b)) := by
  have hres : resStep u x b = requireFinite [toneOut u x b] (.ok (b.withRes u (resAfter u x b), toneOut u x b)) := by
    rw [resStep, if_neg (by rw [htuned]; decide), requireFinite_of_finite _ (by simpa using hx)]
    rfl
  rw [stageTone, hres, andThen_requireFinite, ok_andThen, toneValues, requireFinite_cons _ (_ :: _)]
  refine requireFinite_congr fun hy => ?_
  rw [bqStep, Block.withRes_bq, if_neg hloaded, requireFinite_of_finite _ (by simpa using hy), andThen_requireFinite,
    ok_andThen, run_snd]
  rfl

/-- R246: none of the pairs reads another's state, and none but its own is written. -/
def SameTone (v : ToneUnit) (b b' : Block) : Prop := b'.res.get v = b.res.get v ∧ b'.bq.get v = b.bq.get v

theorem SameTone.trans {v : ToneUnit} {b b' b'' : Block} (h : SameTone v b b') (h' : SameTone v b' b'') :
    SameTone v b b'' := ⟨h'.1.trans h.1, h'.2.trans h.2⟩

theorem sameTone_afterTone {u v : ToneUnit} (h : v ≠ u) (x : F64) (b : Block) : SameTone v b (afterTone u x b) :=
  ⟨Quad.get_set_ne b.res u _ h, Quad.get_set_ne b.bq u _ h⟩

section
variable {u : ToneUnit} {x : F64} {b b' : Block} (h : SameTone u b b')
include h

theorem SameTone.toneOut_eq : toneOut u x b' = toneOut u x b := by rw [toneOut, toneOut, h.1]

theorem SameTone.envelopeOf_eq : envelopeOf u x b' = envelopeOf u x b := by
  rw [envelopeOf, envelopeOf, h.toneOut_eq, h.2]

theorem SameTone.toneValues_eq : toneValues u x b' = toneValues u x b := by
  rw [toneValues, toneValues, h.toneOut_eq, h.2]

theorem SameTone.resAfter_eq : resAfter u x b' = resAfter u x b := by
  rw [resAfter, resAfter, h.toneOut_eq, h.1]

/-- A pair of a configured block whose turn comes after other pairs. -/
theorem SameTone.stageTone_eq (hb : Configured b) (hx : fIsFinite x = true) : stageTone u x b' =
    requireFinite (toneValues u x b) (.ok (afterTone u x b', envelopeOf u x b)) := by
  rw [Proofs.stageTone_eq (h.1 ▸ hb.tuned u) (h.2 ▸ hb.loaded u) hx, h.toneValues_eq, h.envelopeOf_eq]

end

/-! ## The four tones and the tick (R246) -/

/-- R246: each pair finds its units as they were before the pairs took their turns. -/
theorem tones_apart (x : F64) (b : Block) : SameTone .sync b (afterTone .leader x b) ∧
    SameTone .mark b (afterTone .sync x (afterTone .leader x b)) ∧
    SameTone .space b (afterTone .mark x (afterTone .sync x (afterTone .leader x b))) :=
  ⟨sameTone_afterTone (by decide) x b,
    (sameTone_afterTone (by decide) x b).trans (sameTone_afterTone (by decide) x _),
    ((sameTone_afterTone (by decide) x b).trans (sameTone_afterTone (by decide) x _)).trans
      (sameTone_afterTone (by decide) x _)⟩

section
variable (x : F64) (b : Block)

/-- The block after the four pairs took a sample. -/
def afterTones : Block := afterTone .space x (afterTone .mark x (afterTone .sync x (afterTone .leader x b)))

/-- The decoder after the tick on the envelopes of a sample. -/
def syncAfter : Sync :=
  tick (envelopeOf .leader x b) (envelopeOf .sync x b) (envelopeOf .mark x b) (envelopeOf .space x b) b.sync

/-- The block after the tick. -/
def afterTick : Block := (afterTones x b).withSync (syncAfter x b)

/-- What is checked of the four pairs. -/
def tonesValues : List F64 :=
  toneValues .leader x b ++ (toneValues .sync x b ++ (toneValues .mark x b ++ toneValues .space x b))

theorem afterTones_sync : (afterTones x b).sync = b.sync := by simp [afterTones, afterTone]

end

theorem finite_envelopeOf {u : ToneUnit} {x : F64} {b : Block} (h : ∀ v ∈ toneValues u x b, fIsFinite v = true) :
    fIsFinite (envelopeOf u x b) = true := (forall_toneValues.1 h).2.1

theorem syncTick_of_finite {le sy ma sp : F64} {b : Block} (hready : TickReady b.sync)
    (hfin : fIsFinite le = true ∧ fIsFinite sy = true ∧ fIsFinite ma = true ∧ fIsFinite sp = true) :
    syncTick le sy ma sp b = .ok (b.withSync (tick le sy ma sp b.sync),
      statusWord b.sync.tag (b.withSync (tick le sy ma sp b.sync))) := syncTick_ok.2 ⟨hready.1, hready.2, hfin, rfl⟩

theorem stageTones_eq {b : Block} {x : F64} (hb : Configured b) (hx : fIsFinite x = true) : stageTones x b =
    requireFinite (tonesValues x b) (.ok (afterTick x b, statusWord b.sync.tag (afterTick x b))) := by
  obtain ⟨hsync, hmark, hspace⟩ := tones_apart x b
  rw [stageTones, stageTone_eq (hb.tuned _) (hb.loaded _) hx, andThen_requireFinite, ok_andThen, tonesValues,
    requireFinite_append]
  refine requireFinite_congr fun hle => ?_
  rw [hsync.stageTone_eq hb hx, andThen_requireFinite, ok_andThen, requireFinite_append]
  refine requireFinite_congr fun hsy => ?_
  rw [hmark.stageTone_eq hb hx, andThen_requireFinite, ok_andThen, requireFinite_append]
  refine requireFinite_congr fun hma => ?_
  rw [hspace.stageTone_eq hb hx, andThen_requireFinite, ok_andThen]
  refine requireFinite_congr fun hsp => ?_
  have hready : TickReady (afterTones x b).sync := (afterTones_sync x b).symm ▸ hb.ready
  rw [← afterTones, syncTick_of_finite hready ⟨finite_envelopeOf hle, finite_envelopeOf hsy, finite_envelopeOf hma,
    finite_envelopeOf hsp⟩, afterTones_sync, ← syncAfter, ← afterTick]

/-! ## The sample step (R246) -/

section
variable (x0 : F64) (b : Block)

/-- R244: the sample after the clip. -/
def clipped : F64 := clip b.clipLevel x0

/-- The sample after the filter. -/
def firOut : F64 := b.fir.output (clipped x0 b)

/-- The sample after the AGC. -/
def agcOut : F64 := levelOut (firOut x0 b) b.agc

/-- The block when the tones take their turns. -/
def beforeTones : Block := afterAgc (firOut x0 b) (afterFir (clipped x0 b) (stageClip x0 b))

/-- The block after a sample. -/
def sampled : Block := afterTick (agcOut x0 b) (beforeTones x0 b)

/-- What is checked of a sample, stage by stage. -/
def sampleValues : List F64 := [clipped x0 b, firOut x0 b] ++ ([agcOut x0 b] ++ tonesValues (agcOut x0 b) b)

/-! The tones and the decoder are not written before their turns. -/

theorem beforeTones_res : (beforeTones x0 b).res = b.res := by simp [beforeTones, afterAgc, afterFir, stageClip]

theorem beforeTones_bq : (beforeTones x0 b).bq = b.bq := by simp [beforeTones, afterAgc, afterFir, stageClip]

theorem beforeTones_sync : (beforeTones x0 b).sync = b.sync := by simp [beforeTones, afterAgc, afterFir, stageClip]

theorem beforeTones_fir : (beforeTones x0 b).fir = firAfter b.fir (clipped x0 b) := by
  simp [beforeTones, afterAgc, afterFir, stageClip]

theorem beforeTones_agc : (beforeTones x0 b).agc = levelledAgc (firOut x0 b) b.agc := by
  simp [beforeTones, afterAgc, afterFir, stageClip]

theorem beforeTones_diag :
    (beforeTones x0 b).diag = ⟨clipped x0 b, firOut x0 b, agcOut x0 b, b.diag.env⟩ := by
  simp [beforeTones, afterAgc, afterFir, stageClip, clipped, firOut, agcOut]

theorem sameTone_beforeTones (u : ToneUnit) : SameTone u b (beforeTones x0 b) :=
  ⟨congrArg (Quad.get · u) (beforeTones_res x0 b), congrArg (Quad.get · u) (beforeTones_bq x0 b)⟩

theorem tonesValues_beforeTones (x : F64) : tonesValues x (beforeTones x0 b) = tonesValues x b := by
  simp only [tonesValues, (sameTone_beforeTones x0 b _).toneValues_eq]

end

/-- 10_state.md R48: the stages before the tones configure and unconfigure nothing. -/
theorem configured_beforeTones {b : Block} (hb : Configured b) (x0 : F64) : Configured (beforeTones x0 b) where
  bound := by
    rw [beforeTones_fir, firAfter_l]
    exact hb.bound
  cfg := by rw [beforeTones_agc, levelledAgc_cfg, hb.cfg]
  tuned := by
    rw [beforeTones_res]
    exact hb.tuned
  loaded := by
    rw [beforeTones_bq]
    exact hb.loaded
  ready := by
    rw [beforeTones_sync]
    exact hb.ready

theorem sampleStep_eq {b : Block} (hb : Configured b) (x0 : F64) : sampleStep x0 b =
    requireFinite (sampleValues x0 b) (.ok (sampled x0 b, statusWord b.sync.tag (sampled x0 b))) := by
  have hfir : stageFir (clipped x0 b) (stageClip x0 b) = requireFinite [clipped x0 b, firOut x0 b]
      (.ok (afterFir (clipped x0 b) (stageClip x0 b), firOut x0 b)) := stageFir_eq (b := stageClip x0 b) hb.bound _
  rw [sampleStep, ← clipped, hfir, andThen_requireFinite, ok_andThen, sampleValues, requireFinite_append]
  refine requireFinite_congr fun hfir => ?_
  have hagc : stageAgc (firOut x0 b) (afterFir (clipped x0 b) (stageClip x0 b)) = requireFinite [agcOut x0 b]
      (.ok (beforeTones x0 b, agcOut x0 b)) :=
    stageAgc_eq (b := afterFir (clipped x0 b) (stageClip x0 b)) hb.cfg (hfir _ (by simp))
  rw [hagc, andThen_requireFinite, ok_andThen, requireFinite_append]
  refine requireFinite_congr fun hagc => ?_
  rw [stageTones_eq (configured_beforeTones hb x0) (hagc _ (List.mem_singleton_self _)), tonesValues_beforeTones,
    beforeTones_sync, ← sampled]

/-- R242, R243, R245: a sample command of a configured block is one check of its values. -/
theorem pipeSample_eq {b : Block} (hb : Configured b) {x0 : F64} (hx : fIsFinite x0 = true) : pipeSample x0 b =
    requireFinite (sampleValues x0 b) (.ok (sampled x0 b, statusWord b.sync.tag (sampled x0 b))) := by
  rw [pipeSample_of_configured hb, requireFinite_of_finite _ (by simpa using hx), sampleStep_eq hb]

/-- Settles O52: the configuration is looked at first, then the sample; the rest is one check. -/
theorem pipeSampleRefusals : Obligations.PipeSampleRefusals := by
  unfold Obligations.PipeSampleRefusals
  refine ⟨decode_pipeSampleI16, decode_pipeSampleF64,
    fun imm s => ⟨exec_pipeSampleI16 imm s, fInt_fOfInt (natAbs_toInt_lt imm)⟩, fun x s => ?_⟩
  intro b configured
  have hconf : configured ↔ Configured b := configured_iff_listed.symm
  rw [hconf]
  refine ⟨fun hnot => exec_of_fault (pipeSample_of_not_configured hnot x), fun hb hx => exec_of_fault ?_, fun hb hx => ?_⟩
  · exact (pipeSample_of_configured hb x).trans (requireFinite_of_not _ (List.mem_singleton_self x) hx)
  · have heq : effect (.pipeSampleF64 x) b = _ := pipeSample_eq hb hx
    rcases requireFinite_cases (sampleValues x b) (.ok (sampled x b, statusWord b.sync.tag (sampled x b))) with h | h
    · exact .inl (exec_of_fault (heq.trans h))
    · exact .inr ⟨_, _, exec_of_ok (heq.trans h)⟩

/-! ## The values of a sample step -/

theorem forall_tonesValues {x : F64} {b : Block} : (∀ v ∈ tonesValues x b, fIsFinite v = true) ↔
    ∀ u, fIsFinite (toneOut u x b) = true ∧ CascadeFinite (b.bq.get u) (fAbs (toneOut u x b)) := by
  simp only [tonesValues, List.forall_mem_append, forall_toneValues, forall_toneUnit]

/-- The sample after the clip needs no check of its own: the filter's output shows it. -/
theorem forall_sampleValues {b : Block} (hbound : b.fir.l ≠ 0) (x0 : F64) :
    (∀ v ∈ sampleValues x0 b, fIsFinite v = true) ↔ fIsFinite (firOut x0 b) = true ∧
      fIsFinite (agcOut x0 b) = true ∧ ∀ u,
        fIsFinite (toneOut u (agcOut x0 b) b) = true ∧
          CascadeFinite (b.bq.get u) (fAbs (toneOut u (agcOut x0 b) b)) := by
  rw [sampleValues, List.forall_mem_append, List.forall_mem_append, finite_pair_iff, List.forall_mem_singleton,
    forall_tonesValues]
  exact and_congr_left fun _ => and_iff_right_of_imp fun h => finite_of_finite_output hbound h

/-- 44_level_agc.md R187, R188, R193: the gain that scales a sample. -/
theorem levelledAgc_gain (x : F64) (a : Agc) : (levelledAgc x a).gain =
    if a.windowSamples.toNat ≤ min (a.sampleCounter.toNat + 1) (2 ^ 32 - 1) then (trackedAgc x a).nextGain
    else a.gain := by
  rw [← toNat_sat32Inc, levelledAgc, apply_ite Agc.gain]
  rfl

section
variable (x : F64) (b : Block)

/-! The tones write nothing of the filter and the AGC. -/

theorem afterTones_fir : (afterTones x b).fir = b.fir := by simp [afterTones, afterTone]

theorem afterTones_agc : (afterTones x b).agc = b.agc := by simp [afterTones, afterTone]

theorem afterTones_res (u : ToneUnit) : (afterTones x b).res.get u = resAfter u x b := by
  obtain ⟨hsync, hmark, hspace⟩ := tones_apart x b
  cases u
  case leader => rfl
  case sync => exact hsync.resAfter_eq
  case mark => exact hmark.resAfter_eq
  case space => exact hspace.resAfter_eq

theorem afterTones_diag : (afterTones x b).diag = { b.diag with
    env := ⟨envelopeOf .leader x b, envelopeOf .sync x b, envelopeOf .mark x b, envelopeOf .space x b⟩ } := by
  obtain ⟨hsync, hmark, hspace⟩ := tones_apart x b
  rw [← hsync.envelopeOf_eq, ← hmark.envelopeOf_eq, ← hspace.envelopeOf_eq]
  rfl

end

section
variable (x0 : F64) (b : Block)

theorem sampled_fir : (sampled x0 b).fir = firAfter b.fir (clipped x0 b) := by
  rw [sampled, afterTick, Block.withSync_fir, afterTones_fir, beforeTones_fir]

theorem sampled_agc : (sampled x0 b).agc = levelledAgc (firOut x0 b) b.agc := by
  rw [sampled, afterTick, Block.withSync_agc, afterTones_agc, beforeTones_agc]

theorem sampled_res (u : ToneUnit) : (sampled x0 b).res.get u = resAfter u (agcOut x0 b) b := by
  rw [sampled, afterTick, Block.withSync_res, afterTones_res, (sameTone_beforeTones x0 b u).resAfter_eq]

/-- R248: the seven diagnostic registers hold the values of the sample. -/
theorem sampled_diag : (sampled x0 b).diag = ⟨clipped x0 b, firOut x0 b, agcOut x0 b,
    ⟨envelopeOf .leader (agcOut x0 b) b, envelopeOf .sync (agcOut x0 b) b, envelopeOf .mark (agcOut x0 b) b,
      envelopeOf .space (agcOut x0 b) b⟩⟩ := by
  rw [sampled, afterTick, Block.withSync_diag, afterTones_diag, beforeTones_diag]
  simp only [(sameTone_beforeTones x0 b _).envelopeOf_eq]

end

/-- Settles O54: the formulas are the values that are checked, and the block past the check shows them. -/
theorem pipeSampleCompletes : Obligations.PipeSampleCompletes := by
  unfold Obligations.PipeSampleCompletes
  intro x0 s b f a level x1 ring' x2 peak closes gain x3 y e finite hlisted hx0
  have hb : Configured b := configured_iff_listed.2 hlisted
  have hx2 : x2 = firOut x0 b := (output_eq f x1).symm
  have hgain : gain = (levelledAgc x2 a).gain := (levelledAgc_gain x2 a).symm
  have hx3 : x3 = agcOut x0 b := by rw [agcOut, levelOut, ← hx2, ← hgain]
  have hy : ∀ u, y u = toneOut u (agcOut x0 b) b := fun u => hx3 ▸ rfl
  have he : ∀ u, e u = envelopeOf u (agcOut x0 b) b := fun u => by rw [envelopeOf, ← hy]
  have hfinite : finite ↔ ∀ v ∈ sampleValues x0 b, fIsFinite v = true := by
    rw [forall_sampleValues hb.bound, ← hx2, ← hx3, forall_and]
    rfl
  have heq : effect (.pipeSampleF64 x0) b = _ := pipeSample_eq hb hx0
  constructor
  · intro hfin
    rw [requireFinite_of_finite _ (hfinite.1 hfin)] at heq
    refine ⟨_, exec_of_ok heq, rfl, rfl, ?_, ?_, fun j => ?_, ?_, fun u => ?_,
      fun imm himm => exec_pipeSampleI16_of_eq (exec_of_ok heq) himm⟩ <;> rw [State.answer_block]
    · rw [sampled_diag, hx2, hx3, he, he, he, he]
      rfl
    · rw [sampled_agc, ← hx2, ← hgain]
    · rw [sampled_fir, firAfter_ring, record_read]
      rfl
    · rw [sampled_fir, firAfter_w]
    · rw [sampled_res, hy]
      exact ⟨rfl, rfl⟩
  · intro hnot
    rw [requireFinite_of_not_all _ fun hall => hnot (hfinite.2 hall)] at heq
    exact ⟨exec_of_fault heq, fun imm himm => exec_pipeSampleI16_of_eq (exec_of_fault heq) himm⟩

end Sys2Proof.Proofs
end

section
/-!
PROOF. The sample step is the stand-alone commands one after another (46_pipeline_and_host.md R246, 44_level_agc.md R193). No
command reads the overflow flag or the diagnostic registers, so that each does on the block of the sample step what it
does on the host's: the two blocks differ in these alone, stage after stage.
-/

namespace Sys2Proof.Proofs

-- One theorem is elaborated at a time, as in the tests: each further thread takes its own share of the memory limit.
set_option Elab.async false

open Sys2Proof Sys2Proof.Machine Sys2Proof.Safety

/-! ## The registers no command reads -/

/-- The block with another overflow flag and other diagnostic registers (10_state.md R37, R38). -/
def monitored (o : Bool) (d : Diag) (b : Block) : Block := (b.withOvf o).withDiag d

section
variable {o : Bool} {d : Diag} {b b' : Block} {x : F64} {w : Word} {u : ToneUnit}

theorem firProc_monitored (h : firProc x b = .ok (b', w)) :
    firProc x (monitored o d b) = .ok (monitored o d b', w) := by
  obtain ⟨hbound, hx, hout, ⟨⟩⟩ := firProc_ok.1 h
  exact firProc_ok.2 ⟨hbound, hx, hout, rfl⟩

theorem agcTrack_monitored (h : agcTrack x b = .ok (b', w)) :
    agcTrack x (monitored o d b) = .ok (monitored o d b', w) := by
  obtain ⟨hcfg, hx, ⟨⟩⟩ := agcTrack_ok.1 h
  exact agcTrack_ok.2 ⟨hcfg, hx, rfl⟩

theorem agcUpdate_monitored (h : agcUpdate b = .ok (b', w)) :
    agcUpdate (monitored o d b) = .ok (monitored o d b', w) := by
  obtain ⟨hcfg, ⟨⟩⟩ := agcUpdate_ok.1 h
  exact agcUpdate_ok.2 ⟨hcfg, rfl⟩

theorem agcApply_monitored (h : agcApply x b = .ok (b', w)) :
    agcApply x (monitored o d b) = .ok (monitored o d b', w) := by
  obtain ⟨hcfg, hx, hproduct, ⟨⟩⟩ := agcApply_ok.1 h
  exact agcApply_ok.2 ⟨hcfg, hx, hproduct, rfl⟩

theorem resStep_monitored (h : resStep u x b = .ok (b', w)) :
    resStep u x (monitored o d b) = .ok (monitored o d b', w) := by
  obtain ⟨htuned, hx, hy, ⟨⟩⟩ := resStep_ok.1 h
  exact resStep_ok.2 ⟨htuned, hx, hy, rfl⟩

theorem bqStep_monitored (h : bqStep u x b = .ok (b', w)) :
    bqStep u x (monitored o d b) = .ok (monitored o d b', w) := by
  obtain ⟨hloaded, hx, hy, hz, ⟨⟩⟩ := bqStep_ok.1 h
  exact bqStep_ok.2 ⟨hloaded, hx, hy, hz, rfl⟩

/-- A tick on given envelopes reads no argument register either; its answer shows the overflow flag. -/
theorem syncTick_monitored {le sy ma sp : F64} {args : Vector Word 8}
    (h : syncTick le sy ma sp { b with arg := args } = .ok (b', w)) :
    ∃ w', syncTick le sy ma sp (monitored o d b) = .ok (monitored o d { b' with arg := b.arg }, w') := by
  obtain ⟨hsense, htiming, hfin, ⟨⟩⟩ := syncTick_ok.1 h
  exact ⟨_, syncTick_ok.2 ⟨hsense, htiming, hfin, rfl⟩⟩

end

/-! ## The stages, each from its commands -/

section
variable {o : Bool} {d : Diag} {x : F64}

theorem stageFir_monitored {b b' : Block} {w : Word} (h : firProc x b = .ok (b', w)) :
    stageFir x (monitored o d b) = .ok (monitored o { d with tap1 := w } b', w) :=
  stageFir_ok.2 ⟨_, _, firProc_monitored h, rfl⟩

/-- R193: the window is closed when it is due. -/
def WindowRan (b b' : Block) : Prop :=
  if b.agc.windowSamples ≤ b.agc.sampleCounter then ∃ w, agcUpdate b = .ok (b', w) else b' = b

theorem stageAgc_monitored {b b1 b2 b3 : Block} {w y : Word} (htrack : agcTrack x b = .ok (b1, w))
    (hwindow : WindowRan b1 b2) (happly : agcApply x b2 = .ok (b3, y)) :
    stageAgc x (monitored o d b) = .ok (monitored o { d with tap2 := y } b3, y) := by
  have hmiddle : ∃ w', (if (monitored o d b1).agc.windowSamples ≤ (monitored o d b1).agc.sampleCounter
      then agcUpdate (monitored o d b1) else .ok (monitored o d b1, 0#64)) = .ok (monitored o d b2, w') := by
    unfold WindowRan at hwindow
    split at hwindow
    next hdue =>
      obtain ⟨w', hupdate⟩ := hwindow
      exact ⟨w', (if_pos hdue).trans (agcUpdate_monitored hupdate)⟩
    next hnot => exact ⟨0#64, (if_neg hnot).trans (by rw [hwindow])⟩
  obtain ⟨w', hmiddle⟩ := hmiddle
  exact stageAgc_ok.2 ⟨_, _, _, _, _, _, agcTrack_monitored htrack, hmiddle, agcApply_monitored happly, rfl⟩

/-- R161: a pair on one block and the next. -/
structure PairRan (u : ToneUnit) (x : F64) (b b1 b2 : Block) (r e : F64) : Prop where
  res : resStep u x b = .ok (b1, r)
  bq : bqStep u (fAbs r) b1 = .ok (b2, e)

theorem PairRan.stageTone_monitored {u : ToneUnit} {b b1 b2 : Block} {r e : F64} (h : PairRan u x b b1 b2 r e) :
    stageTone u x (monitored o d b) = .ok (monitored o { d with env := d.env.set u e } b2, e) :=
  stageTone_ok.2 ⟨_, _, _, _, resStep_monitored h.res, bqStep_monitored h.bq, rfl⟩

theorem PairRan.keeps {u : ToneUnit} {b b1 b2 : Block} {r e : F64} (h : PairRan u x b b1 b2 r e) : StageKeeps b b2 :=
  (resStep_keeps h.res).trans (bqStep_keeps h.bq)

theorem WindowRan.keeps {b b' : Block} (h : WindowRan b b') : StageKeeps b b' := by
  unfold WindowRan at h
  split at h
  · obtain ⟨w, hupdate⟩ := h
    exact agcUpdate_keeps hupdate
  · exact h ▸ StageKeeps.refl b

end

/-! ## The whole step -/

/-- An executed command, as the statement says it, is an effect on the block. -/
theorem effect_of_executed {i : Instr} {s t : State} (h : exec i s = .next t ∧ t.status = 0#8) :
    effect i s.block = .ok (t.block, t.rdata) := by
  obtain ⟨hexec, h0⟩ := h
  rw [exec_eq_complete] at hexec
  rcases State.complete_eq_next hexec with ⟨b, w, hok, rfl⟩ | ⟨f, -, rfl⟩
  · exact hok
  · exact absurd h0 (statusCode_ne_zero f)

theorem pairRan_of_executed {u : ToneUnit} {x : F64} {s t t' : State}
    (h : (exec (.resProc (unitCode u) x) s = .next t ∧ t.status = 0#8) ∧
      exec (.bqProc (unitCode u) (fAbs t.rdata)) t = .next t' ∧ t'.status = 0#8) :
    PairRan u x s.block t.block t'.block t.rdata t'.rdata where
  res := (withUnit_unitCode u _).symm.trans (effect_of_executed h.1)
  bq := (withUnit_unitCode u _).symm.trans (effect_of_executed h.2)

theorem clips_eq_decide (level x : F64) :
    clips level x = decide (fLt level x = true ∨ fLt x (fNeg level) = true) := by
  rw [Bool.eq_iff_iff, clips_iff, decide_eq_true_iff]

theorem syncStep_of_args (args : Vector Word 8) (le sy ma sp : F64) (b : Block) :
    syncStep { b with arg := (((args.set 0 le).set 1 sy).set 2 ma).set 3 sp } =
      syncTick le sy ma sp { b with arg := (((args.set 0 le).set 1 sy).set 2 ma).set 3 sp } := by
  simp [syncStep, Block.argReg]

/-- R245: the commands that found their units configured show that the sample command does. -/
theorem configured_of_ran {b b1 b2 : Block} {x x' : F64} {w w' : Word} {y : Sync}
    (htuned : ∀ u, (b.res.get u).tuned = true) (hloaded : ∀ u, 0 < (b.bq.get u).order)
    (hfir : firProc x b = .ok (b1, w)) (htrack : agcTrack x' b1 = .ok (b2, w')) (hsame : SameButDynamic b.sync y)
    (hready : TickReady y) : Configured b where
  bound := (firProc_ok.1 hfir).1
  cfg := by
    have hcfg : b1.agc.cfg = b.agc.cfg := (congrArg Agc.cfg (firProc_keeps hfir).agc :)
    exact hcfg.symm.trans (agcTrack_ok.1 htrack).1
  tuned := htuned
  loaded u := (hloaded u).ne'
  ready := by
    rw [show y = _ from hsame] at hready
    exact hready

/-- Settles O53: each stage is its commands on the monitored block. -/
theorem pipeSampleRunsTheStages : Obligations.PipeSampleRunsTheStages := by
  unfold Obligations.PipeSampleRunsTheStages
  intro x0 s s1 s2 s3 s4 t r e b level high low x1 ran pair hx0 htuned hloaded hfir htrack hwindow happly hle hsy hma
    hsp htick
  have hfir := effect_of_executed hfir
  have htrack := effect_of_executed htrack
  have happly := effect_of_executed happly
  have hle := pairRan_of_executed hle
  have hsy := pairRan_of_executed hsy
  have hma := pairRan_of_executed hma
  have hsp := pairRan_of_executed hsp
  have htick := (syncStep_of_args ..).symm.trans (effect_of_executed htick)
  have hwindow : WindowRan s2.block s3.block := by
    unfold WindowRan
    split at hwindow
    next hdue => exact (if_pos (BitVec.le_def.2 hdue)).mpr ⟨_, effect_of_executed hwindow⟩
    next hnot => exact (if_neg (mt BitVec.le_def.1 hnot)).mpr (congrArg State.block hwindow)
  have hkeeps : StageKeeps b (e .space).block :=
    (((((((firProc_keeps hfir).trans (agcTrack_keeps htrack)).trans hwindow.keeps).trans (agcApply_keeps happly)).trans
      hle.keeps).trans hsy.keeps).trans hma.keeps).trans hsp.keeps
  obtain ⟨hsense, htiming, -⟩ := syncTick_ok.1 htick
  have hb : Configured b := configured_of_ran htuned hloaded hfir htrack hkeeps.sync ⟨hsense, htiming⟩
  obtain ⟨w, htones⟩ := syncTick_monitored (o := b.ovf || clips level x0) (d := ⟨x1, s1.rdata, s4.rdata,
    ⟨(e .leader).rdata, (e .sync).rdata, (e .mark).rdata, (e .space).rdata⟩⟩) htick
  have hsample : pipeSample x0 b = .ok (_, w) := pipeSample_ok.2 ⟨configured_iff.2 hb, hx0, _, _, _, _,
    stageFir_monitored (o := b.ovf || clips level x0) (d := { b.diag with tap0 := x1 }) hfir,
    stageAgc_monitored htrack hwindow happly,
    stageTones_ok.2 ⟨_, _, _, _, _, _, _, _, hle.stageTone_monitored, hsy.stageTone_monitored,
      hma.stageTone_monitored, hsp.stageTone_monitored, htones⟩⟩
  refine ⟨w, ?_⟩
  intro after
  have hexec : exec (.pipeSampleF64 x0) s = .next after := by
    rw [exec_of_ok (i := .pipeSampleF64 x0) hsample, hkeeps.arg, clips_eq_decide]
    rfl
  exact ⟨hexec, fun imm himm => exec_pipeSampleI16_of_eq hexec himm⟩

end Sys2Proof.Proofs
end

section
/-!
PROOF. The end of a transaction (60_exceptions.md R266, R270): a command is answered or takes one fault, and nothing else
happens to the state; so no run stops (R278).
-/

namespace Sys2Proof.Proofs

-- One theorem is elaborated at a time, as in the tests: each further thread takes its own share of the memory limit.
set_option Elab.async false

open Sys2Proof Sys2Proof.Machine Sys2Proof.Safety

/-- 60_exceptions.md R265: the fault codes are 1 to 10. -/
theorem statusCode_range (f : FaultCode) : 1 ≤ (statusCode f).toNat ∧ (statusCode f).toNat ≤ 10 := by
  cases f <;> decide

/-- R266: the transaction is over, with `STATUS` 0, or with a fault code, `RDATA` 0 and nothing else changed. -/
def Answered (s s' : State) : Prop :=
  s'.pending = s.pending.tail ∧ (s'.status = 0#8 ∨ (1 ≤ s'.status.toNat ∧ s'.status.toNat ≤ 10 ∧
    s' = { s with pending := s.pending.tail, status := s'.status, rdata := 0#64 }))

theorem answered_answer (s : State) (b : Block) (w : Word) : Answered s (s.answer b w) := ⟨rfl, .inl rfl⟩

theorem answered_takeFault (s : State) (f : FaultCode) : Answered s (s.takeFault f) := by
  obtain ⟨hone, hten⟩ := statusCode_range f
  exact ⟨rfl, .inr ⟨hone, hten, rfl⟩⟩

theorem exec_answered (i : Instr) (s : State) : ∃ s', exec i s = .next s' ∧ Answered s s' := by
  rw [exec_eq_complete]
  obtain ⟨s', hs'⟩ := s.complete_next (effect i s.block)
  refine ⟨s', hs', ?_⟩
  rcases State.complete_eq_next hs' with ⟨b, w, -, rfl⟩ | ⟨f, -, rfl⟩
  · exact answered_answer s b w
  · exact answered_takeFault s f

/-- 30_encoding.md R86: a word that decodes to no command is answered with the decoder's fault. -/
theorem step_answered {s : State} {t : Transaction} {rest : List Transaction} (hp : s.pending = t :: rest) :
    ∃ s', step s = .next s' ∧ Answered s s' := by
  cases hdec : decode t with
  | ok i => rw [step_of_decode_ok hp hdec]; exact exec_answered i s
  | error f => exact ⟨_, step_of_decode_error hp hdec, answered_takeFault s f⟩

/-- Settles O2: both ends of a command are answers, and the two records are the ends' definitions. -/
theorem everyTransactionIsAnsweredOnce : Obligations.EveryTransactionIsAnsweredOnce := by
  unfold Obligations.EveryTransactionIsAnsweredOnce
  refine ⟨fun s t rest hp => ?_, fun s i => ?_, fun s b w => rfl, fun s f => ?_⟩
  · obtain ⟨s', hstep, hpending, hend⟩ := step_answered hp
    rw [hp, List.tail_cons] at hpending hend
    exact ⟨s', hstep, hpending, hend⟩
  · obtain ⟨s', hexec, -, hend⟩ := exec_answered i s
    exact ⟨s', hexec, hend⟩
  · cases f <;> rfl

/-- 60_exceptions.md R278: a step has a next state, with a command on the port or without one. -/
theorem step_next (s : State) : ∃ s', step s = .next s' := by
  cases hp : s.pending with
  | nil => exact ⟨s, by simp only [step, hp]⟩
  | cons t rest =>
    obtain ⟨s', hstep, -⟩ := step_answered hp
    exact ⟨s', hstep⟩

/-- Settles O8, by induction on the number of steps. -/
theorem noRunStops : Obligations.NoRunStops := by
  unfold Obligations.NoRunStops
  intro n
  induction n with
  | zero => exact fun s => ⟨s, rfl⟩
  | succ n ih =>
    intro s
    obtain ⟨s', hstep⟩ := step_next s
    rw [run_succ_of_step hstep]
    exact ih s'

end Sys2Proof.Proofs
end

section
/-!
PROOF. Every binary64 value of the state stays finite (60_exceptions.md R279). The property is split into the parts of the
block; each command writes one part, with values it has checked, with zeros, or with the presets. The one value no
command checks is the AGC's new gain (R188): it is finite because the peak it is divided by is above the threshold (R191).
-/

namespace Sys2Proof.Proofs

-- One theorem is elaborated at a time, as in the tests: each further thread takes its own share of the memory limit.
set_option Elab.async false

open Sys2Proof Sys2Proof.Machine Sys2Proof.Safety

/-! ## Values that are not negative -/

theorem finiteNonneg_iff {v : F64} : FiniteNonneg v ↔ fIsFinite v = true ∧ (fSign v = false ∨ fMag v = 0) :=
  and_congr_right fun hv => by rw [fLe_iff fIsFinite_zero hv, fKey_zero, fKey_nonneg_iff]

theorem finiteNonneg_fAbs {x : F64} (hx : fIsFinite x = true) : FiniteNonneg (fAbs x) :=
  finiteNonneg_iff.2 ⟨(fIsFinite_fAbs x).trans hx, .inl (fSign_fAbs x)⟩

theorem finiteNonneg_fMax {x y : F64} (hx : FiniteNonneg x) (hy : FiniteNonneg y) : FiniteNonneg (fMax x y) := by
  unfold fMax
  split
  · exact hy
  · exact hx

/-- A finite quotient by a positive value has the sign of its dividend. -/
theorem finiteNonneg_fDiv {x y : F64} (hx : FiniteNonneg x) (hy : fIsFinite y = true) (hpos : fLt 0#64 y = true)
    (hquotient : fIsFinite (fDiv x y) = true) : FiniteNonneg (fDiv x y) := by
  have h0 : fMag y ≠ 0 := fMag_ne_zero_of_pos hy hpos
  rw [fLt_iff fIsFinite_zero hy, fKey_zero] at hpos
  obtain ⟨hfinite, hsign | hzero⟩ := finiteNonneg_iff.1 hx
  · refine finiteNonneg_iff.2 ⟨hquotient, .inl ?_⟩
    rw [fDiv_finite_eq hfinite hy h0, fSign_fPack, hsign, (pos_of_fKey_pos hpos).1]
    rfl
  · exact finiteNonneg_iff.2 ⟨hquotient, .inr (fMag_fDiv_of_zero hzero hy h0)⟩

/-! ## The AGC (R191) -/

/-- The invariant of the AGC, and the finiteness of the two values it does not speak of. -/
structure AgcSound (a : Agc) : Prop extends AgcOk a where
  threshold : fIsFinite a.threshold = true
  history : fIsFinite a.peakHistory = true

section
variable {a : Agc} (ha : AgcSound a)
include ha

/-- 44_level_agc.md R187: the peak is a magnitude. -/
theorem AgcSound.tracked {x : F64} (hx : fIsFinite x = true) : AgcSound (trackedAgc x a) where
  gain := ha.gain
  peak := finiteNonneg_fMax ha.peak (finiteNonneg_fAbs hx)
  target := ha.target
  configured := ha.configured
  threshold := ha.threshold
  history := ha.history

/-- R191: the target is divided by the threshold, or by a peak above it, which gives no larger quotient. -/
theorem AgcSound.nextGain (hcfg : a.cfg = true) : FiniteNonneg a.nextGain := by
  obtain ⟨hpos, hquotient⟩ := ha.configured hcfg
  unfold Agc.nextGain
  split
  next habove =>
    have hpeak : 0 < fKey a.currentPeak := fKey_pos_of_above ha.threshold ha.peak.1 hpos habove
    have hle : fMag a.threshold ≤ fMag a.currentPeak := by
      rw [fLt_iff ha.threshold ha.peak.1] at habove
      rw [fLt_iff fIsFinite_zero ha.threshold, fKey_zero] at hpos
      rw [fKey_of_pos (pos_of_fKey_pos hpos).1, fKey_of_pos (pos_of_fKey_pos hpeak).1] at habove
      omega
    have hsmaller := fMag_fDiv_anti ha.target.1 ha.threshold ha.peak.1 (fMag_ne_zero_of_pos ha.threshold hpos) hle
    exact finiteNonneg_fDiv ha.target ha.peak.1 (by rwa [fLt_iff fIsFinite_zero ha.peak.1, fKey_zero])
      (finite_of_mag_le hsmaller hquotient)
  next => exact finiteNonneg_fDiv ha.target ha.threshold hpos hquotient

/-- R188: the new gain, the peak moved to the history, an empty window. -/
theorem AgcSound.closed (hcfg : a.cfg = true) : AgcSound (closedAgc a) where
  gain := ha.nextGain hcfg
  peak := finiteNonneg_zero
  target := ha.target
  configured := ha.configured
  threshold := ha.threshold
  history := ha.peak.1

end

/-! ## The parts of the block -/

/-- 20_memory.md R60: the taps and the ring of a filter, as far as its length makes them valid. -/
def FirFinite (f : Fir) : Prop :=
  (∀ i < f.l, fIsFinite (f.tap.read i) = true) ∧ ∀ i < 2 * f.l, fIsFinite (f.ring.read i) = true

/-- 10_state.md R35: the four energies. -/
def AccFinite (a : VisAcc) : Prop :=
  fIsFinite a.leaderEnergy = true ∧ fIsFinite a.markEnergy = true ∧ fIsFinite a.spaceEnergy = true ∧
    fIsFinite a.syncEnergy = true

/-- 10_state.md R31: the three thresholds. -/
def LevelsFinite (y : Sync) : Prop :=
  fIsFinite y.sLvl = true ∧ fIsFinite y.sLvl2 = true ∧ fIsFinite y.sLvl3 = true

/-- 45_sync_decoder.md R201, R209: what the decoder holds of binary64 values. -/
def SyncFinite (y : Sync) : Prop := LevelsFinite y ∧ AccFinite y.acc

/-- 10_state.md R38. -/
def DiagFinite (d : Diag) : Prop :=
  fIsFinite d.tap0 = true ∧ fIsFinite d.tap1 = true ∧ fIsFinite d.tap2 = true ∧ ∀ u, fIsFinite (d.env.get u) = true

/-- The invariant of the statement, part by part. -/
structure PartsSound (b : Block) : Prop where
  fir : FirFinite b.fir
  res : ∀ u, ResFinite (b.res.get u)
  bq : ∀ u, BqFinite (b.bq.get u)
  agc : AgcSound b.agc
  sync : SyncFinite b.sync
  diag : DiagFinite b.diag

theorem partsSound_iff {b : Block} : PartsSound b ↔ AllFinite b ∧ AgcOk b.agc := by
  constructor
  · rintro ⟨⟨htap, hring⟩, hres, hbq, hagc, ⟨hlevels, hacc⟩, hdiag⟩
    exact ⟨⟨htap, hring, hres, hbq, ⟨hagc.target.1, hagc.threshold, hagc.peak.1, hagc.history, hagc.gain.1⟩, hlevels,
      hacc, hdiag⟩, hagc.toAgcOk⟩
  · rintro ⟨⟨htap, hring, hres, hbq, ⟨-, hthreshold, -, hhistory, -⟩, hlevels, hacc, hdiag⟩, hok⟩
    exact ⟨⟨htap, hring⟩, hres, hbq, ⟨hok, hthreshold, hhistory⟩, ⟨hlevels, hacc⟩, hdiag⟩

section
variable {b : Block} (hb : PartsSound b)
include hb

/-- `ARG` and `OB` hold bits: nothing is asked of them. -/
theorem PartsSound.of_same {b' : Block} (hfir : b'.fir = b.fir) (hres : b'.res = b.res) (hbq : b'.bq = b.bq)
    (hagc : b'.agc = b.agc) (hsync : b'.sync = b.sync) (hdiag : b'.diag = b.diag) : PartsSound b' where
  fir := hfir ▸ hb.fir
  res := hres ▸ hb.res
  bq := hbq ▸ hb.bq
  agc := hagc ▸ hb.agc
  sync := hsync ▸ hb.sync
  diag := hdiag ▸ hb.diag

theorem PartsSound.withFir {f : Fir} (hf : FirFinite f) : PartsSound (b.withFir f) := { hb with fir := hf }

theorem PartsSound.withRes {u : ToneUnit} {r : Resonator} (hr : ResFinite r) : PartsSound (b.withRes u r) :=
  { hb with res := forall_get_set (P := fun _ => ResFinite) hr hb.res }

theorem PartsSound.withBq {u : ToneUnit} {q : Biquad} (hq : BqFinite q) : PartsSound (b.withBq u q) :=
  { hb with bq := forall_get_set (P := fun _ => BqFinite) hq hb.bq }

theorem PartsSound.withAgc {a : Agc} (ha : AgcSound a) : PartsSound (b.withAgc a) := { hb with agc := ha }

theorem PartsSound.withSync {y : Sync} (hy : SyncFinite y) : PartsSound (b.withSync y) := { hb with sync := hy }

theorem PartsSound.withDiag {d : Diag} (hd : DiagFinite d) : PartsSound (b.withDiag d) := { hb with diag := hd }

end

/-! ## The filters -/

/-- 43_circular_fir.md R171: the taps are the checked cells of the operand buffer, the ring is zero. -/
theorem firFinite_createdFir {b : Block} (h : ∀ i < b.obLen, fIsFinite (b.ob.read i) = true) :
    FirFinite (createdFir b) := by
  refine ⟨fun i hi => ?_, fun i hi => ?_⟩
  · rw [tap_createdFir hi]
    exact h i hi
  · rw [ring_createdFir hi]
    exact fIsFinite_zero

/-- R172: the ring takes the checked sample. -/
theorem FirFinite.firAfter {f : Fir} (hf : FirFinite f) {x : F64} (hx : fIsFinite x = true) :
    FirFinite (firAfter f x) := by
  obtain ⟨htap, hring⟩ := hf
  refine ⟨htap, fun i hi => ?_⟩
  rw [firAfter_ring, record_read]
  split
  · exact hx
  · exact hring i hi

/-- 42_biquad_cascade.md R156: the coefficients are the checked cells of the operand buffer, the state is zero. -/
theorem bqFinite_loadedCascade {b : Block} (h : ∀ i < b.obLen, fIsFinite (b.ob.read i) = true) (u : ToneUnit) :
    BqFinite (loadedCascade u b) := by
  have horder : (loadedCascade u b).order = orderOfLength b.obLen := rfl
  refine ⟨fun i hi => ?_, fun i hi => ?_⟩
  · have hlt : i < b.obLen := by
      rw [horder, orderOfLength] at hi
      omega
    rw [coef_loadedCascade hlt]
    exact h i hlt
  · rw [z_loadedCascade (by omega)]
    exact fIsFinite_zero

/-! ## A tick of the decoder -/

theorem accFinite_cleared : AccFinite VisAcc.cleared := by unfold AccFinite; decide

/-- 45_sync_decoder.md R209: what a bit decision leaves of the accumulator, whatever the bit. -/
theorem acc_decideBit (le sy ma sp : F64) (y : Sync) :
    (decideBit le sy ma sp y).acc = VisAcc.cleared ∨ (decideBit le sy ma sp y).acc = withBit y.acc le sy ma sp := by
  unfold decideBit finishByte
  simp only
  split
  · exact .inl rfl
  · split
    · split <;> exact .inl rfl
    · exact .inr rfl

/-- R204 to R213: a tick keeps the accumulator, clears it, or latches the four envelopes. -/
theorem acc_tick (le sy ma sp : F64) (y : Sync) : (tick le sy ma sp y).acc = y.acc ∨
    (tick le sy ma sp y).acc = VisAcc.cleared ∨ (tick le sy ma sp y).acc = withBit y.acc le sy ma sp := by
  unfold tick
  split
  case h_1 => exact .inl rfl
  case h_2 => unfold tickLeader; split <;> [exact .inl rfl; (split <;> exact .inl rfl)]
  case h_3 => unfold tickStart; split <;> [exact .inr (.inl rfl); exact .inl rfl]
  case h_4 => unfold tickVis; split <;> [exact .inr (acc_decideBit le sy ma sp y); exact .inl rfl]
  case h_5 => exact .inl rfl

/-- A tick on finite envelopes; the thresholds are no dynamic field. -/
theorem SyncFinite.tick {y : Sync} (hy : SyncFinite y) {le sy ma sp : F64}
    (hfinite : fIsFinite le = true ∧ fIsFinite sy = true ∧ fIsFinite ma = true ∧ fIsFinite sp = true) :
    SyncFinite (tick le sy ma sp y) := by
  obtain ⟨hlevels, hacc⟩ := hy
  obtain ⟨hle, hsy, hma, hsp⟩ := hfinite
  refine ⟨?_, ?_⟩
  · rw [show Machine.tick le sy ma sp y = _ from tick_dynamic le sy ma sp y]
    exact hlevels
  · rcases acc_tick le sy ma sp y with hkept | hcleared | hlatched
    · rwa [hkept]
    · rw [hcleared]
      exact accFinite_cleared
    · rw [hlatched]
      exact ⟨hle, hma, hsp, hsy⟩

/-! ## The commands -/

section
variable {b b' : Block} {w : Word} (hb : PartsSound b)
include hb

theorem firCreate_sound (h : firCreate b = .ok (b', w)) : PartsSound b' := by
  obtain ⟨-, hcells, ⟨⟩⟩ := firCreate_ok.1 h
  exact hb.withFir (firFinite_createdFir (forall_mem_obCells.1 hcells))

theorem firProc_sound {x : F64} (h : firProc x b = .ok (b', w)) : PartsSound b' := by
  obtain ⟨-, hx, -, ⟨⟩⟩ := firProc_ok.1 h
  exact hb.withFir (hb.fir.firAfter hx)

/-- 41_tone_resonator.md R141, R142: operands and coefficients are checked, the delays are zero. -/
theorem resTune_sound {u : ToneUnit} {f fs bw : F64} (h : resTune numerics u f fs bw b = .ok (b', w)) :
    PartsSound b' := by
  obtain ⟨⟨hf, -, hbw⟩, -, ⟨ha0, hb1, hb2⟩, ⟨⟩⟩ := resTune_ok.1 h
  exact hb.withRes ⟨hf, hbw, ha0, hb1, hb2, fIsFinite_zero, fIsFinite_zero⟩

/-- R143: the checked output goes into the delay line. -/
theorem resStep_sound {u : ToneUnit} {x : F64} (h : resStep u x b = .ok (b', w)) : PartsSound b' := by
  obtain ⟨-, -, hout, ⟨⟩⟩ := resStep_ok.1 h
  obtain ⟨hf, hbw, ha0, hb1, hb2, hz1, -⟩ := hb.res u
  exact hb.withRes ⟨hf, hbw, ha0, hb1, hb2, hout, hz1⟩

theorem bqBind_sound {u : ToneUnit} (h : bqBind u b = .ok (b', w)) : PartsSound b' := by
  obtain ⟨-, -, hcells, ⟨⟩⟩ := bqBind_ok.1 h
  exact hb.withBq (bqFinite_loadedCascade (forall_mem_obCells.1 hcells) u)

/-- 42_biquad_cascade.md R159: the new state is checked before it is committed. -/
theorem bqStep_sound {u : ToneUnit} {x : F64} (h : bqStep u x b = .ok (b', w)) : PartsSound b' := by
  obtain ⟨-, -, -, hcells, ⟨⟩⟩ := bqStep_ok.1 h
  exact hb.withBq ⟨(hb.bq u).1, fun i hi => hcells _ (Memory.mem_cells.2 ⟨i, hi, rfl⟩)⟩

/-- 44_level_agc.md R186: the settings are checked, the gain is the block's legal `AGC_GAIN_INIT`. -/
theorem agcSetup_sound (hgain : FiniteNonneg b.params.agcGainInit) {target thr : F64} {window : Word}
    (h : agcSetup target thr window b = .ok (b', w)) : PartsSound b' := by
  obtain ⟨⟨htarget, hthr⟩, hnonneg, hpos, hquotient, win, -, ⟨⟩⟩ := agcSetup_ok.1 h
  exact hb.withAgc ⟨⟨hgain, finiteNonneg_zero, ⟨htarget, hnonneg⟩, fun _ => ⟨hpos, hquotient⟩⟩, hthr, fIsFinite_zero⟩

theorem agcTrack_sound {x : F64} (h : agcTrack x b = .ok (b', w)) : PartsSound b' := by
  obtain ⟨-, hx, ⟨⟩⟩ := agcTrack_ok.1 h
  exact hb.withAgc (hb.agc.tracked hx)

theorem agcUpdate_sound (h : agcUpdate b = .ok (b', w)) : PartsSound b' := by
  obtain ⟨hcfg, ⟨⟩⟩ := agcUpdate_ok.1 h
  exact hb.withAgc (hb.agc.closed hcfg)

/-- 45_sync_decoder.md R201: every preset is finite. -/
theorem syncPreset_sound {imm : BitVec 16} (h : syncPreset preset imm b = .ok (b', w)) : PartsSound b' := by
  obtain ⟨p, -, ⟨⟩⟩ := syncPreset_ok.1 h
  exact hb.withSync ⟨⟨preset_finite _ _, preset_finite _ _, preset_finite _ _⟩, hb.sync.2⟩

theorem syncTiming_sound {imm : BitVec 16} {ticks : Word} (h : syncTiming imm ticks b = .ok (b', w)) :
    PartsSound b' := by
  obtain ⟨r, t, -, -, ⟨⟩⟩ := syncTiming_ok.1 h
  refine hb.withSync ?_
  cases r <;> exact hb.sync

theorem syncTick_sound {le sy ma sp : F64} (h : syncTick le sy ma sp b = .ok (b', w)) : PartsSound b' := by
  obtain ⟨-, -, hfinite, ⟨⟩⟩ := syncTick_ok.1 h
  exact hb.withSync (hb.sync.tick hfinite)

/-! ## The sample step (46_pipeline_and_host.md R246) -/

/-- The clip needs no check of its own: the filter checks the sample it is given. -/
theorem stageClip_sound {x : F64} (hx : fIsFinite (clip b.clipLevel x) = true) : PartsSound (stageClip x b) := by
  obtain ⟨-, htap1, htap2, henv⟩ := hb.diag
  exact { hb with diag := ⟨hx, htap1, htap2, henv⟩ }

theorem stageFir_sound {x : F64} (h : stageFir x b = .ok (b', w)) : PartsSound b' := by
  obtain ⟨b1, y, hproc, ⟨⟩⟩ := stageFir_ok.1 h
  have hb1 := firProc_sound hb hproc
  obtain ⟨-, -, hout, ⟨⟩⟩ := firProc_ok.1 hproc
  obtain ⟨htap0, -, htap2, henv⟩ := hb1.diag
  exact hb1.withDiag ⟨htap0, hout, htap2, henv⟩

theorem stageAgc_sound {x : F64} (h : stageAgc x b = .ok (b', w)) : PartsSound b' := by
  obtain ⟨b1, w1, b2, w2, b3, y, htrack, hwindow, happly, ⟨⟩⟩ := stageAgc_ok.1 h
  have hb1 := agcTrack_sound hb htrack
  have hb2 : PartsSound b2 := by
    split at hwindow
    · exact agcUpdate_sound hb1 hwindow
    · cases hwindow
      exact hb1
  obtain ⟨-, -, hout, ⟨⟩⟩ := agcApply_ok.1 happly
  obtain ⟨htap0, htap1, -, henv⟩ := hb2.diag
  exact hb2.withDiag ⟨htap0, htap1, hout, henv⟩

theorem stageTone_sound {u : ToneUnit} {x : F64} (h : stageTone u x b = .ok (b', w)) : PartsSound b' := by
  obtain ⟨b1, r, b2, e, hres, hbq, ⟨⟩⟩ := stageTone_ok.1 h
  have hb2 := bqStep_sound (resStep_sound hb hres) hbq
  obtain ⟨-, -, hout, -, ⟨⟩⟩ := bqStep_ok.1 hbq
  obtain ⟨htap0, htap1, htap2, henv⟩ := hb2.diag
  exact hb2.withDiag ⟨htap0, htap1, htap2, forall_get_set (P := fun _ v => fIsFinite v = true) hout henv⟩

theorem pipeSample_sound {x : F64} (h : pipeSample x b = .ok (b', w)) : PartsSound b' := by
  obtain ⟨-, -, b1, x2, b2, x3, hfir, hagc, htones⟩ := pipeSample_ok.1 h
  obtain ⟨b3, le, b4, sy, b5, ma, b6, sp, hle, hsy, hma, hsp, htick⟩ := stageTones_ok.1 htones
  obtain ⟨b0, y, hproc, -⟩ := stageFir_ok.1 hfir
  obtain ⟨-, hclipped, -⟩ := firProc_ok.1 hproc
  have hlevel := stageAgc_sound (stageFir_sound (stageClip_sound hb hclipped) hfir) hagc
  have htwo := stageTone_sound (stageTone_sound hlevel hle) hsy
  exact syncTick_sound (stageTone_sound (stageTone_sound htwo hma) hsp) htick

/-! ## Every step -/

/-- Each executed command: the ones that write none of these parts by their write sets. -/
theorem partsSound_of_effect (hgain : FiniteNonneg b.params.agcGainInit) {i : Instr}
    (h : effect i b = .ok (b', w)) : PartsSound b' := by
  have hwrites := writeSet_of_effect h
  cases i with
  | argSet | obClear | obPush | firDesign | iirDesign =>
    rw [hwrites.1]
    exact hb.of_same rfl rfl rfl rfl rfl rfl
  | obRead | regRead | agcApply =>
    rw [show b' = b from hwrites]
    exact hb
  | firCreate => exact firCreate_sound hb h
  | firProc x => exact firProc_sound hb h
  | resSetfreq u => obtain ⟨t, -, htune⟩ := withUnit_ok.1 h; exact resTune_sound hb htune
  | resProc u x => obtain ⟨t, -, hstep⟩ := withUnit_ok.1 h; exact resStep_sound hb hstep
  | bqLoad u => obtain ⟨t, -, hbind⟩ := withUnit_ok.1 h; exact bqBind_sound hb hbind
  | bqProc u x => obtain ⟨t, -, hstep⟩ := withUnit_ok.1 h; exact bqStep_sound hb hstep
  | agcConfig window => exact agcSetup_sound hb hgain h
  | agcTrack x => exact agcTrack_sound hb h
  | agcUpdate => exact agcUpdate_sound hb h
  | syncPreset imm => exact syncPreset_sound hb h
  | syncTiming imm ticks => exact syncTiming_sound hb h
  | syncStep => exact syncTick_sound hb h
  | syncReset => cases h; exact hb.withSync ⟨hb.sync.1, accFinite_cleared⟩
  | pipeSampleI16 imm => exact pipeSample_sound hb h
  | pipeSampleF64 x => exact pipeSample_sound hb h
  | pipeReset => cases h; exact partsSound_iff.2 ⟨allFinite_resetWith hgain.1, agcOk_reset hgain⟩

end

/-! ## The answers of the processing commands -/

/-- `RDATA` of a command is the result of its effect, or 0 (60_exceptions.md R266). -/
theorem rdata_cases {i : Instr} {s t : State} (h : exec i s = .next t) :
    (∃ b, effect i s.block = .ok (b, t.rdata)) ∨ t.rdata = 0#64 := by
  rw [exec_eq_complete] at h
  rcases State.complete_eq_next h with ⟨b, w, hok, rfl⟩ | ⟨f, -, rfl⟩
  · exact .inl ⟨b, hok⟩
  · exact .inr rfl

/-- R279: each of the four checks its output before it is executed. -/
theorem finite_of_processed {i : Instr} {b b' : Block} {w : Word}
    (hi : (∃ x, i = .firProc x) ∨ (∃ u x, i = .resProc u x) ∨ (∃ u x, i = .bqProc u x) ∨ ∃ x, i = .agcApply x)
    (h : effect i b = .ok (b', w)) : fIsFinite w = true := by
  rcases hi with ⟨x, rfl⟩ | ⟨u, x, rfl⟩ | ⟨u, x, rfl⟩ | ⟨x, rfl⟩
  · obtain ⟨-, -, hout, ⟨⟩⟩ := firProc_ok.1 h
    exact hout
  · obtain ⟨t, -, hstep⟩ := withUnit_ok.1 h
    obtain ⟨-, -, hout, ⟨⟩⟩ := resStep_ok.1 hstep
    exact hout
  · obtain ⟨t, -, hstep⟩ := withUnit_ok.1 h
    obtain ⟨-, -, hout, -, ⟨⟩⟩ := bqStep_ok.1 hstep
    exact hout
  · obtain ⟨-, -, hout, ⟨⟩⟩ := agcApply_ok.1 h
    exact hout

/-- Settles O58: a step that executes a command keeps every part of the invariant, and every other step keeps the block;
an executed processing command returns a checked value, a fault returns 0. -/
theorem valuesStayFinite : Obligations.ValuesStayFinite := by
  unfold Obligations.ValuesStayFinite
  refine ⟨fun s t hp hfinite hagc h => ?_, fun i s t hi h => ?_⟩
  · rcases block_of_step h with hkept | ⟨i, w, hok⟩
    · rw [hkept]
      exact ⟨hfinite, hagc⟩
    · exact partsSound_iff.1 (partsSound_of_effect (partsSound_iff.2 ⟨hfinite, hagc⟩) hp.agcGainInit hok)
  · rcases rdata_cases h with ⟨b, hok⟩ | hzero
    · exact finite_of_processed hi hok
    · rw [hzero]
      exact fIsFinite_zero

end Sys2Proof.Proofs
end
